-- ==== Sys2Proof/Word.lean ====
section
/-! DEFINITION. The word types of huffcore and the fields of a word (00_scope.md R8). -/

namespace Sys2Proof

/-- A byte: a symbol, a code length, a buffer entry (00_scope.md R14). -/
abbrev Byte := BitVec 8

/-- A host bus word and a command word: 32 bits (00_scope.md R7; 30_encoding.md R61). -/
abbrev Word := BitVec 32

/-- A 64-bit value: counters, weights, codes, ARG, RES, PLEN (00_scope.md R7). -/
abbrev Dword := BitVec 64

/-- A host bus byte address: 26 bits (00_scope.md R7; 20_memory.md R46). -/
abbrev Addr := BitVec 26

end Sys2Proof
end

