-- ==== Sys2Proof/Syntax.lean ====
section
/-! DEFINITION. The commands of huffcore: one constructor per row of the opcode table (30_encoding.md R64). -/

namespace Sys2Proof

/-- The three command formats (30_encoding.md R62). -/
inductive Format where
  /-- N: no operand, the A field must be 0. -/
  | noOperand
  /-- S: the A field is a symbol or a byte value, 0..255. -/
  | symbol
  /-- L: the A field is a bit count, 0..64. -/
  | bitCount
  deriving DecidableEq, Repr

/-- A command. The argument, where there is one, is the A field of the word (30_encoding.md R63). -/
inductive Instr where
  /-- NOP (44_control.md R126). -/
  | nop
  /-- CLEAR (44_control.md R127). -/
  | clear
  /-- FREQ_INC sym (40_tree_builder.md R74). -/
  | freqInc (sym : Byte)
  /-- FREQ_SCAN (40_tree_builder.md R75). -/
  | freqScan
  /-- BUILD (40_tree_builder.md R76). -/
  | build
  /-- WALK (41_canonical_code_generator.md R85). -/
  | walk
  /-- CANON (41_canonical_code_generator.md R88). -/
  | canon
  /-- PUT_BITS n (42_bitstream_packer.md R102). -/
  | putBits (n : Byte)
  /-- PUT_BYTE byte (42_bitstream_packer.md R103). -/
  | putByte (byte : Byte)
  /-- FLUSH (42_bitstream_packer.md R104). -/
  | flush
  /-- ENC_SYM sym (42_bitstream_packer.md R105). -/
  | encSym (sym : Byte)
  /-- ENC_SCAN (42_bitstream_packer.md R106). -/
  | encScan
  /-- HDR_WRITE (42_bitstream_packer.md R107). -/
  | hdrWrite
  /-- GET_BITS n (42_bitstream_packer.md R109). -/
  | getBits (n : Byte)
  /-- GET_BYTE (42_bitstream_packer.md R110). -/
  | getByte
  /-- HDR_READ (43_decoder_trie_walker.md R115). -/
  | hdrRead
  /-- TRIE_BUILD (43_decoder_trie_walker.md R121). -/
  | trieBuild
  /-- DEC_SYM (43_decoder_trie_walker.md R123). -/
  | decSym
  /-- DECODE (43_decoder_trie_walker.md R124). -/
  | decode
  deriving DecidableEq, Repr

end Sys2Proof
end

