-- ==== Sys2Proof/WellFormed.lean ====
section
/-! DEFINITION. Which commands a command word can express. -/

namespace Sys2Proof

/-- The largest bit count a format L command takes (30_encoding.md R62). -/
def maxBitCount : Nat := 64

/-- The operand check of 30_encoding.md R65 item 3 on the syntax: a bit count is at most 64. Format S accepts
every operand, and format N has none. -/
def wellFormed : Instr → Bool
  | .putBits n => n.toNat ≤ maxBitCount
  | .getBits n => n.toNat ≤ maxBitCount
  | .nop | .clear | .freqInc _ | .freqScan | .build | .walk | .canon | .putByte _ | .flush | .encSym _
  | .encScan | .hdrWrite | .getByte | .hdrRead | .trieBuild | .decSym | .decode => true

end Sys2Proof
end

