-- ==== Sys2Proof/Decode.lean ====
section
/-! DEFINITION. Decoding and encoding of command words (30_encoding.md). -/

namespace Sys2Proof

/-- Why a command word is illegal (30_encoding.md R65). -/
inductive Illegal where
  /-- Item 1: `OP` is not in the opcode table. -/
  | unassignedOp
  /-- Item 2: `RSV` is not 0. -/
  | reservedNotZero
  /-- Item 3: an operand where the format has none, or a bit count above 64. -/
  | operandOutOfRange
  deriving DecidableEq, Repr

/-- The `info` of ILLEGAL_COMMAND (30_encoding.md R65; 60_exceptions.md R130). -/
def illegalInfo : Illegal → Word
  | .unassignedOp => 1
  | .reservedNotZero => 2
  | .operandOutOfRange => 3

/-- Field `OP`, bits 7:0 (30_encoding.md R61). -/
def opField (w : Word) : Byte := w.extractLsb' 0 8

/-- Field `A`, bits 15:8 (30_encoding.md R61). -/
def operandField (w : Word) : Byte := w.extractLsb' 8 8

/-- Field `RSV`, bits 31:16 (30_encoding.md R61). -/
def reservedField (w : Word) : BitVec 16 := w.extractLsb' 16 16

/-- The opcode map (30_encoding.md R64): the format of an assigned opcode and its command with operand `a`. -/
def assigned (op a : Byte) : Option (Format × Instr) :=
  match op.toNat with
  | 0x00 => some (.noOperand, .nop)
  | 0x01 => some (.noOperand, .clear)
  | 0x10 => some (.symbol, .freqInc a)
  | 0x11 => some (.noOperand, .freqScan)
  | 0x20 => some (.noOperand, .build)
  | 0x30 => some (.noOperand, .walk)
  | 0x31 => some (.noOperand, .canon)
  | 0x40 => some (.bitCount, .putBits a)
  | 0x41 => some (.symbol, .putByte a)
  | 0x42 => some (.noOperand, .flush)
  | 0x43 => some (.symbol, .encSym a)
  | 0x44 => some (.noOperand, .encScan)
  | 0x45 => some (.noOperand, .hdrWrite)
  | 0x50 => some (.bitCount, .getBits a)
  | 0x51 => some (.noOperand, .getByte)
  | 0x52 => some (.noOperand, .hdrRead)
  | 0x53 => some (.noOperand, .trieBuild)
  | 0x54 => some (.noOperand, .decSym)
  | 0x55 => some (.noOperand, .decode)
  | _ => none

/-- The legal operands of a format (30_encoding.md R62). -/
def operandLegal (f : Format) (a : Byte) : Bool :=
  match f with
  | .noOperand => a == 0
  | .symbol => true
  | .bitCount => a.toNat ≤ maxBitCount

/-- Decoding, total on all `2^32` words, with the checks of 30_encoding.md R65 in their order. -/
def decode (w : Word) : Except Illegal Instr :=
  match assigned (opField w) (operandField w) with
  | none => .error .unassignedOp
  | some (f, i) =>
    if reservedField w ≠ 0 then .error .reservedNotZero
    else if operandLegal f (operandField w) then .ok i
    else .error .operandOutOfRange

/-- One row of spec/opcode_table.json: the word matches when `(w & mask) = match` (30_encoding.md R66). -/
structure OpcodeRow where
  mnemonic : String
  format : Format
  pattern : Word
  mask : Word
  deriving DecidableEq, Repr

/-- spec/opcode_table.json. -/
def opcodeTable : List OpcodeRow :=
  [ ⟨"NOP", .noOperand, 0x00000000, 0xFFFFFFFF⟩,
    ⟨"CLEAR", .noOperand, 0x00000001, 0xFFFFFFFF⟩,
    ⟨"FREQ_INC", .symbol, 0x00000010, 0xFFFF00FF⟩,
    ⟨"FREQ_SCAN", .noOperand, 0x00000011, 0xFFFFFFFF⟩,
    ⟨"BUILD", .noOperand, 0x00000020, 0xFFFFFFFF⟩,
    ⟨"WALK", .noOperand, 0x00000030, 0xFFFFFFFF⟩,
    ⟨"CANON", .noOperand, 0x00000031, 0xFFFFFFFF⟩,
    ⟨"PUT_BITS", .bitCount, 0x00000040, 0xFFFF00FF⟩,
    ⟨"PUT_BYTE", .symbol, 0x00000041, 0xFFFF00FF⟩,
    ⟨"FLUSH", .noOperand, 0x00000042, 0xFFFFFFFF⟩ ] ++
  [ ⟨"ENC_SYM", .symbol, 0x00000043, 0xFFFF00FF⟩,
    ⟨"ENC_SCAN", .noOperand, 0x00000044, 0xFFFFFFFF⟩,
    ⟨"HDR_WRITE", .noOperand, 0x00000045, 0xFFFFFFFF⟩,
    ⟨"GET_BITS", .bitCount, 0x00000050, 0xFFFF00FF⟩,
    ⟨"GET_BYTE", .noOperand, 0x00000051, 0xFFFFFFFF⟩,
    ⟨"HDR_READ", .noOperand, 0x00000052, 0xFFFFFFFF⟩,
    ⟨"TRIE_BUILD", .noOperand, 0x00000053, 0xFFFFFFFF⟩,
    ⟨"DEC_SYM", .noOperand, 0x00000054, 0xFFFFFFFF⟩,
    ⟨"DECODE", .noOperand, 0x00000055, 0xFFFFFFFF⟩ ]

/-- A row matches a word (30_encoding.md R66). -/
def rowMatches (r : OpcodeRow) (w : Word) : Bool :=
  (w &&& r.mask) == r.pattern && (r.format != .bitCount || decide ((operandField w).toNat ≤ maxBitCount))

/-- The mnemonic of a command (30_encoding.md R64). -/
def mnemonicOf : Instr → String
  | .nop => "NOP"
  | .clear => "CLEAR"
  | .freqInc _ => "FREQ_INC"
  | .freqScan => "FREQ_SCAN"
  | .build => "BUILD"
  | .walk => "WALK"
  | .canon => "CANON"
  | .putBits _ => "PUT_BITS"
  | .putByte _ => "PUT_BYTE"
  | .flush => "FLUSH"
  | .encSym _ => "ENC_SYM"
  | .encScan => "ENC_SCAN"
  | .hdrWrite => "HDR_WRITE"
  | .getBits _ => "GET_BITS"
  | .getByte => "GET_BYTE"
  | .hdrRead => "HDR_READ"
  | .trieBuild => "TRIE_BUILD"
  | .decSym => "DEC_SYM"
  | .decode => "DECODE"

/-- The opcode of a command (30_encoding.md R64). -/
def opcodeOf : Instr → Byte
  | .nop => 0x00
  | .clear => 0x01
  | .freqInc _ => 0x10
  | .freqScan => 0x11
  | .build => 0x20
  | .walk => 0x30
  | .canon => 0x31
  | .putBits _ => 0x40
  | .putByte _ => 0x41
  | .flush => 0x42
  | .encSym _ => 0x43
  | .encScan => 0x44
  | .hdrWrite => 0x45
  | .getBits _ => 0x50
  | .getByte => 0x51
  | .hdrRead => 0x52
  | .trieBuild => 0x53
  | .decSym => 0x54
  | .decode => 0x55

/-- The A field of a command: its operand, 0 where the format has none (30_encoding.md R61, R62). -/
def operandOf : Instr → Byte
  | .freqInc sym => sym
  | .putBits n => n
  | .putByte byte => byte
  | .encSym sym => sym
  | .getBits n => n
  | .nop | .clear | .freqScan | .build | .walk | .canon | .flush | .encScan | .hdrWrite | .getByte
  | .hdrRead | .trieBuild | .decSym | .decode => 0

/-- The word of a command, `{16'b0, A[7:0], OP[7:0]}` (30_encoding.md R68). -/
def encode (i : Instr) : Word := 0#16 ++ operandOf i ++ opcodeOf i

/-- The word the opcode table numbers `w` with `nbits` given bits: the bits above `nbits` are 0. A command is one
32-bit word (30_encoding.md R67), so there is nothing to lay out. -/
def tableWord (nbits w : Nat) : Word := BitVec.ofNat 32 (w % 2 ^ nbits)

/-- The command the decoder reads from the word `w` of `nbits` bits, none where it refuses. -/
def decodeTableWord (nbits w : Nat) : Option Instr :=
  match decode (tableWord nbits w) with
  | .ok i => some i
  | .error _ => none

end Sys2Proof
end

