-- ==== Sys2Proof/Config.lean ====
section
/-! DEFINITION. What one huffcore fixes (00_scope.md R7) and the values the spec leaves unspecified
(93_implementation_defined.md U6 to U11). -/

namespace Sys2Proof

/-- The OPEN parameters of a huffcore (00_scope.md R7). They are arguments of the model: `State` carries them,
as the capability registers CAP_IN, CAP_OUT and CAP_MAXLEN that no step writes (10_state.md R32). -/
structure Config where
  /-- `IBUF_BYTES`. -/
  ibufBytes : Nat
  /-- `OBUF_BYTES`. -/
  obufBytes : Nat
  /-- `MAX_CODE_LEN`. -/
  maxCodeLen : Nat
  deriving DecidableEq, Repr

/-- The ranges of the parameters (00_scope.md R7). -/
def Config.wf (c : Config) : Bool :=
  decide (1 ≤ c.ibufBytes) && decide (c.ibufBytes ≤ 2 ^ 24) &&
  decide (1 ≤ c.obufBytes) && decide (c.obufBytes ≤ 2 ^ 24) &&
  decide (1 ≤ c.maxCodeLen) && decide (c.maxCodeLen ≤ 63)

/-- The parameters of the machine that `State.reset` resets. `MAX_CODE_LEN = 58` is the spec's default.
DESIGN CHOICE (log 1, unsafe for a statement about `State.reset` alone): both buffers have the largest size the
spec allows. -/
def Config.chosen : Config := { ibufBytes := 2 ^ 24, obufBytes := 2 ^ 24, maxCodeLen := 58 }

/-- The largest counter and weight, `2^64 - 1` (00_scope.md R7, `W_FREQ`). -/
def maxCount : Dword := BitVec.allOnes 64

/-- Which piece of state an unspecified value is drawn for. -/
inductive FreeSlot where
  | nodeKind | nodeSym | nodeChild0 | nodeChild1 | nodeW | root | nnodes
  | code | hist | syms | nsym | maxlen
  | trieLeaf | trieSym | trieChild0 | trieChild1 | tnodes
  | freq | len | res | plen
  | inPos | rAcc | rLeft
  | outLen | wAcc | wCnt
  | ibuf | obuf
  | busRead
  deriving DecidableEq, Repr

/-- The unspecified values: draw number, piece of state, index within it. No body that a proof could see: a
statement holds whatever these values are (10_state.md R45; log 4, safe). -/
opaque Config.free : Nat → FreeSlot → Nat → Dword

end Sys2Proof
end

