-- ==== Sys2Proof/Machine/Table.lean ====
section
/-! DEFINITION. Indexed table memories (00_scope.md R10): reading and writing one entry, filling a table, and listing
a table by symbol. They are Vector operations written on the underlying list, which the kernel evaluates quickly;
`Sys2Proof/Laws/Table.lean` says what they equal. -/

namespace Sys2Proof.Machine

/-- A table of `n` entries. -/
abbrev Table (α : Type) (n : Nat) := Vector α n

/-- `T[i]`. -/
def tblGet {α : Type} {n : Nat} (t : Table α n) (i : Fin n) : α :=
  t.toArray.toList.get (i.cast (by simp))

/-- `T[i] <- x`. -/
def tblSet {α : Type} {n : Nat} (t : Table α n) (i : Fin n) (x : α) : Table α n :=
  ⟨⟨t.toArray.toList.set i x⟩, by simp⟩

/-- The table whose entry `i` is `f i`. -/
def tblOf {α : Type} (n : Nat) (f : Nat → α) : Table α n :=
  ⟨⟨(List.range n).map f⟩, by simp⟩

/-- A symbol as a table index. -/
def byteIndex (s : Byte) : Fin 256 := ⟨s.toNat, s.isLt⟩

/-- `T[s]` for a symbol `s`. -/
def symGet {α : Type} (t : Table α 256) (s : Byte) : α := tblGet t (byteIndex s)

/-- `T[s] <- x` for a symbol `s`. -/
def symSet {α : Type} (t : Table α 256) (s : Byte) (x : α) : Table α 256 := tblSet t (byteIndex s) x

/-- The symbols in ascending order. -/
def allSymbols : List Byte := (List.range 256).map (BitVec.ofNat 8)

/-- Every symbol with its entry, in ascending order of the symbol. -/
def symEntries {α : Type} (t : Table α 256) : List (Byte × α) := allSymbols.zip t.toArray.toList

/-- `T[i] <- x_0; T[i+1] <- x_1; ...` for a list of entries, up to the end of the table. -/
def tblSetFrom {α : Type} {n : Nat} : Nat → List α → Table α n → Table α n
  | _, [], t => t
  | i, x :: xs, t => if h : i < n then tblSetFrom (i + 1) xs (tblSet t ⟨i, h⟩ x) else t

end Sys2Proof.Machine
end

