-- ==== Sys2Proof/Machine/Units.lean ====
section
/-! DEFINITION. The pieces of state, grouped by the unit that owns them (10_state.md). -/

namespace Sys2Proof.Machine

/-! ### Errors and flags -/

/-- `STATUS.ERR`: the error kinds with their codes 0 to 9 (60_exceptions.md R129). The codes 10 to 15 are never
recorded (93_implementation_defined.md U15) and have no constructor. -/
inductive Err where
  | none
  | emptyInput
  | malformedContainer
  | unrepresentableCode
  | illegalCommand
  | sequence
  | noCode
  | overflow
  | busyWrite
  | badLengths
  deriving DecidableEq, Repr

/-- `STATUS.ERR`, `ERR_CMD` and `ERR_INFO` (10_state.md R18 to R20). -/
structure ErrRegs where
  err : Err
  cmd : Word
  info : Word
  deriving DecidableEq, Repr

/-- The validity flags F_TREE, F_CODES and F_TRIE (10_state.md R34). -/
structure Flags where
  tree : Bool
  codes : Bool
  trie : Bool
  deriving DecidableEq, Repr

/-- The pending-command register PEND (10_state.md R35). -/
structure Pend where
  valid : Bool
  word : Word
  deriving DecidableEq, Repr

/-! ### Buffers and the packer -/

/-- A byte buffer: the bytes it holds, by index. An unlisted index holds no value (log 6). -/
abbrev Memory := List Host.Cell

/-- The host's input: IBUF and IN_LEN (10_state.md R24, R44). `draw` is the model's own: the draw that answers for the
bytes of IBUF that nothing has written since power-on or the last reset edge (log 6, log 12). -/
structure Input where
  mem : Memory
  len : BitVec 25
  draw : Nat
  deriving DecidableEq, Repr

/-- OBUF (10_state.md R44): the bytes it holds, and, newest first, `(k, d)` for "the bytes at `k` and above were left
unspecified at draw `d`" (60_exceptions.md R134; log 7). -/
structure Obuf where
  cells : Memory
  holes : List (Nat × Nat)
  deriving DecidableEq, Repr

/-- What the reader owns: R_ACC, R_LEFT and IN_POS (10_state.md R25, R36; 42_bitstream_packer.md R94). -/
structure Reader where
  acc : Byte
  left : Fin 9
  pos : BitVec 25
  deriving DecidableEq, Repr

/-- What the writer owns: W_ACC, W_CNT, OUT_LEN and OBUF (10_state.md R26, R36; 42_bitstream_packer.md R94). -/
structure Writer where
  acc : Byte
  cnt : Fin 8
  outLen : BitVec 25
  obuf : Obuf
  deriving DecidableEq, Repr

/-! ### Tables -/

/-- A NODE or TRIE index, 0..510 (00_scope.md R7, `MAX_NODES` and `MAX_TNODES`). -/
abbrev NodeId := Fin 511

/-- A 9-bit node reference: an index 0..510, or `NIL` = 0x1FF (00_scope.md R7), which is `none`. -/
abbrev NodeRef := Option NodeId

/-- An entry of NODE (10_state.md R38). `isInternal` is KIND. -/
structure Node where
  isInternal : Bool
  sym : Byte
  child0 : NodeRef
  child1 : NodeRef
  w : Dword
  deriving DecidableEq, Repr

/-- The tree: NODE, ROOT and NNODES (10_state.md R29, R30, R38). -/
structure Tree where
  node : Table Node 511
  root : NodeRef
  nnodes : Fin 512
  deriving DecidableEq, Repr

/-- The canonical table: CODE, HIST, SYMS, NSYM and MAXLEN (10_state.md R27, R28, R40 to R42). `symsWritten` is the
model's own: `SYMS[0 .. symsWritten-1]` have been written since the last reset or CLEAR, and the entries from there on
hold any value until they are (93_implementation_defined.md U8; log 10). -/
structure Canon where
  code : Table Dword 256
  hist : Table (Fin 257) 256
  syms : Table Byte 256
  nsym : Fin 257
  maxlen : Byte
  symsWritten : Fin 257
  deriving DecidableEq, Repr

/-- An entry of TRIE (10_state.md R43). `isLeaf` is LEAF. -/
structure TrieEntry where
  isLeaf : Bool
  sym : Byte
  child0 : NodeRef
  child1 : NodeRef
  deriving DecidableEq, Repr

/-- The decoding trie: TRIE and TNODES (10_state.md R31, R43). -/
structure Trie where
  entry : Table TrieEntry 511
  tnodes : Fin 512
  deriving DecidableEq, Repr

/-! ### The host side -/

/-- One host bus access (20_memory.md R48; `bus_we`, `bus_addr`, `bus_wdata` of 60_exceptions.md R140). -/
inductive BusAccess where
  | read (addr : Addr)
  | write (addr : Addr) (data : Word)
  deriving DecidableEq, Repr

/-- What happens next to the machine (log 2, log 3). -/
inductive HostEvent where
  /-- The host performs one bus access. -/
  | access (a : BusAccess)
  /-- The sequencer completes the pending command, if there is one. -/
  | complete
  /-- A rising edge of `clk` with `rst_n = 0`, with the access the host presents in that cycle
  (70_reset_and_hazards.md R149). -/
  | resetEdge (presented : Option BusAccess)
  deriving DecidableEq, Repr

/-- The outputs `bus_ack` and `bus_rdata` (60_exceptions.md R140). -/
inductive BusReply where
  /-- `bus_ack = 0`. -/
  | idle
  /-- `bus_ack = 1` for a write: no read data. -/
  | acked
  /-- `bus_ack = 1` for a read, with `bus_rdata`. -/
  | data (d : Word)
  deriving DecidableEq, Repr

end Sys2Proof.Machine
end

