-- ==== Sys2Proof/Machine/Free.lean ====
section
/-! DEFINITION. The unspecified values, by the piece of state they are drawn for, each within its legal range
(10_state.md R45; 60_exceptions.md R134; log 4). `d` is the number of the draw. -/

namespace Sys2Proof.Machine

/-- An unspecified byte. -/
def freeByte (d : Nat) (slot : FreeSlot) (i : Nat) : Byte := (Config.free d slot i).setWidth 8

/-- An unspecified bit. -/
def freeBit (d : Nat) (slot : FreeSlot) (i : Nat) : Bool := (Config.free d slot i).getLsbD 0

/-- An unspecified number below `n`. -/
def freeBelow (n : Nat) [NeZero n] (d : Nat) (slot : FreeSlot) (i : Nat) : Fin n :=
  Fin.ofNat n (Config.free d slot i).toNat

/-- An unspecified buffer position 0..`cap` (10_state.md R25, R26). -/
def freePosition (cap : Nat) (d : Nat) (slot : FreeSlot) : BitVec 25 :=
  BitVec.ofNat 25 ((Config.free d slot 0).toNat % (cap + 1))

/-- A 9-bit node reference from its bits: 0x1FF is `NIL` (00_scope.md R7). -/
def nodeRefOfBits (b : BitVec 9) : NodeRef :=
  if h : b.toNat < 511 then some ⟨b.toNat, h⟩ else none

/-- The bits of a node reference. -/
def nodeRefBits : NodeRef → BitVec 9
  | some i => BitVec.ofNat 9 i.val
  | none => 0x1FF

/-- An unspecified node reference: any 9 bits. -/
def freeRef (d : Nat) (slot : FreeSlot) (i : Nat) : NodeRef :=
  nodeRefOfBits ((Config.free d slot i).setWidth 9)

/-- An unspecified NODE entry (10_state.md R38). -/
def freeNode (d i : Nat) : Node :=
  { isInternal := freeBit d .nodeKind i
    sym := freeByte d .nodeSym i
    child0 := freeRef d .nodeChild0 i
    child1 := freeRef d .nodeChild1 i
    w := Config.free d .nodeW i }

/-- An unspecified TRIE entry (10_state.md R43). -/
def freeTrieEntry (d i : Nat) : TrieEntry :=
  { isLeaf := freeBit d .trieLeaf i
    sym := freeByte d .trieSym i
    child0 := freeRef d .trieChild0 i
    child1 := freeRef d .trieChild1 i }

/-- An unspecified CODE entry (10_state.md R40). -/
def freeCode (d s : Nat) : Dword := Config.free d .code s

/-- An unspecified HIST entry, 0..256; `HIST[0]` is hardwired to 0 (10_state.md R41). -/
def freeHist (d l : Nat) : Fin 257 := if l = 0 then 0 else freeBelow 257 d .hist l

/-- An unspecified SYMS entry (10_state.md R42). -/
def freeSyms (d i : Nat) : Byte := freeByte d .syms i

/-- An unspecified FREQ entry (10_state.md R37). -/
def freeFreq (d s : Nat) : Dword := Config.free d .freq s

/-- An unspecified LEN entry (10_state.md R39). -/
def freeLen (d s : Nat) : Byte := freeByte d .len s

/-- The unspecified word a host read answers (70_reset_and_hazards.md R157). -/
def freeWord (d i : Nat) : Word := (Config.free d .busRead i).setWidth 32

end Sys2Proof.Machine
end

