-- ==== Sys2Proof/Machine/State.lean ====
section
/-! DEFINITION. The state of huffcore, the reasons a step can stop, and the state after reset. -/

namespace Sys2Proof.Machine

/-- The reasons a step stops. Each is a condition of the tables that the spec excludes and no state reached from reset
meets: the rules give the command no meaning there (log 11, safe). -/
inductive Fault where
  /-- WALK reads `NODE[NIL]`: a root or a child of an internal node is `NIL`, and no such entry exists
  (40_tree_builder.md R78, R82). Raised by WALK only; safe. -/
  | walkReachesNil
  /-- WALK visits more than the 511 nodes a tree has (41_canonical_code_generator.md R85, R162). Raised by WALK only;
  safe. -/
  | walkVisitsTooManyNodes
  /-- TRIE_BUILD needs `TRIE[511]`, which does not exist (43_decoder_trie_walker.md R122). Raised by TRIE_BUILD only;
  safe. -/
  | trieArenaFull
  deriving DecidableEq, Repr

/-- The refusals of a step. -/
inductive Refusal where
  /-- The instruction has no meaning in this model yet. Raised by a refused arm of `exec` only; safe. No arm is
  refused. -/
  | notModelled (mnemonic : String)
  deriving DecidableEq, Repr

/-- Everything the spec gives huffcore (10_state.md), and the model's own `draws` and `script`. Plain data. -/
structure State where
  /-- The capability registers CAP_IN, CAP_OUT, CAP_MAXLEN (10_state.md R32). -/
  cfg : Config
  /-- PEND, and with it BUSY (10_state.md R35). -/
  pend : Pend
  /-- ERR, ERR_CMD, ERR_INFO (10_state.md R18 to R20). -/
  errs : ErrRegs
  /-- F_TREE, F_CODES, F_TRIE (10_state.md R34). -/
  flags : Flags
  /-- ARG (10_state.md R21). -/
  arg : Dword
  /-- RES (10_state.md R22). -/
  res : Dword
  /-- PLEN (10_state.md R23). -/
  plen : Dword
  /-- IBUF and IN_LEN (10_state.md R24, R44). -/
  input : Input
  /-- R_ACC, R_LEFT, IN_POS (10_state.md R25, R36). -/
  reader : Reader
  /-- W_ACC, W_CNT, OUT_LEN, OBUF (10_state.md R26, R36, R44). -/
  writer : Writer
  /-- FREQ (10_state.md R37). -/
  freq : Table Dword 256
  /-- NODE, ROOT, NNODES (10_state.md R29, R30, R38). -/
  tree : Tree
  /-- LEN (10_state.md R39). -/
  len : Table Byte 256
  /-- CODE, HIST, SYMS, NSYM, MAXLEN (10_state.md R27, R28, R40 to R42). -/
  canon : Canon
  /-- TRIE, TNODES (10_state.md R31, R43). -/
  trie : Trie
  /-- The outputs bus_ack and bus_rdata (60_exceptions.md R140). -/
  bus : BusReply
  /-- The model's own: how many draws of unspecified values there have been (log 4). -/
  draws : Nat
  /-- The model's own: what happens next, the host's accesses among it (log 2). -/
  script : List HostEvent
  deriving DecidableEq, Repr

/-- The state after reset of a huffcore with parameters `c` (70_reset_and_hazards.md R150), with the contents of the
unspecified tables and buffers drawn at draw `d` and the draw counter at `next`. The buffers hold no byte. -/
def State.resetOf (c : Config) (d next : Nat) : State :=
  { cfg := c
    pend := { valid := false, word := 0 }
    errs := { err := .none, cmd := 0, info := 0 }
    flags := { tree := false, codes := false, trie := false }
    arg := 0
    res := 0
    plen := 0
    input := { mem := [], len := 0, draw := d }
    reader := { acc := 0, left := 0, pos := 0 }
    writer := { acc := 0, cnt := 0, outLen := 0, obuf := { cells := [], holes := [(0, d)] } }
    freq := tblOf 256 fun _ => 0
    tree := { node := tblOf 511 (freeNode d), root := some 0, nnodes := 0 }
    len := tblOf 256 fun _ => 0
    canon :=
      { code := tblOf 256 (freeCode d), hist := tblOf 256 (freeHist d), syms := tblOf 256 (freeSyms d)
        nsym := 0, maxlen := 0, symsWritten := 0 }
    trie := { entry := tblOf 511 (freeTrieEntry d), tnodes := 0 }
    bus := .idle
    draws := next
    script := [] }

/-- The machine right after power-on reset: the unspecified tables and buffers hold the values of draw 0 (log 5,
log 6). -/
def State.reset : State := State.resetOf Config.chosen 0 1

end Sys2Proof.Machine
end

