-- ==== Sys2Proof/Machine/Ops.lean ====
section
/-! DEFINITION. The named operations over the buffers, the error entry every raise goes through, the return from an
error, and reset (00_scope.md R10, R11; 60_exceptions.md R133 to R139; 70_reset_and_hazards.md R149). -/

namespace Sys2Proof.Machine

/-! ### Byte memories -/

/-- The canonical form of a byte memory: indices strictly rising. An unlisted index holds no value, so no entry can
equal what an unlisted index holds, and equal memories are equal lists. -/
def Memory.wf : Memory → Bool
  | [] => true
  | [_] => true
  | c :: c' :: m => decide (c.1 < c'.1) && Memory.wf (c' :: m)

/-- The byte held at index `k`, if one is held. -/
def memFind : Memory → Nat → Option Byte
  | [], _ => none
  | c :: m, k => if c.1 = k then some c.2 else memFind m k

/-- Hold byte `v` at index `k`. -/
def memPut : Memory → Nat → Byte → Memory
  | [], k, v => [(k, v)]
  | c :: m, k, v =>
    if c.1 < k then c :: memPut m k v
    else if c.1 = k then (k, v) :: m
    else (k, v) :: c :: m

/-- What an index of IBUF that nothing has written reads as: an unspecified byte, the same at every read until a reset
edge (10_state.md R44, R45; log 6). -/
def ibufUnwritten (inp : Input) (k : Nat) : Byte := freeByte inp.draw .ibuf k

/-- `MemRead(IBUF, k, 1)` (00_scope.md R10). -/
def ibufRead (inp : Input) (k : Nat) : Byte := (memFind inp.mem k).getD (ibufUnwritten inp k)

/-- The input bytes `IBUF[0 .. IN_LEN-1]`, in order (10_state.md R24). -/
def inputBytes (inp : Input) : List Byte := (List.range inp.len.toNat).map (ibufRead inp)

/-- The draw that answers for index `k` of OBUF where no byte is held. -/
def holeDraw : List (Nat × Nat) → Nat → Nat
  | [], _ => 0
  | h :: hs, k => if h.1 ≤ k then h.2 else holeDraw hs k

/-- What index `k` of OBUF reads as where no byte is held: an unspecified byte (log 6, log 7). -/
def obufUnwritten (o : Obuf) (k : Nat) : Byte := freeByte (holeDraw o.holes k) .obuf k

/-- The byte of OBUF at index `k`. -/
def obufRead (o : Obuf) (k : Nat) : Byte := (memFind o.cells k).getD (obufUnwritten o k)

/-- `MemWrite(OBUF, k, 1, v)` (00_scope.md R10). -/
def obufWrite (o : Obuf) (k : Nat) (v : Byte) : Obuf := { o with cells := memPut o.cells k v }

/-- Leave every byte of OBUF at index `k` and above unspecified, from draw `d` (60_exceptions.md R134). -/
def obufSpoilFrom (o : Obuf) (k d : Nat) : Obuf :=
  { cells := o.cells.filter fun c => decide (c.1 < k)
    holes := (k, d) :: o.holes.filter fun h => decide (h.1 < k) }

/-- Leave the one byte `OBUF[k]` unspecified, if that entry exists (60_exceptions.md R134). -/
def obufSpoilAt (cap : Nat) (o : Obuf) (k d : Nat) : Obuf :=
  if k < cap then obufWrite o k (freeByte d .obuf k) else o

/-- How many entries of SYMS have been written once a command has written `SYMS[0 .. n-1]`, where `k` had been before
(10_state.md R42; log 10). -/
def coverSyms (n : Nat) (k : Fin 257) : Fin 257 := max k (Fin.ofNat 257 n)

/-! ### Raising an error -/

/-- `raise E(info)` (00_scope.md R11). -/
structure Raise where
  kind : Err
  info : Word
  deriving DecidableEq, Repr

/-- The outcome of a piece of pseudocode that can raise: a value, or the first raise (60_exceptions.md R132). -/
abbrev Run (α : Type) := Except Raise α

/-- `raise E(info)`. -/
def raised {α : Type} (kind : Err) (info : Word) : Run α := .error { kind := kind, info := info }

/-- `require C else E(info)` (00_scope.md R11). -/
def require (c : Bool) (kind : Err) (info : Word) : Run Unit := if c then .ok () else raised kind info

/-- Error entry's record: only the first error since the last CLEAR or reset is recorded (60_exceptions.md R133,
R137, R139). -/
def recordError (kind : Err) (cmd info : Word) (s : State) : State :=
  if s.errs.err = .none then { s with errs := { err := kind, cmd := cmd, info := info } } else s

/-- ERROR ENTRY: `raise K(info)` during the execution of the command word that PEND holds (60_exceptions.md R133).
No handler runs and no mode changes; BUSY falls in `endCommand`, as after a normal completion. -/
def enterError (r : Raise) (s : State) : State := recordError r.kind s.pend.word r.info s

/-- The end of a command's execution. Where it raised, every element of its Writes line takes an unspecified value
and the flags of that line fall: `spoil d s` is the state the command started from with just that done, from draw `d`
(60_exceptions.md R134, R135). Nothing else of the failing command's work remains. -/
def conclude (spoil : Nat → State → State) (s : State) : Run State → State
  | .ok t => t
  | .error r => enterError r { spoil s.draws s with draws := s.draws + 1 }

/-- Why a command whose tables may lie outside the spec's states stops. -/
inductive Stop where
  | raising (r : Raise)
  | broken (f : Fault)
  deriving DecidableEq, Repr

/-- `conclude` for WALK and TRIE_BUILD, which read tables that only an unreachable state can hold wrong (log 11). -/
def concludeOrFault (spoil : Nat → State → State) (s : State) :
    Except Stop State → Host.Outcome State Fault Refusal
  | .ok t => .next t
  | .error (.raising r) => .next (conclude spoil s (.error r))
  | .error (.broken f) => .fault f

/-- An illegal command word raises ILLEGAL_COMMAND and changes nothing else (30_encoding.md R65;
60_exceptions.md R134). -/
def raiseIllegal (info : Word) (s : State) : State := enterError { kind := .illegalCommand, info := info } s

/-- `RaiseBusyWrite` at byte address `a` (60_exceptions.md R139). -/
def raiseBusyWrite (a : Addr) (s : State) : State := recordError .busyWrite 0 (a.setWidth 32) s

/-- RETURN FROM AN ERROR: ERR, ERR_CMD and ERR_INFO are 0 again (60_exceptions.md R138; 44_control.md R127). -/
def leaveError (s : State) : State := { s with errs := { err := .none, cmd := 0, info := 0 } }

/-- `PEND.valid <- 0`, also after a raise (60_exceptions.md R128). -/
def endCommand (s : State) : State := { s with pend := { s.pend with valid := false } }

/-! ### Reset -/

/-- Reset (70_reset_and_hazards.md R149, R150): every state element takes its reset value, the unspecified ones at a
new draw, the bytes of both buffers among them (10_state.md R44; log 12). The parameters, the draw counter and the rest
of the script are not state that reset reaches. -/
def resetMachine (s : State) : State := { State.resetOf s.cfg s.draws (s.draws + 1) with script := s.script }

/-! ### Output signals (60_exceptions.md R140) -/

/-- Output `busy`: `STATUS.BUSY`. -/
def State.busy (s : State) : Bool := s.pend.valid

/-- Output `err`: 1 exactly when `STATUS.ERR` is not 0. -/
def State.errOut (s : State) : Bool := s.errs.err != .none

end Sys2Proof.Machine
end

