-- ==== Sys2Proof/Machine/BitIO.lean ====
section
/-! DEFINITION. The packer primitives (42_bitstream_packer.md R94 to R100). A writing primitive takes and gives the
writer alone and a reading primitive the reader alone: the two sides share no state (R94). -/

namespace Sys2Proof.Machine

/-! ### Writing -/

/-- `EmitByte(v)` (42_bitstream_packer.md R97); `cap` is `OBUF_BYTES`. -/
def emitByte (cap : Nat) (v : Byte) (w : Writer) : Run Writer :=
  if w.outLen.toNat = cap then raised .overflow 3
  else .ok
    { w with obuf := obufWrite w.obuf w.outLen.toNat v, outLen := BitVec.ofNat 25 (w.outLen.toNat + 1) }

/-- `EmitByte` of each byte of a list, in order. -/
def emitBytes (cap : Nat) : List Byte → Writer → Run Writer
  | [], w => .ok w
  | v :: vs, w => do
    let w' ← emitByte cap v w
    emitBytes cap vs w'

/-- `W_ACC | (b << W_CNT)` (42_bitstream_packer.md R95). -/
def accWithBit (b : Bool) (w : Writer) : Byte := w.acc ||| ((BitVec.ofBool b).setWidth 8 <<< w.cnt.val)

/-- A fresh output byte: `W_ACC <- 0; W_CNT <- 0`. -/
def freshByte (w : Writer) : Writer := { w with acc := 0, cnt := 0 }

/-- `WriteBit(b)` (42_bitstream_packer.md R95). -/
def writeBit (cap : Nat) (b : Bool) (w : Writer) : Run Writer :=
  if w.cnt.val = 7 then do
    let w' ← emitByte cap (accWithBit b w) w
    .ok (freshByte w')
  else .ok { w with acc := accWithBit b w, cnt := Fin.ofNat 8 (w.cnt.val + 1) }

/-- `WriteBits(v, n)` (42_bitstream_packer.md R96): bit `n-1` first, bit 0 last. -/
def writeBits (cap : Nat) (v : Dword) : Nat → Writer → Run Writer
  | 0, w => .ok w
  | n + 1, w => do
    let w' ← writeBit cap (v.getLsbD n) w
    writeBits cap v n w'

/-- The body of FLUSH (42_bitstream_packer.md R104). -/
def flushWriter (cap : Nat) (w : Writer) : Run Writer :=
  if w.cnt.val > 0 then do
    let w' ← emitByte cap w.acc w
    .ok (freshByte w')
  else .ok w

/-! ### Reading -/

/-- The next byte of IBUF with IN_POS moved past it, or `MALFORMED_CONTAINER(2)` when the input is exhausted
(42_bitstream_packer.md R98, R100). -/
def nextByte (inp : Input) (pos : BitVec 25) : Run (Byte × BitVec 25) :=
  if pos.toNat ≥ inp.len.toNat then raised .malformedContainer 2
  else .ok (ibufRead inp pos.toNat, BitVec.ofNat 25 (pos.toNat + 1))

/-- The reader with a byte to read from: it loads one when `R_LEFT = 0` (42_bitstream_packer.md R98). -/
def loadedReader (inp : Input) (r : Reader) : Run Reader :=
  if r.left = 0 then do
    let (v, pos) ← nextByte inp r.pos
    .ok { acc := v, left := 8, pos := pos }
  else .ok r

/-- `ReadBit()` (42_bitstream_packer.md R98): the next bit is `R_ACC[8 - R_LEFT]`. -/
def readBit (inp : Input) (r : Reader) : Run (Bool × Reader) := do
  let r' ← loadedReader inp r
  .ok (r'.acc.getLsbD (8 - r'.left.val), { r' with left := Fin.ofNat 9 (r'.left.val - 1) })

/-- `ReadBits(n)` (42_bitstream_packer.md R99), on the value `v` read so far. -/
def readBitsInto (inp : Input) : Nat → Nat → Reader → Run (Nat × Reader)
  | 0, v, r => .ok (v, r)
  | n + 1, v, r => do
    let (b, r') ← readBit inp r
    readBitsInto inp n (2 * v + b.toNat) r'

/-- `ReadBits(n)` (42_bitstream_packer.md R99). -/
def readBits (inp : Input) (n : Nat) (r : Reader) : Run (Nat × Reader) := readBitsInto inp n 0 r

/-- `ReadRawByte()` (42_bitstream_packer.md R100): it moves IN_POS only. -/
def readRawByte (inp : Input) (r : Reader) : Run (Byte × Reader) := do
  let (v, pos) ← nextByte inp r.pos
  .ok (v, { r with pos := pos })

/-- `k` raw bytes, in order. -/
def readRawBytes (inp : Input) : Nat → Reader → Run (List Byte × Reader)
  | 0, r => .ok ([], r)
  | k + 1, r => do
    let (v, r') ← readRawByte inp r
    let (vs, r'') ← readRawBytes inp k r'
    .ok (v :: vs, r'')

/-- The bits the reader can still read: what is left of its byte and the bytes below IN_LEN. -/
def bitsAvailable (inp : Input) (r : Reader) : Nat := 8 * (inp.len.toNat - r.pos.toNat) + r.left.val

end Sys2Proof.Machine
end

