-- ==== Sys2Proof/Machine/Operands.lean ====
section
/-! DEFINITION. The operand forms of a command (30_encoding.md R62, R63) and the operands that come from registers. -/

namespace Sys2Proof.Machine

/-- Format S as a symbol: the A field indexes a table, unsigned (30_encoding.md R63). -/
def symbolOperand (a : Byte) : Fin 256 := byteIndex a

/-- Format S as a byte value: the A field as it is (30_encoding.md R63). -/
def byteOperand (a : Byte) : Byte := a

/-- Format L: the A field zero-extended to a count (30_encoding.md R63). -/
def countOperand (a : Byte) : Nat := a.toNat

/-- The wide operand of PUT_BITS: register ARG (30_encoding.md R63; 10_state.md R21). -/
def argOperand (s : State) : Dword := s.arg

/-- The payload length HDR_WRITE emits and DECODE counts: register PLEN (30_encoding.md R63; 10_state.md R23). -/
def plenOperand (s : State) : Dword := s.plen

/-- `info` of OVERFLOW for a counter, `1 | sym << 8` (40_tree_builder.md R74; 60_exceptions.md R130). -/
def counterInfo (sym : Byte) : Word := 0#16 ++ sym ++ 1#8

/-- `info` of UNREPRESENTABLE_CODE, `length | sym << 8` (60_exceptions.md R130). -/
def lengthInfo (length : Nat) (sym : Byte) : Word := 0#16 ++ sym ++ BitVec.ofNat 8 length

/-- `info` of NO_CODE, the symbol (60_exceptions.md R130). -/
def symbolInfo (sym : Byte) : Word := sym.setWidth 32

end Sys2Proof.Machine
end

