-- ==== Sys2Proof/Machine/Flags.lean ====
section
/-! DEFINITION. The validity flags (10_state.md R34), the alignment tests (20_memory.md R56), the checks that read them,
and the status views (10_state.md R18, R33). huffcore has no arithmetic condition codes. -/

namespace Sys2Proof.Machine

/-! ### Setting and clearing -/

/-- `F_TREE <- 0`: FREQ_INC, FREQ_SCAN, a FREQ window write, BUILD that raises (10_state.md R34). -/
def clearTreeFlag (f : Flags) : Flags := { f with tree := false }

/-- `F_TREE <- 1`: BUILD (10_state.md R34). -/
def setTreeFlag (f : Flags) : Flags := { f with tree := true }

/-- `F_CODES <- 0; F_TRIE <- 0`: WALK, a LEN window write, CANON or HDR_READ that raises (10_state.md R34). -/
def clearCodeFlags (f : Flags) : Flags := { f with codes := false, trie := false }

/-- `F_CODES <- 1; F_TRIE <- 0`: CANON and HDR_READ (10_state.md R34). -/
def setCodesFlag (f : Flags) : Flags := { f with codes := true, trie := false }

/-- `F_TRIE <- 0`: TRIE_BUILD that raises (10_state.md R34). -/
def clearTrieFlag (f : Flags) : Flags := { f with trie := false }

/-- `F_TRIE <- 1`: TRIE_BUILD (10_state.md R34). -/
def setTrieFlag (f : Flags) : Flags := { f with trie := true }

/-- Every flag 0: reset and CLEAR (10_state.md R34). -/
def noFlags : Flags := { tree := false, codes := false, trie := false }

/-! ### Requires checks (60_exceptions.md R130) -/

/-- WALK: `F_TREE = 1` else `SEQUENCE(1)`. -/
def requireTree (s : State) : Run Unit := require s.flags.tree .sequence 1

/-- ENC_SYM, ENC_SCAN, HDR_WRITE, TRIE_BUILD: `F_CODES = 1` else `SEQUENCE(2)`. -/
def requireCodes (s : State) : Run Unit := require s.flags.codes .sequence 2

/-- DEC_SYM, DECODE: `F_TRIE = 1` else `SEQUENCE(3)`. -/
def requireTrie (s : State) : Run Unit := require s.flags.trie .sequence 3

/-- PUT_BYTE, HDR_WRITE, DEC_SYM, DECODE: `W_CNT = 0` else `SEQUENCE(4)`. -/
def requireWriterAligned (s : State) : Run Unit := require (s.writer.cnt == 0) .sequence 4

/-- GET_BYTE, HDR_READ: `R_LEFT = 0` else `SEQUENCE(5)`. -/
def requireReaderAligned (s : State) : Run Unit := require (s.reader.left == 0) .sequence 5

/-! ### Views -/

/-- The code of an error kind in `STATUS.ERR` (60_exceptions.md R129). -/
def errCode : Err → BitVec 4
  | .none => 0
  | .emptyInput => 1
  | .malformedContainer => 2
  | .unrepresentableCode => 3
  | .illegalCommand => 4
  | .sequence => 5
  | .noCode => 6
  | .overflow => 7
  | .busyWrite => 8
  | .badLengths => 9

/-- `STATUS` (10_state.md R18). -/
def statusWord (s : State) : Word :=
  0#16 ++ BitVec.ofNat 4 s.reader.left.val ++ BitVec.ofNat 4 s.writer.cnt.val ++ errCode s.errs.err ++
    BitVec.ofBool s.flags.trie ++ BitVec.ofBool s.flags.codes ++ BitVec.ofBool s.flags.tree ++
    BitVec.ofBool s.pend.valid

/-- `PACK` (10_state.md R33). -/
def packWord (s : State) : Word := 0#16 ++ s.reader.acc ++ s.writer.acc

end Sys2Proof.Machine
end

