-- ==== Sys2Proof/Machine/Spoil.lean ====
section
/-! DEFINITION. What a raise leaves of each command's Writes line: every element of it unspecified in its legal range,
its flags 0, all other state as the command found it (60_exceptions.md R134, R135; log 8). `d` is the draw. -/

namespace Sys2Proof.Machine

/-! ### The writer and the reader -/

/-- `OUT_LEN` unspecified, 0..OBUF_BYTES. -/
def spoilOutLen (cap d : Nat) (w : Writer) : Writer := { w with outLen := freePosition cap d .outLen }

/-- `W_ACC` and `W_CNT` unspecified. -/
def spoilAcc (d : Nat) (w : Writer) : Writer :=
  { w with acc := freeByte d .wAcc 0, cnt := freeBelow 8 d .wCnt 0 }

/-- `OBUF[OUT_LEN ..]` unspecified. -/
def spoilObufRest (d : Nat) (w : Writer) : Writer :=
  { w with obuf := obufSpoilFrom w.obuf w.outLen.toNat d }

/-- `OBUF[OUT_LEN]` unspecified. -/
def spoilObufNext (cap d : Nat) (w : Writer) : Writer :=
  { w with obuf := obufSpoilAt cap w.obuf w.outLen.toNat d }

/-- `IN_POS` unspecified, 0..IBUF_BYTES. -/
def spoilInPos (cap d : Nat) (r : Reader) : Reader := { r with pos := freePosition cap d .inPos }

/-- `R_ACC` and `R_LEFT` unspecified. -/
def spoilReadAcc (d : Nat) (r : Reader) : Reader :=
  { r with acc := freeByte d .rAcc 0, left := freeBelow 9 d .rLeft 0 }

/-! ### The commands, each by its Writes line -/

/-- FREQ_INC: `FREQ[sym]`, `F_TREE` (40_tree_builder.md R74). -/
def spoilFreqInc (sym : Byte) (d : Nat) (s : State) : State :=
  { s with freq := symSet s.freq sym (freeFreq d sym.toNat), flags := clearTreeFlag s.flags }

/-- FREQ_SCAN: `FREQ[*]`, `F_TREE` (40_tree_builder.md R75). -/
def spoilFreqScan (d : Nat) (s : State) : State :=
  { s with freq := tblOf 256 (freeFreq d), flags := clearTreeFlag s.flags }

/-- BUILD with `n` symbols: `NODE[0 .. 2n-2]`, `ROOT`, `NNODES`, `F_TREE` (40_tree_builder.md R76). -/
def spoilBuild (n : Nat) (d : Nat) (s : State) : State :=
  { s with
    tree :=
      { node := tblSetFrom 0 ((List.range (2 * n - 1)).map (freeNode d)) s.tree.node
        root := freeRef d .root 0
        nnodes := freeBelow 512 d .nnodes 0 }
    flags := clearTreeFlag s.flags }

/-- WALK: `LEN[*]`, `F_CODES`, `F_TRIE` (41_canonical_code_generator.md R85). -/
def spoilWalk (d : Nat) (s : State) : State :=
  { s with len := tblOf 256 (freeLen d), flags := clearCodeFlags s.flags }

/-- An unspecified canonical table: `HIST[1..255]`, `SYMS[0 .. n-1]`, `CODE[*]`, `NSYM`, `MAXLEN`. The entries of SYMS
from `n` on keep what they hold (10_state.md R42). -/
def freeCanon (n : Nat) (d : Nat) (c : Canon) : Canon :=
  { code := tblOf 256 (freeCode d)
    hist := tblOf 256 (freeHist d)
    syms := tblSetFrom 0 ((List.range n).map (freeSyms d)) c.syms
    nsym := freeBelow 257 d .nsym 0
    maxlen := freeByte d .maxlen 0
    symsWritten := coverSyms n c.symsWritten }

/-- CANON with `n` nonzero lengths: `HIST[1..255]`, `SYMS[0 .. n-1]`, `CODE[*]`, `NSYM`, `MAXLEN`, `F_CODES`,
`F_TRIE` (41_canonical_code_generator.md R88). -/
def spoilCanon (n : Nat) (d : Nat) (s : State) : State :=
  { s with canon := freeCanon n d s.canon, flags := clearCodeFlags s.flags }

/-- PUT_BITS, ENC_SYM, ENC_SCAN: `OBUF[OUT_LEN ..]`, `OUT_LEN`, `W_ACC`, `W_CNT` (42_bitstream_packer.md R102, R105,
R106). -/
def spoilBitOutput (d : Nat) (s : State) : State :=
  { s with writer := spoilOutLen s.cfg.obufBytes d (spoilAcc d (spoilObufRest d s.writer)) }

/-- PUT_BYTE: `OBUF[OUT_LEN]`, `OUT_LEN` (42_bitstream_packer.md R103). -/
def spoilPutByte (d : Nat) (s : State) : State :=
  { s with writer := spoilOutLen s.cfg.obufBytes d (spoilObufNext s.cfg.obufBytes d s.writer) }

/-- FLUSH: `OBUF[OUT_LEN]`, `OUT_LEN`, `W_ACC`, `W_CNT` (42_bitstream_packer.md R104). -/
def spoilFlush (d : Nat) (s : State) : State :=
  { s with writer := spoilOutLen s.cfg.obufBytes d (spoilAcc d (spoilObufNext s.cfg.obufBytes d s.writer)) }

/-- HDR_WRITE: `OBUF[OUT_LEN ..]`, `OUT_LEN` (42_bitstream_packer.md R107). -/
def spoilHdrWrite (d : Nat) (s : State) : State :=
  { s with writer := spoilOutLen s.cfg.obufBytes d (spoilObufRest d s.writer) }

/-- GET_BITS: `RES`, `IN_POS`, `R_ACC`, `R_LEFT` (42_bitstream_packer.md R109). -/
def spoilGetBits (d : Nat) (s : State) : State :=
  { s with res := Config.free d .res 0, reader := spoilInPos s.cfg.ibufBytes d (spoilReadAcc d s.reader) }

/-- GET_BYTE: `RES`, `IN_POS` (42_bitstream_packer.md R110). -/
def spoilGetByte (d : Nat) (s : State) : State :=
  { s with res := Config.free d .res 0, reader := spoilInPos s.cfg.ibufBytes d s.reader }

/-- HDR_READ: `IN_POS`, `LEN[*]`, `CODE[*]`, `HIST[1..255]`, `SYMS[0 .. n-1]`, `NSYM`, `MAXLEN`, `PLEN`, `F_CODES`,
`F_TRIE` (43_decoder_trie_walker.md R115). `n` is `hdrReadSymbols`. -/
def spoilHdrRead (n : Nat) (d : Nat) (s : State) : State :=
  { s with
    reader := spoilInPos s.cfg.ibufBytes d s.reader
    len := tblOf 256 (freeLen d)
    canon := freeCanon n d s.canon
    plen := Config.free d .plen 0
    flags := clearCodeFlags s.flags }

/-- TRIE_BUILD: `TRIE[0 .. tn-1]`, `TNODES`, `F_TRIE` (43_decoder_trie_walker.md R121). All of TRIE is taken, since `tn`
may not be known at the raise (log 8). -/
def spoilTrieBuild (d : Nat) (s : State) : State :=
  { s with
    trie := { entry := tblOf 511 (freeTrieEntry d), tnodes := freeBelow 512 d .tnodes 0 }
    flags := clearTrieFlag s.flags }

/-- The reader and RES, in the Writes line of DEC_SYM and DECODE: `IN_POS`, `R_ACC`, `R_LEFT`, `RES`. -/
def spoilDecodeInput (d : Nat) (s : State) : State :=
  { s with res := Config.free d .res 0, reader := spoilInPos s.cfg.ibufBytes d (spoilReadAcc d s.reader) }

/-- DEC_SYM: `IN_POS`, `R_ACC`, `R_LEFT`, `OBUF[OUT_LEN]`, `OUT_LEN`, `RES` (43_decoder_trie_walker.md R123). -/
def spoilDecSym (d : Nat) (s : State) : State := spoilPutByte d (spoilDecodeInput d s)

/-- DECODE: `IN_POS`, `R_ACC`, `R_LEFT`, `OBUF[OUT_LEN ..]`, `OUT_LEN`, `RES` (43_decoder_trie_walker.md R124). -/
def spoilDecode (d : Nat) (s : State) : State := spoilHdrWrite d (spoilDecodeInput d s)

end Sys2Proof.Machine
end

