-- ==== Sys2Proof/Machine/Packer.lean ====
section
/-! DEFINITION. The bitstream packer's commands (42_bitstream_packer.md R102 to R110). -/

namespace Sys2Proof.Machine

/-- The state with a new writer: all that an output command changes (42_bitstream_packer.md R94). -/
def withWriter (s : State) (w : Writer) : State := { s with writer := w }

/-- PUT_BITS n (42_bitstream_packer.md R102). -/
def execPutBits (n : Byte) (s : State) : Host.Outcome State Fault Refusal :=
  .next (conclude spoilBitOutput s (do
    let w ← writeBits s.cfg.obufBytes (argOperand s) (countOperand n) s.writer
    .ok (withWriter s w)))

/-- PUT_BYTE byte (42_bitstream_packer.md R103). -/
def execPutByte (byte : Byte) (s : State) : Host.Outcome State Fault Refusal :=
  .next (conclude spoilPutByte s (do
    requireWriterAligned s
    let w ← emitByte s.cfg.obufBytes (byteOperand byte) s.writer
    .ok (withWriter s w)))

/-- FLUSH (42_bitstream_packer.md R104). -/
def execFlush (s : State) : Host.Outcome State Fault Refusal :=
  .next (conclude spoilFlush s (do
    let w ← flushWriter s.cfg.obufBytes s.writer
    .ok (withWriter s w)))

/-- Write the code of `sym`, or `NO_CODE(sym)` (42_bitstream_packer.md R105, R106). -/
def writeCode (cap : Nat) (len : Table Byte 256) (code : Table Dword 256) (sym : Byte) (w : Writer) : Run Writer :=
  if symGet len sym = 0 then raised .noCode (symbolInfo sym)
  else writeBits cap (symGet code sym) (symGet len sym).toNat w

/-- Write the codes of a list of symbols, in order (42_bitstream_packer.md R106). -/
def writeCodes (cap : Nat) (len : Table Byte 256) (code : Table Dword 256) : List Byte → Writer → Run Writer
  | [], w => .ok w
  | sym :: syms, w => do
    let w' ← writeCode cap len code sym w
    writeCodes cap len code syms w'

/-- ENC_SYM sym (42_bitstream_packer.md R105). -/
def execEncSym (sym : Byte) (s : State) : Host.Outcome State Fault Refusal :=
  .next (conclude spoilBitOutput s (do
    requireCodes s
    let w ← writeCode s.cfg.obufBytes s.len s.canon.code sym s.writer
    .ok (withWriter s w)))

/-- ENC_SCAN (42_bitstream_packer.md R106). -/
def execEncScan (s : State) : Host.Outcome State Fault Refusal :=
  .next (conclude spoilBitOutput s (do
    requireCodes s
    let w ← writeCodes s.cfg.obufBytes s.len s.canon.code (inputBytes s.input) s.writer
    .ok (withWriter s w)))

/-- `HIST[l]`, `HIST[0]` hardwired to 0 (10_state.md R41). -/
def histAt (c : Canon) (l : Byte) : Fin 257 := if l = 0 then 0 else symGet c.hist l

/-- `SYMS[0 .. NSYM-1]` (10_state.md R42). -/
def symsList (c : Canon) : List Byte := c.syms.toArray.toList.take c.nsym.val

/-- The eight bytes of a 64-bit value, least significant first (20_memory.md R55). -/
def littleEndianBytes (v : Dword) : List Byte := (List.range 8).map fun k => v.extractLsb' (8 * k) 8

/-- The histogram bytes `HIST[1..MAXLEN] mod 256` (42_bitstream_packer.md R107, R113). -/
def histogramBytes (c : Canon) : List Byte :=
  (List.range c.maxlen.toNat).map fun k => BitVec.ofNat 8 (histAt c (BitVec.ofNat 8 (k + 1))).val

/-- The container header (42_bitstream_packer.md R107, R108). -/
def headerBytes (c : Canon) (plen : Dword) : List Byte :=
  [c.maxlen] ++ histogramBytes c ++ symsList c ++ littleEndianBytes plen

/-- HDR_WRITE (42_bitstream_packer.md R107). -/
def execHdrWrite (s : State) : Host.Outcome State Fault Refusal :=
  .next (conclude spoilHdrWrite s (do
    requireCodes s
    requireWriterAligned s
    let w ← emitBytes s.cfg.obufBytes (headerBytes s.canon (plenOperand s)) s.writer
    .ok (withWriter s w)))

/-- The state with a new reader and result: all that an input command changes. -/
def withRead (s : State) (res : Dword) (r : Reader) : State := { s with res := res, reader := r }

/-- GET_BITS n (42_bitstream_packer.md R109). -/
def execGetBits (n : Byte) (s : State) : Host.Outcome State Fault Refusal :=
  .next (conclude spoilGetBits s (do
    let (v, r) ← readBits s.input (countOperand n) s.reader
    .ok (withRead s (BitVec.ofNat 64 v) r)))

/-- GET_BYTE (42_bitstream_packer.md R110). -/
def execGetByte (s : State) : Host.Outcome State Fault Refusal :=
  .next (conclude spoilGetByte s (do
    requireReaderAligned s
    let (v, r) ← readRawByte s.input s.reader
    .ok (withRead s (v.setWidth 64) r)))

end Sys2Proof.Machine
end

