-- ==== Sys2Proof/Machine/Bus.lean ====
section
/-! DEFINITION. The host bus: the address map, host reads and host writes (20_memory.md R47 to R57; 10_state.md R17 to
R33; 60_exceptions.md R128, R139; 70_reset_and_hazards.md R157). -/

namespace Sys2Proof.Machine

/-- What a bus address selects (20_memory.md R47). -/
inductive BusTarget where
  | cmd | status | errCmd | errInfo
  | argLo | argHi | resLo | resHi | plenLo | plenHi
  | inLen | inPos | outLen
  | nsym | maxlen | root | nnodes | tnodes
  | capIn | capOut | capMaxlen | pack
  | freqLo (s : Byte) | freqHi (s : Byte)
  | len (s : Byte)
  | codeLo (s : Byte) | codeHi (s : Byte)
  | hist (l : Byte)
  | syms (i : Byte)
  /-- Word `k` of `NODE[id]`. -/
  | node (id : NodeId) (k : Fin 4)
  | trie (t : NodeId)
  /-- Word `j` of the IBUF window. -/
  | ibuf (j : Fin (2 ^ 22))
  /-- Word `j` of the OBUF window. -/
  | obuf (j : Fin (2 ^ 22))
  /-- An unmapped or misaligned address (20_memory.md R48). -/
  | unmapped
  deriving DecidableEq, Repr

/-- The control register at word `k` of 0x000 to 0x057 (10_state.md section 2). -/
def controlTarget (k : Nat) : BusTarget :=
  match k with
  | 0 => .cmd
  | 1 => .status
  | 2 => .errCmd
  | 3 => .errInfo
  | 4 => .argLo
  | 5 => .argHi
  | 6 => .resLo
  | 7 => .resHi
  | 8 => .plenLo
  | 9 => .plenHi
  | 10 => .inLen
  | 11 => .inPos
  | 12 => .outLen
  | 13 => .nsym
  | 14 => .maxlen
  | 15 => .root
  | 16 => .nnodes
  | 17 => .tnodes
  | 18 => .capIn
  | 19 => .capOut
  | 20 => .capMaxlen
  | 21 => .pack
  | _ => .unmapped

/-- The table windows 0x1000 to 0x57FB, by word address `k` (20_memory.md R47). -/
def windowTarget (k : Nat) : BusTarget :=
  if 0x400 ≤ k ∧ k < 0x600 then
    let s := BitVec.ofNat 8 ((k - 0x400) / 2)
    if k % 2 = 0 then .freqLo s else .freqHi s
  else if 0x600 ≤ k ∧ k < 0x700 then .len (BitVec.ofNat 8 (k - 0x600))
  else if 0x800 ≤ k ∧ k < 0xA00 then
    let s := BitVec.ofNat 8 ((k - 0x800) / 2)
    if k % 2 = 0 then .codeLo s else .codeHi s
  else if 0xA00 ≤ k ∧ k < 0xB00 then .hist (BitVec.ofNat 8 (k - 0xA00))
  else if 0xB00 ≤ k ∧ k < 0xC00 then .syms (BitVec.ofNat 8 (k - 0xB00))
  else if 0xC00 ≤ k ∧ k < 0x13FC then .node (Fin.ofNat 511 ((k - 0xC00) / 4)) (Fin.ofNat 4 (k % 4))
  else if 0x1400 ≤ k ∧ k < 0x15FF then .trie (Fin.ofNat 511 (k - 0x1400))
  else .unmapped

/-- The host bus address map (20_memory.md R47, R48). -/
def busTarget (a : Addr) : BusTarget :=
  let k := a.toNat / 4
  if a.toNat % 4 ≠ 0 then .unmapped
  else if k < 0x400 then controlTarget k
  else if k < 0x400000 then windowTarget k
  else if k < 0x800000 then .ibuf (Fin.ofNat (2 ^ 22) (k - 0x400000))
  else if k < 0xC00000 then .obuf (Fin.ofNat (2 ^ 22) (k - 0x800000))
  else .unmapped

/-- The bus address of a target, in words (20_memory.md R47); an unmapped one is given the unmapped word 0x58. -/
def targetWord : BusTarget → Nat
  | .cmd => 0 | .status => 1 | .errCmd => 2 | .errInfo => 3
  | .argLo => 4 | .argHi => 5 | .resLo => 6 | .resHi => 7 | .plenLo => 8 | .plenHi => 9
  | .inLen => 10 | .inPos => 11 | .outLen => 12
  | .nsym => 13 | .maxlen => 14 | .root => 15 | .nnodes => 16 | .tnodes => 17
  | .capIn => 18 | .capOut => 19 | .capMaxlen => 20 | .pack => 21
  | .freqLo s => 0x400 + 2 * s.toNat
  | .freqHi s => 0x401 + 2 * s.toNat
  | .len s => 0x600 + s.toNat
  | .codeLo s => 0x800 + 2 * s.toNat
  | .codeHi s => 0x801 + 2 * s.toNat
  | .hist l => 0xA00 + l.toNat
  | .syms i => 0xB00 + i.toNat
  | .node id k => 0xC00 + 4 * id.val + k.val
  | .trie t => 0x1400 + t.val
  | .ibuf j => 0x400000 + j.val
  | .obuf j => 0x800000 + j.val
  | .unmapped => 22

/-- The bus byte address of a target (20_memory.md R47). -/
def targetAddr (t : BusTarget) : Addr := BitVec.ofNat 26 (4 * targetWord t)

/-! ### Reading -/

/-- Bits 31:0 of a 64-bit value, at its lower address (20_memory.md R52). -/
def lowHalf (v : Dword) : Word := v.extractLsb' 0 32

/-- Bits 63:32 of a 64-bit value, at its higher address (20_memory.md R52). -/
def highHalf (v : Dword) : Word := v.extractLsb' 32 32

/-- A word from its four byte lanes, little-endian (20_memory.md R50). -/
def wordOfLanes (lane : Nat → Byte) : Word := lane 3 ++ lane 2 ++ lane 1 ++ lane 0

/-- Byte lane `k` of a word (20_memory.md R50). -/
def laneOf (w : Word) (k : Nat) : Byte := w.extractLsb' (8 * k) 8

/-- The word `k` of a NODE entry (20_memory.md R52). -/
def nodeWord (e : Node) (k : Fin 4) : Word :=
  match k.val with
  | 0 => 0#16 ++ e.sym ++ 0#7 ++ BitVec.ofBool e.isInternal
  | 1 => 0#7 ++ nodeRefBits e.child1 ++ 0#7 ++ nodeRefBits e.child0
  | 2 => lowHalf e.w
  | _ => highHalf e.w

/-- The word of a TRIE entry (20_memory.md R52). -/
def trieWord (e : TrieEntry) : Word :=
  0#5 ++ BitVec.ofBool e.isLeaf ++ e.sym ++ nodeRefBits e.child1 ++ nodeRefBits e.child0

/-- NODE as the host sees it: `NODE[NNODES .. 510]` read unspecified values (10_state.md R38; log 10). -/
def nodeSeen (s : State) (id : NodeId) : Node :=
  if id.val < s.tree.nnodes.val then tblGet s.tree.node id else freeNode s.draws id.val

/-- TRIE as the host sees it: `TRIE[TNODES .. 510]` read unspecified values (10_state.md R43; log 10). -/
def trieSeen (s : State) (t : NodeId) : TrieEntry :=
  if t.val < s.trie.tnodes.val then tblGet s.trie.entry t else freeTrieEntry s.draws t.val

/-- CODE as the host sees it: unspecified from reset or CLEAR until it is written (10_state.md R40;
93_implementation_defined.md U8; log 10). -/
def codeSeen (s : State) (sym : Byte) : Dword :=
  if s.canon.nsym = 0 then freeCode s.draws sym.toNat else symGet s.canon.code sym

/-- HIST as the host sees it: `HIST[0]` reads 0, the others as `codeSeen` (10_state.md R41; log 10). -/
def histSeen (s : State) (l : Byte) : Fin 257 :=
  if s.canon.nsym = 0 then freeHist s.draws l.toNat else histAt s.canon l

/-- SYMS as the host sees it: what the entry's last write left, also at or beyond NSYM (10_state.md R42; 20_memory.md
R52, R58), and unspecified from reset or CLEAR until the entry is written (93_implementation_defined.md U8; log 10). -/
def symsSeen (s : State) (i : Byte) : Byte :=
  if i.toNat < s.canon.symsWritten.val then symGet s.canon.syms i else freeSyms s.draws i.toNat

/-- Byte `k` of the IBUF window: 0 at or beyond IBUF_BYTES (20_memory.md R50). -/
def ibufSeen (s : State) (k : Nat) : Byte := if k < s.cfg.ibufBytes then ibufRead s.input k else 0

/-- Byte `k` of the OBUF window: 0 at or beyond OBUF_BYTES (20_memory.md R51), unspecified at or beyond OUT_LEN
(93_implementation_defined.md U9; log 10). -/
def obufSeen (s : State) (k : Nat) : Byte :=
  if k < s.cfg.obufBytes then
    if k < s.writer.outLen.toNat then obufRead s.writer.obuf k else freeByte s.draws .obuf k
  else 0

/-- The data of a host read while BUSY is 0 (20_memory.md R48, R50 to R52; 10_state.md section 2). -/
def readTarget (s : State) (t : BusTarget) : Word :=
  match t with
  | .cmd => 0
  | .status => statusWord s
  | .errCmd => s.errs.cmd
  | .errInfo => s.errs.info
  | .argLo => lowHalf s.arg
  | .argHi => highHalf s.arg
  | .resLo => lowHalf s.res
  | .resHi => highHalf s.res
  | .plenLo => lowHalf s.plen
  | .plenHi => highHalf s.plen
  | .inLen => s.input.len.setWidth 32
  | .inPos => s.reader.pos.setWidth 32
  | .outLen => s.writer.outLen.setWidth 32
  | .nsym => BitVec.ofNat 32 s.canon.nsym.val
  | .maxlen => s.canon.maxlen.setWidth 32
  | .root => (nodeRefBits s.tree.root).setWidth 32
  | .nnodes => BitVec.ofNat 32 s.tree.nnodes.val
  | .tnodes => BitVec.ofNat 32 s.trie.tnodes.val
  | .capIn => BitVec.ofNat 32 s.cfg.ibufBytes
  | .capOut => BitVec.ofNat 32 s.cfg.obufBytes
  | .capMaxlen => BitVec.ofNat 32 s.cfg.maxCodeLen
  | .pack => packWord s
  | .freqLo sym => lowHalf (symGet s.freq sym)
  | .freqHi sym => highHalf (symGet s.freq sym)
  | .len sym => (symGet s.len sym).setWidth 32
  | .codeLo sym => lowHalf (codeSeen s sym)
  | .codeHi sym => highHalf (codeSeen s sym)
  | .hist l => BitVec.ofNat 32 (histSeen s l).val
  | .syms i => (symsSeen s i).setWidth 32
  | .node id k => nodeWord (nodeSeen s id) k
  | .trie t => trieWord (trieSeen s t)
  | .ibuf j => wordOfLanes fun k => ibufSeen s (4 * j.val + k)
  | .obuf j => wordOfLanes fun k => obufSeen s (4 * j.val + k)
  | .unmapped => 0

/-- The data of a host read while BUSY is 1: STATUS reads BUSY = 1 and nothing else of it is specified, every other
address reads an unspecified value (70_reset_and_hazards.md R157; 10_state.md R18; log 10). -/
def readBusy (s : State) (t : BusTarget) (a : Addr) : Word :=
  if t = .status then (freeWord s.draws a.toNat).extractLsb' 1 31 ++ 1#1 else freeWord s.draws a.toNat

/-- `bus_rdata` of a host read at address `a`. DEDUCED (log 19): a read that comes after the completion of a command and
before any read of STATUS has answered BUSY = 0 answers the value the command left (20_memory.md R58), though R59 calls
what such a host reads unspecified; free are only the reads while BUSY is 1 (70_reset_and_hazards.md R157). -/
def readData (s : State) (a : Addr) : Word :=
  if s.pend.valid then readBusy s (busTarget a) a else readTarget s (busTarget a)

/-- A host read: no register, flag, pointer or buffer changes (20_memory.md R54). Unspecified data is drawn anew at
every read (log 4). -/
def hostRead (a : Addr) (s : State) : State := { s with bus := .data (readData s a), draws := s.draws + 1 }

/-! ### Writing -/

/-- The word of CLEAR, the one word accepted while ERR is not 0 (60_exceptions.md R128). -/
def clearWord : Word := 0x00000001

/-- A write of `w` to CMD while BUSY is 0 (60_exceptions.md R128). -/
def writeCmd (w : Word) (s : State) : State :=
  if s.errs.err = .none ∨ w = clearWord then { s with pend := { valid := true, word := w } } else s

/-- `ARG`, `PLEN` or a counter with its bits 31:0 replaced (10_state.md R21; 20_memory.md R52). -/
def setLow (v : Dword) (w : Word) : Dword := highHalf v ++ w

/-- The same with bits 63:32 replaced. -/
def setHigh (v : Dword) (w : Word) : Dword := w ++ lowHalf v

/-- A word written to IN_LEN, IN_POS or OUT_LEN: `min(w, cap)` (10_state.md R24 to R26) of its meaningful bits 24:0; bits
31:25 are ignored (20_memory.md R49). DEDUCED: that the bits are ignored before the clamp is the model's reading of the
two rules together (log 18). -/
def clampPosition (cap : Nat) (w : Word) : BitVec 25 := BitVec.ofNat 25 (min (w.toNat % 2 ^ 25) cap)

/-- A write to a FREQ window word: the tree is stale (20_memory.md R53). -/
def writeFreq (sym : Byte) (v : Dword) (s : State) : State :=
  { s with freq := symSet s.freq sym v, flags := clearTreeFlag s.flags }

/-- A write to a LEN window word: the canonical table and the trie are stale (20_memory.md R53). -/
def writeLen (sym : Byte) (v : Byte) (s : State) : State :=
  { s with len := symSet s.len sym v, flags := clearCodeFlags s.flags }

/-- A write to IN_POS: the reader restarts byte-aligned (10_state.md R25). -/
def writeInPos (w : Word) (s : State) : State :=
  { s with reader := { acc := 0, left := 0, pos := clampPosition s.cfg.ibufBytes w } }

/-- A write to OUT_LEN: the partial byte is discarded (10_state.md R26). -/
def writeOutLen (w : Word) (s : State) : State :=
  { s with writer := { s.writer with acc := 0, cnt := 0, outLen := clampPosition s.cfg.obufBytes w } }

/-- One lane of an IBUF window write: discarded at or beyond IBUF_BYTES (20_memory.md R50). -/
def putLane (cap : Nat) (k : Nat) (v : Byte) (m : Memory) : Memory := if k < cap then memPut m k v else m

/-- A write of `w` to word `j` of the IBUF window (20_memory.md R50). -/
def writeIbuf (j : Nat) (w : Word) (s : State) : State :=
  let cap := s.cfg.ibufBytes
  let put := fun k m => putLane cap (4 * j + k) (laneOf w k) m
  { s with input := { s.input with mem := put 3 (put 2 (put 1 (put 0 s.input.mem))) } }

/-- A host write while BUSY is 0 (20_memory.md R48, R49, R53). -/
def writeTarget (t : BusTarget) (w : Word) (s : State) : State :=
  match t with
  | .cmd => writeCmd w s
  | .argLo => { s with arg := setLow s.arg w }
  | .argHi => { s with arg := setHigh s.arg w }
  | .plenLo => { s with plen := setLow s.plen w }
  | .plenHi => { s with plen := setHigh s.plen w }
  | .inLen => { s with input := { s.input with len := clampPosition s.cfg.ibufBytes w } }
  | .inPos => writeInPos w s
  | .outLen => writeOutLen w s
  | .freqLo sym => writeFreq sym (setLow (symGet s.freq sym) w) s
  | .freqHi sym => writeFreq sym (setHigh (symGet s.freq sym) w) s
  | .len sym => writeLen sym (laneOf w 0) s
  | .ibuf j => writeIbuf j.val w s
  | .status | .errCmd | .errInfo | .resLo | .resHi | .nsym | .maxlen | .root | .nnodes | .tnodes
  | .capIn | .capOut | .capMaxlen | .pack | .codeLo _ | .codeHi _ | .hist _ | .syms _ | .node _ _ | .trie _
  | .obuf _ | .unmapped => s

/-- A host write of `w` at address `a`: dropped with BUSY_WRITE while BUSY is 1 (20_memory.md R53;
60_exceptions.md R139). -/
def hostWrite (a : Addr) (w : Word) (s : State) : State :=
  let s' := if s.pend.valid then raiseBusyWrite a s else writeTarget (busTarget a) w s
  { s' with bus := .acked }

/-- One host bus access (20_memory.md R48). -/
def hostAccess (b : BusAccess) (s : State) : State :=
  match b with
  | .read a => hostRead a s
  | .write a w => hostWrite a w s

/-- The reply to an access presented while `rst_n = 0`: it has no effect and its read data is unspecified
(70_reset_and_hazards.md R149; log 9). -/
def resetReply (d : Nat) (presented : Option BusAccess) : BusReply :=
  match presented with
  | none => .idle
  | some (.read a) => .data (freeWord d a.toNat)
  | some (.write _ _) => .acked

/-- A clock edge with `rst_n = 0` (70_reset_and_hazards.md R149). -/
def resetEdge (presented : Option BusAccess) (s : State) : State :=
  { resetMachine s with bus := resetReply s.draws presented }

end Sys2Proof.Machine
end

