-- ==== Sys2Proof/Machine/CodeGenerator.lean ====
section
/-! DEFINITION. The canonical code generator: WALK and CANON (41_canonical_code_generator.md). -/

namespace Sys2Proof.Machine

/-! ### WALK -/

/-- The most nodes a walk visits: the whole arena (41_canonical_code_generator.md R162's bound of 511 nodes). -/
def maxVisits : Nat := 511

/-- The depth-first walk with its explicit stack, child 0 first (41_canonical_code_generator.md R85, R86). The first
argument bounds the visits; `maxLen` is `MAX_CODE_LEN`. -/
def walkStack (maxLen : Nat) (node : Table Node 511) :
    Nat → List (NodeRef × Nat) → Table Byte 256 → Except Stop (Table Byte 256)
  | _, [], len => .ok len
  | 0, _ :: _, _ => .error (.broken .walkVisitsTooManyNodes)
  | _ + 1, (none, _) :: _, _ => .error (.broken .walkReachesNil)
  | visits + 1, (some t, d) :: stack, len =>
    let e := tblGet node t
    if e.isInternal then walkStack maxLen node visits ((e.child0, d + 1) :: (e.child1, d + 1) :: stack) len
    else if d > maxLen then
      .error (.raising { kind := .unrepresentableCode, info := lengthInfo d e.sym })
    else walkStack maxLen node visits stack (symSet len e.sym (BitVec.ofNat 8 d))

/-- The code lengths of a tree (41_canonical_code_generator.md R85): a lone leaf gets length 1 (R87). -/
def treeLengths (maxLen : Nat) (tree : Tree) : Except Stop (Table Byte 256) :=
  let zero := tblOf 256 fun _ => (0 : Byte)
  match tree.root with
  | none => .error (.broken .walkReachesNil)
  | some r =>
    let e := tblGet tree.node r
    if e.isInternal then walkStack maxLen tree.node maxVisits [(tree.root, 0)] zero
    else .ok (symSet zero e.sym 1)

/-- The state with new code lengths: the canonical table and the trie are stale (10_state.md R34). -/
def withLengths (s : State) (len : Table Byte 256) : State :=
  { s with len := len, flags := clearCodeFlags s.flags }

/-- WALK (41_canonical_code_generator.md R85). -/
def execWalk (s : State) : Host.Outcome State Fault Refusal :=
  concludeOrFault spoilWalk s (do
    (requireTree s).mapError Stop.raising
    let len ← treeLengths s.cfg.maxCodeLen s.tree
    .ok (withLengths s len))

/-! ### CANON -/

/-- The symbols with a code and their lengths, ascending by symbol (10_state.md R39). -/
def codedSymbols (len : Table Byte 256) : List (Byte × Byte) := (symEntries len).filter fun p => p.2 != 0

/-- The longest length (41_canonical_code_generator.md R88). -/
def maxLength (len : Table Byte 256) : Nat := ((symEntries len).map fun p => p.2.toNat).foldl max 0

/-- `#{ s : LEN[s] = l }` (41_canonical_code_generator.md R88). -/
def countOfLength (len : Table Byte 256) (l : Nat) : Nat :=
  ((symEntries len).filter fun p => p.2.toNat == l).length

/-- `HIST` of a length table: `HIST[0]` is hardwired to 0 (10_state.md R41; 41_canonical_code_generator.md R93). -/
def histogramOf (len : Table Byte 256) : Table (Fin 257) 256 :=
  tblOf 256 fun l => if l = 0 then 0 else Fin.ofNat 257 (countOfLength len l)

/-- The Kraft sum scaled by `2^m`, exact (41_canonical_code_generator.md R91). -/
def kraftSum (lengths : List Nat) (m : Nat) : Nat := (lengths.map fun l => 2 ^ (m - l)).sum

/-- `ValidateLengths(NS, M)` (41_canonical_code_generator.md R91) on the nonzero lengths. -/
def validateLengths (lengths : List Nat) (m : Nat) : Run Unit :=
  if lengths.length = 1 then require (m == 1) .badLengths 1
  else do
    require (decide (kraftSum lengths m ≤ 2 ^ m)) .badLengths 2
    require (decide (2 ^ m ≤ kraftSum lengths m)) .badLengths 3

/-- The symbols of length `l`, ascending (41_canonical_code_generator.md R89). -/
def symbolsOfLength (len : Table Byte 256) (l : Nat) : List Byte :=
  ((symEntries len).filter fun p => p.2.toNat == l).map fun p => p.1

/-- The canonical order, bucket by bucket up to length `m` (41_canonical_code_generator.md R89). -/
def canonicalOrder (len : Table Byte 256) (m : Nat) : List Byte :=
  (List.range m).flatMap fun k => symbolsOfLength len (k + 1)

/-- The codes after the first of `AssignCodes` (41_canonical_code_generator.md R90): `prev` is the symbol before and
`c` its code. -/
def assignRest (len : Table Byte 256) : List Byte → Byte → Nat → Table Dword 256 → Table Dword 256
  | [], _, _, code => code
  | s :: ss, prev, c, code =>
    let c' := (c + 1) <<< ((symGet len s).toNat - (symGet len prev).toNat)
    assignRest len ss s c' (symSet code s (BitVec.ofNat 64 c'))

/-- `AssignCodes(NS)` on `SYMS[0 .. NS-1]` (41_canonical_code_generator.md R90), over the old CODE contents. -/
def assignCodes (len : Table Byte 256) (order : List Byte) (old : Table Dword 256) : Table Dword 256 :=
  let base := tblOf 256 fun s =>
    if symGet len (BitVec.ofNat 8 s) = 0 then 0 else symGet old (BitVec.ofNat 8 s)
  match order with
  | [] => base
  | s :: ss => assignRest len ss s 0 (symSet base s 0)

/-- The canonical table with symbols `order`, histogram `hist` and longest length `m`, over the old contents
(41_canonical_code_generator.md R88; 43_decoder_trie_walker.md R120). -/
def canonTable (len : Table Byte 256) (order : List Byte) (hist : Table (Fin 257) 256) (m : Byte) (old : Canon) :
    Canon :=
  { code := assignCodes len order old.code
    hist := hist
    syms := tblSetFrom 0 order old.syms
    nsym := Fin.ofNat 257 order.length
    maxlen := m
    symsWritten := coverSyms order.length old.symsWritten }

/-- The check that no length exceeds `MAX_CODE_LEN`: the lowest symbol that breaks it is reported
(41_canonical_code_generator.md R88). -/
def requireRepresentable (maxLen : Nat) : List (Byte × Byte) → Run Unit
  | [] => .ok ()
  | p :: ps =>
    if p.2.toNat > maxLen then raised .unrepresentableCode (lengthInfo p.2.toNat p.1)
    else requireRepresentable maxLen ps

/-- The pseudocode of CANON (41_canonical_code_generator.md R88): the canonical table of a length table. -/
def buildCanon (maxLen : Nat) (len : Table Byte 256) (old : Canon) : Run Canon := do
  let coded := codedSymbols len
  require (coded.length != 0) .emptyInput 0
  requireRepresentable maxLen (symEntries len)
  let m := maxLength len
  validateLengths (coded.map fun p => p.2.toNat) m
  .ok (canonTable len (canonicalOrder len m) (histogramOf len) (BitVec.ofNat 8 m) old)

/-- CANON (41_canonical_code_generator.md R88). -/
def execCanon (s : State) : Host.Outcome State Fault Refusal :=
  .next (conclude (spoilCanon (codedSymbols s.len).length) s (do
    let canon ← buildCanon s.cfg.maxCodeLen s.len s.canon
    .ok { s with canon := canon, flags := setCodesFlag s.flags }))

end Sys2Proof.Machine
end

