-- ==== Sys2Proof/Machine/Control.lean ====
section
/-! DEFINITION. Sequencer control: NOP and CLEAR (44_control.md). -/

namespace Sys2Proof.Machine

/-- NOP (44_control.md R126): nothing changes. -/
def execNop (s : State) : Host.Outcome State Fault Refusal := .next s

/-- The state after CLEAR (44_control.md R127). IBUF, IN_LEN, ARG, the contents of OBUF and the NODE, CODE, HIST, SYMS
and TRIE arrays are kept, and stale: SYMS is unwritten again for a host read (93_implementation_defined.md U8). -/
def clearedState (s : State) : State :=
  { leaveError s with
    flags := noFlags
    freq := tblOf 256 fun _ => 0
    len := tblOf 256 fun _ => 0
    res := 0
    plen := 0
    reader := { acc := 0, left := 0, pos := 0 }
    writer := { acc := 0, cnt := 0, outLen := 0, obuf := s.writer.obuf }
    canon := { s.canon with nsym := 0, maxlen := 0, symsWritten := 0 }
    tree := { s.tree with root := some 0, nnodes := 0 }
    trie := { s.trie with tnodes := 0 } }

/-- CLEAR (44_control.md R127). It cannot raise. -/
def execClear (s : State) : Host.Outcome State Fault Refusal := .next (clearedState s)

end Sys2Proof.Machine
end

