-- ==== Sys2Proof/Machine/Decoder.lean ====
section
/-! DEFINITION. The decoder trie walker: HDR_READ, TRIE_BUILD, DEC_SYM and DECODE (43_decoder_trie_walker.md). -/

namespace Sys2Proof.Machine

/-! ### HDR_READ -/

/-- The scratch values of HDR_READ once its checks have passed (43_decoder_trie_walker.md R115): `maxCodeLength`, the
histogram `H[1..m]`, the symbols in file order and `payloadLength`. -/
structure Header where
  m : Byte
  hist : List Nat
  syms : List Byte
  plen : Dword
  deriving DecidableEq, Repr

/-- The histogram of the raw bytes, with the 256-symbol escape (43_decoder_trie_walker.md R117). -/
def headerHistogram (raw : List Byte) : List Nat :=
  if raw = List.replicate 8 0 then List.replicate 7 0 ++ [256] else raw.map fun b => b.toNat

/-- `Σ_{L=1..m} H[L] · 2^(m-L)` (43_decoder_trie_walker.md R115). -/
def headerKraft : List Nat → Nat
  | [] => 0
  | h :: hs => h * 2 ^ hs.length + headerKraft hs

/-- Checks 3 to 6 of 43_decoder_trie_walker.md R118, in their order. -/
def checkHistogram (maxLen : Nat) (m : Byte) (hist : List Nat) : Run Unit := do
  require (decide (1 ≤ hist.sum) && decide (hist.sum ≤ 256)) .malformedContainer 3
  require (hist.getLastD 0 != 0) .malformedContainer 4
  require (decide (m.toNat ≤ maxLen)) .unrepresentableCode (lengthInfo m.toNat 0)
  if hist.sum = 1 then require (m == 1) .malformedContainer 5
  else require (headerKraft hist == 2 ^ m.toNat) .malformedContainer 5

/-- `ln(i)`: the least `L` with `H[1] + ... + H[L] > i` (43_decoder_trie_walker.md R119); `l` is the length of the
list's first entry. -/
def lengthFrom (l : Nat) : List Nat → Nat → Nat
  | [], _ => l
  | h :: hs, i => if i < h then l else lengthFrom (l + 1) hs (i - h)

/-- `ln(i)` of a histogram (43_decoder_trie_walker.md R119). -/
def lengthAt (hist : List Nat) (i : Nat) : Nat := lengthFrom 1 hist i

/-- Whether symbol `v` at position `i` keeps the canonical order after `seen`, the symbols before it, newest first
(43_decoder_trie_walker.md R115, R118 row 7). -/
def symbolInOrder (hist : List Nat) (i : Nat) (v : Byte) (seen : List Byte) : Bool :=
  (match seen with
    | [] => true
    | prev :: _ => lengthAt hist i != lengthAt hist (i - 1) || decide (prev.toNat < v.toNat)) &&
  !seen.contains v

/-- The symbol list: `k` more symbols from position `i` on, each checked as it is read
(43_decoder_trie_walker.md R115). The result is in file order. -/
def readSymbols (inp : Input) (hist : List Nat) : Nat → Nat → List Byte → Reader → Run (List Byte × Reader)
  | 0, _, seen, r => .ok (seen.reverse, r)
  | k + 1, i, seen, r => do
    let (v, r') ← readRawByte inp r
    require (symbolInOrder hist i v seen) .malformedContainer 6
    readSymbols inp hist k (i + 1) (v :: seen) r'

/-- A 64-bit value from its bytes, least significant first (43_decoder_trie_walker.md R115, R116). -/
def dwordOfBytes : List Byte → Nat
  | [] => 0
  | b :: bs => b.toNat + 256 * dwordOfBytes bs

/-- `maxCodeLength` and the raw bytes of the histogram at the reader's position (43_decoder_trie_walker.md R115). -/
def readHistogram (inp : Input) (r : Reader) : Run (Byte × List Byte × Reader) := do
  let (m, r1) ← readRawByte inp r
  require (m != 0) .malformedContainer 1
  let (raw, r2) ← readRawBytes inp m.toNat r1
  .ok (m, raw, r2)

/-- The header at the reader's position, read and checked in the order of 43_decoder_trie_walker.md R118. -/
def readHeader (maxLen : Nat) (inp : Input) (r : Reader) : Run (Header × Reader) := do
  let (m, raw, r2) ← readHistogram inp r
  let hist := headerHistogram raw
  checkHistogram maxLen m hist
  let (syms, r3) ← readSymbols inp hist hist.sum 0 [] r2
  let (bytes, r4) ← readRawBytes inp 8 r3
  .ok ({ m := m, hist := hist, syms := syms, plen := BitVec.ofNat 64 (dwordOfBytes bytes) }, r4)

/-- `LEN` of a header: `ln(i)` for the listed symbols, from position `i` on, over a table
(43_decoder_trie_walker.md R120). -/
def lengthsFrom (hist : List Nat) : Nat → List Byte → Table Byte 256 → Table Byte 256
  | _, [], len => len
  | i, v :: vs, len => lengthsFrom hist (i + 1) vs (symSet len v (BitVec.ofNat 8 (lengthAt hist i)))

/-- `LEN` of a header: 0 for every symbol not listed (43_decoder_trie_walker.md R120). -/
def headerLengths (h : Header) : Table Byte 256 := lengthsFrom h.hist 0 h.syms (tblOf 256 fun _ => 0)

/-- `HIST` of a header: `H[L]` up to `m`, 0 above (43_decoder_trie_walker.md R115). -/
def headerHist (h : Header) : Table (Fin 257) 256 :=
  tblOf 256 fun l => if l = 0 then 0 else Fin.ofNat 257 (h.hist.getD (l - 1) 0)

/-- The commit of HDR_READ (43_decoder_trie_walker.md R120). -/
def commitHeader (s : State) (h : Header) (r : Reader) : State :=
  { s with
    reader := r
    len := headerLengths h
    canon := canonTable (headerLengths h) h.syms (headerHist h) h.m s.canon
    plen := h.plen
    flags := setCodesFlag s.flags }

/-- The `n` of `SYMS[0 .. n-1]` in the Writes line of HDR_READ (43_decoder_trie_walker.md R115): the sum of the
histogram, at most the 256 entries there are. A raise that comes before the histogram has been read leaves `n` unknown,
and then all of SYMS is taken (log 8). -/
def hdrReadSymbols (s : State) : Nat :=
  match (do requireReaderAligned s; readHistogram s.input s.reader) with
  | .ok (_, raw, _) => min (headerHistogram raw).sum 256
  | .error _ => 256

/-- HDR_READ (43_decoder_trie_walker.md R115). -/
def execHdrRead (s : State) : Host.Outcome State Fault Refusal :=
  .next (conclude (spoilHdrRead (hdrReadSymbols s)) s (do
    requireReaderAligned s
    let (h, r) ← readHeader s.cfg.maxCodeLen s.input s.reader
    .ok (commitHeader s h r)))

/-! ### TRIE_BUILD -/

/-- `Internal` (43_decoder_trie_walker.md R121). -/
def internalEntry : TrieEntry := { isLeaf := false, sym := 0, child0 := none, child1 := none }

/-- `Leaf(s)` (43_decoder_trie_walker.md R121). -/
def leafEntry (s : Byte) : TrieEntry := { isLeaf := true, sym := s, child0 := none, child1 := none }

/-- `child_b(e)`: 1 = right (CHILD1), 0 = left (CHILD0) (43_decoder_trie_walker.md R121). -/
def childOf (b : Bool) (e : TrieEntry) : NodeRef := if b then e.child1 else e.child0

/-- `child_b(e) <- x`. -/
def setChild (b : Bool) (x : NodeRef) (e : TrieEntry) : TrieEntry :=
  if b then { e with child1 := x } else { e with child0 := x }

/-- TRIE and the count of allocated entries while TRIE_BUILD runs (43_decoder_trie_walker.md R121). -/
structure TrieWork where
  entry : Table TrieEntry 511
  tn : Nat
  deriving DecidableEq, Repr

/-- `MALFORMED_CONTAINER(8)`: one code is a prefix of another (43_decoder_trie_walker.md R121). -/
def prefixClash {α : Type} : Except Stop α := .error (.raising { kind := .malformedContainer, info := 8 })

/-- `TRIE[tn] <- e; child_b(TRIE[t]) <- tn; tn <- tn + 1`, and the new index (43_decoder_trie_walker.md R121). -/
def trieAllocate (t : NodeId) (b : Bool) (e : TrieEntry) (w : TrieWork) : Except Stop (NodeId × TrieWork) :=
  if h : w.tn < 511 then
    let entry := tblSet w.entry ⟨w.tn, h⟩ e
    .ok (⟨w.tn, h⟩,
      { entry := tblSet entry t (setChild b (some ⟨w.tn, h⟩) (tblGet entry t)), tn := w.tn + 1 })
  else .error (.broken .trieArenaFull)

/-- Every code bit but the last, bit `k` down to bit 1, from entry `t` (43_decoder_trie_walker.md R121). -/
def trieDescend (code : Dword) : Nat → NodeId → TrieWork → Except Stop (NodeId × TrieWork)
  | 0, t, w => .ok (t, w)
  | j + 1, t, w =>
    let b := code.getLsbD (j + 1)
    let e := tblGet w.entry t
    if e.isLeaf then prefixClash
    else
      match childOf b e with
      | some x => trieDescend code j x w
      | none => do
        let (x, w') ← trieAllocate t b internalEntry w
        trieDescend code j x w'

/-- Insert the code of one symbol: the last bit ends in the leaf (43_decoder_trie_walker.md R121). -/
def trieInsert (sym : Byte) (length : Nat) (code : Dword) (w : TrieWork) : Except Stop TrieWork := do
  let (t, w1) ← trieDescend code (length - 1) 0 w
  let b := code.getLsbD 0
  let e := tblGet w1.entry t
  if e.isLeaf || (childOf b e).isSome then prefixClash
  else
    let (_, w2) ← trieAllocate t b (leafEntry sym) w1
    .ok w2

/-- Insert the codes of a list of symbols, in order (43_decoder_trie_walker.md R121). -/
def trieInsertAll (len : Table Byte 256) (code : Table Dword 256) : List Byte → TrieWork → Except Stop TrieWork
  | [], w => .ok w
  | s :: ss, w => do
    let w' ← trieInsert s (symGet len s).toNat (symGet code s) w
    trieInsertAll len code ss w'

/-- The pseudocode of TRIE_BUILD (43_decoder_trie_walker.md R121): the trie of a canonical table, over the old TRIE
contents. -/
def buildTrie (len : Table Byte 256) (c : Canon) (old : Table TrieEntry 511) : Except Stop Trie := do
  let w ← trieInsertAll len c.code (symsList c) { entry := tblSet old 0 internalEntry, tn := 1 }
  .ok { entry := w.entry, tnodes := Fin.ofNat 512 w.tn }

/-- TRIE_BUILD (43_decoder_trie_walker.md R121). -/
def execTrieBuild (s : State) : Host.Outcome State Fault Refusal :=
  concludeOrFault spoilTrieBuild s (do
    (requireCodes s).mapError Stop.raising
    let trie ← buildTrie s.len s.canon s.trie.entry
    .ok { s with trie := trie, flags := setTrieFlag s.flags })

/-! ### DEC_SYM and DECODE -/

/-- The walk of `DecodeOne` from entry `t` to a leaf (43_decoder_trie_walker.md R123). The first argument is the number
of bits the reader can still read; with none left, `ReadBit` raises `MALFORMED_CONTAINER(2)`. -/
def walkTrie (inp : Input) (entry : Table TrieEntry 511) :
    Nat → NodeId → Reader → Run (TrieEntry × Reader)
  | 0, _, _ => raised .malformedContainer 2
  | bits + 1, t, r => do
    let (b, r') ← readBit inp r
    match childOf b (tblGet entry t) with
    | none => raised .malformedContainer 7
    | some x =>
      if (tblGet entry x).isLeaf then .ok (tblGet entry x, r') else walkTrie inp entry bits x r'

/-- The pieces of state that `DecodeOne` writes. -/
structure DecodeWork where
  reader : Reader
  writer : Writer
  res : Dword
  deriving DecidableEq, Repr

/-- `DecodeOne()` (43_decoder_trie_walker.md R123). -/
def decodeOne (cap : Nat) (inp : Input) (entry : Table TrieEntry 511) (w : DecodeWork) : Run DecodeWork := do
  let (e, r) ← walkTrie inp entry (bitsAvailable inp w.reader) 0 w.reader
  let writer ← emitByte cap e.sym w.writer
  .ok { reader := r, writer := writer, res := e.sym.setWidth 64 }

/-- `repeat k times: DecodeOne()` (43_decoder_trie_walker.md R124). -/
def decodeTimes (cap : Nat) (inp : Input) (entry : Table TrieEntry 511) : Nat → DecodeWork → Run DecodeWork
  | 0, w => .ok w
  | k + 1, w => do
    let w' ← decodeOne cap inp entry w
    decodeTimes cap inp entry k w'

/-- What DEC_SYM and DECODE start from. -/
def decodeStart (s : State) : DecodeWork := { reader := s.reader, writer := s.writer, res := s.res }

/-- The state with what DEC_SYM or DECODE wrote. -/
def withDecoded (s : State) (w : DecodeWork) : State :=
  { s with reader := w.reader, writer := w.writer, res := w.res }

/-- DEC_SYM (43_decoder_trie_walker.md R123). -/
def execDecSym (s : State) : Host.Outcome State Fault Refusal :=
  .next (conclude spoilDecSym s (do
    requireTrie s
    requireWriterAligned s
    let w ← decodeOne s.cfg.obufBytes s.input s.trie.entry (decodeStart s)
    .ok (withDecoded s w)))

/-- DECODE (43_decoder_trie_walker.md R124). -/
def execDecode (s : State) : Host.Outcome State Fault Refusal :=
  .next (conclude spoilDecode s (do
    requireTrie s
    requireWriterAligned s
    let w ← decodeTimes s.cfg.obufBytes s.input s.trie.entry (plenOperand s).toNat (decodeStart s)
    .ok (withDecoded s w)))

end Sys2Proof.Machine
end

