-- ==== Sys2Proof/Machine/TreeBuilder.lean ====
section
/-! DEFINITION. The tree builder: FREQ_INC, FREQ_SCAN and BUILD (40_tree_builder.md). -/

namespace Sys2Proof.Machine

/-! ### Frequencies -/

/-- Count one occurrence of `sym`, or `OVERFLOW(1 | sym << 8)` at the maximum (40_tree_builder.md R74, R75). -/
def countSymbol (sym : Byte) (freq : Table Dword 256) : Run (Table Dword 256) :=
  if symGet freq sym = maxCount then raised .overflow (counterInfo sym)
  else .ok (symSet freq sym (symGet freq sym + 1))

/-- Count the bytes of a list, in order (40_tree_builder.md R75). -/
def countSymbols : List Byte → Table Dword 256 → Run (Table Dword 256)
  | [], freq => .ok freq
  | b :: bs, freq => do
    let freq' ← countSymbol b freq
    countSymbols bs freq'

/-- The state with a new frequency table: the tree is stale (10_state.md R34). -/
def withFreq (s : State) (freq : Table Dword 256) : State :=
  { s with freq := freq, flags := clearTreeFlag s.flags }

/-- FREQ_INC sym (40_tree_builder.md R74). -/
def execFreqInc (sym : Byte) (s : State) : Host.Outcome State Fault Refusal :=
  .next (conclude (spoilFreqInc sym) s (do
    let freq ← countSymbol sym s.freq
    .ok (withFreq s freq)))

/-- FREQ_SCAN (40_tree_builder.md R75). -/
def execFreqScan (s : State) : Host.Outcome State Fault Refusal :=
  .next (conclude spoilFreqScan s (do
    let freq ← countSymbols (inputBytes s.input) s.freq
    .ok (withFreq s freq)))

/-! ### BUILD -/

/-- The symbols of the tree's alphabet with their counts, ascending by symbol (10_state.md R37). -/
def countedSymbols (freq : Table Dword 256) : List (Byte × Dword) :=
  (symEntries freq).filter fun p => p.2 != 0

/-- `Σ_{s=0..255} FREQ[s]`, exact (40_tree_builder.md R76). -/
def totalWeight (freq : Table Dword 256) : Nat := ((symEntries freq).map fun p => p.2.toNat).sum

/-- The key order of Queue A: weight, then symbol (40_tree_builder.md R77). -/
abbrev leafBefore (p q : Byte × Dword) : Prop :=
  p.2.toNat < q.2.toNat ∨ (p.2.toNat = q.2.toNat ∧ p.1.toNat ≤ q.1.toNat)

/-- Put a leaf at its place in a list in key order. -/
def insertLeaf (p : Byte × Dword) : List (Byte × Dword) → List (Byte × Dword)
  | [] => [p]
  | q :: qs => if leafBefore p q then p :: q :: qs else q :: insertLeaf p qs

/-- A list of leaves in key order (40_tree_builder.md R77). -/
def sortLeaves : List (Byte × Dword) → List (Byte × Dword)
  | [] => []
  | p :: ps => insertLeaf p (sortLeaves ps)

/-- A leaf of the tree (40_tree_builder.md R76). -/
def leafNode (p : Byte × Dword) : Node :=
  { isInternal := false, sym := p.1, child0 := none, child1 := none, w := p.2 }

/-- The reference to the node at index `i` (40_tree_builder.md R78). -/
def nodeRefOf (i : Nat) : NodeRef := if h : i < 511 then some ⟨i, h⟩ else none

/-- The NODE entry at index `i`; BUILD only uses indices below 511 (40_tree_builder.md R82). -/
def nodeAt (t : Table Node 511) (i : Nat) : Node := tblGet t (Fin.ofNat 511 i)

/-- NODE and the two queues during the merge (40_tree_builder.md R78). -/
structure MergeState where
  node : Table Node 511
  qa : Nat
  qb : Nat
  nx : Nat
  deriving DecidableEq, Repr

/-- The Queue A front wins, also on equal weight (40_tree_builder.md R79). -/
def queueAWins (n : Nat) (m : MergeState) : Bool :=
  decide (m.qa < n) &&
    (m.qb == m.nx || decide ((nodeAt m.node m.qa).w.toNat ≤ (nodeAt m.node m.qb).w.toNat))

/-- `Select()` (40_tree_builder.md R79): the index removed, and the queues after the removal. -/
def selectNode (n : Nat) (m : MergeState) : Nat × MergeState :=
  if queueAWins n m then (m.qa, { m with qa := m.qa + 1 }) else (m.qb, { m with qb := m.qb + 1 })

/-- The internal node over `x` and `y` (40_tree_builder.md R80). -/
def mergedNode (t : Table Node 511) (x y : Nat) : Node :=
  { isInternal := true, sym := 0, child0 := nodeRefOf x, child1 := nodeRefOf y
    w := (nodeAt t x).w + (nodeAt t y).w }

/-- One merge (40_tree_builder.md R76, R80). -/
def mergeOnce (n : Nat) (m : MergeState) : MergeState :=
  let (x, m1) := selectNode n m
  let (y, m2) := selectNode n m1
  { m2 with node := tblSet m2.node (Fin.ofNat 511 m2.nx) (mergedNode m2.node x y), nx := m2.nx + 1 }

/-- `k` merges. -/
def mergeTimes (n : Nat) : Nat → MergeState → MergeState
  | 0, m => m
  | k + 1, m => mergeTimes n k (mergeOnce n m)

/-- The tree of `leaves`, which are in key order, over the old NODE contents (40_tree_builder.md R76 to R80). -/
def treeOfLeaves (leaves : List (Byte × Dword)) (old : Table Node 511) : Tree :=
  let n := leaves.length
  let m := mergeTimes n (n - 1) { node := tblSetFrom 0 (leaves.map leafNode) old, qa := 0, qb := n, nx := n }
  { node := m.node, root := nodeRefOf (m.nx - 1), nnodes := Fin.ofNat 512 m.nx }

/-- The pseudocode of BUILD (40_tree_builder.md R76): the tree of a frequency table, over the old NODE contents. -/
def buildTree (freq : Table Dword 256) (old : Table Node 511) : Run Tree := do
  let leaves := countedSymbols freq
  require (leaves.length != 0) .emptyInput 0
  require (decide (totalWeight freq < 2 ^ 64)) .overflow 2
  .ok (treeOfLeaves (sortLeaves leaves) old)

/-- BUILD (40_tree_builder.md R76). -/
def execBuild (s : State) : Host.Outcome State Fault Refusal :=
  .next (conclude (spoilBuild (countedSymbols s.freq).length) s (do
    let tree ← buildTree s.freq s.tree.node
    .ok { s with tree := tree, flags := setTreeFlag s.flags }))

end Sys2Proof.Machine
end

