-- ==== Sys2Proof/Machine/Dispatch.lean ====
section
/-! DEFINITION. The meaning of every command, one arm per constructor (60_exceptions.md R128, `Execute`). -/

namespace Sys2Proof.Machine

def exec (i : Instr) (s : State) : Host.Outcome State Fault Refusal :=
  match i with
  -- 44_control.md
  | .nop => Sys2Proof.Machine.execNop s
  | .clear => Sys2Proof.Machine.execClear s
  -- 40_tree_builder.md
  | .freqInc sym => Sys2Proof.Machine.execFreqInc sym s
  | .freqScan => Sys2Proof.Machine.execFreqScan s
  | .build => Sys2Proof.Machine.execBuild s
  -- 41_canonical_code_generator.md
  | .walk => Sys2Proof.Machine.execWalk s
  | .canon => Sys2Proof.Machine.execCanon s
  -- 42_bitstream_packer.md
  | .putBits n => Sys2Proof.Machine.execPutBits n s
  | .putByte byte => Sys2Proof.Machine.execPutByte byte s
  | .flush => Sys2Proof.Machine.execFlush s
  | .encSym sym => Sys2Proof.Machine.execEncSym sym s
  | .encScan => Sys2Proof.Machine.execEncScan s
  | .hdrWrite => Sys2Proof.Machine.execHdrWrite s
  | .getBits n => Sys2Proof.Machine.execGetBits n s
  | .getByte => Sys2Proof.Machine.execGetByte s
  -- 43_decoder_trie_walker.md
  | .hdrRead => Sys2Proof.Machine.execHdrRead s
  | .trieBuild => Sys2Proof.Machine.execTrieBuild s
  | .decSym => Sys2Proof.Machine.execDecSym s
  | .decode => Sys2Proof.Machine.execDecode s

end Sys2Proof.Machine
end

