-- ==== Sys2Proof/Machine/Step.lean ====
section
/-! DEFINITION. One step of huffcore: one host access, one completed command, or one clock edge under reset (log 2,
log 3). -/

namespace Sys2Proof.Machine

/-- The end of a command: BUSY falls (60_exceptions.md R128). -/
def finishCommand : Host.Outcome State Fault Refusal → Host.Outcome State Fault Refusal
  | .next t => .next (endCommand t)
  | .fault f => .fault f
  | .refused r => .refused r

/-- `Execute(PEND.word)` (60_exceptions.md R128). -/
def executeWord (s : State) : Host.Outcome State Fault Refusal :=
  match decode s.pend.word with
  | .error e => .next (raiseIllegal (illegalInfo e) s)
  | .ok i => exec i s

/-- `SequencerStep`, enabled when a command is pending (60_exceptions.md R128); idle otherwise (R148). -/
def sequencerStep (s : State) : Host.Outcome State Fault Refusal :=
  if s.pend.valid then finishCommand (executeWord s) else .next s

/-- The state as an event begins: the rest of the script remains, and the bus replies to nothing yet. -/
def beginEvent (rest : List HostEvent) (s : State) : State := { s with script := rest, bus := .idle }

/-- One event. -/
def runEvent (e : HostEvent) (s : State) : Host.Outcome State Fault Refusal :=
  match e with
  | .access a => .next (hostAccess a s)
  | .complete => sequencerStep s
  | .resetEdge presented => .next (resetEdge presented s)

/-- One step: the next event of the script. With the script at its end the host does nothing more, and a pending
command completes. -/
def step (s : State) : Host.Outcome State Fault Refusal :=
  match s.script with
  | [] => sequencerStep (beginEvent [] s)
  | e :: rest => runEvent e (beginEvent rest s)

/-- `s` with the command word `w` of `nbits` bits pending and its completion the next event, so that `step` runs it
next. It stands for a CMD write of the host that has been accepted (60_exceptions.md R128; log 2). -/
def State.withFetchWord (s : State) (nbits w : Nat) : State :=
  { s with pend := { valid := true, word := tableWord nbits w }, script := .complete :: s.script }

end Sys2Proof.Machine
end

