-- ==== Sys2Proof/Machine/Assembler.lean ====
section
/-! DEFINITION. The assembler syntax of a command (30_encoding.md R68), on the characters of one line. -/

namespace Sys2Proof.Machine

/-- The tokens of a line: a quoted character is one token, `;` starts a comment, spaces separate
(30_encoding.md R68; log 13). The second argument holds the current token, its last character first. -/
def lineTokens : List Char → List Char → List (List Char)
  | [], cur => if cur.isEmpty then [] else [cur.reverse]
  | '\'' :: c :: '\'' :: cs, [] => ['\'', c, '\''] :: lineTokens cs []
  | c :: cs, cur =>
    if c = ';' then if cur.isEmpty then [] else [cur.reverse]
    else if c = ' ' then if cur.isEmpty then lineTokens cs [] else cur.reverse :: lineTokens cs []
    else lineTokens cs (c :: cur)

/-- The value of a digit in base 16. -/
def digitValue (c : Char) : Option Nat :=
  if '0' ≤ c ∧ c ≤ '9' then some (c.toNat - '0'.toNat)
  else if 'a' ≤ c ∧ c ≤ 'f' then some (c.toNat - 'a'.toNat + 10)
  else if 'A' ≤ c ∧ c ≤ 'F' then some (c.toNat - 'A'.toNat + 10)
  else none

/-- The value of a string of digits in a base, after the digits read so far. -/
def digitsValue (base : Nat) : List Char → Nat → Option Nat
  | [], v => some v
  | c :: cs, v =>
    match digitValue c with
    | some d => if d < base then digitsValue base cs (base * v + d) else none
    | none => none

/-- A decimal number (30_encoding.md R68). -/
def decimalOperand (cs : List Char) : Option Nat := if cs.isEmpty then none else digitsValue 10 cs 0

/-- An S operand: a decimal number, a `0x` hexadecimal number or a quoted ASCII character (30_encoding.md R68). -/
def symbolText (cs : List Char) : Option Nat :=
  match cs with
  | ['\'', c, '\''] => if c.toNat < 128 then some c.toNat else none
  | '0' :: 'x' :: d :: ds => digitsValue 16 (d :: ds) 0
  | _ => decimalOperand cs

/-- The operand text of a format: L operands are decimal numbers (30_encoding.md R68). -/
def operandText (f : Format) (cs : List Char) : Option Nat :=
  match f with
  | .noOperand => none
  | .symbol => symbolText cs
  | .bitCount => decimalOperand cs

/-- The word `{16'b0, A[7:0], OP[7:0]}` (30_encoding.md R68). -/
def assembledWord (row : OpcodeRow) (a : Nat) : Word := 0#16 ++ BitVec.ofNat 8 a ++ opField row.pattern

/-- The command word of one line, none where the line is not a command (30_encoding.md R68). -/
def assemble (line : List Char) : Option Word :=
  match lineTokens line [] with
  | [m] =>
    match opcodeTable.find? fun row => row.mnemonic == String.ofList m with
    | some row => if row.format = .noOperand then some (assembledWord row 0) else none
    | none => none
  | [m, o] =>
    match opcodeTable.find? fun row => row.mnemonic == String.ofList m with
    | some row =>
      match operandText row.format o with
      | some a => if a < 256 ∧ operandLegal row.format (BitVec.ofNat 8 a) then some (assembledWord row a) else none
      | none => none
    | none => none
  | _ => none

end Sys2Proof.Machine
end

