-- ==== Sys2Proof/Machine/HostProgram.lean ====
section
/-! DEFINITION. Host programs as lists of host events (30_encoding.md R69 to R72). -/

namespace Sys2Proof.Machine

/-- A host read of a register or window entry, by name. -/
def readEvent (name : BusTarget) : HostEvent := .access (.read (targetAddr name))

/-- A host write of a register or window entry, by name. -/
def writeEvent (name : BusTarget) (v : Word) : HostEvent := .access (.write (targetAddr name) v)

/-- `poll`: `rd STATUS` until BUSY = 0 (30_encoding.md R69). `k` of the reads come before the pending command
completes; any `k` is possible, since a command's duration is unspecified (70_reset_and_hazards.md R161). DESIGN CHOICE
(log 16): where no command is pending, as after a dropped word, R69's poll is the case `k = 0`, whose completion event
changes nothing; a larger `k` then stands for further reads, which have no side effect. -/
def pollEvents (k : Nat) : List HostEvent :=
  List.replicate k (readEvent .status) ++ [.complete, readEvent .status]

/-- `cmd`: the write of the command's word to CMD, then `poll` (30_encoding.md R69). -/
def cmdEvents (k : Nat) (i : Instr) : List HostEvent := writeEvent .cmd (encode i) :: pollEvents k

/-- The IBUF window word from four bytes, little-endian (20_memory.md R50). -/
def packWordBytes (b0 b1 b2 b3 : Byte) : Word := b3 ++ b2 ++ b1 ++ b0

/-- `load IBUF, b0 b1 ...`: the writes from window word `j` on, the last word's unused lanes 0 (30_encoding.md R69).
DESIGN CHOICE (log 16): R69 gives no meaning to a load of more than the window's `2^24` bytes, since no `IBUF[k]` is
there; here its writes go on at the window's first word. -/
def loadEventsFrom : Nat → List Byte → List HostEvent
  | _, [] => []
  | j, [b0] => [writeEvent (.ibuf (Fin.ofNat _ j)) (packWordBytes b0 0 0 0)]
  | j, [b0, b1] => [writeEvent (.ibuf (Fin.ofNat _ j)) (packWordBytes b0 b1 0 0)]
  | j, [b0, b1, b2] => [writeEvent (.ibuf (Fin.ofNat _ j)) (packWordBytes b0 b1 b2 0)]
  | j, b0 :: b1 :: b2 :: b3 :: bs =>
    writeEvent (.ibuf (Fin.ofNat _ j)) (packWordBytes b0 b1 b2 b3) :: loadEventsFrom (j + 1) bs

/-- `load IBUF, bytes` (30_encoding.md R69). -/
def loadEvents (bytes : List Byte) : List HostEvent := loadEventsFrom 0 bytes

/-- A host action (30_encoding.md R69). -/
inductive HostAction where
  | wr (name : BusTarget) (v : Word)
  | rd (name : BusTarget)
  | load (bytes : List Byte)
  | cmd (i : Instr)
  | poll
  deriving DecidableEq, Repr

/-- The events of a host action, with `k` busy reads in each poll. -/
def actionEvents (k : Nat) : HostAction → List HostEvent
  | .wr name v => [writeEvent name v]
  | .rd name => [readEvent name]
  | .load bytes => loadEvents bytes
  | .cmd i => cmdEvents k i
  | .poll => pollEvents k

/-- The events of a host program. `busy` numbers the actions: action `n` of the program, if it polls, reads STATUS
`busy n` times while its command is pending. Each command has a duration of its own (70_reset_and_hazards.md R161;
log 16). DESIGN CHOICE (log 16): the command of a bare `wr CMD, word` may complete at any later time; here it completes
in the next `poll` or `cmd`, or at the script's end, so that a `wr`, `rd` or `load` in between meets BUSY = 1. Any other
schedule is a script that is not of this form. -/
def programEvents (busy : Nat → Nat) (program : List HostAction) : List HostEvent :=
  (program.zipIdx.map fun p => actionEvents (busy p.2) p.1).flatten

/-- The state with a host program to run. -/
def State.withProgram (s : State) (busy : Nat → Nat) (program : List HostAction) : State :=
  { s with script := programEvents busy program }

/-! ### Pseudo-commands (30_encoding.md R70) -/

/-- `GEN`. -/
def genActions : List HostAction := [.cmd .walk, .cmd .canon]

/-- `PUT_CODE_RAW v, n`. -/
def putCodeRawActions (v : Dword) (n : Byte) : List HostAction :=
  [.wr .argLo (lowHalf v), .wr .argHi (highHalf v), .cmd (.putBits n)]

/-- `SET_PLEN p`. -/
def setPlenActions (p : Dword) : List HostAction := [.wr .plenLo (lowHalf p), .wr .plenHi (highHalf p)]

/-! ### The source's `encode` and `decode` (30_encoding.md R71, R72) -/

/-- `ENCODE bytes` (30_encoding.md R71). -/
def encodeProgram (bytes : List Byte) : List HostAction :=
  [.load bytes, .wr .inLen (BitVec.ofNat 32 bytes.length), .cmd .clear] ++
  setPlenActions (BitVec.ofNat 64 bytes.length) ++
  [.cmd .freqScan, .cmd .build] ++ genActions ++ [.cmd .hdrWrite, .cmd .encScan, .cmd .flush]

/-- `DECODE_CONTAINER bytes` (30_encoding.md R72). -/
def decodeProgram (bytes : List Byte) : List HostAction :=
  [.load bytes, .wr .inLen (BitVec.ofNat 32 bytes.length), .cmd .clear, .cmd .hdrRead, .cmd .trieBuild,
    .cmd .decode]

/-- The output bytes `OBUF[0 .. OUT_LEN-1]` (20_memory.md R51; 30_encoding.md R71, R72). -/
def outputBytes (s : State) : List Byte := (List.range s.writer.outLen.toNat).map (obufRead s.writer.obuf)

end Sys2Proof.Machine
end

