-- ==== Sys2Proof/Safety.lean ====
section
/-! DEFINITION. What a good state is, and the terms the statements use: streams of bits, trees and tries as data, and
sets of code words. -/

namespace Sys2Proof.Machine

/-! ### Invariants -/

/-- `W_ACC[7 : W_CNT] = 0` (10_state.md R36). -/
def writerPadded (w : Writer) : Bool := decide (w.acc.toNat < 2 ^ w.cnt.val)

/-- Every byte a memory holds is at an index below `n`. -/
def cellsBelow (m : Memory) (n : Nat) : Bool := m.all fun c => decide (c.1 < n)

/-- No command but CLEAR is pending (60_exceptions.md R128). -/
def onlyClearPending (s : State) : Prop := s.pend.valid = true → s.pend.word = clearWord

/-- What every state reached from reset has, by itself. -/
structure State.Inv (s : State) : Prop where
  /-- The parameters are in their ranges (00_scope.md R7). -/
  cfg_wf : s.cfg.wf = true
  /-- The buffers have their canonical form, and hold only bytes that exist (10_state.md R44). -/
  ibuf_wf : Memory.wf s.input.mem = true
  ibuf_below : cellsBelow s.input.mem s.cfg.ibufBytes = true
  obuf_wf : Memory.wf s.writer.obuf.cells = true
  obuf_below : cellsBelow s.writer.obuf.cells s.cfg.obufBytes = true
  /-- IN_LEN, IN_POS and OUT_LEN are at most their buffer's size (10_state.md R24 to R26). -/
  in_len : s.input.len.toNat ≤ s.cfg.ibufBytes
  in_pos : s.reader.pos.toNat ≤ s.cfg.ibufBytes
  out_len : s.writer.outLen.toNat ≤ s.cfg.obufBytes
  /-- `HIST[0]` is 0 (10_state.md R41). -/
  hist_zero : symGet s.canon.hist 0 = 0
  /-- ERR_CMD and ERR_INFO are 0 while ERR is 0 (10_state.md R19, R20). -/
  err_none : s.errs.err = .none → s.errs.cmd = 0 ∧ s.errs.info = 0
  /-- ERR_CMD is 0 for BUSY_WRITE (10_state.md R19). -/
  err_busy : s.errs.err = .busyWrite → s.errs.cmd = 0
  /-- While ERR is not 0 only CLEAR is pending, unless the error came while the command ran (60_exceptions.md R128,
  R139). -/
  pend_clear : s.errs.err ≠ .none → s.errs.err ≠ .busyWrite → onlyClearPending s
  /-- The writer's unused bits are 0 (10_state.md R36), except between a raise that left the writer unspecified and the
  CLEAR or OUT_LEN write that ends it (60_exceptions.md R134). -/
  padded : writerPadded s.writer = true ∨ (s.errs.err ≠ .none ∧ onlyClearPending s)

/-- What the validity flags promise (10_state.md R34): a table whose flag is 1 is the one its command would build
again. -/
structure State.Current (s : State) : Prop where
  tree : s.flags.tree = true → buildTree s.freq s.tree.node = .ok s.tree
  codes : s.flags.codes = true → buildCanon s.cfg.maxCodeLen s.len s.canon = .ok s.canon
  trie : s.flags.trie = true → s.flags.codes = true ∧ buildTrie s.len s.canon s.trie.entry = .ok s.trie

/-- The machine goes on from `s`: its step is neither a fault nor a refusal. -/
def goesOn (s : State) : Prop := ∃ t, step s = .next t

/-! ### Streams of bits -/

/-- How many bits the writer has written since OUT_LEN was 0. -/
def bitsWritten (w : Writer) : Nat := 8 * w.outLen.toNat + w.cnt.val

/-- Bit `p` of the output stream: bytes fill from their least significant bit upward (42_bitstream_packer.md R95). -/
def outputBit (w : Writer) (p : Nat) : Bool :=
  if p / 8 < w.outLen.toNat then (obufRead w.obuf (p / 8)).getLsbD (p % 8) else w.acc.getLsbD (p % 8)

/-- There is room in OBUF for the bytes that `n` more bits complete (42_bitstream_packer.md R97). -/
def roomForBits (s : State) (n : Nat) : Bool := decide ((bitsWritten s.writer + n) / 8 ≤ s.cfg.obufBytes)

/-- The `n` low bits of `v`, most significant first: the order `WriteBits` sends them in
(42_bitstream_packer.md R96). -/
def bitsOf (v : Dword) (n : Nat) : List Bool := (List.range n).map fun i => v.getLsbD (n - 1 - i)

/-- The output stream of `t` is that of `s` with `bits` appended, and the unused bits of its last byte are 0. -/
def appendsBits (s t : Writer) (bits : List Bool) : Prop :=
  bitsWritten t = bitsWritten s + bits.length ∧ writerPadded t = true ∧
  (∀ p, p < bitsWritten s → outputBit t p = outputBit s p) ∧
  ∀ i (h : i < bits.length), outputBit t (bitsWritten s + i) = bits[i]

/-- `bytes` stand in OBUF at OUT_LEN of `s`, OUT_LEN has moved past them, and nothing else of the writer has changed. -/
def appendsBytes (s t : Writer) (bytes : List Byte) : Prop :=
  t.outLen.toNat = s.outLen.toNat + bytes.length ∧ t.acc = s.acc ∧ t.cnt = s.cnt ∧
  (∀ k, k < s.outLen.toNat ∨ s.outLen.toNat + bytes.length ≤ k → obufRead t.obuf k = obufRead s.obuf k) ∧
  ∀ i (h : i < bytes.length), obufRead t.obuf (s.outLen.toNat + i) = bytes[i]

/-- Bit `p` of the input that the reader has not read yet (42_bitstream_packer.md R98). -/
def inputBit (inp : Input) (r : Reader) (p : Nat) : Bool :=
  if p < r.left.val then r.acc.getLsbD (8 - r.left.val + p)
  else (ibufRead inp (r.pos.toNat + (p - r.left.val) / 8)).getLsbD ((p - r.left.val) % 8)

/-- The next input bits are `bits`, and there are that many. -/
def inputHolds (inp : Input) (r : Reader) (bits : List Bool) : Prop :=
  bits.length ≤ bitsAvailable inp r ∧ ∀ i (h : i < bits.length), inputBit inp r i = bits[i]

/-- The number of bytes the reader loads to read `n` bits: one whenever none is left (42_bitstream_packer.md R98). -/
def bytesLoaded (r : Reader) (n : Nat) : Nat := (n - r.left.val + 7) / 8

/-- The reader `r'` stands `n` bits after `r` (42_bitstream_packer.md R98). -/
def readerAdvanced (inp : Input) (r r' : Reader) (n : Nat) : Prop :=
  r'.pos.toNat = r.pos.toNat + bytesLoaded r n ∧
  r'.left.val + n = r.left.val + 8 * bytesLoaded r n ∧
  r'.acc = if bytesLoaded r n = 0 then r.acc else ibufRead inp (r.pos.toNat + bytesLoaded r n - 1)

/-- The number whose most significant bit is the first of `bits` (42_bitstream_packer.md R99). -/
def numberOfBits (bits : List Bool) : Nat := bits.foldl (fun v b => 2 * v + b.toNat) 0

/-- The bytes of the input from index `k` on are `bytes`, below IN_LEN. -/
def inputHoldsBytes (inp : Input) (k : Nat) (bytes : List Byte) : Prop :=
  k + bytes.length ≤ inp.len.toNat ∧ ∀ i (h : i < bytes.length), ibufRead inp (k + i) = bytes[i]

/-! ### Trees and tries -/

/-- A strictly binary tree with a symbol at each leaf (40_tree_builder.md R82 item 6). -/
inductive BinTree where
  | leaf (sym : Byte)
  | branch (left right : BinTree)
  deriving DecidableEq, Repr

/-- The number of nodes. -/
def BinTree.size : BinTree → Nat
  | .leaf _ => 1
  | .branch l r => 1 + l.size + r.size

/-- The leaves from left to right, each with the edges from the root to it: 0 left, 1 right. -/
def BinTree.paths : BinTree → List (Byte × List Bool)
  | .leaf s => [(s, [])]
  | .branch l r =>
    l.paths.map (fun p => (p.1, false :: p.2)) ++ r.paths.map (fun p => (p.1, true :: p.2))

/-- The symbols at the leaves, from left to right. -/
def BinTree.symbols (t : BinTree) : List Byte := t.paths.map fun p => p.1

/-- NODE holds the tree at a reference (40_tree_builder.md R80): left child bit 0, right child bit 1. -/
def BinTree.storedInNode (node : Table Node 511) : BinTree → NodeRef → Prop
  | .leaf _, none => False
  | .branch _ _, none => False
  | .leaf s, some t => (tblGet node t).isInternal = false ∧ (tblGet node t).sym = s
  | .branch l r, some t =>
    (tblGet node t).isInternal = true ∧ l.storedInNode node (tblGet node t).child0 ∧
      r.storedInNode node (tblGet node t).child1

/-- The weight NODE holds at each node of the tree is the sum of the counts of the leaves below it
(00_scope.md R14; 40_tree_builder.md R80). -/
def BinTree.weighed (node : Table Node 511) (freq : Table Dword 256) : BinTree → NodeRef → Prop
  | .leaf _, none => False
  | .branch _ _, none => False
  | .leaf s, some t => (tblGet node t).w = symGet freq s
  | .branch l r, some t =>
    (tblGet node t).w.toNat =
        ((BinTree.branch l r).symbols.map fun s => (symGet freq s).toNat).sum ∧
      l.weighed node freq (tblGet node t).child0 ∧ r.weighed node freq (tblGet node t).child1

/-- TRIE holds the tree at a reference (43_decoder_trie_walker.md R121). -/
def BinTree.storedInTrie (entry : Table TrieEntry 511) : BinTree → NodeRef → Prop
  | .leaf _, none => False
  | .branch _ _, none => False
  | .leaf s, some t => (tblGet entry t).isLeaf = true ∧ (tblGet entry t).sym = s
  | .branch l r, some t =>
    (tblGet entry t).isLeaf = false ∧ l.storedInTrie entry (tblGet entry t).child0 ∧
      r.storedInTrie entry (tblGet entry t).child1

/-- The symbol of the leaf that `bits` lead to from entry `t`, where each bit but the last leads to an internal entry
(43_decoder_trie_walker.md R123). -/
def trieLeafFor (entry : Table TrieEntry 511) : NodeId → List Bool → Option Byte
  | _, [] => none
  | t, b :: bs =>
    match childOf b (tblGet entry t) with
    | none => none
    | some x =>
      if (tblGet entry x).isLeaf then if bs.isEmpty then some (tblGet entry x).sym else none
      else trieLeafFor entry x bs

/-! ### Sets of code lengths -/

/-- The number of symbols with a code. -/
def codedCount (len : Table Byte 256) : Nat := (allSymbols.filter fun s => symGet len s != 0).length

/-- `m` is the longest length in use (41_canonical_code_generator.md R88). -/
def isLongest (len : Table Byte 256) (m : Nat) : Prop :=
  (∀ s, (symGet len s).toNat ≤ m) ∧ ∃ s, (symGet len s).toNat = m

/-- The Kraft sum of a length table, scaled by `2^m` (41_canonical_code_generator.md R91). -/
def tableKraft (len : Table Byte 256) (m : Nat) : Nat :=
  ((allSymbols.filter fun s => symGet len s != 0).map fun s => 2 ^ (m - (symGet len s).toNat)).sum

/-- The lengths are those of a full prefix code, or of one symbol with length 1 (41_canonical_code_generator.md
R91). -/
def fullCode (len : Table Byte 256) (m : Nat) : Prop :=
  (codedCount len = 1 ∧ m = 1) ∨ (2 ≤ codedCount len ∧ tableKraft len m = 2 ^ m)

/-- The code of a symbol as the bits that are sent (42_bitstream_packer.md R105). -/
def codeWord (len : Table Byte 256) (code : Table Dword 256) (s : Byte) : List Bool :=
  bitsOf (symGet code s) (symGet len s).toNat

/-! ### Errors -/

/-- What the error registers hold after a raise of `kind` with `info` in the command PEND holds: only the first error
is recorded (60_exceptions.md R133, R137). -/
def recorded (s : State) (kind : Err) (info : Word) : ErrRegs :=
  if s.errs.err = .none then { err := kind, cmd := s.pend.word, info := info } else s.errs

/-- The command that led from `s` to `t` raised. A raise draws the unspecified values of the Writes line, and a command
that completes draws none (60_exceptions.md R134; log 4). -/
def raisedIn (s t : State) : Bool := t.draws != s.draws

/-- The command raises `kind` with `info`. -/
def raises (i : Instr) (s : State) (kind : Err) (info : Word) : Prop :=
  ∃ t, exec i s = .next t ∧ raisedIn s t = true ∧ t.errs = recorded s kind info

/-- The kinds a command may raise (60_exceptions.md R129). -/
def mayRaise (i : Instr) (kind : Err) : Bool :=
  match kind with
  | .emptyInput => (i matches .build | .canon)
  | .malformedContainer => (i matches .getBits _ | .getByte | .hdrRead | .trieBuild | .decSym | .decode)
  | .unrepresentableCode => (i matches .walk | .canon | .hdrRead)
  | .sequence =>
    (i matches .walk | .putByte _ | .encSym _ | .encScan | .hdrWrite | .getByte | .hdrRead | .trieBuild | .decSym |
      .decode)
  | .noCode => (i matches .encSym _ | .encScan)
  | .overflow =>
    (i matches .freqInc _ | .freqScan | .build | .putBits _ | .putByte _ | .flush | .encSym _ | .encScan | .hdrWrite |
      .decSym | .decode)
  | .badLengths => (i matches .canon)
  | .none | .illegalCommand | .busyWrite => false

/-- F_TREE after a command (10_state.md R34). -/
def treeFlagAfter (i : Instr) (raised old : Bool) : Bool :=
  match i with
  | .build => !raised
  | .clear | .freqInc _ | .freqScan => false
  | _ => old

/-- F_CODES after a command (10_state.md R34). -/
def codesFlagAfter (i : Instr) (raised old : Bool) : Bool :=
  match i with
  | .canon | .hdrRead => !raised
  | .clear | .walk => false
  | _ => old

/-- F_TRIE after a command (10_state.md R34). -/
def trieFlagAfter (i : Instr) (raised old : Bool) : Bool :=
  match i with
  | .trieBuild => !raised
  | .clear | .walk | .canon | .hdrRead => false
  | _ => old

/-! ### The bus -/

/-- The unmapped ranges of the address map (20_memory.md R47). -/
def unmappedRange (a : Nat) : Prop :=
  (0x58 ≤ a ∧ a ≤ 0xFFF) ∨ (0x1C00 ≤ a ∧ a ≤ 0x1FFF) ∨ (0x4FF0 ≤ a ∧ a ≤ 0x4FFF) ∨ (0x57FC ≤ a ∧ a ≤ 0xFFFFFF) ∨
    (0x3000000 ≤ a ∧ a ≤ 0x3FFFFFF)

/-- The read-only registers and windows (10_state.md section 2; 20_memory.md R47). -/
def readOnlyTarget : BusTarget → Bool
  | .status | .errCmd | .errInfo | .resLo | .resHi | .nsym | .maxlen | .root | .nnodes | .tnodes
  | .capIn | .capOut | .capMaxlen | .pack | .codeLo _ | .codeHi _ | .hist _ | .syms _ | .node _ _ | .trie _
  | .obuf _ => true
  | _ => false

/-- A word of the FREQ window. -/
def freqTarget : BusTarget → Bool
  | .freqLo _ | .freqHi _ => true
  | _ => false

/-- A word of the LEN window. -/
def lenTarget : BusTarget → Bool
  | .len _ => true
  | _ => false

/-! ### Frequencies and the merge -/

/-- The number of symbols with a nonzero count (40_tree_builder.md R76). -/
def countedCount (freq : Table Dword 256) : Nat := (allSymbols.filter fun s => symGet freq s != 0).length

/-- `Σ_s FREQ[s]` (40_tree_builder.md R76). -/
def weightSum (freq : Table Dword 256) : Nat := (allSymbols.map fun s => (symGet freq s).toNat).sum

/-- BUILD has a tree to build: neither of its errors applies (40_tree_builder.md R76). -/
def buildable (freq : Table Dword 256) : Prop := 1 ≤ countedCount freq ∧ weightSum freq < 2 ^ 64

/-- The key order of the leaves: weight, then symbol (40_tree_builder.md R77). -/
def leafKeyBefore (freq : Table Dword 256) (x y : Byte) : Prop :=
  (symGet freq x).toNat < (symGet freq y).toNat ∨
    ((symGet freq x).toNat = (symGet freq y).toNat ∧ x.toNat < y.toNat)

/-- The key order of nodes: weight, then index (40_tree_builder.md R81). -/
def nodeKeyBefore (node : Table Node 511) (x y : Nat) : Prop :=
  (nodeAt node x).w.toNat < (nodeAt node y).w.toNat ∨
    ((nodeAt node x).w.toNat = (nodeAt node y).w.toNat ∧ x < y)

/-- No merge before the one that made node `k` has consumed node `z` (40_tree_builder.md R78). -/
def unconsumed (node : Table Node 511) (n k z : Nat) : Prop :=
  ∀ j, n ≤ j → j < k → (nodeAt node j).child0 ≠ nodeRefOf z ∧ (nodeAt node j).child1 ≠ nodeRefOf z

/-! ### Canonical tables -/

/-- The canonical order: length, then symbol (41_canonical_code_generator.md R89). -/
def canonKeyBefore (len : Table Byte 256) (x y : Byte) : Prop :=
  (symGet len x).toNat < (symGet len y).toNat ∨
    ((symGet len x).toNat = (symGet len y).toNat ∧ x.toNat < y.toNat)

/-- The number of symbols of length `l` (41_canonical_code_generator.md R93). -/
def symbolsWithLength (len : Table Byte 256) (l : Byte) : Nat := (allSymbols.filter fun s => symGet len s == l).length

/-- What the command built a new canonical table from and completed (10_state.md R34). -/
def buildsTable (i : Instr) (s t : State) : Prop :=
  (i = .canon ∨ i = .hdrRead) ∧ exec i s = .next t ∧ raisedIn s t = false

/-! ### Headers -/

/-- The histogram `H[1..m]` of the raw bytes, with the escape of 43_decoder_trie_walker.md R117. -/
def histogramRead (raw : List Byte) : List Nat :=
  if raw.length = 8 ∧ ∀ b ∈ raw, b = 0 then [0, 0, 0, 0, 0, 0, 0, 256] else raw.map fun b => b.toNat

/-- `L` is the least length with `H[1] + ... + H[L] > i` (43_decoder_trie_walker.md R119). -/
def positionLength (hist : List Nat) (i l : Nat) : Prop := (hist.take (l - 1)).sum ≤ i ∧ i < (hist.take l).sum

/-- `Σ H[L] · 2^(m-L)` (43_decoder_trie_walker.md R115). -/
def histogramKraft (hist : List Nat) : Nat :=
  ((List.range hist.length).map fun k => hist.getD k 0 * 2 ^ (hist.length - (k + 1))).sum

/-- Checks 3 to 6 of 43_decoder_trie_walker.md R118 pass. -/
def histogramAccepted (maxLen : Nat) (hist : List Nat) : Prop :=
  1 ≤ hist.sum ∧ hist.sum ≤ 256 ∧ hist.getLast? ≠ some 0 ∧ hist.length ≤ maxLen ∧
    ((hist.sum = 1 ∧ hist.length = 1) ∨ (2 ≤ hist.sum ∧ histogramKraft hist = 2 ^ hist.length))

/-- Check 7 of 43_decoder_trie_walker.md R118 passes: no symbol repeats, and symbols of one length ascend. -/
def symbolsInOrder (hist : List Nat) (syms : List Byte) : Prop :=
  syms.Nodup ∧ ∀ i l x y, syms[i]? = some x → syms[i + 1]? = some y → positionLength hist i l →
    positionLength hist (i + 1) l → x.toNat < y.toNat

/-! ### Tries and bit fields -/

/-- The internal entry that `bits` lead to from entry `t` (43_decoder_trie_walker.md R123). -/
def trieReach (entry : Table TrieEntry 511) : NodeId → List Bool → Option NodeId
  | t, [] => some t
  | t, b :: bs =>
    match childOf b (tblGet entry t) with
    | none => none
    | some x => if (tblGet entry x).isLeaf then none else trieReach entry x bs

/-- `WriteBits` of each field (42_bitstream_packer.md R101). -/
def writeFields (cap : Nat) : List (Dword × Nat) → Writer → Run Writer
  | [], w => .ok w
  | f :: fs, w => do
    let w' ← writeBits cap f.1 f.2 w
    writeFields cap fs w'

/-- `ReadBits` of each width (42_bitstream_packer.md R101). -/
def readFields (inp : Input) : List Nat → Reader → Run (List Nat × Reader)
  | [], r => .ok ([], r)
  | n :: ns, r => do
    let (v, r') ← readBits inp n r
    let (vs, r'') ← readFields inp ns r'
    .ok (v :: vs, r'')

end Sys2Proof.Machine
end

