-- ==== Sys2Proof/Certificates/Slice0/Obligations.lean ====
section
/-! DEFINITION. The statements for the provers. -/

section ObligationStatements

open Sys2Proof Sys2Proof.Machine

/-! ### Encoding (30_encoding.md) -/

/-- 30_encoding.md R61 to R64, R68: decoding the word of a command gives the command, with every legal operand, and a
word that decodes to a command is that command's word. -/
def Obligations.DecodeAndEncodeAgree : Prop :=
  (∀ i : Instr, wellFormed i = true → decode (encode i) = .ok i) ∧
  ∀ (w : Word) (i : Instr), decode w = .ok i → wellFormed i = true ∧ encode i = w

/-- 30_encoding.md R66. -/
def Obligations.EveryWordMatchesOneRowOrIsIllegal : Prop :=
  ∀ w : Word,
    (∀ r ∈ opcodeTable, rowMatches r w = true → ∃ i, decode w = .ok i ∧ mnemonicOf i = r.mnemonic) ∧
    (∀ r ∈ opcodeTable, ∀ r' ∈ opcodeTable, rowMatches r w = true → rowMatches r' w = true → r = r') ∧
    ((∀ r ∈ opcodeTable, rowMatches r w = false) → ∃ e, decode w = .error e)

/-- 30_encoding.md R65: which words are illegal, in the order of the checks, and what an illegal word does. -/
def Obligations.IllegalWordsRaise : Prop :=
  ∀ w : Word,
    ((∀ r ∈ opcodeTable, opField r.pattern ≠ opField w) → decode w = .error .unassignedOp) ∧
    (∀ r ∈ opcodeTable, opField r.pattern = opField w →
      (reservedField w ≠ 0 → decode w = .error .reservedNotZero) ∧
      (reservedField w = 0 →
        (r.format = .noOperand ∧ operandField w ≠ 0) ∨ (r.format = .bitCount ∧ 64 < (operandField w).toNat) →
        decode w = .error .operandOutOfRange) ∧
      (reservedField w = 0 →
        ¬((r.format = .noOperand ∧ operandField w ≠ 0) ∨ (r.format = .bitCount ∧ 64 < (operandField w).toNat)) →
        ∃ i, decode w = .ok i)) ∧
    (∀ (s : State) (e : Illegal), s.pend = { valid := true, word := w } → decode w = .error e →
      sequencerStep s =
        .next { s with
          pend := { valid := false, word := w }
          errs := recorded s .illegalCommand (illegalInfo e) }) ∧
    illegalInfo .unassignedOp = 1 ∧ illegalInfo .reservedNotZero = 2 ∧ illegalInfo .operandOutOfRange = 3

/-- 30_encoding.md R64, R68: words written out from the encoding, one per unit and format. -/
def Obligations.SampleWordsDecode : Prop :=
  decode 0x00000001 = .ok .clear ∧ decode 0x00006110 = .ok (.freqInc 0x61) ∧ decode 0x00000020 = .ok .build ∧
  decode 0x00000031 = .ok .canon ∧ decode 0x00000340 = .ok (.putBits 3) ∧ decode 0x00006143 = .ok (.encSym 0x61) ∧
  decode 0x00004050 = .ok (.getBits 64) ∧ decode 0x00000055 = .ok .decode ∧
  decode 0x00004150 = .error .operandOutOfRange ∧ decode 0x00010000 = .error .reservedNotZero ∧
  decode 0x00000002 = .error .unassignedOp

/-! ### The step -/

/-- A step runs the decoded command: where PEND holds a word that decodes to a command and the next event is its
completion, the step is `exec` of the command, after which BUSY falls (60_exceptions.md R128). -/
def Obligations.StepRunsDecodedCommand : Prop :=
  (∀ (s : State) (i : Instr) (rest : List HostEvent), s.pend.valid = true → decode s.pend.word = .ok i →
    (s.script = [] → step s = finishCommand (exec i { s with bus := .idle })) ∧
    (s.script = .complete :: rest → step s = finishCommand (exec i { s with bus := .idle, script := rest }))) ∧
  (∀ (s : State) (i : Instr) (nbits w : Nat), decode (tableWord nbits w) = .ok i →
    step (s.withFetchWord nbits w) =
      finishCommand (exec i { s with bus := .idle, pend := { valid := true, word := tableWord nbits w } })) ∧
  ∀ t : State, finishCommand (.next t) = .next { t with pend := { t.pend with valid := false } }

/-- 60_exceptions.md R128: a write to CMD, and the sequencer's step. -/
def Obligations.CommandAcceptance : Prop :=
  ∀ (s : State) (w : Word),
    (s.pend.valid = true →
      hostWrite 0x000 w s =
        { s with
          bus := .acked
          errs := if s.errs.err = .none then { err := .busyWrite, cmd := 0, info := 0 } else s.errs }) ∧
    (s.pend.valid = false → s.errs.err ≠ .none → w = 0x00000001 →
      hostWrite 0x000 w s = { s with bus := .acked, pend := { valid := true, word := w } }) ∧
    (s.pend.valid = false → s.errs.err ≠ .none → w ≠ 0x00000001 → hostWrite 0x000 w s = { s with bus := .acked }) ∧
    (s.pend.valid = false → s.errs.err = .none →
      hostWrite 0x000 w s = { s with bus := .acked, pend := { valid := true, word := w } }) ∧
    (s.pend.valid = false → sequencerStep s = .next s) ∧
    (∀ e, s.pend.valid = true → decode s.pend.word = .error e →
      sequencerStep s =
        .next { s with
          pend := { s.pend with valid := false }
          errs := recorded s .illegalCommand (illegalInfo e) }) ∧
    ∀ i t, s.pend.valid = true → decode s.pend.word = .ok i → exec i s = .next t →
      sequencerStep s = .next { t with pend := { t.pend with valid := false } }

/-- 60_exceptions.md R139: a write while a command is pending is dropped and recorded, and the command runs as it would
have. CLEAR is left out of the last part: it ends the error that the write recorded (44_control.md R127). -/
def Obligations.BusyWritesAreDropped : Prop :=
  ∀ (s : State) (a : Addr) (w : Word), s.pend.valid = true →
    hostWrite a w s =
      { s with
        bus := .acked
        errs := if s.errs.err = .none then { err := .busyWrite, cmd := 0, info := a.setWidth 32 } else s.errs } ∧
    ∀ i t, i ≠ .clear → exec i s = .next t →
      ∃ t', exec i (hostWrite a w s) = .next t' ∧ t'.errs = (hostWrite a w s).errs ∧ t'.errs.err ≠ .none ∧
        { t' with errs := t.errs, bus := t.bus } = t

/-! ### The bus (20_memory.md) -/

/-- 20_memory.md R54: a read changes nothing but the reply on the bus (and the model's own draw counter, log 4). While a
command is pending STATUS reads BUSY = 1. -/
def Obligations.ReadsHaveNoSideEffect : Prop :=
  ∀ (s : State) (a : Addr),
    hostAccess (.read a) s = { s with bus := .data (readData s a), draws := s.draws + 1 } ∧
    (s.pend.valid = true → (readData s 0x004).getLsbD 0 = true)

/-- 20_memory.md R48: misaligned and unmapped accesses. -/
def Obligations.UnmappedAccessesDoNothing : Prop :=
  ∀ (s : State) (a : Addr), s.pend.valid = false → a.toNat % 4 ≠ 0 ∨ unmappedRange a.toNat →
    readData s a = 0 ∧ ∀ w, hostWrite a w s = { s with bus := .acked }

/-- 20_memory.md R47; 10_state.md section 2: the address of every register and window entry, and that the map sends it
back. -/
def Obligations.AddressMap : Prop :=
  (∀ t, t ≠ .unmapped → busTarget (targetAddr t) = t) ∧
  (∀ a, busTarget a ≠ .unmapped → targetAddr (busTarget a) = a) ∧
  (∀ p ∈
    ([(.cmd, 0x000), (.status, 0x004), (.errCmd, 0x008), (.errInfo, 0x00C), (.argLo, 0x010), (.argHi, 0x014),
      (.resLo, 0x018), (.resHi, 0x01C), (.plenLo, 0x020), (.plenHi, 0x024), (.inLen, 0x028), (.inPos, 0x02C),
      (.outLen, 0x030), (.nsym, 0x034), (.maxlen, 0x038), (.root, 0x03C), (.nnodes, 0x040), (.tnodes, 0x044),
      (.capIn, 0x048), (.capOut, 0x04C), (.capMaxlen, 0x050), (.pack, 0x054)] : List (BusTarget × Nat)),
    (targetAddr p.1).toNat = p.2) ∧
  (∀ s : Byte,
    (targetAddr (.freqLo s)).toNat = 0x1000 + 8 * s.toNat ∧ (targetAddr (.freqHi s)).toNat = 0x1004 + 8 * s.toNat ∧
    (targetAddr (.len s)).toNat = 0x1800 + 4 * s.toNat ∧
    (targetAddr (.codeLo s)).toNat = 0x2000 + 8 * s.toNat ∧ (targetAddr (.codeHi s)).toNat = 0x2004 + 8 * s.toNat ∧
    (targetAddr (.hist s)).toNat = 0x2800 + 4 * s.toNat ∧ (targetAddr (.syms s)).toNat = 0x2C00 + 4 * s.toNat) ∧
  (∀ (id : NodeId) (k : Fin 4), (targetAddr (.node id k)).toNat = 0x3000 + 16 * id.val + 4 * k.val) ∧
  (∀ t : NodeId, (targetAddr (.trie t)).toNat = 0x5000 + 4 * t.val) ∧
  ∀ j : Fin (2 ^ 22),
    (targetAddr (.ibuf j)).toNat = 0x1000000 + 4 * j.val ∧ (targetAddr (.obuf j)).toNat = 0x2000000 + 4 * j.val

/-- 20_memory.md R52: the layouts of the table windows, on the entries whose values are specified. The clauses on SYMS are
the model's reading of 10_state.md R42, 20_memory.md R58 and 93_implementation_defined.md U8 (log 10): specified are the
entries written since the last reset or CLEAR, which the model's own field `symsWritten` counts, also those at or beyond
NSYM, with all below NSYM among them while F_CODES is 1. -/
def Obligations.WindowLayouts : Prop :=
  ∀ s : State,
    (∀ x : Byte,
      (readTarget s (.freqLo x)).toNat = (symGet s.freq x).toNat % 2 ^ 32 ∧
      (readTarget s (.freqHi x)).toNat = (symGet s.freq x).toNat / 2 ^ 32 ∧
      (readTarget s (.len x)).toNat = (symGet s.len x).toNat ∧
      (s.canon.nsym ≠ 0 →
        (readTarget s (.codeLo x)).toNat = (symGet s.canon.code x).toNat % 2 ^ 32 ∧
        (readTarget s (.codeHi x)).toNat = (symGet s.canon.code x).toNat / 2 ^ 32 ∧
        (x ≠ 0 → (readTarget s (.hist x)).toNat = (symGet s.canon.hist x).val)) ∧
      (x.toNat < s.canon.symsWritten.val → (readTarget s (.syms x)).toNat = (symGet s.canon.syms x).toNat) ∧
      (s.Current → s.flags.codes = true → x.toNat < s.canon.nsym.val → x.toNat < s.canon.symsWritten.val)) ∧
    readTarget s (.hist 0) = 0 ∧
    (∀ id : NodeId, id.val < s.tree.nnodes.val →
      let e := tblGet s.tree.node id
      (readTarget s (.node id 0)).toNat = e.isInternal.toNat + 2 ^ 8 * e.sym.toNat ∧
      (readTarget s (.node id 1)).toNat = (nodeRefBits e.child0).toNat + 2 ^ 16 * (nodeRefBits e.child1).toNat ∧
      (readTarget s (.node id 2)).toNat = e.w.toNat % 2 ^ 32 ∧
      (readTarget s (.node id 3)).toNat = e.w.toNat / 2 ^ 32) ∧
    (∀ t : NodeId, t.val < s.trie.tnodes.val →
      let e := tblGet s.trie.entry t
      (readTarget s (.trie t)).toNat =
        (nodeRefBits e.child0).toNat + 2 ^ 9 * (nodeRefBits e.child1).toNat + 2 ^ 18 * e.sym.toNat +
          2 ^ 26 * e.isLeaf.toNat) ∧
    ((readTarget s .argLo).toNat = s.arg.toNat % 2 ^ 32 ∧ (readTarget s .argHi).toNat = s.arg.toNat / 2 ^ 32 ∧
      (readTarget s .resLo).toNat = s.res.toNat % 2 ^ 32 ∧ (readTarget s .resHi).toNat = s.res.toNat / 2 ^ 32 ∧
      (readTarget s .plenLo).toNat = s.plen.toNat % 2 ^ 32 ∧ (readTarget s .plenHi).toNat = s.plen.toNat / 2 ^ 32) ∧
    ∀ (x : Byte) (w : Word),
      (symGet (writeTarget (.len x) w s).len x).toNat = w.toNat % 2 ^ 8 ∧
      (symGet (writeTarget (.freqLo x) w s).freq x).toNat = (symGet s.freq x).toNat / 2 ^ 32 * 2 ^ 32 + w.toNat ∧
      (symGet (writeTarget (.freqHi x) w s).freq x).toNat = w.toNat * 2 ^ 32 + (symGet s.freq x).toNat % 2 ^ 32 ∧
      ∀ y, y ≠ x → symGet (writeTarget (.freqLo x) w s).freq y = symGet s.freq y ∧
        symGet (writeTarget (.freqHi x) w s).freq y = symGet s.freq y

/-- 10_state.md R21, R23 to R26, R37, R39; 20_memory.md R53: a write while no command is pending changes the register or
entry it names, with the side effects of R53, and nothing else. Of a word written to IN_LEN, IN_POS or OUT_LEN bits 31:25
are ignored before the clamp (20_memory.md R49; log 18). -/
def Obligations.RegisterWrites : Prop :=
  ∀ (s : State) (w : Word), s.pend.valid = false →
    hostWrite (targetAddr .argLo) w s =
      { s with bus := .acked, arg := BitVec.ofNat 64 (s.arg.toNat / 2 ^ 32 * 2 ^ 32 + w.toNat) } ∧
    hostWrite (targetAddr .argHi) w s =
      { s with bus := .acked, arg := BitVec.ofNat 64 (w.toNat * 2 ^ 32 + s.arg.toNat % 2 ^ 32) } ∧
    hostWrite (targetAddr .plenLo) w s =
      { s with bus := .acked, plen := BitVec.ofNat 64 (s.plen.toNat / 2 ^ 32 * 2 ^ 32 + w.toNat) } ∧
    hostWrite (targetAddr .plenHi) w s =
      { s with bus := .acked, plen := BitVec.ofNat 64 (w.toNat * 2 ^ 32 + s.plen.toNat % 2 ^ 32) } ∧
    hostWrite (targetAddr .inLen) w s =
      { s with bus := .acked, input := { s.input with len := BitVec.ofNat 25 (min (w.toNat % 2 ^ 25) s.cfg.ibufBytes) } } ∧
    hostWrite (targetAddr .inPos) w s =
      { s with
        bus := .acked
        reader := { acc := 0, left := 0, pos := BitVec.ofNat 25 (min (w.toNat % 2 ^ 25) s.cfg.ibufBytes) } } ∧
    hostWrite (targetAddr .outLen) w s =
      { s with
        bus := .acked
        writer :=
          { s.writer with
            acc := 0, cnt := 0, outLen := BitVec.ofNat 25 (min (w.toNat % 2 ^ 25) s.cfg.obufBytes) } } ∧
    (∀ x : Byte,
      hostWrite (targetAddr (.freqLo x)) w s =
        { s with
          bus := .acked
          freq := symSet s.freq x (BitVec.ofNat 64 ((symGet s.freq x).toNat / 2 ^ 32 * 2 ^ 32 + w.toNat))
          flags := { s.flags with tree := false } } ∧
      hostWrite (targetAddr (.freqHi x)) w s =
        { s with
          bus := .acked
          freq := symSet s.freq x (BitVec.ofNat 64 (w.toNat * 2 ^ 32 + (symGet s.freq x).toNat % 2 ^ 32))
          flags := { s.flags with tree := false } }) ∧
    ∀ x : Byte,
      hostWrite (targetAddr (.len x)) w s =
        { s with
          bus := .acked
          len := symSet s.len x (w.setWidth 8)
          flags := { s.flags with codes := false, trie := false } }

/-- 20_memory.md R49: writes to read-only registers and windows, and the ignored bits of a LEN entry. The last clause, that
bits 31:25 of a word written to IN_LEN, IN_POS or OUT_LEN do not matter, is the model's choice (log 18): it takes R49
before the clamp of 10_state.md R24 to R26. -/
def Obligations.ReadOnlyWritesDoNothing : Prop :=
  ∀ (s : State) (w : Word), s.pend.valid = false →
    (∀ t, readOnlyTarget t = true → hostWrite (targetAddr t) w s = { s with bus := .acked }) ∧
    (∀ (x : Byte) (w' : Word), w.toNat % 2 ^ 8 = w'.toNat % 2 ^ 8 →
      hostWrite (targetAddr (.len x)) w s = hostWrite (targetAddr (.len x)) w' s) ∧
    ∀ (t : BusTarget) (w' : Word), t = .inLen ∨ t = .inPos ∨ t = .outLen → w.toNat % 2 ^ 25 = w'.toNat % 2 ^ 25 →
      hostWrite (targetAddr t) w s = hostWrite (targetAddr t) w' s

/-- 20_memory.md R50, R51: byte order of the IBUF and OBUF windows, and bytes beyond the buffers. -/
def Obligations.BufferWindows : Prop :=
  ∀ (s : State) (j : Fin (2 ^ 22)),
    (∀ k, k < 4 → (readTarget s (.ibuf j)).extractLsb' (8 * k) 8 =
      if 4 * j.val + k < s.cfg.ibufBytes then ibufRead s.input (4 * j.val + k) else 0) ∧
    (∀ k, k < 4 →
      (4 * j.val + k < s.cfg.obufBytes → 4 * j.val + k < s.writer.outLen.toNat →
        (readTarget s (.obuf j)).extractLsb' (8 * k) 8 = obufRead s.writer.obuf (4 * j.val + k)) ∧
      (s.cfg.obufBytes ≤ 4 * j.val + k → (readTarget s (.obuf j)).extractLsb' (8 * k) 8 = 0)) ∧
    ∀ w : Word, s.pend.valid = false →
      let t := hostWrite (targetAddr (.ibuf j)) w s
      (∀ k, k < 4 → 4 * j.val + k < s.cfg.ibufBytes →
        ibufRead t.input (4 * j.val + k) = w.extractLsb' (8 * k) 8) ∧
      (∀ n, n < 4 * j.val ∨ 4 * j.val + 4 ≤ n ∨ s.cfg.ibufBytes ≤ n → ibufRead t.input n = ibufRead s.input n) ∧
      t.input.len = s.input.len ∧ { t with input := s.input, bus := s.bus } = s

/-! ### Reset and the invariants -/

/-- 70_reset_and_hazards.md R150: the reset values the spec gives, for every huffcore. -/
def Obligations.ResetValues : Prop :=
  ∀ (c : Config) (d n : Nat),
    let r := State.resetOf c d n
    r.cfg = c ∧ r.pend = { valid := false, word := 0 } ∧
    r.flags = { tree := false, codes := false, trie := false } ∧
    r.errs = { err := .none, cmd := 0, info := 0 } ∧ r.arg = 0 ∧ r.res = 0 ∧ r.plen = 0 ∧
    r.input.len = 0 ∧ r.reader.pos = 0 ∧ r.writer.outLen = 0 ∧
    r.canon.nsym = 0 ∧ r.canon.maxlen = 0 ∧ r.tree.root = some 0 ∧ r.tree.nnodes = 0 ∧ r.trie.tnodes = 0 ∧
    r.writer.acc = 0 ∧ r.writer.cnt = 0 ∧ r.reader.acc = 0 ∧ r.reader.left = 0 ∧
    (∀ x, symGet r.freq x = 0 ∧ symGet r.len x = 0) ∧ symGet r.canon.hist 0 = 0 ∧
    statusWord r = 0 ∧ packWord r = 0 ∧
    readTarget r .capIn = BitVec.ofNat 32 c.ibufBytes ∧ readTarget r .capOut = BitVec.ofNat 32 c.obufBytes ∧
    readTarget r .capMaxlen = BitVec.ofNat 32 c.maxCodeLen

/-- 70_reset_and_hazards.md R149, R151: a reset edge aborts a pending command and drops a presented access; what reset and
CLEAR leave differs, of the state with a specified reset value, only in ARG and IN_LEN. CLEAR keeps IBUF; after reset its
bytes are unspecified (10_state.md R44; R150; log 12). -/
def Obligations.ResetAndClearDifferOnlyInArgAndInLen : Prop :=
  ∀ (s : State) (presented : Option BusAccess) (rest : List HostEvent),
    s.script = .resetEdge presented :: rest →
    ∃ t u, step s = .next t ∧ exec .clear s = .next u ∧
      t.pend = { valid := false, word := 0 } ∧ t.arg = 0 ∧ t.input.len = 0 ∧
      u.arg = s.arg ∧ u.input = s.input ∧ u.pend = s.pend ∧
      t.cfg = u.cfg ∧ t.errs = u.errs ∧ t.flags = u.flags ∧ t.res = u.res ∧ t.plen = u.plen ∧ t.reader = u.reader ∧
      t.writer.acc = u.writer.acc ∧ t.writer.cnt = u.writer.cnt ∧ t.writer.outLen = u.writer.outLen ∧
      t.freq = u.freq ∧ t.len = u.len ∧ t.canon.nsym = u.canon.nsym ∧ t.canon.maxlen = u.canon.maxlen ∧
      t.tree.root = u.tree.root ∧ t.tree.nnodes = u.tree.nnodes ∧ t.trie.tnodes = u.trie.tnodes

/-- The invariants hold after reset, of every huffcore and of `State.reset`. -/
def Obligations.InvariantsHoldAtReset : Prop :=
  (∀ (c : Config) (d n : Nat), c.wf = true → (State.resetOf c d n).Inv ∧ (State.resetOf c d n).Current) ∧
  State.reset.Inv ∧ State.reset.Current

/-- Every step keeps the invariant of the registers and buffers (10_state.md R19, R24 to R26, R36, R41, R44;
60_exceptions.md R128). -/
def Obligations.StepKeepsInv : Prop := ∀ s t : State, s.Inv → step s = .next t → t.Inv

/-- Every step keeps what the flags promise: a table whose flag is 1 is the one its command would build again
(10_state.md R34; 70_reset_and_hazards.md R158; 43_decoder_trie_walker.md R120). -/
def Obligations.StepKeepsFlagsCurrent : Prop := ∀ s t : State, s.Inv → s.Current → step s = .next t → t.Current

/-- 70_reset_and_hazards.md R162: no command hangs and the sequencer has no stuck state. From every state with the
invariants, the step answers a next state. -/
def Obligations.StepNeverStops : Prop := ∀ s : State, s.Inv → s.Current → goesOn s

/-! ### Rules about every command -/

/-- Every command answers a next state, completing or raising (70_reset_and_hazards.md R162): WALK and TRIE_BUILD in every
state with the invariants, the others in every state. -/
def Obligations.CommandsCompleteOrRaise : Prop :=
  ∀ (i : Instr) (s : State), (i = .walk ∨ i = .trieBuild → s.Inv ∧ s.Current) → ∃ t, exec i s = .next t

/-- 10_state.md R34: what sets and clears each validity flag: commands, host writes, reset. -/
def Obligations.ValidityFlags : Prop :=
  (∀ (i : Instr) (s t : State), exec i s = .next t →
    t.flags.tree = treeFlagAfter i (raisedIn s t) s.flags.tree ∧
    t.flags.codes = codesFlagAfter i (raisedIn s t) s.flags.codes ∧
    t.flags.trie = trieFlagAfter i (raisedIn s t) s.flags.trie) ∧
  (∀ (s : State) (a : Addr) (w : Word),
    (hostWrite a w s).flags =
      if s.pend.valid = false ∧ freqTarget (busTarget a) = true then { s.flags with tree := false }
      else if s.pend.valid = false ∧ lenTarget (busTarget a) = true then
        { s.flags with codes := false, trie := false }
      else s.flags) ∧
  ∀ (s : State) (presented : Option BusAccess),
    (resetEdge presented s).flags = { tree := false, codes := false, trie := false }

/-- No command writes ARG (10_state.md R21), IN_LEN (R24), IBUF (R44), the capability registers (R32) or PEND.word, and
none acts on the bus. -/
def Obligations.CommandsKeepHostState : Prop :=
  ∀ (i : Instr) (s t : State), exec i s = .next t →
    t.arg = s.arg ∧ t.input = s.input ∧ t.cfg = s.cfg ∧ t.pend = s.pend ∧ t.bus = s.bus ∧ t.script = s.script

/-- No command, completing or raising, changes a byte of OBUF below the OUT_LEN it started with (60_exceptions.md R134;
20_memory.md R46 item 3). -/
def Obligations.CommandsKeepOutput : Prop :=
  ∀ (i : Instr) (s t : State), s.Inv → exec i s = .next t →
    ∀ k, k < s.writer.outLen.toNat → obufRead t.writer.obuf k = obufRead s.writer.obuf k

/-- 60_exceptions.md R133, R136, R137: a raise records its command word, and only the first error is recorded. -/
def Obligations.FirstErrorIsRecorded : Prop :=
  ∀ (i : Instr) (s t : State), i ≠ .clear → exec i s = .next t →
    (s.errs.err ≠ .none → t.errs = s.errs) ∧
    (raisedIn s t = false → t.errs = s.errs) ∧
    (s.errs.err = .none → raisedIn s t = true → t.errs.err ≠ .none ∧ t.errs.cmd = s.pend.word)

/-- 60_exceptions.md R129: no command raises a kind not listed in its Errors line. -/
def Obligations.CommandsRaiseOnlyTheirKinds : Prop :=
  ∀ (i : Instr) (s t : State), s.errs.err = .none → exec i s = .next t →
    t.errs.err = .none ∨ mayRaise i t.errs.err = true

/-- 60_exceptions.md R130, R132: the Requires checks, in their order. -/
def Obligations.SequenceErrors : Prop :=
  ∀ s : State,
    (s.flags.tree = false → raises .walk s .sequence 1) ∧
    (s.flags.codes = false →
      (∀ sym, raises (.encSym sym) s .sequence 2) ∧ raises .encScan s .sequence 2 ∧ raises .hdrWrite s .sequence 2 ∧
        raises .trieBuild s .sequence 2) ∧
    (s.flags.trie = false → raises .decSym s .sequence 3 ∧ raises .decode s .sequence 3) ∧
    (s.writer.cnt ≠ 0 →
      (∀ b, raises (.putByte b) s .sequence 4) ∧ (s.flags.codes = true → raises .hdrWrite s .sequence 4) ∧
        (s.flags.trie = true → raises .decSym s .sequence 4 ∧ raises .decode s .sequence 4)) ∧
    (s.reader.left ≠ 0 → raises .getByte s .sequence 5 ∧ raises .hdrRead s .sequence 5)

/-- 42_bitstream_packer.md R97: a byte that finds OBUF full raises OVERFLOW(3), in every output command. -/
def Obligations.OutputOverflows : Prop :=
  ∀ s : State, s.Inv →
    (∀ n, roomForBits s n.toNat = false → raises (.putBits n) s .overflow 3) ∧
    (∀ b, s.writer.cnt = 0 → s.writer.outLen.toNat = s.cfg.obufBytes → raises (.putByte b) s .overflow 3) ∧
    (s.writer.cnt ≠ 0 → s.writer.outLen.toNat = s.cfg.obufBytes → raises .flush s .overflow 3) ∧
    (s.flags.codes = true →
      (∀ sym, symGet s.len sym ≠ 0 → roomForBits s (symGet s.len sym).toNat = false →
        raises (.encSym sym) s .overflow 3) ∧
      (∀ pre post : List Byte, inputBytes s.input = pre ++ post → (∀ b ∈ pre, symGet s.len b ≠ 0) →
        roomForBits s (pre.map fun b => (symGet s.len b).toNat).sum = false → raises .encScan s .overflow 3) ∧
      (s.writer.cnt = 0 → s.cfg.obufBytes < s.writer.outLen.toNat + (headerBytes s.canon s.plen).length →
        raises .hdrWrite s .overflow 3))

/-! ### Control (44_control.md) -/

/-- 44_control.md R126, R127: NOP changes nothing, and CLEAR writes exactly what its pseudocode lists, and the model's own
field `symsWritten`: it becomes 0, since the kept entries of SYMS are stale and read any value
(93_implementation_defined.md U8; log 10). -/
def Obligations.NopAndClear : Prop :=
  decode 0x00000000 = .ok .nop ∧ decode 0x00000001 = .ok .clear ∧
  ∀ s : State, exec .nop s = .next s ∧
    ∃ t, exec .clear s = .next t ∧ raisedIn s t = false ∧
      t.errs = { err := .none, cmd := 0, info := 0 } ∧
      t.flags = { tree := false, codes := false, trie := false } ∧
      (∀ x, symGet t.freq x = 0 ∧ symGet t.len x = 0) ∧ t.res = 0 ∧ t.plen = 0 ∧
      t.reader = { acc := 0, left := 0, pos := 0 } ∧
      t.writer = { acc := 0, cnt := 0, outLen := 0, obuf := s.writer.obuf } ∧
      t.canon = { s.canon with nsym := 0, maxlen := 0, symsWritten := 0 } ∧ t.tree = { s.tree with root := some 0, nnodes := 0 } ∧
      t.trie = { s.trie with tnodes := 0 } ∧
      { t with
        errs := s.errs, flags := s.flags, freq := s.freq, len := s.len, res := s.res, plen := s.plen
        reader := s.reader, writer := s.writer, canon := s.canon, tree := s.tree, trie := s.trie } = s

/-! ### The tree builder (40_tree_builder.md) -/

/-- 40_tree_builder.md R74: FREQ_INC counts, and a counter at its maximum raises OVERFLOW. -/
def Obligations.FreqIncCounts : Prop :=
  ∀ (s : State) (sym : Byte),
    decode (0#16 ++ sym ++ 0x10#8) = .ok (.freqInc sym) ∧
    ((symGet s.freq sym).toNat ≠ 2 ^ 64 - 1 →
      ∃ t, exec (.freqInc sym) s = .next t ∧ raisedIn s t = false ∧
        (symGet t.freq sym).toNat = (symGet s.freq sym).toNat + 1 ∧
        (∀ x, x ≠ sym → symGet t.freq x = symGet s.freq x) ∧ t.flags = { s.flags with tree := false } ∧
        { t with freq := s.freq, flags := s.flags } = s) ∧
    ((symGet s.freq sym).toNat = 2 ^ 64 - 1 →
      ∃ t, exec (.freqInc sym) s = .next t ∧ raisedIn s t = true ∧
        t.errs = recorded s .overflow (BitVec.ofNat 32 (1 + 2 ^ 8 * sym.toNat)) ∧
        (∀ x, x ≠ sym → symGet t.freq x = symGet s.freq x) ∧ t.flags = { s.flags with tree := false } ∧
        { t with freq := s.freq, flags := s.flags, errs := s.errs, draws := s.draws } = s)

/-- 40_tree_builder.md R75: FREQ_SCAN counts every input byte, and the first byte whose counter would wrap raises
OVERFLOW. -/
def Obligations.FreqScanCounts : Prop :=
  decode 0x00000011 = .ok .freqScan ∧
  ∀ s : State,
    ((∀ x, (symGet s.freq x).toNat + (inputBytes s.input).count x < 2 ^ 64) →
      ∃ t, exec .freqScan s = .next t ∧ raisedIn s t = false ∧
        (∀ x, (symGet t.freq x).toNat = (symGet s.freq x).toNat + (inputBytes s.input).count x) ∧
        t.flags = { s.flags with tree := false } ∧ { t with freq := s.freq, flags := s.flags } = s) ∧
    ∀ (pre post : List Byte) (b : Byte), inputBytes s.input = pre ++ b :: post →
      (∀ x, (symGet s.freq x).toNat + pre.count x < 2 ^ 64) →
      (symGet s.freq b).toNat + pre.count b = 2 ^ 64 - 1 →
      ∃ t, exec .freqScan s = .next t ∧ raisedIn s t = true ∧
        t.errs = recorded s .overflow (BitVec.ofNat 32 (1 + 2 ^ 8 * b.toNat)) ∧
        t.flags = { s.flags with tree := false } ∧
        { t with freq := s.freq, flags := s.flags, errs := s.errs, draws := s.draws } = s

/-- 10_state.md R29, R30; 40_tree_builder.md R76: BUILD completes on every frequency table with a symbol and a total weight
below `2^64`, and otherwise raises. -/
def Obligations.BuildCompletesOrRaises : Prop :=
  ∀ s : State,
    (1 ≤ countedCount s.freq → weightSum s.freq < 2 ^ 64 →
      ∃ t, exec .build s = .next t ∧ raisedIn s t = false ∧
        t.tree.root = nodeRefOf (2 * countedCount s.freq - 2) ∧ t.tree.nnodes.val = 2 * countedCount s.freq - 1 ∧
        (∀ id : NodeId, 2 * countedCount s.freq - 1 ≤ id.val → tblGet t.tree.node id = tblGet s.tree.node id) ∧
        t.flags = { s.flags with tree := true } ∧ { t with tree := s.tree, flags := s.flags } = s) ∧
    (countedCount s.freq = 0 →
      ∃ t, exec .build s = .next t ∧ raisedIn s t = true ∧ t.errs = recorded s .emptyInput 0 ∧
        t.flags = { s.flags with tree := false }) ∧
    (1 ≤ countedCount s.freq → 2 ^ 64 ≤ weightSum s.freq →
      ∃ t, exec .build s = .next t ∧ raisedIn s t = true ∧ t.errs = recorded s .overflow 2 ∧
        t.flags = { s.flags with tree := false })

/-- 40_tree_builder.md R77: the leaves stand in NODE in ascending order of weight, then of symbol. -/
def Obligations.BuildOrdersLeaves : Prop :=
  ∀ s t : State, buildable s.freq → exec .build s = .next t →
    ∃ leaves : List Byte, leaves.length = countedCount s.freq ∧ leaves.Pairwise (leafKeyBefore s.freq) ∧
      (∀ x, x ∈ leaves ↔ symGet s.freq x ≠ 0) ∧
      ∀ i (h : i < leaves.length),
        nodeAt t.tree.node i =
          { isInternal := false, sym := leaves[i], child0 := none, child1 := none, w := symGet s.freq leaves[i] }

/-- 40_tree_builder.md R78 to R81: every merge makes an internal node of the two unconsumed nodes with the least keys
`(W, index)`, the least as child 0, with the sum of their weights. -/
def Obligations.BuildMergesTheTwoLeast : Prop :=
  ∀ s t : State, buildable s.freq → exec .build s = .next t →
    ∀ k, countedCount s.freq ≤ k → k < 2 * countedCount s.freq - 1 →
      ∃ x y, x < k ∧ y < k ∧ x ≠ y ∧
        nodeAt t.tree.node k =
          { isInternal := true, sym := 0, child0 := nodeRefOf x, child1 := nodeRefOf y
            w := (nodeAt t.tree.node k).w } ∧
        (nodeAt t.tree.node k).w.toNat = (nodeAt t.tree.node x).w.toNat + (nodeAt t.tree.node y).w.toNat ∧
        unconsumed t.tree.node (countedCount s.freq) k x ∧ unconsumed t.tree.node (countedCount s.freq) k y ∧
        nodeKeyBefore t.tree.node x y ∧
        ∀ z, z < k → z ≠ x → z ≠ y → unconsumed t.tree.node (countedCount s.freq) k z →
          nodeKeyBefore t.tree.node y z

/-- 40_tree_builder.md R82: BUILD leaves in NODE one strictly binary tree whose leaves are exactly the symbols with a
nonzero count, with the weights their sums. -/
def Obligations.BuildStoresATreeOfTheAlphabet : Prop :=
  ∀ s t : State, buildable s.freq → exec .build s = .next t →
    ∃ tree : BinTree, tree.size = 2 * countedCount s.freq - 1 ∧ tree.storedInNode t.tree.node t.tree.root ∧
      tree.weighed t.tree.node s.freq t.tree.root ∧ tree.symbols.Nodup ∧
      ∀ x, x ∈ tree.symbols ↔ symGet s.freq x ≠ 0

/-- 40_tree_builder.md R83: a frequency table with one symbol. -/
def Obligations.BuildOfOneSymbol : Prop :=
  ∀ (s : State) (x : Byte), symGet s.freq x ≠ 0 → (∀ y, y ≠ x → symGet s.freq y = 0) →
    ∃ t, exec .build s = .next t ∧ raisedIn s t = false ∧ t.tree.root = some 0 ∧ t.tree.nnodes = 1 ∧
      t.flags.tree = true ∧
      tblGet t.tree.node 0 = { isInternal := false, sym := x, child0 := none, child1 := none, w := symGet s.freq x } ∧
      ∀ id : NodeId, id ≠ 0 → tblGet t.tree.node id = tblGet s.tree.node id

/-! ### The canonical code generator (41_canonical_code_generator.md) -/

/-- 41_canonical_code_generator.md R85, R86: on a tree with two or more symbols, WALK gives each symbol the depth of its
leaf, or reports the first leaf in walk order that is too deep. -/
def Obligations.WalkMeasuresDepths : Prop :=
  ∀ (s : State) (left right : BinTree), s.flags.tree = true →
    (BinTree.branch left right).storedInNode s.tree.node s.tree.root →
    (BinTree.branch left right).size ≤ 511 → (BinTree.branch left right).symbols.Nodup →
    ((∀ p ∈ (BinTree.branch left right).paths, p.2.length ≤ s.cfg.maxCodeLen) →
      ∃ t, exec .walk s = .next t ∧ raisedIn s t = false ∧
        (∀ p ∈ (BinTree.branch left right).paths, (symGet t.len p.1).toNat = p.2.length) ∧
        (∀ x, x ∉ (BinTree.branch left right).symbols → symGet t.len x = 0) ∧
        t.flags = { s.flags with codes := false, trie := false } ∧
        { t with len := s.len, flags := s.flags } = s) ∧
    ∀ (before after : List (Byte × List Bool)) (x : Byte) (path : List Bool),
      (BinTree.branch left right).paths = before ++ (x, path) :: after →
      (∀ p ∈ before, p.2.length ≤ s.cfg.maxCodeLen) → s.cfg.maxCodeLen < path.length →
      ∃ t, exec .walk s = .next t ∧ raisedIn s t = true ∧
        t.errs = recorded s .unrepresentableCode (BitVec.ofNat 32 (path.length + 2 ^ 8 * x.toNat)) ∧
        t.flags = { s.flags with codes := false, trie := false }

/-- 41_canonical_code_generator.md R87: a lone leaf gets length 1. -/
def Obligations.WalkOfOneSymbol : Prop :=
  ∀ (s : State) (x : Byte), s.flags.tree = true → (BinTree.leaf x).storedInNode s.tree.node s.tree.root →
    ∃ t, exec .walk s = .next t ∧ raisedIn s t = false ∧ symGet t.len x = 1 ∧
      (∀ y, y ≠ x → symGet t.len y = 0) ∧ t.flags = { s.flags with codes := false, trie := false } ∧
      { t with len := s.len, flags := s.flags } = s

/-- 41_canonical_code_generator.md R88, R93: CANON completes on every full set of lengths, and counts them. -/
def Obligations.CanonCompletesAndCounts : Prop :=
  ∀ (s : State) (m : Nat), isLongest s.len m → 1 ≤ codedCount s.len → m ≤ s.cfg.maxCodeLen → fullCode s.len m →
    ∃ t, exec .canon s = .next t ∧ raisedIn s t = false ∧
      t.canon.nsym.val = codedCount s.len ∧ t.canon.maxlen.toNat = m ∧
      (∀ l : Byte, l ≠ 0 → (symGet t.canon.hist l).val = symbolsWithLength s.len l) ∧
      t.canon.nsym.val =
        ((allSymbols.filter fun l => l != 0).map fun l => (symGet t.canon.hist l).val).sum ∧
      t.flags = { s.flags with codes := true, trie := false } ∧
      { t with canon := s.canon, flags := s.flags } = s

/-- 41_canonical_code_generator.md R89; 43_decoder_trie_walker.md R119: SYMS lists the symbols with a code in canonical
order, after CANON and after HDR_READ. -/
def Obligations.SymbolsInCanonicalOrder : Prop :=
  ∀ (i : Instr) (s t : State), buildsTable i s t →
    (symsList t.canon).length = t.canon.nsym.val ∧ (symsList t.canon).Pairwise (canonKeyBefore t.len) ∧
    (∀ x, x ∈ symsList t.canon ↔ symGet t.len x ≠ 0) ∧
    ∀ k : Byte, t.canon.nsym.val ≤ k.toNat → symGet t.canon.syms k = symGet s.canon.syms k

/-- 41_canonical_code_generator.md R90: the code values, after CANON and after HDR_READ. -/
def Obligations.CodesAreAssigned : Prop :=
  ∀ (i : Instr) (s t : State), s.cfg.wf = true → buildsTable i s t →
    (∀ x, symGet t.len x = 0 → symGet t.canon.code x = 0) ∧
    (∀ x, (symsList t.canon)[0]? = some x → symGet t.canon.code x = 0) ∧
    ∀ k x y, (symsList t.canon)[k]? = some x → (symsList t.canon)[k + 1]? = some y →
      (symGet t.canon.code y).toNat =
        ((symGet t.canon.code x).toNat + 1) * 2 ^ ((symGet t.len y).toNat - (symGet t.len x).toNat)

/-- 41_canonical_code_generator.md R92 items 1, 2, 3 and 5: the codes fit their lengths and are prefix-free, the last is all
ones, and the table depends on the lengths alone. -/
def Obligations.CodesFitAndArePrefixFree : Prop :=
  ∀ (i : Instr) (s t : State), s.cfg.wf = true → buildsTable i s t →
    (∀ x, symGet t.len x ≠ 0 → (symGet t.canon.code x).toNat < 2 ^ (symGet t.len x).toNat) ∧
    (∀ x y, symGet t.len x ≠ 0 → symGet t.len y ≠ 0 → x ≠ y →
      ¬ codeWord t.len t.canon.code x <+: codeWord t.len t.canon.code y) ∧
    (∀ x, (symsList t.canon).getLast? = some x → 2 ≤ t.canon.nsym.val →
      (symGet t.len x).toNat = t.canon.maxlen.toNat ∧
        (symGet t.canon.code x).toNat = 2 ^ t.canon.maxlen.toNat - 1) ∧
    (∀ x, symsList t.canon = [x] → codeWord t.len t.canon.code x = [false]) ∧
    ∀ (i' : Instr) (s' t' : State), buildsTable i' s' t' → t'.len = t.len →
      t'.canon.nsym = t.canon.nsym ∧ t'.canon.maxlen = t.canon.maxlen ∧ t'.canon.hist = t.canon.hist ∧
        symsList t'.canon = symsList t.canon ∧ t'.canon.code = t.canon.code

/-- 41_canonical_code_generator.md R88, R91: the errors of CANON, in their order. -/
def Obligations.CanonErrors : Prop :=
  ∀ (s : State) (m : Nat), isLongest s.len m →
    (codedCount s.len = 0 → raises .canon s .emptyInput 0) ∧
    (∀ x, s.cfg.maxCodeLen < (symGet s.len x).toNat →
      (∀ y, y.toNat < x.toNat → (symGet s.len y).toNat ≤ s.cfg.maxCodeLen) →
      raises .canon s .unrepresentableCode (BitVec.ofNat 32 ((symGet s.len x).toNat + 2 ^ 8 * x.toNat))) ∧
    (m ≤ s.cfg.maxCodeLen →
      (codedCount s.len = 1 → m ≠ 1 → raises .canon s .badLengths 1) ∧
      (2 ≤ codedCount s.len → 2 ^ m < tableKraft s.len m → raises .canon s .badLengths 2) ∧
      (2 ≤ codedCount s.len → tableKraft s.len m < 2 ^ m → raises .canon s .badLengths 3))

/-- 41_canonical_code_generator.md R92 item 4, R88 corner case: after a successful WALK, CANON never raises. -/
def Obligations.CanonSucceedsAfterWalk : Prop :=
  ∀ s t : State, s.Inv → s.Current → exec .walk s = .next t → raisedIn s t = false →
    ∃ u, exec .canon t = .next u ∧ raisedIn t u = false ∧ u.flags.codes = true ∧ u.errs = s.errs

/-! ### The packer (42_bitstream_packer.md) -/

/-- 42_bitstream_packer.md R95, R96, R102: PUT_BITS appends the low `n` bits of ARG, most significant first. -/
def Obligations.PutBitsAppendsBits : Prop :=
  ∀ (s : State) (n : Byte), s.Inv → writerPadded s.writer = true → roomForBits s n.toNat = true →
    ∃ t, exec (.putBits n) s = .next t ∧ raisedIn s t = false ∧
      appendsBits s.writer t.writer (bitsOf s.arg n.toNat) ∧ { t with writer := s.writer } = s

/-- 42_bitstream_packer.md R97, R103, R107, R108: PUT_BYTE and HDR_WRITE append raw bytes; the header's bytes. -/
def Obligations.RawBytesAreAppended : Prop :=
  ∀ s : State, s.Inv → s.writer.cnt = 0 →
    (∀ b, s.writer.outLen.toNat < s.cfg.obufBytes →
      ∃ t, exec (.putByte b) s = .next t ∧ raisedIn s t = false ∧ appendsBytes s.writer t.writer [b] ∧
        { t with writer := s.writer } = s) ∧
    (s.flags.codes = true →
      s.writer.outLen.toNat + (1 + s.canon.maxlen.toNat + s.canon.nsym.val + 8) ≤ s.cfg.obufBytes →
      ∃ t bytes, exec .hdrWrite s = .next t ∧ raisedIn s t = false ∧ appendsBytes s.writer t.writer bytes ∧
        bytes.length = 1 + s.canon.maxlen.toNat + s.canon.nsym.val + 8 ∧
        bytes[0]? = some s.canon.maxlen ∧
        (∀ l : Byte, l ≠ 0 → l.toNat ≤ s.canon.maxlen.toNat →
          bytes[l.toNat]? = some (BitVec.ofNat 8 (symGet s.canon.hist l).val)) ∧
        (∀ k : Byte, k.toNat < s.canon.nsym.val →
          bytes[1 + s.canon.maxlen.toNat + k.toNat]? = some (symGet s.canon.syms k)) ∧
        (∀ k, k < 8 →
          bytes[1 + s.canon.maxlen.toNat + s.canon.nsym.val + k]? = some (s.plen.extractLsb' (8 * k) 8)) ∧
        { t with writer := s.writer } = s)

/-- 42_bitstream_packer.md R104: FLUSH emits the partial byte, does nothing on a byte boundary, and raises where OBUF is
full. -/
def Obligations.FlushEmitsThePartialByte : Prop :=
  decode 0x00000042 = .ok .flush ∧
  ∀ s : State, s.Inv →
    (s.writer.cnt = 0 → exec .flush s = .next s) ∧
    (s.writer.cnt ≠ 0 → s.writer.outLen.toNat = s.cfg.obufBytes → raises .flush s .overflow 3) ∧
    (s.writer.cnt ≠ 0 → s.writer.outLen.toNat < s.cfg.obufBytes →
      ∃ t, exec .flush s = .next t ∧ raisedIn s t = false ∧
        t.writer.outLen.toNat = s.writer.outLen.toNat + 1 ∧ t.writer.acc = 0 ∧ t.writer.cnt = 0 ∧
        obufRead t.writer.obuf s.writer.outLen.toNat = s.writer.acc ∧
        (∀ k, k ≠ s.writer.outLen.toNat → obufRead t.writer.obuf k = obufRead s.writer.obuf k) ∧
        { t with writer := s.writer } = s)

/-- 42_bitstream_packer.md R105, R106: ENC_SYM and ENC_SCAN append codes, or raise NO_CODE at the first symbol without
one. -/
def Obligations.CodesAreAppended : Prop :=
  ∀ s : State, s.Inv → s.flags.codes = true → writerPadded s.writer = true →
    (∀ sym, symGet s.len sym ≠ 0 → roomForBits s (symGet s.len sym).toNat = true →
      ∃ t, exec (.encSym sym) s = .next t ∧ raisedIn s t = false ∧
        appendsBits s.writer t.writer (codeWord s.len s.canon.code sym) ∧ { t with writer := s.writer } = s) ∧
    (∀ sym, symGet s.len sym = 0 → raises (.encSym sym) s .noCode (BitVec.ofNat 32 sym.toNat)) ∧
    ((∀ b ∈ inputBytes s.input, symGet s.len b ≠ 0) →
      roomForBits s ((inputBytes s.input).map fun b => (symGet s.len b).toNat).sum = true →
      ∃ t, exec .encScan s = .next t ∧ raisedIn s t = false ∧
        appendsBits s.writer t.writer ((inputBytes s.input).flatMap (codeWord s.len s.canon.code)) ∧
        { t with writer := s.writer } = s) ∧
    ∀ (pre post : List Byte) (b : Byte), inputBytes s.input = pre ++ b :: post →
      (∀ x ∈ pre, symGet s.len x ≠ 0) → roomForBits s (pre.map fun x => (symGet s.len x).toNat).sum = true →
      symGet s.len b = 0 → raises .encScan s .noCode (BitVec.ofNat 32 b.toNat)

/-- 42_bitstream_packer.md R98 to R100, R109, R110: GET_BITS and GET_BYTE read the next bits or byte into RES, or raise
MALFORMED_CONTAINER(2) when the input runs out. -/
def Obligations.InputIsReadIntoRes : Prop :=
  ∀ s : State,
    (∀ n : Byte, n.toNat ≤ 64 → n.toNat ≤ bitsAvailable s.input s.reader →
      ∃ t, exec (.getBits n) s = .next t ∧ raisedIn s t = false ∧
        t.res.toNat = numberOfBits ((List.range n.toNat).map (inputBit s.input s.reader)) ∧
        readerAdvanced s.input s.reader t.reader n.toNat ∧ { t with res := s.res, reader := s.reader } = s) ∧
    (∀ n : Byte, bitsAvailable s.input s.reader < n.toNat → raises (.getBits n) s .malformedContainer 2) ∧
    (s.reader.left = 0 →
      (s.reader.pos.toNat < s.input.len.toNat →
        ∃ t, exec .getByte s = .next t ∧ raisedIn s t = false ∧
          t.res.toNat = (ibufRead s.input s.reader.pos.toNat).toNat ∧
          t.reader = { s.reader with pos := BitVec.ofNat 25 (s.reader.pos.toNat + 1) } ∧
          t.reader.pos.toNat = s.reader.pos.toNat + 1 ∧ { t with res := s.res, reader := s.reader } = s) ∧
      (s.input.len.toNat ≤ s.reader.pos.toNat → raises .getByte s .malformedContainer 2))

/-- 42_bitstream_packer.md R101: reading inverts writing. Fields written from a byte boundary and flushed, then placed in
the input, read back, and the reader ends where the writer did. -/
def Obligations.ReadingInvertsWriting : Prop :=
  ∀ (s : State) (fields : List (Dword × Nat)) (w1 w2 : Writer) (inp : Input) (r : Reader), s.Inv →
    s.writer.cnt = 0 → s.writer.acc = 0 → (∀ f ∈ fields, f.2 ≤ 64) →
    writeFields s.cfg.obufBytes fields s.writer = .ok w1 → flushWriter s.cfg.obufBytes w1 = .ok w2 → r.left = 0 →
    r.pos.toNat + (w2.outLen.toNat - s.writer.outLen.toNat) ≤ inp.len.toNat →
    (∀ k, k < w2.outLen.toNat - s.writer.outLen.toNat →
      ibufRead inp (r.pos.toNat + k) = obufRead w2.obuf (s.writer.outLen.toNat + k)) →
    ∃ r', readFields inp (fields.map fun f => f.2) r = .ok (fields.map fun f => f.1.toNat % 2 ^ f.2, r') ∧
      r'.pos.toNat = r.pos.toNat + (w2.outLen.toNat - s.writer.outLen.toNat)

/-! ### The decoder (43_decoder_trie_walker.md) -/

/-- 42_bitstream_packer.md R108; 43_decoder_trie_walker.md R116 to R120: HDR_READ completes exactly on the headers of
accepted canonical tables, and then holds that table. -/
def Obligations.HeadersReadBack : Prop :=
  ∀ s : State, s.reader.left = 0 →
    (∀ (len : Table Byte 256) (old c : Canon) (plen : Dword), buildCanon s.cfg.maxCodeLen len old = .ok c →
      inputHoldsBytes s.input s.reader.pos.toNat (headerBytes c plen) →
      ∃ t, exec .hdrRead s = .next t ∧ raisedIn s t = false ∧ t.len = len ∧ t.canon.code = c.code ∧
        t.canon.hist = c.hist ∧ symsList t.canon = symsList c ∧ t.canon.nsym = c.nsym ∧
        t.canon.maxlen = c.maxlen ∧ t.plen = plen ∧
        t.reader.pos.toNat = s.reader.pos.toNat + (headerBytes c plen).length ∧
        t.reader.acc = s.reader.acc ∧ t.reader.left = s.reader.left ∧
        t.flags = { s.flags with codes := true, trie := false } ∧
        { t with
          reader := s.reader, len := s.len, canon := s.canon, plen := s.plen, flags := s.flags } = s) ∧
    ∀ t, exec .hdrRead s = .next t → raisedIn s t = false →
      buildCanon s.cfg.maxCodeLen t.len t.canon = .ok t.canon ∧
        inputHoldsBytes s.input s.reader.pos.toNat (headerBytes t.canon t.plen)

/-- 43_decoder_trie_walker.md R116 to R119: the errors of HDR_READ, in their order. -/
def Obligations.HeaderErrors : Prop :=
  ∀ s : State, s.reader.left = 0 →
    let p := s.reader.pos.toNat
    (s.input.len.toNat ≤ p → raises .hdrRead s .malformedContainer 2) ∧
    (p < s.input.len.toNat → ibufRead s.input p = 0 → raises .hdrRead s .malformedContainer 1) ∧
    (p < s.input.len.toNat → ibufRead s.input p ≠ 0 →
      s.input.len.toNat < p + 1 + (ibufRead s.input p).toNat → raises .hdrRead s .malformedContainer 2) ∧
    ∀ (m : Byte) (raw : List Byte), m ≠ 0 → raw.length = m.toNat → inputHoldsBytes s.input p (m :: raw) →
      let hist := histogramRead raw
      (hist.sum = 0 ∨ 256 < hist.sum → raises .hdrRead s .malformedContainer 3) ∧
      (1 ≤ hist.sum → hist.sum ≤ 256 →
        (hist.getLast? = some 0 → raises .hdrRead s .malformedContainer 4) ∧
        (hist.getLast? ≠ some 0 → s.cfg.maxCodeLen < m.toNat →
          raises .hdrRead s .unrepresentableCode (BitVec.ofNat 32 m.toNat)) ∧
        (hist.getLast? ≠ some 0 → m.toNat ≤ s.cfg.maxCodeLen →
          (hist.sum = 1 ∧ m ≠ 1) ∨ (2 ≤ hist.sum ∧ histogramKraft hist ≠ 2 ^ m.toNat) →
          raises .hdrRead s .malformedContainer 5)) ∧
      (histogramAccepted s.cfg.maxCodeLen hist →
        ∀ syms : List Byte, inputHoldsBytes s.input p (m :: raw ++ syms) → symbolsInOrder hist syms →
          (syms.length < hist.sum → s.input.len.toNat = p + 1 + m.toNat + syms.length →
            raises .hdrRead s .malformedContainer 2) ∧
          (∀ v, syms.length < hist.sum → inputHoldsBytes s.input p (m :: raw ++ syms ++ [v]) →
            ¬ symbolsInOrder hist (syms ++ [v]) → raises .hdrRead s .malformedContainer 6) ∧
          (syms.length = hist.sum → s.input.len.toNat < p + 1 + m.toNat + syms.length + 8 →
            raises .hdrRead s .malformedContainer 2))

/-- 43_decoder_trie_walker.md R121, R122: TRIE_BUILD on a current canonical table stores the code tree, of the stated size. -/
def Obligations.TrieHoldsTheCodes : Prop :=
  ∀ s : State, s.Inv → s.Current → s.flags.codes = true →
    ∃ t, exec .trieBuild s = .next t ∧ raisedIn s t = false ∧
      t.trie.tnodes.val = (if s.canon.nsym.val = 1 then 2 else 2 * s.canon.nsym.val - 1) ∧
      (∀ x, symGet s.len x ≠ 0 → trieLeafFor t.trie.entry 0 (codeWord s.len s.canon.code x) = some x) ∧
      (∀ x, symsList s.canon = [x] →
        tblGet t.trie.entry 0 = { isLeaf := false, sym := 0, child0 := some 1, child1 := none } ∧
        tblGet t.trie.entry 1 = { isLeaf := true, sym := x, child0 := none, child1 := none }) ∧
      (2 ≤ s.canon.nsym.val →
        ∃ tree : BinTree, tree.storedInTrie t.trie.entry (some 0) ∧ tree.size = t.trie.tnodes.val ∧
          ∀ x path, (x, path) ∈ tree.paths ↔ symGet s.len x ≠ 0 ∧ path = codeWord s.len s.canon.code x) ∧
      (∀ id : NodeId, t.trie.tnodes.val ≤ id.val → tblGet t.trie.entry id = tblGet s.trie.entry id) ∧
      t.flags = { s.flags with trie := true } ∧ { t with trie := s.trie, flags := s.flags } = s

/-- 43_decoder_trie_walker.md R123: DEC_SYM follows the input bits from the root to a leaf and emits its symbol, or raises
at a missing child, at the end of the input or at a full OBUF. -/
def Obligations.DecSymFollowsTheTrie : Prop :=
  ∀ s : State, s.Inv → s.flags.trie = true → s.writer.cnt = 0 →
    (∀ bits x, trieLeafFor s.trie.entry 0 bits = some x → inputHolds s.input s.reader bits →
      (s.writer.outLen.toNat < s.cfg.obufBytes →
        ∃ t, exec .decSym s = .next t ∧ raisedIn s t = false ∧ t.res.toNat = x.toNat ∧
          readerAdvanced s.input s.reader t.reader bits.length ∧ appendsBytes s.writer t.writer [x] ∧
          { t with res := s.res, reader := s.reader, writer := s.writer } = s) ∧
      (s.writer.outLen.toNat = s.cfg.obufBytes → raises .decSym s .overflow 3)) ∧
    (∀ bits b id, trieReach s.trie.entry 0 bits = some id → childOf b (tblGet s.trie.entry id) = none →
      inputHolds s.input s.reader (bits ++ [b]) → raises .decSym s .malformedContainer 7) ∧
    ∀ bits id, trieReach s.trie.entry 0 bits = some id → inputHolds s.input s.reader bits →
      bits.length = bitsAvailable s.input s.reader → raises .decSym s .malformedContainer 2

/-- 43_decoder_trie_walker.md R124, R125: DECODE decodes exactly PLEN symbols and reads no bit beyond their codes, or
raises: where the payload ends, between two codes or inside one, at a missing child, or where OBUF is full. -/
def Obligations.DecodeDecodesPlenSymbols : Prop :=
  ∀ (s : State) (syms : List Byte) (path : Byte → List Bool), s.Inv → s.flags.trie = true → s.writer.cnt = 0 →
    (∀ x ∈ syms, trieLeafFor s.trie.entry 0 (path x) = some x) →
    inputHolds s.input s.reader (syms.flatMap path) →
    (s.plen.toNat = syms.length → s.writer.outLen.toNat + syms.length ≤ s.cfg.obufBytes →
      ∃ t, exec .decode s = .next t ∧ raisedIn s t = false ∧
        t.res = (match syms.getLast? with
          | some x => x.setWidth 64
          | none => s.res) ∧
        readerAdvanced s.input s.reader t.reader (syms.flatMap path).length ∧
        appendsBytes s.writer t.writer syms ∧
        { t with res := s.res, reader := s.reader, writer := s.writer } = s) ∧
    (syms.length < s.plen.toNat → s.writer.outLen.toNat + syms.length ≤ s.cfg.obufBytes →
      (∀ bits id, trieReach s.trie.entry 0 bits = some id → inputHolds s.input s.reader (syms.flatMap path ++ bits) →
        (syms.flatMap path ++ bits).length = bitsAvailable s.input s.reader →
        raises .decode s .malformedContainer 2) ∧
      ∀ bits b id, trieReach s.trie.entry 0 bits = some id → childOf b (tblGet s.trie.entry id) = none →
        inputHolds s.input s.reader (syms.flatMap path ++ bits ++ [b]) → raises .decode s .malformedContainer 7) ∧
    (syms.length ≤ s.plen.toNat → s.writer.outLen.toNat ≤ s.cfg.obufBytes →
      s.cfg.obufBytes < s.writer.outLen.toNat + syms.length → raises .decode s .overflow 3)

/-! ### Frames -/

/-- What the tree builder's commands leave unchanged, completing or raising (40_tree_builder.md R74 to R76;
60_exceptions.md R134): everything but FREQ and F_TREE for FREQ_INC and FREQ_SCAN, everything but NODE below `2n - 1`,
ROOT, NNODES and F_TREE for BUILD, and the error registers. -/
def Obligations.TreeBuilderFrame : Prop :=
  (∀ (s t : State) (sym : Byte), exec (.freqInc sym) s = .next t →
    { t with freq := s.freq, flags := s.flags, errs := s.errs, draws := s.draws } = s ∧
    t.flags.codes = s.flags.codes ∧ t.flags.trie = s.flags.trie ∧
    ∀ x, x ≠ sym → symGet t.freq x = symGet s.freq x) ∧
  (∀ s t : State, exec .freqScan s = .next t →
    { t with freq := s.freq, flags := s.flags, errs := s.errs, draws := s.draws } = s ∧
    t.flags.codes = s.flags.codes ∧ t.flags.trie = s.flags.trie) ∧
  ∀ s t : State, exec .build s = .next t →
    { t with tree := s.tree, flags := s.flags, errs := s.errs, draws := s.draws } = s ∧
    t.flags.codes = s.flags.codes ∧ t.flags.trie = s.flags.trie ∧
    ∀ id : NodeId, 2 * countedCount s.freq - 1 ≤ id.val → tblGet t.tree.node id = tblGet s.tree.node id

/-- What WALK, CANON, HDR_READ and TRIE_BUILD leave unchanged, completing or raising (their Writes lines;
60_exceptions.md R134). An entry of SYMS beyond the symbols of the new table keeps what it holds (10_state.md R42), and a
host read of it answers that if it had been written (20_memory.md R58; the model's own field `symsWritten`, log 10); HDR_READ knows the number of those symbols once
the histogram has been read. -/
def Obligations.TableBuilderFrame : Prop :=
  (∀ s t : State, exec .walk s = .next t →
    { t with len := s.len, flags := s.flags, errs := s.errs, draws := s.draws } = s ∧ t.flags.tree = s.flags.tree) ∧
  (∀ s t : State, exec .canon s = .next t →
    { t with canon := s.canon, flags := s.flags, errs := s.errs, draws := s.draws } = s ∧
    t.flags.tree = s.flags.tree ∧
    ∀ k : Byte, codedCount s.len ≤ k.toNat → symGet t.canon.syms k = symGet s.canon.syms k ∧
      (k.toNat < s.canon.symsWritten.val → readTarget t (.syms k) = readTarget s (.syms k))) ∧
  (∀ s t : State, exec .hdrRead s = .next t →
    { t with
      reader := s.reader, len := s.len, canon := s.canon, plen := s.plen, flags := s.flags, errs := s.errs
      draws := s.draws } = s ∧
    t.reader.acc = s.reader.acc ∧ t.reader.left = s.reader.left ∧ t.flags.tree = s.flags.tree ∧
    ∀ (m : Byte) (raw : List Byte), s.reader.left = 0 → m ≠ 0 → raw.length = m.toNat →
      inputHoldsBytes s.input s.reader.pos.toNat (m :: raw) →
      ∀ k : Byte, (histogramRead raw).sum ≤ k.toNat → symGet t.canon.syms k = symGet s.canon.syms k ∧
        (k.toNat < s.canon.symsWritten.val → readTarget t (.syms k) = readTarget s (.syms k))) ∧
  ∀ s t : State, exec .trieBuild s = .next t →
    { t with trie := s.trie, flags := s.flags, errs := s.errs, draws := s.draws } = s ∧
    t.flags.tree = s.flags.tree ∧ t.flags.codes = s.flags.codes ∧
    (raisedIn s t = false →
      ∀ id : NodeId, t.trie.tnodes.val ≤ id.val → tblGet t.trie.entry id = tblGet s.trie.entry id)

/-- What the output commands leave unchanged, completing or raising (their Writes lines; 60_exceptions.md R134): all but
the writer and the error registers; of OBUF every byte below OUT_LEN, and of those above, all that the command did not
emit. -/
def Obligations.OutputCommandFrame : Prop :=
  ∀ (i : Instr) (s t : State), s.Inv →
    i = .flush ∨ i = .encScan ∨ i = .hdrWrite ∨ (∃ n, i = .putBits n) ∨ (∃ b, i = .putByte b) ∨
      (∃ sym, i = .encSym sym) →
    exec i s = .next t →
    { t with writer := s.writer, errs := s.errs, draws := s.draws } = s ∧
    (∀ k, k < s.writer.outLen.toNat → obufRead t.writer.obuf k = obufRead s.writer.obuf k) ∧
    (raisedIn s t = false →
      s.writer.outLen.toNat ≤ t.writer.outLen.toNat ∧
      ∀ k, t.writer.outLen.toNat ≤ k → obufRead t.writer.obuf k = obufRead s.writer.obuf k) ∧
    (i = .flush ∨ (∃ b, i = .putByte b) →
      ∀ k, k ≠ s.writer.outLen.toNat → obufRead t.writer.obuf k = obufRead s.writer.obuf k) ∧
    (i = .hdrWrite ∨ (∃ b, i = .putByte b) → t.writer.acc = s.writer.acc ∧ t.writer.cnt = s.writer.cnt)

/-- What GET_BITS, GET_BYTE, DEC_SYM and DECODE leave unchanged, completing or raising (their Writes lines;
60_exceptions.md R134). -/
def Obligations.InputCommandFrame : Prop :=
  (∀ (s t : State) (n : Byte), exec (.getBits n) s = .next t →
    { t with res := s.res, reader := s.reader, errs := s.errs, draws := s.draws } = s) ∧
  (∀ s t : State, exec .getByte s = .next t →
    { t with res := s.res, reader := s.reader, errs := s.errs, draws := s.draws } = s ∧
    t.reader.acc = s.reader.acc ∧ t.reader.left = s.reader.left) ∧
  ∀ (i : Instr) (s t : State), s.Inv → i = .decSym ∨ i = .decode → exec i s = .next t →
    { t with res := s.res, reader := s.reader, writer := s.writer, errs := s.errs, draws := s.draws } = s ∧
    t.writer.acc = s.writer.acc ∧ t.writer.cnt = s.writer.cnt ∧
    (∀ k, k < s.writer.outLen.toNat → obufRead t.writer.obuf k = obufRead s.writer.obuf k) ∧
    (raisedIn s t = false →
      s.writer.outLen.toNat ≤ t.writer.outLen.toNat ∧
      ∀ k, t.writer.outLen.toNat ≤ k → obufRead t.writer.obuf k = obufRead s.writer.obuf k) ∧
    (i = .decSym → ∀ k, k ≠ s.writer.outLen.toNat → obufRead t.writer.obuf k = obufRead s.writer.obuf k)

/-! ### Registers as the host reads them -/

/-- 10_state.md R17 to R20, R24 to R33; 60_exceptions.md R129, R140: what a host read of each register answers while no
command is pending, with the code of every error kind, and the outputs `busy` and `err`. That such a read answers this
also before the host has observed BUSY = 0 is the model's reading of 20_memory.md R58 beside R59 (log 19). -/
def Obligations.RegisterReads : Prop :=
  ∀ s : State,
    (s.pend.valid = false → ∀ t, t ≠ .unmapped → readData s (targetAddr t) = readTarget s t) ∧
    ((readTarget s .status).toNat =
      s.pend.valid.toNat + 2 * s.flags.tree.toNat + 2 ^ 2 * s.flags.codes.toNat + 2 ^ 3 * s.flags.trie.toNat +
        2 ^ 4 *
          (match s.errs.err with
            | .none => 0
            | .emptyInput => 1
            | .malformedContainer => 2
            | .unrepresentableCode => 3
            | .illegalCommand => 4
            | .sequence => 5
            | .noCode => 6
            | .overflow => 7
            | .busyWrite => 8
            | .badLengths => 9) +
        2 ^ 8 * s.writer.cnt.val + 2 ^ 12 * s.reader.left.val) ∧
    s.busy = (readTarget s .status).getLsbD 0 ∧
    (s.errOut = true ↔ (readTarget s .status).toNat / 2 ^ 4 % 2 ^ 4 ≠ 0) ∧
    (readTarget s .pack).toNat = s.writer.acc.toNat + 2 ^ 8 * s.reader.acc.toNat ∧
    readTarget s .cmd = 0 ∧ readTarget s .errCmd = s.errs.cmd ∧ readTarget s .errInfo = s.errs.info ∧
    (readTarget s .inLen).toNat = s.input.len.toNat ∧ (readTarget s .inPos).toNat = s.reader.pos.toNat ∧
    (readTarget s .outLen).toNat = s.writer.outLen.toNat ∧
    (readTarget s .nsym).toNat = s.canon.nsym.val ∧ (readTarget s .maxlen).toNat = s.canon.maxlen.toNat ∧
    (readTarget s .root).toNat =
      (match s.tree.root with
        | some i => i.val
        | none => 0x1FF) ∧
    (readTarget s .nnodes).toNat = s.tree.nnodes.val ∧ (readTarget s .tnodes).toNat = s.trie.tnodes.val ∧
    (s.cfg.wf = true →
      (readTarget s .capIn).toNat = s.cfg.ibufBytes ∧ (readTarget s .capOut).toNat = s.cfg.obufBytes ∧
        (readTarget s .capMaxlen).toNat = s.cfg.maxCodeLen)

end ObligationStatements
end

