-- ==== Sys2Proof/Laws/Memory.lean ====
section
/-! SUPPORT. The byte memories: the canonical form, and read after write. -/

namespace Sys2Proof.Machine

theorem Memory.wf_cons {c : Host.Cell} {m : Memory} (h : Memory.wf (c :: m) = true) : Memory.wf m = true := by
  cases m with
  | nil => rfl
  | cons d m => simp [Memory.wf] at h; exact h.2

theorem Memory.wf_iff (c : Host.Cell) (m : Memory) :
    Memory.wf (c :: m) = true ↔ (∀ d ∈ m, c.1 < d.1) ∧ Memory.wf m = true := by
  induction m generalizing c with
  | nil => simp [Memory.wf]
  | cons d m ih =>
    simp only [Memory.wf, Bool.and_eq_true, decide_eq_true_eq, List.mem_cons, forall_eq_or_imp]
    constructor
    · rintro ⟨h1, h2⟩
      exact ⟨⟨h1, fun e he => Nat.lt_trans h1 (((ih d).mp h2).1 e he)⟩, h2⟩
    · rintro ⟨⟨h1, -⟩, h2⟩; exact ⟨h1, h2⟩

@[simp] theorem memFind_memPut_self (m : Memory) (k : Nat) (v : Byte) : memFind (memPut m k v) k = some v := by
  induction m with
  | nil => simp [memPut, memFind]
  | cons c m ih =>
    simp only [memPut]
    split
    · next h => simp [memFind, ih, Nat.ne_of_lt h]
    · split <;> simp [memFind]

/-- A write leaves every other index alone. -/
theorem memFind_memPut_ne {m : Memory} {k j : Nat} (v : Byte) (h : j ≠ k) :
    memFind (memPut m k v) j = memFind m j := by
  induction m with
  | nil => simp [memPut, memFind, h.symm]
  | cons c m ih =>
    simp only [memPut]
    split
    · simp only [memFind]; rw [ih]
    · split
      · next h1 h2 => simp [memFind, h2, h.symm]
      · simp [memFind, h.symm]

theorem mem_memPut {m : Memory} {k : Nat} {v : Byte} {c : Host.Cell} (h : c ∈ memPut m k v) :
    c ∈ m ∨ c = (k, v) := by
  induction m with
  | nil => simp [memPut] at h; exact .inr h
  | cons d m ih =>
    simp only [memPut] at h
    split at h
    · rcases List.mem_cons.mp h with rfl | h
      · exact .inl (by simp)
      · rcases ih h with h | h
        · exact .inl (by simp [h])
        · exact .inr h
    · split at h
      · rcases List.mem_cons.mp h with rfl | h
        · exact .inr rfl
        · exact .inl (by simp [h])
      · rcases List.mem_cons.mp h with rfl | h
        · exact .inr rfl
        · exact .inl h

/-- A write keeps the canonical form. -/
theorem Memory.wf_memPut {m : Memory} (k : Nat) (v : Byte) (hm : Memory.wf m = true) :
    Memory.wf (memPut m k v) = true := by
  induction m with
  | nil => rfl
  | cons c m ih =>
    have hc := (Memory.wf_iff c m).mp hm
    simp only [memPut]
    split
    · next h =>
      refine (Memory.wf_iff _ _).mpr ⟨?_, ih hc.2⟩
      intro d hd
      rcases mem_memPut hd with hd | rfl
      · exact hc.1 d hd
      · exact h
    · next h1 =>
      split
      · next h2 =>
        refine (Memory.wf_iff _ _).mpr ⟨?_, hc.2⟩
        intro d hd; simpa [← h2] using hc.1 d hd
      · next h2 =>
        refine (Memory.wf_iff _ _).mpr ⟨?_, hm⟩
        intro d hd
        rcases List.mem_cons.mp hd with rfl | hd
        · simp; omega
        · have := hc.1 d hd; simp; omega

/-- Leaving out the bytes at `k` and above keeps the canonical form. -/
theorem Memory.wf_filter {m : Memory} (p : Host.Cell → Bool) (hm : Memory.wf m = true) :
    Memory.wf (m.filter p) = true := by
  induction m with
  | nil => rfl
  | cons c m ih =>
    have hc := (Memory.wf_iff c m).mp hm
    simp only [List.filter_cons]
    split
    · refine (Memory.wf_iff _ _).mpr ⟨?_, ih hc.2⟩
      intro d hd; exact hc.1 d (List.mem_filter.mp hd).1
    · exact ih hc.2

theorem memFind_filter_lt (m : Memory) {k j : Nat} (h : j < k) :
    memFind (m.filter fun c => decide (c.1 < k)) j = memFind m j := by
  induction m with
  | nil => rfl
  | cons c m ih =>
    simp only [List.filter_cons]
    by_cases hc : c.1 < k
    · simp [hc, memFind, ih]
    · have : c.1 ≠ j := by omega
      simp [hc, memFind, ih, this]

/-! ### IBUF and OBUF -/

@[simp] theorem obufRead_obufWrite_self (o : Obuf) (k : Nat) (v : Byte) : obufRead (obufWrite o k v) k = v := by
  simp [obufRead, obufWrite]

theorem obufRead_obufWrite_ne (o : Obuf) {k j : Nat} (v : Byte) (h : j ≠ k) :
    obufRead (obufWrite o k v) j = obufRead o j := by
  simp [obufRead, obufWrite, obufUnwritten, memFind_memPut_ne v h]

theorem holeDraw_filter_lt (hs : List (Nat × Nat)) {k j : Nat} (h : j < k) :
    holeDraw (hs.filter fun x => decide (x.1 < k)) j = holeDraw hs j := by
  induction hs with
  | nil => rfl
  | cons x hs ih =>
    simp only [List.filter_cons]
    by_cases hx : x.1 < k
    · simp [hx, holeDraw, ih]
    · have : ¬ x.1 ≤ j := by omega
      simp [hx, holeDraw, ih, this]

/-- A raise leaves the bytes of OBUF below the starting OUT_LEN alone (60_exceptions.md R134). -/
theorem obufRead_obufSpoilFrom_lt (o : Obuf) (d : Nat) {k j : Nat} (h : j < k) :
    obufRead (obufSpoilFrom o k d) j = obufRead o j := by
  have hk : ¬ k ≤ j := by omega
  simp [obufRead, obufSpoilFrom, obufUnwritten, memFind_filter_lt _ h, holeDraw, hk, holeDraw_filter_lt _ h]

theorem obufRead_obufSpoilAt_ne (cap : Nat) (o : Obuf) (d : Nat) {k j : Nat} (h : j ≠ k) :
    obufRead (obufSpoilAt cap o k d) j = obufRead o j := by
  unfold obufSpoilAt
  split
  · exact obufRead_obufWrite_ne _ _ h
  · rfl

theorem obufWrite_wf {o : Obuf} (k : Nat) (v : Byte) (ho : Memory.wf o.cells = true) :
    Memory.wf (obufWrite o k v).cells = true := Memory.wf_memPut k v ho

theorem obufSpoilFrom_wf {o : Obuf} (k d : Nat) (ho : Memory.wf o.cells = true) :
    Memory.wf (obufSpoilFrom o k d).cells = true := Memory.wf_filter _ ho

theorem obufSpoilAt_wf {cap : Nat} {o : Obuf} (k d : Nat) (ho : Memory.wf o.cells = true) :
    Memory.wf (obufSpoilAt cap o k d).cells = true := by
  unfold obufSpoilAt
  split
  · exact obufWrite_wf _ _ ho
  · exact ho

/-- The machine's memory after reset has the canonical form. -/
theorem reset_memory_wf (c : Config) (d n : Nat) :
    Memory.wf (State.resetOf c d n).input.mem = true ∧ Memory.wf (State.resetOf c d n).writer.obuf.cells = true :=
  ⟨rfl, rfl⟩

end Sys2Proof.Machine
end

