-- ==== Sys2Proof/Laws/State.lean ====
section
/-! SUPPORT. One lemma per field per named update of the state, so that no proof unfolds an update. -/

namespace Sys2Proof.Machine

/-! ### recordError -/
@[simp] theorem recordError_cfg (s : State) (k : Err) (c i : Word) : (recordError k c i s).cfg = s.cfg := by
  unfold recordError; split <;> rfl
@[simp] theorem recordError_pend (s : State) (k : Err) (c i : Word) : (recordError k c i s).pend = s.pend := by
  unfold recordError; split <;> rfl
@[simp] theorem recordError_flags (s : State) (k : Err) (c i : Word) : (recordError k c i s).flags = s.flags := by
  unfold recordError; split <;> rfl
@[simp] theorem recordError_arg (s : State) (k : Err) (c i : Word) : (recordError k c i s).arg = s.arg := by
  unfold recordError; split <;> rfl
@[simp] theorem recordError_res (s : State) (k : Err) (c i : Word) : (recordError k c i s).res = s.res := by
  unfold recordError; split <;> rfl
@[simp] theorem recordError_plen (s : State) (k : Err) (c i : Word) : (recordError k c i s).plen = s.plen := by
  unfold recordError; split <;> rfl
@[simp] theorem recordError_input (s : State) (k : Err) (c i : Word) : (recordError k c i s).input = s.input := by
  unfold recordError; split <;> rfl
@[simp] theorem recordError_reader (s : State) (k : Err) (c i : Word) : (recordError k c i s).reader = s.reader := by
  unfold recordError; split <;> rfl
@[simp] theorem recordError_writer (s : State) (k : Err) (c i : Word) : (recordError k c i s).writer = s.writer := by
  unfold recordError; split <;> rfl
@[simp] theorem recordError_freq (s : State) (k : Err) (c i : Word) : (recordError k c i s).freq = s.freq := by
  unfold recordError; split <;> rfl
@[simp] theorem recordError_tree (s : State) (k : Err) (c i : Word) : (recordError k c i s).tree = s.tree := by
  unfold recordError; split <;> rfl
@[simp] theorem recordError_len (s : State) (k : Err) (c i : Word) : (recordError k c i s).len = s.len := by
  unfold recordError; split <;> rfl
@[simp] theorem recordError_canon (s : State) (k : Err) (c i : Word) : (recordError k c i s).canon = s.canon := by
  unfold recordError; split <;> rfl
@[simp] theorem recordError_trie (s : State) (k : Err) (c i : Word) : (recordError k c i s).trie = s.trie := by
  unfold recordError; split <;> rfl
@[simp] theorem recordError_bus (s : State) (k : Err) (c i : Word) : (recordError k c i s).bus = s.bus := by
  unfold recordError; split <;> rfl
@[simp] theorem recordError_draws (s : State) (k : Err) (c i : Word) : (recordError k c i s).draws = s.draws := by
  unfold recordError; split <;> rfl
@[simp] theorem recordError_script (s : State) (k : Err) (c i : Word) : (recordError k c i s).script = s.script := by
  unfold recordError; split <;> rfl
/-! ### enterError -/
@[simp] theorem enterError_cfg (s : State) (r : Raise) : (enterError r s).cfg = s.cfg := recordError_cfg s r.kind s.pend.word r.info
@[simp] theorem enterError_pend (s : State) (r : Raise) : (enterError r s).pend = s.pend := recordError_pend s r.kind s.pend.word r.info
@[simp] theorem enterError_flags (s : State) (r : Raise) : (enterError r s).flags = s.flags := recordError_flags s r.kind s.pend.word r.info
@[simp] theorem enterError_arg (s : State) (r : Raise) : (enterError r s).arg = s.arg := recordError_arg s r.kind s.pend.word r.info
@[simp] theorem enterError_res (s : State) (r : Raise) : (enterError r s).res = s.res := recordError_res s r.kind s.pend.word r.info
@[simp] theorem enterError_plen (s : State) (r : Raise) : (enterError r s).plen = s.plen := recordError_plen s r.kind s.pend.word r.info
@[simp] theorem enterError_input (s : State) (r : Raise) : (enterError r s).input = s.input := recordError_input s r.kind s.pend.word r.info
@[simp] theorem enterError_reader (s : State) (r : Raise) : (enterError r s).reader = s.reader := recordError_reader s r.kind s.pend.word r.info
@[simp] theorem enterError_writer (s : State) (r : Raise) : (enterError r s).writer = s.writer := recordError_writer s r.kind s.pend.word r.info
@[simp] theorem enterError_freq (s : State) (r : Raise) : (enterError r s).freq = s.freq := recordError_freq s r.kind s.pend.word r.info
@[simp] theorem enterError_tree (s : State) (r : Raise) : (enterError r s).tree = s.tree := recordError_tree s r.kind s.pend.word r.info
@[simp] theorem enterError_len (s : State) (r : Raise) : (enterError r s).len = s.len := recordError_len s r.kind s.pend.word r.info
@[simp] theorem enterError_canon (s : State) (r : Raise) : (enterError r s).canon = s.canon := recordError_canon s r.kind s.pend.word r.info
@[simp] theorem enterError_trie (s : State) (r : Raise) : (enterError r s).trie = s.trie := recordError_trie s r.kind s.pend.word r.info
@[simp] theorem enterError_bus (s : State) (r : Raise) : (enterError r s).bus = s.bus := recordError_bus s r.kind s.pend.word r.info
@[simp] theorem enterError_draws (s : State) (r : Raise) : (enterError r s).draws = s.draws := recordError_draws s r.kind s.pend.word r.info
@[simp] theorem enterError_script (s : State) (r : Raise) : (enterError r s).script = s.script := recordError_script s r.kind s.pend.word r.info
/-! ### raiseIllegal -/
@[simp] theorem raiseIllegal_cfg (s : State) (i : Word) : (raiseIllegal i s).cfg = s.cfg := enterError_cfg s _
@[simp] theorem raiseIllegal_pend (s : State) (i : Word) : (raiseIllegal i s).pend = s.pend := enterError_pend s _
@[simp] theorem raiseIllegal_flags (s : State) (i : Word) : (raiseIllegal i s).flags = s.flags := enterError_flags s _
@[simp] theorem raiseIllegal_arg (s : State) (i : Word) : (raiseIllegal i s).arg = s.arg := enterError_arg s _
@[simp] theorem raiseIllegal_res (s : State) (i : Word) : (raiseIllegal i s).res = s.res := enterError_res s _
@[simp] theorem raiseIllegal_plen (s : State) (i : Word) : (raiseIllegal i s).plen = s.plen := enterError_plen s _
@[simp] theorem raiseIllegal_input (s : State) (i : Word) : (raiseIllegal i s).input = s.input := enterError_input s _
@[simp] theorem raiseIllegal_reader (s : State) (i : Word) : (raiseIllegal i s).reader = s.reader := enterError_reader s _
@[simp] theorem raiseIllegal_writer (s : State) (i : Word) : (raiseIllegal i s).writer = s.writer := enterError_writer s _
@[simp] theorem raiseIllegal_freq (s : State) (i : Word) : (raiseIllegal i s).freq = s.freq := enterError_freq s _
@[simp] theorem raiseIllegal_tree (s : State) (i : Word) : (raiseIllegal i s).tree = s.tree := enterError_tree s _
@[simp] theorem raiseIllegal_len (s : State) (i : Word) : (raiseIllegal i s).len = s.len := enterError_len s _
@[simp] theorem raiseIllegal_canon (s : State) (i : Word) : (raiseIllegal i s).canon = s.canon := enterError_canon s _
@[simp] theorem raiseIllegal_trie (s : State) (i : Word) : (raiseIllegal i s).trie = s.trie := enterError_trie s _
@[simp] theorem raiseIllegal_bus (s : State) (i : Word) : (raiseIllegal i s).bus = s.bus := enterError_bus s _
@[simp] theorem raiseIllegal_draws (s : State) (i : Word) : (raiseIllegal i s).draws = s.draws := enterError_draws s _
@[simp] theorem raiseIllegal_script (s : State) (i : Word) : (raiseIllegal i s).script = s.script := enterError_script s _
/-! ### raiseBusyWrite -/
@[simp] theorem raiseBusyWrite_cfg (s : State) (a : Addr) : (raiseBusyWrite a s).cfg = s.cfg := recordError_cfg s _ _ _
@[simp] theorem raiseBusyWrite_pend (s : State) (a : Addr) : (raiseBusyWrite a s).pend = s.pend := recordError_pend s _ _ _
@[simp] theorem raiseBusyWrite_flags (s : State) (a : Addr) : (raiseBusyWrite a s).flags = s.flags := recordError_flags s _ _ _
@[simp] theorem raiseBusyWrite_arg (s : State) (a : Addr) : (raiseBusyWrite a s).arg = s.arg := recordError_arg s _ _ _
@[simp] theorem raiseBusyWrite_res (s : State) (a : Addr) : (raiseBusyWrite a s).res = s.res := recordError_res s _ _ _
@[simp] theorem raiseBusyWrite_plen (s : State) (a : Addr) : (raiseBusyWrite a s).plen = s.plen := recordError_plen s _ _ _
@[simp] theorem raiseBusyWrite_input (s : State) (a : Addr) : (raiseBusyWrite a s).input = s.input := recordError_input s _ _ _
@[simp] theorem raiseBusyWrite_reader (s : State) (a : Addr) : (raiseBusyWrite a s).reader = s.reader := recordError_reader s _ _ _
@[simp] theorem raiseBusyWrite_writer (s : State) (a : Addr) : (raiseBusyWrite a s).writer = s.writer := recordError_writer s _ _ _
@[simp] theorem raiseBusyWrite_freq (s : State) (a : Addr) : (raiseBusyWrite a s).freq = s.freq := recordError_freq s _ _ _
@[simp] theorem raiseBusyWrite_tree (s : State) (a : Addr) : (raiseBusyWrite a s).tree = s.tree := recordError_tree s _ _ _
@[simp] theorem raiseBusyWrite_len (s : State) (a : Addr) : (raiseBusyWrite a s).len = s.len := recordError_len s _ _ _
@[simp] theorem raiseBusyWrite_canon (s : State) (a : Addr) : (raiseBusyWrite a s).canon = s.canon := recordError_canon s _ _ _
@[simp] theorem raiseBusyWrite_trie (s : State) (a : Addr) : (raiseBusyWrite a s).trie = s.trie := recordError_trie s _ _ _
@[simp] theorem raiseBusyWrite_bus (s : State) (a : Addr) : (raiseBusyWrite a s).bus = s.bus := recordError_bus s _ _ _
@[simp] theorem raiseBusyWrite_draws (s : State) (a : Addr) : (raiseBusyWrite a s).draws = s.draws := recordError_draws s _ _ _
@[simp] theorem raiseBusyWrite_script (s : State) (a : Addr) : (raiseBusyWrite a s).script = s.script := recordError_script s _ _ _

/-! ### leaveError -/
@[simp] theorem leaveError_cfg (s : State)  : (leaveError s).cfg = s.cfg := rfl
@[simp] theorem leaveError_pend (s : State)  : (leaveError s).pend = s.pend := rfl
@[simp] theorem leaveError_flags (s : State)  : (leaveError s).flags = s.flags := rfl
@[simp] theorem leaveError_arg (s : State)  : (leaveError s).arg = s.arg := rfl
@[simp] theorem leaveError_res (s : State)  : (leaveError s).res = s.res := rfl
@[simp] theorem leaveError_plen (s : State)  : (leaveError s).plen = s.plen := rfl
@[simp] theorem leaveError_input (s : State)  : (leaveError s).input = s.input := rfl
@[simp] theorem leaveError_reader (s : State)  : (leaveError s).reader = s.reader := rfl
@[simp] theorem leaveError_writer (s : State)  : (leaveError s).writer = s.writer := rfl
@[simp] theorem leaveError_freq (s : State)  : (leaveError s).freq = s.freq := rfl
@[simp] theorem leaveError_tree (s : State)  : (leaveError s).tree = s.tree := rfl
@[simp] theorem leaveError_len (s : State)  : (leaveError s).len = s.len := rfl
@[simp] theorem leaveError_canon (s : State)  : (leaveError s).canon = s.canon := rfl
@[simp] theorem leaveError_trie (s : State)  : (leaveError s).trie = s.trie := rfl
@[simp] theorem leaveError_bus (s : State)  : (leaveError s).bus = s.bus := rfl
@[simp] theorem leaveError_draws (s : State)  : (leaveError s).draws = s.draws := rfl
@[simp] theorem leaveError_script (s : State)  : (leaveError s).script = s.script := rfl

/-! ### endCommand -/
@[simp] theorem endCommand_cfg (s : State)  : (endCommand s).cfg = s.cfg := rfl
@[simp] theorem endCommand_errs (s : State)  : (endCommand s).errs = s.errs := rfl
@[simp] theorem endCommand_flags (s : State)  : (endCommand s).flags = s.flags := rfl
@[simp] theorem endCommand_arg (s : State)  : (endCommand s).arg = s.arg := rfl
@[simp] theorem endCommand_res (s : State)  : (endCommand s).res = s.res := rfl
@[simp] theorem endCommand_plen (s : State)  : (endCommand s).plen = s.plen := rfl
@[simp] theorem endCommand_input (s : State)  : (endCommand s).input = s.input := rfl
@[simp] theorem endCommand_reader (s : State)  : (endCommand s).reader = s.reader := rfl
@[simp] theorem endCommand_writer (s : State)  : (endCommand s).writer = s.writer := rfl
@[simp] theorem endCommand_freq (s : State)  : (endCommand s).freq = s.freq := rfl
@[simp] theorem endCommand_tree (s : State)  : (endCommand s).tree = s.tree := rfl
@[simp] theorem endCommand_len (s : State)  : (endCommand s).len = s.len := rfl
@[simp] theorem endCommand_canon (s : State)  : (endCommand s).canon = s.canon := rfl
@[simp] theorem endCommand_trie (s : State)  : (endCommand s).trie = s.trie := rfl
@[simp] theorem endCommand_bus (s : State)  : (endCommand s).bus = s.bus := rfl
@[simp] theorem endCommand_draws (s : State)  : (endCommand s).draws = s.draws := rfl
@[simp] theorem endCommand_script (s : State)  : (endCommand s).script = s.script := rfl

/-! ### beginEvent -/
@[simp] theorem beginEvent_cfg (s : State) (es : List HostEvent) : (beginEvent es s).cfg = s.cfg := rfl
@[simp] theorem beginEvent_pend (s : State) (es : List HostEvent) : (beginEvent es s).pend = s.pend := rfl
@[simp] theorem beginEvent_errs (s : State) (es : List HostEvent) : (beginEvent es s).errs = s.errs := rfl
@[simp] theorem beginEvent_flags (s : State) (es : List HostEvent) : (beginEvent es s).flags = s.flags := rfl
@[simp] theorem beginEvent_arg (s : State) (es : List HostEvent) : (beginEvent es s).arg = s.arg := rfl
@[simp] theorem beginEvent_res (s : State) (es : List HostEvent) : (beginEvent es s).res = s.res := rfl
@[simp] theorem beginEvent_plen (s : State) (es : List HostEvent) : (beginEvent es s).plen = s.plen := rfl
@[simp] theorem beginEvent_input (s : State) (es : List HostEvent) : (beginEvent es s).input = s.input := rfl
@[simp] theorem beginEvent_reader (s : State) (es : List HostEvent) : (beginEvent es s).reader = s.reader := rfl
@[simp] theorem beginEvent_writer (s : State) (es : List HostEvent) : (beginEvent es s).writer = s.writer := rfl
@[simp] theorem beginEvent_freq (s : State) (es : List HostEvent) : (beginEvent es s).freq = s.freq := rfl
@[simp] theorem beginEvent_tree (s : State) (es : List HostEvent) : (beginEvent es s).tree = s.tree := rfl
@[simp] theorem beginEvent_len (s : State) (es : List HostEvent) : (beginEvent es s).len = s.len := rfl
@[simp] theorem beginEvent_canon (s : State) (es : List HostEvent) : (beginEvent es s).canon = s.canon := rfl
@[simp] theorem beginEvent_trie (s : State) (es : List HostEvent) : (beginEvent es s).trie = s.trie := rfl
@[simp] theorem beginEvent_draws (s : State) (es : List HostEvent) : (beginEvent es s).draws = s.draws := rfl

/-! ### withFreq -/
@[simp] theorem withFreq_cfg (s : State) (x : Table Dword 256) : (withFreq s x).cfg = s.cfg := rfl
@[simp] theorem withFreq_pend (s : State) (x : Table Dword 256) : (withFreq s x).pend = s.pend := rfl
@[simp] theorem withFreq_errs (s : State) (x : Table Dword 256) : (withFreq s x).errs = s.errs := rfl
@[simp] theorem withFreq_arg (s : State) (x : Table Dword 256) : (withFreq s x).arg = s.arg := rfl
@[simp] theorem withFreq_res (s : State) (x : Table Dword 256) : (withFreq s x).res = s.res := rfl
@[simp] theorem withFreq_plen (s : State) (x : Table Dword 256) : (withFreq s x).plen = s.plen := rfl
@[simp] theorem withFreq_input (s : State) (x : Table Dword 256) : (withFreq s x).input = s.input := rfl
@[simp] theorem withFreq_reader (s : State) (x : Table Dword 256) : (withFreq s x).reader = s.reader := rfl
@[simp] theorem withFreq_writer (s : State) (x : Table Dword 256) : (withFreq s x).writer = s.writer := rfl
@[simp] theorem withFreq_tree (s : State) (x : Table Dword 256) : (withFreq s x).tree = s.tree := rfl
@[simp] theorem withFreq_len (s : State) (x : Table Dword 256) : (withFreq s x).len = s.len := rfl
@[simp] theorem withFreq_canon (s : State) (x : Table Dword 256) : (withFreq s x).canon = s.canon := rfl
@[simp] theorem withFreq_trie (s : State) (x : Table Dword 256) : (withFreq s x).trie = s.trie := rfl
@[simp] theorem withFreq_bus (s : State) (x : Table Dword 256) : (withFreq s x).bus = s.bus := rfl
@[simp] theorem withFreq_draws (s : State) (x : Table Dword 256) : (withFreq s x).draws = s.draws := rfl
@[simp] theorem withFreq_script (s : State) (x : Table Dword 256) : (withFreq s x).script = s.script := rfl

/-! ### withLengths -/
@[simp] theorem withLengths_cfg (s : State) (x : Table Byte 256) : (withLengths s x).cfg = s.cfg := rfl
@[simp] theorem withLengths_pend (s : State) (x : Table Byte 256) : (withLengths s x).pend = s.pend := rfl
@[simp] theorem withLengths_errs (s : State) (x : Table Byte 256) : (withLengths s x).errs = s.errs := rfl
@[simp] theorem withLengths_arg (s : State) (x : Table Byte 256) : (withLengths s x).arg = s.arg := rfl
@[simp] theorem withLengths_res (s : State) (x : Table Byte 256) : (withLengths s x).res = s.res := rfl
@[simp] theorem withLengths_plen (s : State) (x : Table Byte 256) : (withLengths s x).plen = s.plen := rfl
@[simp] theorem withLengths_input (s : State) (x : Table Byte 256) : (withLengths s x).input = s.input := rfl
@[simp] theorem withLengths_reader (s : State) (x : Table Byte 256) : (withLengths s x).reader = s.reader := rfl
@[simp] theorem withLengths_writer (s : State) (x : Table Byte 256) : (withLengths s x).writer = s.writer := rfl
@[simp] theorem withLengths_freq (s : State) (x : Table Byte 256) : (withLengths s x).freq = s.freq := rfl
@[simp] theorem withLengths_tree (s : State) (x : Table Byte 256) : (withLengths s x).tree = s.tree := rfl
@[simp] theorem withLengths_canon (s : State) (x : Table Byte 256) : (withLengths s x).canon = s.canon := rfl
@[simp] theorem withLengths_trie (s : State) (x : Table Byte 256) : (withLengths s x).trie = s.trie := rfl
@[simp] theorem withLengths_bus (s : State) (x : Table Byte 256) : (withLengths s x).bus = s.bus := rfl
@[simp] theorem withLengths_draws (s : State) (x : Table Byte 256) : (withLengths s x).draws = s.draws := rfl
@[simp] theorem withLengths_script (s : State) (x : Table Byte 256) : (withLengths s x).script = s.script := rfl

/-! ### withWriter -/
@[simp] theorem withWriter_cfg (s : State) (x : Writer) : (withWriter s x).cfg = s.cfg := rfl
@[simp] theorem withWriter_pend (s : State) (x : Writer) : (withWriter s x).pend = s.pend := rfl
@[simp] theorem withWriter_errs (s : State) (x : Writer) : (withWriter s x).errs = s.errs := rfl
@[simp] theorem withWriter_flags (s : State) (x : Writer) : (withWriter s x).flags = s.flags := rfl
@[simp] theorem withWriter_arg (s : State) (x : Writer) : (withWriter s x).arg = s.arg := rfl
@[simp] theorem withWriter_res (s : State) (x : Writer) : (withWriter s x).res = s.res := rfl
@[simp] theorem withWriter_plen (s : State) (x : Writer) : (withWriter s x).plen = s.plen := rfl
@[simp] theorem withWriter_input (s : State) (x : Writer) : (withWriter s x).input = s.input := rfl
@[simp] theorem withWriter_reader (s : State) (x : Writer) : (withWriter s x).reader = s.reader := rfl
@[simp] theorem withWriter_freq (s : State) (x : Writer) : (withWriter s x).freq = s.freq := rfl
@[simp] theorem withWriter_tree (s : State) (x : Writer) : (withWriter s x).tree = s.tree := rfl
@[simp] theorem withWriter_len (s : State) (x : Writer) : (withWriter s x).len = s.len := rfl
@[simp] theorem withWriter_canon (s : State) (x : Writer) : (withWriter s x).canon = s.canon := rfl
@[simp] theorem withWriter_trie (s : State) (x : Writer) : (withWriter s x).trie = s.trie := rfl
@[simp] theorem withWriter_bus (s : State) (x : Writer) : (withWriter s x).bus = s.bus := rfl
@[simp] theorem withWriter_draws (s : State) (x : Writer) : (withWriter s x).draws = s.draws := rfl
@[simp] theorem withWriter_script (s : State) (x : Writer) : (withWriter s x).script = s.script := rfl

/-! ### withRead -/
@[simp] theorem withRead_cfg (s : State) (v : Dword) (x : Reader) : (withRead s v x).cfg = s.cfg := rfl
@[simp] theorem withRead_pend (s : State) (v : Dword) (x : Reader) : (withRead s v x).pend = s.pend := rfl
@[simp] theorem withRead_errs (s : State) (v : Dword) (x : Reader) : (withRead s v x).errs = s.errs := rfl
@[simp] theorem withRead_flags (s : State) (v : Dword) (x : Reader) : (withRead s v x).flags = s.flags := rfl
@[simp] theorem withRead_arg (s : State) (v : Dword) (x : Reader) : (withRead s v x).arg = s.arg := rfl
@[simp] theorem withRead_plen (s : State) (v : Dword) (x : Reader) : (withRead s v x).plen = s.plen := rfl
@[simp] theorem withRead_input (s : State) (v : Dword) (x : Reader) : (withRead s v x).input = s.input := rfl
@[simp] theorem withRead_writer (s : State) (v : Dword) (x : Reader) : (withRead s v x).writer = s.writer := rfl
@[simp] theorem withRead_freq (s : State) (v : Dword) (x : Reader) : (withRead s v x).freq = s.freq := rfl
@[simp] theorem withRead_tree (s : State) (v : Dword) (x : Reader) : (withRead s v x).tree = s.tree := rfl
@[simp] theorem withRead_len (s : State) (v : Dword) (x : Reader) : (withRead s v x).len = s.len := rfl
@[simp] theorem withRead_canon (s : State) (v : Dword) (x : Reader) : (withRead s v x).canon = s.canon := rfl
@[simp] theorem withRead_trie (s : State) (v : Dword) (x : Reader) : (withRead s v x).trie = s.trie := rfl
@[simp] theorem withRead_bus (s : State) (v : Dword) (x : Reader) : (withRead s v x).bus = s.bus := rfl
@[simp] theorem withRead_draws (s : State) (v : Dword) (x : Reader) : (withRead s v x).draws = s.draws := rfl
@[simp] theorem withRead_script (s : State) (v : Dword) (x : Reader) : (withRead s v x).script = s.script := rfl

/-! ### withDecoded -/
@[simp] theorem withDecoded_cfg (s : State) (x : DecodeWork) : (withDecoded s x).cfg = s.cfg := rfl
@[simp] theorem withDecoded_pend (s : State) (x : DecodeWork) : (withDecoded s x).pend = s.pend := rfl
@[simp] theorem withDecoded_errs (s : State) (x : DecodeWork) : (withDecoded s x).errs = s.errs := rfl
@[simp] theorem withDecoded_flags (s : State) (x : DecodeWork) : (withDecoded s x).flags = s.flags := rfl
@[simp] theorem withDecoded_arg (s : State) (x : DecodeWork) : (withDecoded s x).arg = s.arg := rfl
@[simp] theorem withDecoded_plen (s : State) (x : DecodeWork) : (withDecoded s x).plen = s.plen := rfl
@[simp] theorem withDecoded_input (s : State) (x : DecodeWork) : (withDecoded s x).input = s.input := rfl
@[simp] theorem withDecoded_freq (s : State) (x : DecodeWork) : (withDecoded s x).freq = s.freq := rfl
@[simp] theorem withDecoded_tree (s : State) (x : DecodeWork) : (withDecoded s x).tree = s.tree := rfl
@[simp] theorem withDecoded_len (s : State) (x : DecodeWork) : (withDecoded s x).len = s.len := rfl
@[simp] theorem withDecoded_canon (s : State) (x : DecodeWork) : (withDecoded s x).canon = s.canon := rfl
@[simp] theorem withDecoded_trie (s : State) (x : DecodeWork) : (withDecoded s x).trie = s.trie := rfl
@[simp] theorem withDecoded_bus (s : State) (x : DecodeWork) : (withDecoded s x).bus = s.bus := rfl
@[simp] theorem withDecoded_draws (s : State) (x : DecodeWork) : (withDecoded s x).draws = s.draws := rfl
@[simp] theorem withDecoded_script (s : State) (x : DecodeWork) : (withDecoded s x).script = s.script := rfl

/-! ### commitHeader -/
@[simp] theorem commitHeader_cfg (s : State) (h : Header) (r : Reader) : (commitHeader s h r).cfg = s.cfg := rfl
@[simp] theorem commitHeader_pend (s : State) (h : Header) (r : Reader) : (commitHeader s h r).pend = s.pend := rfl
@[simp] theorem commitHeader_errs (s : State) (h : Header) (r : Reader) : (commitHeader s h r).errs = s.errs := rfl
@[simp] theorem commitHeader_arg (s : State) (h : Header) (r : Reader) : (commitHeader s h r).arg = s.arg := rfl
@[simp] theorem commitHeader_res (s : State) (h : Header) (r : Reader) : (commitHeader s h r).res = s.res := rfl
@[simp] theorem commitHeader_input (s : State) (h : Header) (r : Reader) : (commitHeader s h r).input = s.input := rfl
@[simp] theorem commitHeader_writer (s : State) (h : Header) (r : Reader) : (commitHeader s h r).writer = s.writer := rfl
@[simp] theorem commitHeader_freq (s : State) (h : Header) (r : Reader) : (commitHeader s h r).freq = s.freq := rfl
@[simp] theorem commitHeader_tree (s : State) (h : Header) (r : Reader) : (commitHeader s h r).tree = s.tree := rfl
@[simp] theorem commitHeader_trie (s : State) (h : Header) (r : Reader) : (commitHeader s h r).trie = s.trie := rfl
@[simp] theorem commitHeader_bus (s : State) (h : Header) (r : Reader) : (commitHeader s h r).bus = s.bus := rfl
@[simp] theorem commitHeader_draws (s : State) (h : Header) (r : Reader) : (commitHeader s h r).draws = s.draws := rfl
@[simp] theorem commitHeader_script (s : State) (h : Header) (r : Reader) : (commitHeader s h r).script = s.script := rfl

/-! ### clearedState -/
@[simp] theorem clearedState_cfg (s : State)  : (clearedState s).cfg = s.cfg := rfl
@[simp] theorem clearedState_pend (s : State)  : (clearedState s).pend = s.pend := rfl
@[simp] theorem clearedState_arg (s : State)  : (clearedState s).arg = s.arg := rfl
@[simp] theorem clearedState_input (s : State)  : (clearedState s).input = s.input := rfl
@[simp] theorem clearedState_bus (s : State)  : (clearedState s).bus = s.bus := rfl
@[simp] theorem clearedState_draws (s : State)  : (clearedState s).draws = s.draws := rfl
@[simp] theorem clearedState_script (s : State)  : (clearedState s).script = s.script := rfl

/-! ### spoilFreqInc -/
@[simp] theorem spoilFreqInc_cfg (s : State) (c : Byte) (d : Nat) : (spoilFreqInc c d s).cfg = s.cfg := rfl
@[simp] theorem spoilFreqInc_pend (s : State) (c : Byte) (d : Nat) : (spoilFreqInc c d s).pend = s.pend := rfl
@[simp] theorem spoilFreqInc_errs (s : State) (c : Byte) (d : Nat) : (spoilFreqInc c d s).errs = s.errs := rfl
@[simp] theorem spoilFreqInc_arg (s : State) (c : Byte) (d : Nat) : (spoilFreqInc c d s).arg = s.arg := rfl
@[simp] theorem spoilFreqInc_res (s : State) (c : Byte) (d : Nat) : (spoilFreqInc c d s).res = s.res := rfl
@[simp] theorem spoilFreqInc_plen (s : State) (c : Byte) (d : Nat) : (spoilFreqInc c d s).plen = s.plen := rfl
@[simp] theorem spoilFreqInc_input (s : State) (c : Byte) (d : Nat) : (spoilFreqInc c d s).input = s.input := rfl
@[simp] theorem spoilFreqInc_reader (s : State) (c : Byte) (d : Nat) : (spoilFreqInc c d s).reader = s.reader := rfl
@[simp] theorem spoilFreqInc_writer (s : State) (c : Byte) (d : Nat) : (spoilFreqInc c d s).writer = s.writer := rfl
@[simp] theorem spoilFreqInc_tree (s : State) (c : Byte) (d : Nat) : (spoilFreqInc c d s).tree = s.tree := rfl
@[simp] theorem spoilFreqInc_len (s : State) (c : Byte) (d : Nat) : (spoilFreqInc c d s).len = s.len := rfl
@[simp] theorem spoilFreqInc_canon (s : State) (c : Byte) (d : Nat) : (spoilFreqInc c d s).canon = s.canon := rfl
@[simp] theorem spoilFreqInc_trie (s : State) (c : Byte) (d : Nat) : (spoilFreqInc c d s).trie = s.trie := rfl
@[simp] theorem spoilFreqInc_bus (s : State) (c : Byte) (d : Nat) : (spoilFreqInc c d s).bus = s.bus := rfl
@[simp] theorem spoilFreqInc_draws (s : State) (c : Byte) (d : Nat) : (spoilFreqInc c d s).draws = s.draws := rfl
@[simp] theorem spoilFreqInc_script (s : State) (c : Byte) (d : Nat) : (spoilFreqInc c d s).script = s.script := rfl

/-! ### spoilFreqScan -/
@[simp] theorem spoilFreqScan_cfg (s : State) (d : Nat) : (spoilFreqScan d s).cfg = s.cfg := rfl
@[simp] theorem spoilFreqScan_pend (s : State) (d : Nat) : (spoilFreqScan d s).pend = s.pend := rfl
@[simp] theorem spoilFreqScan_errs (s : State) (d : Nat) : (spoilFreqScan d s).errs = s.errs := rfl
@[simp] theorem spoilFreqScan_arg (s : State) (d : Nat) : (spoilFreqScan d s).arg = s.arg := rfl
@[simp] theorem spoilFreqScan_res (s : State) (d : Nat) : (spoilFreqScan d s).res = s.res := rfl
@[simp] theorem spoilFreqScan_plen (s : State) (d : Nat) : (spoilFreqScan d s).plen = s.plen := rfl
@[simp] theorem spoilFreqScan_input (s : State) (d : Nat) : (spoilFreqScan d s).input = s.input := rfl
@[simp] theorem spoilFreqScan_reader (s : State) (d : Nat) : (spoilFreqScan d s).reader = s.reader := rfl
@[simp] theorem spoilFreqScan_writer (s : State) (d : Nat) : (spoilFreqScan d s).writer = s.writer := rfl
@[simp] theorem spoilFreqScan_tree (s : State) (d : Nat) : (spoilFreqScan d s).tree = s.tree := rfl
@[simp] theorem spoilFreqScan_len (s : State) (d : Nat) : (spoilFreqScan d s).len = s.len := rfl
@[simp] theorem spoilFreqScan_canon (s : State) (d : Nat) : (spoilFreqScan d s).canon = s.canon := rfl
@[simp] theorem spoilFreqScan_trie (s : State) (d : Nat) : (spoilFreqScan d s).trie = s.trie := rfl
@[simp] theorem spoilFreqScan_bus (s : State) (d : Nat) : (spoilFreqScan d s).bus = s.bus := rfl
@[simp] theorem spoilFreqScan_draws (s : State) (d : Nat) : (spoilFreqScan d s).draws = s.draws := rfl
@[simp] theorem spoilFreqScan_script (s : State) (d : Nat) : (spoilFreqScan d s).script = s.script := rfl

/-! ### spoilBuild -/
@[simp] theorem spoilBuild_cfg (s : State) (n d : Nat) : (spoilBuild n d s).cfg = s.cfg := rfl
@[simp] theorem spoilBuild_pend (s : State) (n d : Nat) : (spoilBuild n d s).pend = s.pend := rfl
@[simp] theorem spoilBuild_errs (s : State) (n d : Nat) : (spoilBuild n d s).errs = s.errs := rfl
@[simp] theorem spoilBuild_arg (s : State) (n d : Nat) : (spoilBuild n d s).arg = s.arg := rfl
@[simp] theorem spoilBuild_res (s : State) (n d : Nat) : (spoilBuild n d s).res = s.res := rfl
@[simp] theorem spoilBuild_plen (s : State) (n d : Nat) : (spoilBuild n d s).plen = s.plen := rfl
@[simp] theorem spoilBuild_input (s : State) (n d : Nat) : (spoilBuild n d s).input = s.input := rfl
@[simp] theorem spoilBuild_reader (s : State) (n d : Nat) : (spoilBuild n d s).reader = s.reader := rfl
@[simp] theorem spoilBuild_writer (s : State) (n d : Nat) : (spoilBuild n d s).writer = s.writer := rfl
@[simp] theorem spoilBuild_freq (s : State) (n d : Nat) : (spoilBuild n d s).freq = s.freq := rfl
@[simp] theorem spoilBuild_len (s : State) (n d : Nat) : (spoilBuild n d s).len = s.len := rfl
@[simp] theorem spoilBuild_canon (s : State) (n d : Nat) : (spoilBuild n d s).canon = s.canon := rfl
@[simp] theorem spoilBuild_trie (s : State) (n d : Nat) : (spoilBuild n d s).trie = s.trie := rfl
@[simp] theorem spoilBuild_bus (s : State) (n d : Nat) : (spoilBuild n d s).bus = s.bus := rfl
@[simp] theorem spoilBuild_draws (s : State) (n d : Nat) : (spoilBuild n d s).draws = s.draws := rfl
@[simp] theorem spoilBuild_script (s : State) (n d : Nat) : (spoilBuild n d s).script = s.script := rfl

/-! ### spoilWalk -/
@[simp] theorem spoilWalk_cfg (s : State) (d : Nat) : (spoilWalk d s).cfg = s.cfg := rfl
@[simp] theorem spoilWalk_pend (s : State) (d : Nat) : (spoilWalk d s).pend = s.pend := rfl
@[simp] theorem spoilWalk_errs (s : State) (d : Nat) : (spoilWalk d s).errs = s.errs := rfl
@[simp] theorem spoilWalk_arg (s : State) (d : Nat) : (spoilWalk d s).arg = s.arg := rfl
@[simp] theorem spoilWalk_res (s : State) (d : Nat) : (spoilWalk d s).res = s.res := rfl
@[simp] theorem spoilWalk_plen (s : State) (d : Nat) : (spoilWalk d s).plen = s.plen := rfl
@[simp] theorem spoilWalk_input (s : State) (d : Nat) : (spoilWalk d s).input = s.input := rfl
@[simp] theorem spoilWalk_reader (s : State) (d : Nat) : (spoilWalk d s).reader = s.reader := rfl
@[simp] theorem spoilWalk_writer (s : State) (d : Nat) : (spoilWalk d s).writer = s.writer := rfl
@[simp] theorem spoilWalk_freq (s : State) (d : Nat) : (spoilWalk d s).freq = s.freq := rfl
@[simp] theorem spoilWalk_tree (s : State) (d : Nat) : (spoilWalk d s).tree = s.tree := rfl
@[simp] theorem spoilWalk_canon (s : State) (d : Nat) : (spoilWalk d s).canon = s.canon := rfl
@[simp] theorem spoilWalk_trie (s : State) (d : Nat) : (spoilWalk d s).trie = s.trie := rfl
@[simp] theorem spoilWalk_bus (s : State) (d : Nat) : (spoilWalk d s).bus = s.bus := rfl
@[simp] theorem spoilWalk_draws (s : State) (d : Nat) : (spoilWalk d s).draws = s.draws := rfl
@[simp] theorem spoilWalk_script (s : State) (d : Nat) : (spoilWalk d s).script = s.script := rfl

/-! ### spoilCanon -/
@[simp] theorem spoilCanon_cfg (s : State) (n d : Nat) : (spoilCanon n d s).cfg = s.cfg := rfl
@[simp] theorem spoilCanon_pend (s : State) (n d : Nat) : (spoilCanon n d s).pend = s.pend := rfl
@[simp] theorem spoilCanon_errs (s : State) (n d : Nat) : (spoilCanon n d s).errs = s.errs := rfl
@[simp] theorem spoilCanon_arg (s : State) (n d : Nat) : (spoilCanon n d s).arg = s.arg := rfl
@[simp] theorem spoilCanon_res (s : State) (n d : Nat) : (spoilCanon n d s).res = s.res := rfl
@[simp] theorem spoilCanon_plen (s : State) (n d : Nat) : (spoilCanon n d s).plen = s.plen := rfl
@[simp] theorem spoilCanon_input (s : State) (n d : Nat) : (spoilCanon n d s).input = s.input := rfl
@[simp] theorem spoilCanon_reader (s : State) (n d : Nat) : (spoilCanon n d s).reader = s.reader := rfl
@[simp] theorem spoilCanon_writer (s : State) (n d : Nat) : (spoilCanon n d s).writer = s.writer := rfl
@[simp] theorem spoilCanon_freq (s : State) (n d : Nat) : (spoilCanon n d s).freq = s.freq := rfl
@[simp] theorem spoilCanon_tree (s : State) (n d : Nat) : (spoilCanon n d s).tree = s.tree := rfl
@[simp] theorem spoilCanon_len (s : State) (n d : Nat) : (spoilCanon n d s).len = s.len := rfl
@[simp] theorem spoilCanon_trie (s : State) (n d : Nat) : (spoilCanon n d s).trie = s.trie := rfl
@[simp] theorem spoilCanon_bus (s : State) (n d : Nat) : (spoilCanon n d s).bus = s.bus := rfl
@[simp] theorem spoilCanon_draws (s : State) (n d : Nat) : (spoilCanon n d s).draws = s.draws := rfl
@[simp] theorem spoilCanon_script (s : State) (n d : Nat) : (spoilCanon n d s).script = s.script := rfl

/-! ### spoilBitOutput -/
@[simp] theorem spoilBitOutput_cfg (s : State) (d : Nat) : (spoilBitOutput d s).cfg = s.cfg := rfl
@[simp] theorem spoilBitOutput_pend (s : State) (d : Nat) : (spoilBitOutput d s).pend = s.pend := rfl
@[simp] theorem spoilBitOutput_errs (s : State) (d : Nat) : (spoilBitOutput d s).errs = s.errs := rfl
@[simp] theorem spoilBitOutput_flags (s : State) (d : Nat) : (spoilBitOutput d s).flags = s.flags := rfl
@[simp] theorem spoilBitOutput_arg (s : State) (d : Nat) : (spoilBitOutput d s).arg = s.arg := rfl
@[simp] theorem spoilBitOutput_res (s : State) (d : Nat) : (spoilBitOutput d s).res = s.res := rfl
@[simp] theorem spoilBitOutput_plen (s : State) (d : Nat) : (spoilBitOutput d s).plen = s.plen := rfl
@[simp] theorem spoilBitOutput_input (s : State) (d : Nat) : (spoilBitOutput d s).input = s.input := rfl
@[simp] theorem spoilBitOutput_reader (s : State) (d : Nat) : (spoilBitOutput d s).reader = s.reader := rfl
@[simp] theorem spoilBitOutput_freq (s : State) (d : Nat) : (spoilBitOutput d s).freq = s.freq := rfl
@[simp] theorem spoilBitOutput_tree (s : State) (d : Nat) : (spoilBitOutput d s).tree = s.tree := rfl
@[simp] theorem spoilBitOutput_len (s : State) (d : Nat) : (spoilBitOutput d s).len = s.len := rfl
@[simp] theorem spoilBitOutput_canon (s : State) (d : Nat) : (spoilBitOutput d s).canon = s.canon := rfl
@[simp] theorem spoilBitOutput_trie (s : State) (d : Nat) : (spoilBitOutput d s).trie = s.trie := rfl
@[simp] theorem spoilBitOutput_bus (s : State) (d : Nat) : (spoilBitOutput d s).bus = s.bus := rfl
@[simp] theorem spoilBitOutput_draws (s : State) (d : Nat) : (spoilBitOutput d s).draws = s.draws := rfl
@[simp] theorem spoilBitOutput_script (s : State) (d : Nat) : (spoilBitOutput d s).script = s.script := rfl

/-! ### spoilPutByte -/
@[simp] theorem spoilPutByte_cfg (s : State) (d : Nat) : (spoilPutByte d s).cfg = s.cfg := rfl
@[simp] theorem spoilPutByte_pend (s : State) (d : Nat) : (spoilPutByte d s).pend = s.pend := rfl
@[simp] theorem spoilPutByte_errs (s : State) (d : Nat) : (spoilPutByte d s).errs = s.errs := rfl
@[simp] theorem spoilPutByte_flags (s : State) (d : Nat) : (spoilPutByte d s).flags = s.flags := rfl
@[simp] theorem spoilPutByte_arg (s : State) (d : Nat) : (spoilPutByte d s).arg = s.arg := rfl
@[simp] theorem spoilPutByte_res (s : State) (d : Nat) : (spoilPutByte d s).res = s.res := rfl
@[simp] theorem spoilPutByte_plen (s : State) (d : Nat) : (spoilPutByte d s).plen = s.plen := rfl
@[simp] theorem spoilPutByte_input (s : State) (d : Nat) : (spoilPutByte d s).input = s.input := rfl
@[simp] theorem spoilPutByte_reader (s : State) (d : Nat) : (spoilPutByte d s).reader = s.reader := rfl
@[simp] theorem spoilPutByte_freq (s : State) (d : Nat) : (spoilPutByte d s).freq = s.freq := rfl
@[simp] theorem spoilPutByte_tree (s : State) (d : Nat) : (spoilPutByte d s).tree = s.tree := rfl
@[simp] theorem spoilPutByte_len (s : State) (d : Nat) : (spoilPutByte d s).len = s.len := rfl
@[simp] theorem spoilPutByte_canon (s : State) (d : Nat) : (spoilPutByte d s).canon = s.canon := rfl
@[simp] theorem spoilPutByte_trie (s : State) (d : Nat) : (spoilPutByte d s).trie = s.trie := rfl
@[simp] theorem spoilPutByte_bus (s : State) (d : Nat) : (spoilPutByte d s).bus = s.bus := rfl
@[simp] theorem spoilPutByte_draws (s : State) (d : Nat) : (spoilPutByte d s).draws = s.draws := rfl
@[simp] theorem spoilPutByte_script (s : State) (d : Nat) : (spoilPutByte d s).script = s.script := rfl

/-! ### spoilFlush -/
@[simp] theorem spoilFlush_cfg (s : State) (d : Nat) : (spoilFlush d s).cfg = s.cfg := rfl
@[simp] theorem spoilFlush_pend (s : State) (d : Nat) : (spoilFlush d s).pend = s.pend := rfl
@[simp] theorem spoilFlush_errs (s : State) (d : Nat) : (spoilFlush d s).errs = s.errs := rfl
@[simp] theorem spoilFlush_flags (s : State) (d : Nat) : (spoilFlush d s).flags = s.flags := rfl
@[simp] theorem spoilFlush_arg (s : State) (d : Nat) : (spoilFlush d s).arg = s.arg := rfl
@[simp] theorem spoilFlush_res (s : State) (d : Nat) : (spoilFlush d s).res = s.res := rfl
@[simp] theorem spoilFlush_plen (s : State) (d : Nat) : (spoilFlush d s).plen = s.plen := rfl
@[simp] theorem spoilFlush_input (s : State) (d : Nat) : (spoilFlush d s).input = s.input := rfl
@[simp] theorem spoilFlush_reader (s : State) (d : Nat) : (spoilFlush d s).reader = s.reader := rfl
@[simp] theorem spoilFlush_freq (s : State) (d : Nat) : (spoilFlush d s).freq = s.freq := rfl
@[simp] theorem spoilFlush_tree (s : State) (d : Nat) : (spoilFlush d s).tree = s.tree := rfl
@[simp] theorem spoilFlush_len (s : State) (d : Nat) : (spoilFlush d s).len = s.len := rfl
@[simp] theorem spoilFlush_canon (s : State) (d : Nat) : (spoilFlush d s).canon = s.canon := rfl
@[simp] theorem spoilFlush_trie (s : State) (d : Nat) : (spoilFlush d s).trie = s.trie := rfl
@[simp] theorem spoilFlush_bus (s : State) (d : Nat) : (spoilFlush d s).bus = s.bus := rfl
@[simp] theorem spoilFlush_draws (s : State) (d : Nat) : (spoilFlush d s).draws = s.draws := rfl
@[simp] theorem spoilFlush_script (s : State) (d : Nat) : (spoilFlush d s).script = s.script := rfl

/-! ### spoilHdrWrite -/
@[simp] theorem spoilHdrWrite_cfg (s : State) (d : Nat) : (spoilHdrWrite d s).cfg = s.cfg := rfl
@[simp] theorem spoilHdrWrite_pend (s : State) (d : Nat) : (spoilHdrWrite d s).pend = s.pend := rfl
@[simp] theorem spoilHdrWrite_errs (s : State) (d : Nat) : (spoilHdrWrite d s).errs = s.errs := rfl
@[simp] theorem spoilHdrWrite_flags (s : State) (d : Nat) : (spoilHdrWrite d s).flags = s.flags := rfl
@[simp] theorem spoilHdrWrite_arg (s : State) (d : Nat) : (spoilHdrWrite d s).arg = s.arg := rfl
@[simp] theorem spoilHdrWrite_res (s : State) (d : Nat) : (spoilHdrWrite d s).res = s.res := rfl
@[simp] theorem spoilHdrWrite_plen (s : State) (d : Nat) : (spoilHdrWrite d s).plen = s.plen := rfl
@[simp] theorem spoilHdrWrite_input (s : State) (d : Nat) : (spoilHdrWrite d s).input = s.input := rfl
@[simp] theorem spoilHdrWrite_reader (s : State) (d : Nat) : (spoilHdrWrite d s).reader = s.reader := rfl
@[simp] theorem spoilHdrWrite_freq (s : State) (d : Nat) : (spoilHdrWrite d s).freq = s.freq := rfl
@[simp] theorem spoilHdrWrite_tree (s : State) (d : Nat) : (spoilHdrWrite d s).tree = s.tree := rfl
@[simp] theorem spoilHdrWrite_len (s : State) (d : Nat) : (spoilHdrWrite d s).len = s.len := rfl
@[simp] theorem spoilHdrWrite_canon (s : State) (d : Nat) : (spoilHdrWrite d s).canon = s.canon := rfl
@[simp] theorem spoilHdrWrite_trie (s : State) (d : Nat) : (spoilHdrWrite d s).trie = s.trie := rfl
@[simp] theorem spoilHdrWrite_bus (s : State) (d : Nat) : (spoilHdrWrite d s).bus = s.bus := rfl
@[simp] theorem spoilHdrWrite_draws (s : State) (d : Nat) : (spoilHdrWrite d s).draws = s.draws := rfl
@[simp] theorem spoilHdrWrite_script (s : State) (d : Nat) : (spoilHdrWrite d s).script = s.script := rfl

/-! ### spoilGetBits -/
@[simp] theorem spoilGetBits_cfg (s : State) (d : Nat) : (spoilGetBits d s).cfg = s.cfg := rfl
@[simp] theorem spoilGetBits_pend (s : State) (d : Nat) : (spoilGetBits d s).pend = s.pend := rfl
@[simp] theorem spoilGetBits_errs (s : State) (d : Nat) : (spoilGetBits d s).errs = s.errs := rfl
@[simp] theorem spoilGetBits_flags (s : State) (d : Nat) : (spoilGetBits d s).flags = s.flags := rfl
@[simp] theorem spoilGetBits_arg (s : State) (d : Nat) : (spoilGetBits d s).arg = s.arg := rfl
@[simp] theorem spoilGetBits_plen (s : State) (d : Nat) : (spoilGetBits d s).plen = s.plen := rfl
@[simp] theorem spoilGetBits_input (s : State) (d : Nat) : (spoilGetBits d s).input = s.input := rfl
@[simp] theorem spoilGetBits_writer (s : State) (d : Nat) : (spoilGetBits d s).writer = s.writer := rfl
@[simp] theorem spoilGetBits_freq (s : State) (d : Nat) : (spoilGetBits d s).freq = s.freq := rfl
@[simp] theorem spoilGetBits_tree (s : State) (d : Nat) : (spoilGetBits d s).tree = s.tree := rfl
@[simp] theorem spoilGetBits_len (s : State) (d : Nat) : (spoilGetBits d s).len = s.len := rfl
@[simp] theorem spoilGetBits_canon (s : State) (d : Nat) : (spoilGetBits d s).canon = s.canon := rfl
@[simp] theorem spoilGetBits_trie (s : State) (d : Nat) : (spoilGetBits d s).trie = s.trie := rfl
@[simp] theorem spoilGetBits_bus (s : State) (d : Nat) : (spoilGetBits d s).bus = s.bus := rfl
@[simp] theorem spoilGetBits_draws (s : State) (d : Nat) : (spoilGetBits d s).draws = s.draws := rfl
@[simp] theorem spoilGetBits_script (s : State) (d : Nat) : (spoilGetBits d s).script = s.script := rfl

/-! ### spoilGetByte -/
@[simp] theorem spoilGetByte_cfg (s : State) (d : Nat) : (spoilGetByte d s).cfg = s.cfg := rfl
@[simp] theorem spoilGetByte_pend (s : State) (d : Nat) : (spoilGetByte d s).pend = s.pend := rfl
@[simp] theorem spoilGetByte_errs (s : State) (d : Nat) : (spoilGetByte d s).errs = s.errs := rfl
@[simp] theorem spoilGetByte_flags (s : State) (d : Nat) : (spoilGetByte d s).flags = s.flags := rfl
@[simp] theorem spoilGetByte_arg (s : State) (d : Nat) : (spoilGetByte d s).arg = s.arg := rfl
@[simp] theorem spoilGetByte_plen (s : State) (d : Nat) : (spoilGetByte d s).plen = s.plen := rfl
@[simp] theorem spoilGetByte_input (s : State) (d : Nat) : (spoilGetByte d s).input = s.input := rfl
@[simp] theorem spoilGetByte_writer (s : State) (d : Nat) : (spoilGetByte d s).writer = s.writer := rfl
@[simp] theorem spoilGetByte_freq (s : State) (d : Nat) : (spoilGetByte d s).freq = s.freq := rfl
@[simp] theorem spoilGetByte_tree (s : State) (d : Nat) : (spoilGetByte d s).tree = s.tree := rfl
@[simp] theorem spoilGetByte_len (s : State) (d : Nat) : (spoilGetByte d s).len = s.len := rfl
@[simp] theorem spoilGetByte_canon (s : State) (d : Nat) : (spoilGetByte d s).canon = s.canon := rfl
@[simp] theorem spoilGetByte_trie (s : State) (d : Nat) : (spoilGetByte d s).trie = s.trie := rfl
@[simp] theorem spoilGetByte_bus (s : State) (d : Nat) : (spoilGetByte d s).bus = s.bus := rfl
@[simp] theorem spoilGetByte_draws (s : State) (d : Nat) : (spoilGetByte d s).draws = s.draws := rfl
@[simp] theorem spoilGetByte_script (s : State) (d : Nat) : (spoilGetByte d s).script = s.script := rfl

/-! ### spoilHdrRead -/
@[simp] theorem spoilHdrRead_cfg (s : State) (n d : Nat) : (spoilHdrRead n d s).cfg = s.cfg := rfl
@[simp] theorem spoilHdrRead_pend (s : State) (n d : Nat) : (spoilHdrRead n d s).pend = s.pend := rfl
@[simp] theorem spoilHdrRead_errs (s : State) (n d : Nat) : (spoilHdrRead n d s).errs = s.errs := rfl
@[simp] theorem spoilHdrRead_arg (s : State) (n d : Nat) : (spoilHdrRead n d s).arg = s.arg := rfl
@[simp] theorem spoilHdrRead_res (s : State) (n d : Nat) : (spoilHdrRead n d s).res = s.res := rfl
@[simp] theorem spoilHdrRead_input (s : State) (n d : Nat) : (spoilHdrRead n d s).input = s.input := rfl
@[simp] theorem spoilHdrRead_writer (s : State) (n d : Nat) : (spoilHdrRead n d s).writer = s.writer := rfl
@[simp] theorem spoilHdrRead_freq (s : State) (n d : Nat) : (spoilHdrRead n d s).freq = s.freq := rfl
@[simp] theorem spoilHdrRead_tree (s : State) (n d : Nat) : (spoilHdrRead n d s).tree = s.tree := rfl
@[simp] theorem spoilHdrRead_trie (s : State) (n d : Nat) : (spoilHdrRead n d s).trie = s.trie := rfl
@[simp] theorem spoilHdrRead_bus (s : State) (n d : Nat) : (spoilHdrRead n d s).bus = s.bus := rfl
@[simp] theorem spoilHdrRead_draws (s : State) (n d : Nat) : (spoilHdrRead n d s).draws = s.draws := rfl
@[simp] theorem spoilHdrRead_script (s : State) (n d : Nat) : (spoilHdrRead n d s).script = s.script := rfl

/-! ### spoilTrieBuild -/
@[simp] theorem spoilTrieBuild_cfg (s : State) (d : Nat) : (spoilTrieBuild d s).cfg = s.cfg := rfl
@[simp] theorem spoilTrieBuild_pend (s : State) (d : Nat) : (spoilTrieBuild d s).pend = s.pend := rfl
@[simp] theorem spoilTrieBuild_errs (s : State) (d : Nat) : (spoilTrieBuild d s).errs = s.errs := rfl
@[simp] theorem spoilTrieBuild_arg (s : State) (d : Nat) : (spoilTrieBuild d s).arg = s.arg := rfl
@[simp] theorem spoilTrieBuild_res (s : State) (d : Nat) : (spoilTrieBuild d s).res = s.res := rfl
@[simp] theorem spoilTrieBuild_plen (s : State) (d : Nat) : (spoilTrieBuild d s).plen = s.plen := rfl
@[simp] theorem spoilTrieBuild_input (s : State) (d : Nat) : (spoilTrieBuild d s).input = s.input := rfl
@[simp] theorem spoilTrieBuild_reader (s : State) (d : Nat) : (spoilTrieBuild d s).reader = s.reader := rfl
@[simp] theorem spoilTrieBuild_writer (s : State) (d : Nat) : (spoilTrieBuild d s).writer = s.writer := rfl
@[simp] theorem spoilTrieBuild_freq (s : State) (d : Nat) : (spoilTrieBuild d s).freq = s.freq := rfl
@[simp] theorem spoilTrieBuild_tree (s : State) (d : Nat) : (spoilTrieBuild d s).tree = s.tree := rfl
@[simp] theorem spoilTrieBuild_len (s : State) (d : Nat) : (spoilTrieBuild d s).len = s.len := rfl
@[simp] theorem spoilTrieBuild_canon (s : State) (d : Nat) : (spoilTrieBuild d s).canon = s.canon := rfl
@[simp] theorem spoilTrieBuild_bus (s : State) (d : Nat) : (spoilTrieBuild d s).bus = s.bus := rfl
@[simp] theorem spoilTrieBuild_draws (s : State) (d : Nat) : (spoilTrieBuild d s).draws = s.draws := rfl
@[simp] theorem spoilTrieBuild_script (s : State) (d : Nat) : (spoilTrieBuild d s).script = s.script := rfl

/-! ### spoilDecSym -/
@[simp] theorem spoilDecSym_cfg (s : State) (d : Nat) : (spoilDecSym d s).cfg = s.cfg := rfl
@[simp] theorem spoilDecSym_pend (s : State) (d : Nat) : (spoilDecSym d s).pend = s.pend := rfl
@[simp] theorem spoilDecSym_errs (s : State) (d : Nat) : (spoilDecSym d s).errs = s.errs := rfl
@[simp] theorem spoilDecSym_flags (s : State) (d : Nat) : (spoilDecSym d s).flags = s.flags := rfl
@[simp] theorem spoilDecSym_arg (s : State) (d : Nat) : (spoilDecSym d s).arg = s.arg := rfl
@[simp] theorem spoilDecSym_plen (s : State) (d : Nat) : (spoilDecSym d s).plen = s.plen := rfl
@[simp] theorem spoilDecSym_input (s : State) (d : Nat) : (spoilDecSym d s).input = s.input := rfl
@[simp] theorem spoilDecSym_freq (s : State) (d : Nat) : (spoilDecSym d s).freq = s.freq := rfl
@[simp] theorem spoilDecSym_tree (s : State) (d : Nat) : (spoilDecSym d s).tree = s.tree := rfl
@[simp] theorem spoilDecSym_len (s : State) (d : Nat) : (spoilDecSym d s).len = s.len := rfl
@[simp] theorem spoilDecSym_canon (s : State) (d : Nat) : (spoilDecSym d s).canon = s.canon := rfl
@[simp] theorem spoilDecSym_trie (s : State) (d : Nat) : (spoilDecSym d s).trie = s.trie := rfl
@[simp] theorem spoilDecSym_bus (s : State) (d : Nat) : (spoilDecSym d s).bus = s.bus := rfl
@[simp] theorem spoilDecSym_draws (s : State) (d : Nat) : (spoilDecSym d s).draws = s.draws := rfl
@[simp] theorem spoilDecSym_script (s : State) (d : Nat) : (spoilDecSym d s).script = s.script := rfl

/-! ### spoilDecode -/
@[simp] theorem spoilDecode_cfg (s : State) (d : Nat) : (spoilDecode d s).cfg = s.cfg := rfl
@[simp] theorem spoilDecode_pend (s : State) (d : Nat) : (spoilDecode d s).pend = s.pend := rfl
@[simp] theorem spoilDecode_errs (s : State) (d : Nat) : (spoilDecode d s).errs = s.errs := rfl
@[simp] theorem spoilDecode_flags (s : State) (d : Nat) : (spoilDecode d s).flags = s.flags := rfl
@[simp] theorem spoilDecode_arg (s : State) (d : Nat) : (spoilDecode d s).arg = s.arg := rfl
@[simp] theorem spoilDecode_plen (s : State) (d : Nat) : (spoilDecode d s).plen = s.plen := rfl
@[simp] theorem spoilDecode_input (s : State) (d : Nat) : (spoilDecode d s).input = s.input := rfl
@[simp] theorem spoilDecode_freq (s : State) (d : Nat) : (spoilDecode d s).freq = s.freq := rfl
@[simp] theorem spoilDecode_tree (s : State) (d : Nat) : (spoilDecode d s).tree = s.tree := rfl
@[simp] theorem spoilDecode_len (s : State) (d : Nat) : (spoilDecode d s).len = s.len := rfl
@[simp] theorem spoilDecode_canon (s : State) (d : Nat) : (spoilDecode d s).canon = s.canon := rfl
@[simp] theorem spoilDecode_trie (s : State) (d : Nat) : (spoilDecode d s).trie = s.trie := rfl
@[simp] theorem spoilDecode_bus (s : State) (d : Nat) : (spoilDecode d s).bus = s.bus := rfl
@[simp] theorem spoilDecode_draws (s : State) (d : Nat) : (spoilDecode d s).draws = s.draws := rfl
@[simp] theorem spoilDecode_script (s : State) (d : Nat) : (spoilDecode d s).script = s.script := rfl

/-! ### What an update writes -/

@[simp] theorem leaveError_errs (s : State) : (leaveError s).errs = { err := .none, cmd := 0, info := 0 } := rfl
@[simp] theorem endCommand_pend (s : State) : (endCommand s).pend = { s.pend with valid := false } := rfl
@[simp] theorem beginEvent_bus (s : State) (es : List HostEvent) : (beginEvent es s).bus = .idle := rfl
@[simp] theorem beginEvent_script (s : State) (es : List HostEvent) : (beginEvent es s).script = es := rfl
@[simp] theorem withFreq_freq (s : State) (x : Table Dword 256) : (withFreq s x).freq = x := rfl
@[simp] theorem withLengths_len (s : State) (x : Table Byte 256) : (withLengths s x).len = x := rfl
@[simp] theorem withWriter_writer (s : State) (x : Writer) : (withWriter s x).writer = x := rfl
@[simp] theorem withRead_res (s : State) (v : Dword) (x : Reader) : (withRead s v x).res = v := rfl
@[simp] theorem withRead_reader (s : State) (v : Dword) (x : Reader) : (withRead s v x).reader = x := rfl
@[simp] theorem withDecoded_writer (s : State) (x : DecodeWork) : (withDecoded s x).writer = x.writer := rfl
@[simp] theorem withDecoded_reader (s : State) (x : DecodeWork) : (withDecoded s x).reader = x.reader := rfl
@[simp] theorem withDecoded_res (s : State) (x : DecodeWork) : (withDecoded s x).res = x.res := rfl

/-- Error entry records the first error (60_exceptions.md R133). -/
theorem recordError_errs (s : State) (k : Err) (c i : Word) :
    (recordError k c i s).errs =
      if s.errs.err = .none then { err := k, cmd := c, info := i } else s.errs := by
  unfold recordError; split <;> rfl

theorem enterError_errs (s : State) (r : Raise) :
    (enterError r s).errs =
      if s.errs.err = .none then { err := r.kind, cmd := s.pend.word, info := r.info } else s.errs :=
  recordError_errs s _ _ _

end Sys2Proof.Machine
end

