-- ==== Sys2Proof/Laws/Ops.lean ====
section
/-! SUPPORT. The cases of a piece of pseudocode and of a command's end. -/

namespace Sys2Proof.Machine

/-! ### Runs -/

section Runs

variable {ε α β : Type}

@[simp] theorem run_ok_bind (x : α) (f : α → Except ε β) : (Except.ok x >>= f) = f x := rfl

@[simp] theorem run_error_bind (e : ε) (f : α → Except ε β) : (Except.error e >>= f) = Except.error e := rfl

theorem bind_eq_ok {m : Except ε α} {f : α → Except ε β} {y : β} (h : (m >>= f) = .ok y) :
    ∃ x, m = .ok x ∧ f x = .ok y := by
  cases m with
  | error e => cases h
  | ok x => exact ⟨x, rfl, h⟩

theorem bind_eq_error {m : Except ε α} {f : α → Except ε β} {e : ε} (h : (m >>= f) = .error e) :
    m = .error e ∨ ∃ x, m = .ok x ∧ f x = .error e := by
  cases m with
  | error e' => cases h; exact .inl rfl
  | ok x => exact .inr ⟨x, rfl, h⟩

end Runs

@[simp] theorem require_true (k : Err) (i : Word) : require true k i = .ok () := rfl
@[simp] theorem require_false (k : Err) (i : Word) : require false k i = .error { kind := k, info := i } := rfl

theorem require_eq_ok {c : Bool} {k : Err} {i : Word} {u : Unit} (h : require c k i = .ok u) : c = true := by
  cases c
  · cases h
  · rfl

theorem require_eq_error {c : Bool} {k : Err} {i : Word} {r : Raise} (h : require c k i = .error r) :
    c = false ∧ r = { kind := k, info := i } := by
  cases c
  · exact ⟨rfl, (Except.error.inj h).symm⟩
  · cases h

/-! ### The end of a command -/

/-- The state after a raise: the Writes line spoiled, then error entry. -/
def raisedState (spoil : Nat → State → State) (s : State) (r : Raise) : State :=
  enterError r { spoil s.draws s with draws := s.draws + 1 }

@[simp] theorem conclude_ok (spoil : Nat → State → State) (s t : State) : conclude spoil s (.ok t) = t := rfl

@[simp] theorem conclude_error (spoil : Nat → State → State) (s : State) (r : Raise) :
    conclude spoil s (.error r) = raisedState spoil s r := rfl

@[simp] theorem raisedState_draws (spoil : Nat → State → State) (s : State) (r : Raise) :
    (raisedState spoil s r).draws = s.draws + 1 := by simp [raisedState]

/-- A raise is visible in the draws. -/
@[simp] theorem raisedIn_raisedState (spoil : Nat → State → State) (s : State) (r : Raise) :
    raisedIn s (raisedState spoil s r) = true := by simp [raisedIn]

theorem raisedIn_of_draws {s t : State} (h : t.draws = s.draws) : raisedIn s t = false := by simp [raisedIn, h]

/-- What a raise records, for a Writes line without the error registers and PEND. -/
theorem raisedState_errs {spoil : Nat → State → State} {s : State} (r : Raise)
    (he : (spoil s.draws s).errs = s.errs) (hp : (spoil s.draws s).pend = s.pend) :
    (raisedState spoil s r).errs = recorded s r.kind r.info := by
  simp [raisedState, enterError_errs, recorded, he, hp]

/-- The outcome of a command whose pseudocode gives `r`, in the two cases. -/
theorem conclude_cases {spoil : Nat → State → State} {s t : State} {r : Run State} (h : conclude spoil s r = t) :
    r = .ok t ∨ ∃ e, r = .error e ∧ t = raisedState spoil s e := by
  cases r with
  | ok x => exact .inl (by rw [← h]; rfl)
  | error e => exact .inr ⟨e, rfl, h.symm⟩

theorem concludeOrFault_cases {spoil : Nat → State → State} {s t : State} {r : Except Stop State}
    (h : concludeOrFault spoil s r = .next t) :
    r = .ok t ∨ ∃ e, r = .error (.raising e) ∧ t = raisedState spoil s e := by
  match r, h with
  | .ok x, h => exact .inl (by injection h with h; rw [h])
  | .error (.raising e), h => exact .inr ⟨e, rfl, by injection h with h; exact h.symm⟩
  | .error (.broken f), h => cases h

/-- The record changes the error registers only. -/
theorem recordError_eq (k : Err) (c i : Word) (s : State) :
    recordError k c i s = { s with errs := if s.errs.err = .none then
      { err := k, cmd := c, info := i } else s.errs } := by
  unfold recordError
  split <;> rfl

/-- Error entry changes the error registers only. -/
theorem enterError_eq (r : Raise) (s : State) :
    enterError r s = { s with errs := if s.errs.err = .none then
      { err := r.kind, cmd := s.pend.word, info := r.info } else s.errs } := by
  unfold enterError recordError
  split <;> rfl

@[simp] theorem concludeOrFault_ok (spoil : Nat → State → State) (s t : State) :
    concludeOrFault spoil s (.ok t) = .next t := rfl

@[simp] theorem concludeOrFault_raising (spoil : Nat → State → State) (s : State) (r : Raise) :
    concludeOrFault spoil s (.error (.raising r)) = .next (raisedState spoil s r) := rfl

@[simp] theorem mapError_ok {α : Type} (x : α) :
    (Except.ok x : Run α).mapError Stop.raising = .ok x := rfl

@[simp] theorem mapError_error {α : Type} (r : Raise) :
    (Except.error r : Run α).mapError Stop.raising = .error (.raising r) := rfl

/-! ### The Requires checks -/

theorem requireTree_set {s : State} (h : s.flags.tree = true) : requireTree s = .ok () := by simp [requireTree, h]
theorem requireTree_clear {s : State} (h : s.flags.tree = false) :
    requireTree s = .error { kind := .sequence, info := 1 } := by simp [requireTree, h]
theorem requireCodes_set {s : State} (h : s.flags.codes = true) : requireCodes s = .ok () := by simp [requireCodes, h]
theorem requireCodes_clear {s : State} (h : s.flags.codes = false) :
    requireCodes s = .error { kind := .sequence, info := 2 } := by simp [requireCodes, h]
theorem requireTrie_set {s : State} (h : s.flags.trie = true) : requireTrie s = .ok () := by simp [requireTrie, h]
theorem requireTrie_clear {s : State} (h : s.flags.trie = false) :
    requireTrie s = .error { kind := .sequence, info := 3 } := by simp [requireTrie, h]
theorem requireWriterAligned_yes {s : State} (h : s.writer.cnt = 0) : requireWriterAligned s = .ok () := by
  simp [requireWriterAligned, h]
theorem requireWriterAligned_no {s : State} (h : s.writer.cnt ≠ 0) :
    requireWriterAligned s = .error { kind := .sequence, info := 4 } := by
  simp [requireWriterAligned, beq_false_of_ne h]
theorem requireReaderAligned_yes {s : State} (h : s.reader.left = 0) : requireReaderAligned s = .ok () := by
  simp [requireReaderAligned, h]
theorem requireReaderAligned_no {s : State} (h : s.reader.left ≠ 0) :
    requireReaderAligned s = .error { kind := .sequence, info := 5 } := by
  simp [requireReaderAligned, beq_false_of_ne h]

/-! ### Written entries of SYMS -/

/-- Writing the same entries again adds none. -/
@[simp] theorem coverSyms_again (n : Nat) (k : Fin 257) : coverSyms n (coverSyms n k) = coverSyms n k := by
  rw [coverSyms, coverSyms, max_assoc, max_self]

/-- No entry becomes unwritten. -/
theorem le_coverSyms (n : Nat) (k : Fin 257) : k.val ≤ (coverSyms n k).val := le_max_left k (Fin.ofNat 257 n)

/-- The entries just written are among the written. -/
theorem ofNat_le_coverSyms (n : Nat) (k : Fin 257) : (Fin.ofNat 257 n).val ≤ (coverSyms n k).val :=
  le_max_right k (Fin.ofNat 257 n)

end Sys2Proof.Machine
end

