-- ==== Sys2Proof/Laws/BitIO.lean ====
section
/-! SUPPORT. The packer primitives: what each can do, and what it does to the streams of bits. -/

namespace Sys2Proof.Machine

/-! ### EmitByte -/

/-- The writer after `EmitByte(v)`. -/
def emitted (v : Byte) (w : Writer) : Writer :=
  { w with obuf := obufWrite w.obuf w.outLen.toNat v, outLen := BitVec.ofNat 25 (w.outLen.toNat + 1) }

theorem emitByte_ok {cap : Nat} {w : Writer} (v : Byte) (h : w.outLen.toNat ≠ cap) :
    emitByte cap v w = .ok (emitted v w) := by simp [emitByte, h, emitted]

theorem emitByte_full {cap : Nat} {w : Writer} (v : Byte) (h : w.outLen.toNat = cap) :
    emitByte cap v w = .error { kind := .overflow, info := 3 } := by simp [emitByte, h, raised]

theorem emitByte_eq_ok {cap : Nat} {v : Byte} {w w' : Writer} (h : emitByte cap v w = .ok w') :
    w.outLen.toNat ≠ cap ∧ w' = emitted v w := by
  by_cases hc : w.outLen.toNat = cap
  · rw [emitByte_full v hc] at h; cases h
  · rw [emitByte_ok v hc] at h; cases h; exact ⟨hc, rfl⟩

theorem emitByte_eq_error {cap : Nat} {v : Byte} {w : Writer} {r : Raise} (h : emitByte cap v w = .error r) :
    w.outLen.toNat = cap ∧ r = { kind := .overflow, info := 3 } := by
  by_cases hc : w.outLen.toNat = cap
  · rw [emitByte_full v hc] at h; cases h; exact ⟨hc, rfl⟩
  · rw [emitByte_ok v hc] at h; cases h

/-- What a writer that can go on has: OUT_LEN at most the size of OBUF, and OBUF in its canonical form. -/
structure WriterInv (cap : Nat) (w : Writer) : Prop where
  cap_lt : cap < 2 ^ 25
  out_len : w.outLen.toNat ≤ cap
  obuf_wf : Memory.wf w.obuf.cells = true
  obuf_below : cellsBelow w.obuf.cells cap = true

/-- The writer has moved on: OUT_LEN has not fallen, and OBUF has changed only between the two values of OUT_LEN. -/
structure Grows (w w' : Writer) : Prop where
  mono : w.outLen.toNat ≤ w'.outLen.toNat
  kept : ∀ k, k < w.outLen.toNat ∨ w'.outLen.toNat ≤ k → obufRead w'.obuf k = obufRead w.obuf k

theorem Grows.refl (w : Writer) : Grows w w := ⟨Nat.le_refl _, fun _ _ => rfl⟩

theorem Grows.trans {w w' w'' : Writer} (h : Grows w w') (h' : Grows w' w'') : Grows w w'' := by
  refine ⟨Nat.le_trans h.mono h'.mono, fun k hk => ?_⟩
  have := h.mono
  have := h'.mono
  rw [h'.kept k (by omega), h.kept k (by omega)]

/-- A change of the partial byte alone moves nothing. -/
theorem Grows.of_same {w w' w'' : Writer} (h : Grows w w') (ho : w''.outLen = w'.outLen) (hb : w''.obuf = w'.obuf) :
    Grows w w'' := ⟨by rw [ho]; exact h.mono, by rw [ho, hb]; exact h.kept⟩

theorem cellsBelow_iff {m : Memory} {n : Nat} : cellsBelow m n = true ↔ ∀ c ∈ m, c.1 < n := by
  simp [cellsBelow]

theorem cellsBelow_memPut {m : Memory} {n k : Nat} (v : Byte) (hm : cellsBelow m n = true) (hk : k < n) :
    cellsBelow (memPut m k v) n = true := by
  rw [cellsBelow_iff] at *
  intro c hc
  rcases mem_memPut hc with hc | rfl
  · exact hm c hc
  · exact hk

theorem cellsBelow_filter {m : Memory} {n : Nat} (p : Host.Cell → Bool) (hm : cellsBelow m n = true) :
    cellsBelow (m.filter p) n = true := by
  rw [cellsBelow_iff] at *
  exact fun c hc => hm c (List.mem_filter.mp hc).1

theorem emitted_outLen {cap : Nat} {w : Writer} (v : Byte) (hw : WriterInv cap w) (h : w.outLen.toNat ≠ cap) :
    (emitted v w).outLen.toNat = w.outLen.toNat + 1 := by
  have := hw.cap_lt
  have := hw.out_len
  simp only [emitted, BitVec.toNat_ofNat]
  exact Nat.mod_eq_of_lt (by omega)

theorem emitted_inv {cap : Nat} {w : Writer} (v : Byte) (hw : WriterInv cap w) (h : w.outLen.toNat ≠ cap) :
    WriterInv cap (emitted v w) := by
  have := hw.out_len
  refine ⟨hw.cap_lt, by rw [emitted_outLen v hw h]; omega, obufWrite_wf _ _ hw.obuf_wf, ?_⟩
  exact cellsBelow_memPut v hw.obuf_below (by omega)

theorem emitted_grows {cap : Nat} {w : Writer} (v : Byte) (hw : WriterInv cap w) (h : w.outLen.toNat ≠ cap) :
    Grows w (emitted v w) := by
  have e := emitted_outLen v hw h
  refine ⟨by omega, fun k hk => obufRead_obufWrite_ne _ _ (by omega)⟩

/-- EmitByte where OBUF is not full appends its byte (42_bitstream_packer.md R97). -/
theorem emitted_appends {cap : Nat} {w : Writer} (v : Byte) (hw : WriterInv cap w) (h : w.outLen.toNat ≠ cap) :
    appendsBytes w (emitted v w) [v] := by
  have e := emitted_outLen v hw h
  refine ⟨by simp [e], rfl, rfl, fun k hk => (emitted_grows v hw h).kept k (by simp at hk; omega), ?_⟩
  intro i hi
  have : i = 0 := by simpa using hi
  subst this
  simp [emitted]

/-! ### A run of bytes -/

theorem appendsBytes_nil (w : Writer) : appendsBytes w w [] :=
  ⟨rfl, rfl, rfl, fun _ _ => rfl, fun _ h => absurd h (by simp)⟩

theorem appendsBytes_trans {s t u : Writer} {xs ys : List Byte} (h : appendsBytes s t xs) (h' : appendsBytes t u ys) :
    appendsBytes s u (xs ++ ys) := by
  obtain ⟨l, a, c, k, b⟩ := h
  obtain ⟨l', a', c', k', b'⟩ := h'
  refine ⟨by simp; omega, a'.trans a, c'.trans c, fun j hj => ?_, fun i hi => ?_⟩
  · simp only [List.length_append] at hj
    rw [k' j (by omega), k j (by omega)]
  · by_cases hx : i < xs.length
    · rw [k' _ (by omega), b i hx, List.getElem_append_left hx]
    · have hy : i - xs.length < ys.length := by simp at hi; omega
      have := b' (i - xs.length) hy
      rw [List.getElem_append_right (by omega), ← this]
      congr 1
      omega

theorem appendsBytes_grows {s t : Writer} {xs : List Byte} (h : appendsBytes s t xs) : Grows s t :=
  ⟨by rw [h.1]; omega, fun k hk => h.2.2.2.1 k (by rw [h.1] at hk; omega)⟩

/-- EmitByte of each byte of a list, where they fit. -/
theorem emitBytes_spec {cap : Nat} : ∀ (bytes : List Byte) {w : Writer}, WriterInv cap w →
    w.outLen.toNat + bytes.length ≤ cap →
    ∃ w', emitBytes cap bytes w = .ok w' ∧ WriterInv cap w' ∧ appendsBytes w w' bytes
  | [], w, hw, _ => ⟨w, rfl, hw, appendsBytes_nil w⟩
  | v :: vs, w, hw, h => by
    simp only [List.length_cons] at h
    have hn : w.outLen.toNat ≠ cap := by omega
    have hl := emitted_outLen v hw hn
    obtain ⟨w', e, i, a⟩ := emitBytes_spec vs (emitted_inv v hw hn) (by omega)
    refine ⟨w', ?_, i, ?_⟩
    · simp [emitBytes, emitByte_ok v hn, e]
    · exact appendsBytes_trans (emitted_appends v hw hn) a

/-- EmitByte of each byte of a list, where they do not fit. -/
theorem emitBytes_full {cap : Nat} : ∀ (bytes : List Byte) {w : Writer}, WriterInv cap w →
    cap < w.outLen.toNat + bytes.length → emitBytes cap bytes w = .error { kind := .overflow, info := 3 }
  | [], w, hw, h => absurd h (by have := hw.out_len; simp; omega)
  | v :: vs, w, hw, h => by
    simp only [List.length_cons] at h
    by_cases hn : w.outLen.toNat = cap
    · simp [emitBytes, emitByte_full v hn]
    · have hl := emitted_outLen v hw hn
      simp [emitBytes, emitByte_ok v hn, emitBytes_full vs (emitted_inv v hw hn) (by omega)]

theorem emitBytes_error {cap : Nat} : ∀ {bytes : List Byte} {w : Writer} {r : Raise},
    emitBytes cap bytes w = .error r → r = { kind := .overflow, info := 3 }
  | [], _, _, h => by cases h
  | v :: vs, w, r, h => by
    rcases bind_eq_error h with h | ⟨w', -, h⟩
    · exact (emitByte_eq_error h).2
    · exact emitBytes_error h

theorem emitBytes_grows {cap : Nat} : ∀ {bytes : List Byte} {w w' : Writer}, WriterInv cap w →
    emitBytes cap bytes w = .ok w' → WriterInv cap w' ∧ Grows w w' ∧ w'.acc = w.acc ∧ w'.cnt = w.cnt
  | [], w, w', hw, h => by cases h; exact ⟨hw, Grows.refl w, rfl, rfl⟩
  | v :: vs, w, w', hw, h => by
    obtain ⟨w1, h1, h2⟩ := bind_eq_ok h
    obtain ⟨hn, rfl⟩ := emitByte_eq_ok h1
    obtain ⟨i, g, a, c⟩ := emitBytes_grows (emitted_inv v hw hn) h2
    exact ⟨i, (emitted_grows v hw hn).trans g, a, c⟩

/-! ### WriteBit -/

theorem writeBit_carry {cap : Nat} {w : Writer} (b : Bool) (h7 : w.cnt.val = 7) (h : w.outLen.toNat ≠ cap) :
    writeBit cap b w = .ok (freshByte (emitted (accWithBit b w) w)) := by
  simp [writeBit, h7, emitByte_ok _ h]

theorem writeBit_full {cap : Nat} {w : Writer} (b : Bool) (h7 : w.cnt.val = 7) (h : w.outLen.toNat = cap) :
    writeBit cap b w = .error { kind := .overflow, info := 3 } := by
  simp [writeBit, h7, emitByte_full _ h]

theorem writeBit_stay {cap : Nat} {w : Writer} (b : Bool) (h7 : w.cnt.val ≠ 7) :
    writeBit cap b w = .ok { w with acc := accWithBit b w, cnt := Fin.ofNat 8 (w.cnt.val + 1) } := by
  simp [writeBit, h7]

theorem writeBit_error {cap : Nat} {b : Bool} {w : Writer} {r : Raise} (h : writeBit cap b w = .error r) :
    r = { kind := .overflow, info := 3 } := by
  by_cases h7 : w.cnt.val = 7
  · by_cases hc : w.outLen.toNat = cap
    · rw [writeBit_full b h7 hc] at h; cases h; rfl
    · rw [writeBit_carry b h7 hc] at h; cases h
  · rw [writeBit_stay b h7] at h; cases h

theorem writeBit_grows {cap : Nat} {b : Bool} {w w' : Writer} (hw : WriterInv cap w) (h : writeBit cap b w = .ok w') :
    WriterInv cap w' ∧ Grows w w' := by
  by_cases h7 : w.cnt.val = 7
  · by_cases hc : w.outLen.toNat = cap
    · rw [writeBit_full b h7 hc] at h; cases h
    · rw [writeBit_carry b h7 hc] at h; cases h
      have i := emitted_inv (accWithBit b w) hw hc
      exact ⟨⟨i.cap_lt, i.out_len, i.obuf_wf, i.obuf_below⟩, (emitted_grows _ hw hc).of_same rfl rfl⟩
  · rw [writeBit_stay b h7] at h; cases h
    exact ⟨⟨hw.cap_lt, hw.out_len, hw.obuf_wf, hw.obuf_below⟩, (Grows.refl w).of_same rfl rfl⟩

theorem writeBits_error {cap : Nat} {v : Dword} : ∀ {n : Nat} {w : Writer} {r : Raise},
    writeBits cap v n w = .error r → r = { kind := .overflow, info := 3 }
  | 0, _, _, h => by cases h
  | n + 1, w, r, h => by
    rcases bind_eq_error h with h | ⟨w', -, h⟩
    · exact writeBit_error h
    · exact writeBits_error h

theorem writeBits_grows {cap : Nat} {v : Dword} : ∀ {n : Nat} {w w' : Writer}, WriterInv cap w →
    writeBits cap v n w = .ok w' → WriterInv cap w' ∧ Grows w w'
  | 0, w, w', hw, h => by cases h; exact ⟨hw, Grows.refl w⟩
  | n + 1, w, w', hw, h => by
    obtain ⟨w1, h1, h2⟩ := bind_eq_ok h
    obtain ⟨i, g⟩ := writeBit_grows hw h1
    obtain ⟨i', g'⟩ := writeBits_grows i h2
    exact ⟨i', g.trans g'⟩

/-! ### The stream of written bits -/

theorem writerPadded_iff {w : Writer} : writerPadded w = true ↔ w.acc.toNat < 2 ^ w.cnt.val := by
  simp [writerPadded]

/-- A bit of the partial byte with one bit added. -/
theorem accWithBit_getLsbD {w : Writer} (b : Bool) (hp : writerPadded w = true) (q : Nat) (hq : q < 8) :
    (accWithBit b w).getLsbD q = if q = w.cnt.val then b else w.acc.getLsbD q := by
  have hp := writerPadded_iff.mp hp
  have hc := w.cnt.isLt
  simp only [accWithBit, BitVec.getLsbD_or, BitVec.getLsbD_shiftLeft, BitVec.getLsbD_setWidth, BitVec.getLsbD_ofBool]
  rcases Nat.lt_trichotomy q w.cnt.val with h | h | h
  · simp [h, Nat.ne_of_lt h]
  · have hz : w.acc.getLsbD w.cnt.val = false := by
      simp only [BitVec.getLsbD]; exact Nat.testBit_lt_two_pow hp
    subst h
    rw [BitVec.getLsbD_eq_getElem hc] at hz
    simp [hz, hc]
  · have h1 : ¬ q < w.cnt.val := by omega
    have h2 : q - w.cnt.val ≠ 0 := by omega
    have h3 : q ≠ w.cnt.val := by omega
    simp [h1, h2, h3]

theorem accWithBit_lt {w : Writer} (b : Bool) (hp : writerPadded w = true) :
    (accWithBit b w).toNat < 2 ^ (w.cnt.val + 1) := by
  have hc := w.cnt.isLt
  have hp' := writerPadded_iff.mp hp
  apply Nat.lt_pow_two_of_testBit
  intro i hi
  by_cases h8 : i < 8
  · have := accWithBit_getLsbD b hp i h8
    rw [BitVec.getLsbD] at this
    rw [this, if_neg (by omega)]
    rw [BitVec.getLsbD]
    exact Nat.testBit_lt_two_pow (Nat.lt_of_lt_of_le hp' (Nat.pow_le_pow_right (by decide) (by omega)))
  · exact Nat.testBit_lt_two_pow (Nat.lt_of_lt_of_le (accWithBit b w).isLt (Nat.pow_le_pow_right (by decide) (by omega)))

theorem appendsBits_nil {w : Writer} (hp : writerPadded w = true) : appendsBits w w [] :=
  ⟨by simp, hp, fun _ _ => rfl, fun _ h => absurd h (by simp)⟩

theorem appendsBits_trans {s t u : Writer} {xs ys : List Bool} (h : appendsBits s t xs) (h' : appendsBits t u ys) :
    appendsBits s u (xs ++ ys) := by
  obtain ⟨l, p, k, b⟩ := h
  obtain ⟨l', p', k', b'⟩ := h'
  refine ⟨by simp; omega, p', fun j hj => by rw [k' j (by omega), k j hj], fun i hi => ?_⟩
  by_cases hx : i < xs.length
  · rw [k' _ (by omega), b i hx, List.getElem_append_left hx]
  · have hy : i - xs.length < ys.length := by simp at hi; omega
    have := b' (i - xs.length) hy
    rw [List.getElem_append_right (by omega), ← this]
    congr 1
    omega

/-- WriteBit where the byte it may complete has room appends its bit (42_bitstream_packer.md R95). -/
theorem writeBit_spec {cap : Nat} {w : Writer} (b : Bool) (hw : WriterInv cap w) (hp : writerPadded w = true)
    (hr : (bitsWritten w + 1) / 8 ≤ cap) :
    ∃ w', writeBit cap b w = .ok w' ∧ WriterInv cap w' ∧ appendsBits w w' [b] := by
  have hc := w.cnt.isLt
  unfold bitsWritten at hr
  by_cases h7 : w.cnt.val = 7
  · have hn : w.outLen.toNat ≠ cap := by omega
    have e := writeBit_carry b h7 hn
    have el := emitted_outLen (accWithBit b w) hw hn
    refine ⟨_, e, (writeBit_grows hw e).1, ?_, rfl, ?_, ?_⟩
    · simp only [bitsWritten, freshByte, List.length_singleton]
      simp only [emitted] at el ⊢
      simp only [el]
      simp; omega
    · intro p hp'
      unfold bitsWritten at hp'
      have g := (writeBit_grows hw e).2
      unfold outputBit
      have hl : (freshByte (emitted (accWithBit b w) w)).outLen.toNat = w.outLen.toNat + 1 := el
      rw [hl, if_pos (by omega)]
      by_cases hlt : p / 8 < w.outLen.toNat
      · rw [if_pos hlt]
        rw [show obufRead (freshByte (emitted (accWithBit b w) w)).obuf (p / 8) = obufRead w.obuf (p / 8) from
          g.kept _ (.inl hlt)]
      · rw [if_neg hlt]
        have hq : p / 8 = w.outLen.toNat := by omega
        rw [hq]
        simp only [freshByte, emitted, obufRead_obufWrite_self]
        rw [accWithBit_getLsbD b hp _ (Nat.mod_lt _ (by decide)), if_neg (by omega)]
    · intro i hi
      have : i = 0 := by simpa using hi
      subst this
      have hl : (freshByte (emitted (accWithBit b w) w)).outLen.toNat = w.outLen.toNat + 1 := el
      unfold outputBit bitsWritten
      rw [hl, if_pos (by omega)]
      have hq : (8 * w.outLen.toNat + w.cnt.val + 0) / 8 = w.outLen.toNat := by omega
      have hm : (8 * w.outLen.toNat + w.cnt.val + 0) % 8 = w.cnt.val := by omega
      rw [hq, hm]
      simp only [freshByte, emitted, obufRead_obufWrite_self]
      rw [accWithBit_getLsbD b hp _ hc]
      simp
  · have e := writeBit_stay (cap := cap) b h7
    have hcn : (Fin.ofNat 8 (w.cnt.val + 1)).val = w.cnt.val + 1 := by
      simp only [Fin.ofNat]; omega
    refine ⟨_, e, (writeBit_grows hw e).1, ?_, ?_, ?_, ?_⟩
    · simp only [bitsWritten, hcn, List.length_singleton]; omega
    · rw [writerPadded_iff]; simp only [hcn]; exact accWithBit_lt b hp
    · intro p hp'
      unfold bitsWritten at hp'
      unfold outputBit
      by_cases hlt : p / 8 < w.outLen.toNat
      · simp only [if_pos hlt]
      · simp only [if_neg hlt]
        rw [accWithBit_getLsbD b hp _ (Nat.mod_lt _ (by decide)), if_neg (by omega)]
    · intro i hi
      have : i = 0 := by simpa using hi
      subst this
      unfold outputBit bitsWritten
      have hq : ¬ (8 * w.outLen.toNat + w.cnt.val + 0) / 8 < w.outLen.toNat := by omega
      have hm : (8 * w.outLen.toNat + w.cnt.val + 0) % 8 = w.cnt.val := by omega
      simp only [if_neg hq, hm]
      rw [accWithBit_getLsbD b hp _ hc]
      simp

theorem bitsOf_succ (v : Dword) (n : Nat) : bitsOf v (n + 1) = v.getLsbD n :: bitsOf v n := by
  simp only [bitsOf, List.range_succ_eq_map, List.map_cons, List.map_map]
  congr 1
  apply List.map_congr_left
  intro i _
  simp only [Function.comp, Nat.succ_eq_add_one]
  congr 1
  omega

@[simp] theorem length_bitsOf (v : Dword) (n : Nat) : (bitsOf v n).length = n := by simp [bitsOf]

/-- WriteBits where the bytes it completes have room (42_bitstream_packer.md R96). -/
theorem writeBits_spec {cap : Nat} (v : Dword) : ∀ (n : Nat) {w : Writer}, WriterInv cap w → writerPadded w = true →
    (bitsWritten w + n) / 8 ≤ cap →
    ∃ w', writeBits cap v n w = .ok w' ∧ WriterInv cap w' ∧ appendsBits w w' (bitsOf v n)
  | 0, w, hw, hp, _ => ⟨w, rfl, hw, appendsBits_nil hp⟩
  | n + 1, w, hw, hp, hr => by
    obtain ⟨w1, e1, i1, a1⟩ := writeBit_spec (v.getLsbD n) hw hp (by omega)
    have hb : bitsWritten w1 = bitsWritten w + 1 := a1.1
    obtain ⟨w2, e2, i2, a2⟩ := writeBits_spec v n i1 a1.2.1 (by omega)
    refine ⟨w2, by simp [writeBits, e1, e2], i2, ?_⟩
    rw [bitsOf_succ]
    exact appendsBits_trans a1 a2

/-- How far WriteBit moves the writer, where it does not raise. -/
theorem writeBit_bits {cap : Nat} {b : Bool} {w w' : Writer} (hw : WriterInv cap w) (h : writeBit cap b w = .ok w') :
    bitsWritten w' = bitsWritten w + 1 := by
  have hc := w.cnt.isLt
  by_cases h7 : w.cnt.val = 7
  · by_cases hn : w.outLen.toNat = cap
    · rw [writeBit_full b h7 hn] at h; cases h
    · rw [writeBit_carry b h7 hn] at h; cases h
      have el := emitted_outLen (accWithBit b w) hw hn
      have hl : (freshByte (emitted (accWithBit b w) w)).outLen.toNat = w.outLen.toNat + 1 := el
      unfold bitsWritten
      rw [hl]
      simp only [freshByte, Fin.val_zero]
      omega
  · rw [writeBit_stay b h7] at h; cases h
    have hcn : (Fin.ofNat 8 (w.cnt.val + 1)).val = w.cnt.val + 1 := by
      simp only [Fin.ofNat]; omega
    simp only [bitsWritten, hcn]; omega

/-- WriteBits where some byte it completes has no room. -/
theorem writeBits_full {cap : Nat} (v : Dword) : ∀ (n : Nat) {w : Writer}, WriterInv cap w →
    cap < (bitsWritten w + n) / 8 → writeBits cap v n w = .error { kind := .overflow, info := 3 }
  | 0, w, hw, hr => absurd hr (by have := hw.out_len; have := w.cnt.isLt; unfold bitsWritten; omega)
  | n + 1, w, hw, hr => by
    cases h : writeBit cap (v.getLsbD n) w with
    | error r => rw [writeBit_error h] at h; simp [writeBits, h]
    | ok w1 =>
      have hb := writeBit_bits hw h
      simp [writeBits, h, writeBits_full v n (writeBit_grows hw h).1 (by omega)]

/-! ### FLUSH -/

theorem flushWriter_aligned {cap : Nat} {w : Writer} (h : w.cnt = 0) : flushWriter cap w = .ok w := by
  simp [flushWriter, h]

theorem flushWriter_partial {cap : Nat} {w : Writer} (h : w.cnt ≠ 0) (hn : w.outLen.toNat ≠ cap) :
    flushWriter cap w = .ok (freshByte (emitted w.acc w)) := by
  have : 0 < w.cnt.val := Nat.pos_of_ne_zero fun e => h (Fin.ext e)
  simp [flushWriter, this, emitByte_ok _ hn]

theorem flushWriter_full {cap : Nat} {w : Writer} (h : w.cnt ≠ 0) (hn : w.outLen.toNat = cap) :
    flushWriter cap w = .error { kind := .overflow, info := 3 } := by
  have : 0 < w.cnt.val := Nat.pos_of_ne_zero fun e => h (Fin.ext e)
  simp [flushWriter, this, emitByte_full _ hn]

theorem flushWriter_error {cap : Nat} {w : Writer} {r : Raise} (h : flushWriter cap w = .error r) :
    r = { kind := .overflow, info := 3 } := by
  by_cases hc : w.cnt = 0
  · rw [flushWriter_aligned hc] at h; cases h
  · by_cases hn : w.outLen.toNat = cap
    · rw [flushWriter_full hc hn] at h; cases h; rfl
    · rw [flushWriter_partial hc hn] at h; cases h

theorem flushWriter_grows {cap : Nat} {w w' : Writer} (hw : WriterInv cap w) (h : flushWriter cap w = .ok w') :
    WriterInv cap w' ∧ Grows w w' ∧ (∀ k, k ≠ w.outLen.toNat → obufRead w'.obuf k = obufRead w.obuf k) := by
  by_cases hc : w.cnt = 0
  · rw [flushWriter_aligned hc] at h; cases h; exact ⟨hw, Grows.refl w, fun _ _ => rfl⟩
  · by_cases hn : w.outLen.toNat = cap
    · rw [flushWriter_full hc hn] at h; cases h
    · rw [flushWriter_partial hc hn] at h; cases h
      have i := emitted_inv w.acc hw hn
      exact ⟨⟨i.cap_lt, i.out_len, i.obuf_wf, i.obuf_below⟩, (emitted_grows _ hw hn).of_same rfl rfl,
        fun k hk => obufRead_obufWrite_ne _ _ hk⟩

/-! ### Reading -/

theorem nextByte_ok {inp : Input} {pos : BitVec 25} (h : pos.toNat < inp.len.toNat) :
    nextByte inp pos = .ok (ibufRead inp pos.toNat, BitVec.ofNat 25 (pos.toNat + 1)) := by
  simp [nextByte, Nat.not_le.mpr h]

theorem nextByte_end {inp : Input} {pos : BitVec 25} (h : inp.len.toNat ≤ pos.toNat) :
    nextByte inp pos = .error { kind := .malformedContainer, info := 2 } := by
  simp [nextByte, h, raised]

/-- The position after a byte has been read. -/
theorem nextPos_toNat {inp : Input} {pos : BitVec 25} (h : pos.toNat < inp.len.toNat) :
    (BitVec.ofNat 25 (pos.toNat + 1)).toNat = pos.toNat + 1 := by
  have := inp.len.isLt
  simp only [BitVec.toNat_ofNat]
  exact Nat.mod_eq_of_lt (by omega)

theorem nextByte_error {inp : Input} {pos : BitVec 25} {r : Raise} (h : nextByte inp pos = .error r) :
    r = { kind := .malformedContainer, info := 2 } := by
  by_cases hc : pos.toNat < inp.len.toNat
  · rw [nextByte_ok hc] at h; cases h
  · rw [nextByte_end (Nat.not_lt.mp hc)] at h; cases h; rfl

/-- The reader after the next byte has been loaded. -/
def byteLoaded (inp : Input) (r : Reader) : Reader :=
  { acc := ibufRead inp r.pos.toNat, left := 8, pos := BitVec.ofNat 25 (r.pos.toNat + 1) }

theorem loadedReader_some {inp : Input} {r : Reader} (h : r.left ≠ 0) : loadedReader inp r = .ok r := by
  simp [loadedReader, h]

theorem loadedReader_ok {inp : Input} {r : Reader} (h : r.left = 0) (hp : r.pos.toNat < inp.len.toNat) :
    loadedReader inp r = .ok (byteLoaded inp r) := by
  simp [loadedReader, h, nextByte_ok hp, byteLoaded]

theorem loadedReader_end {inp : Input} {r : Reader} (h : r.left = 0) (hp : inp.len.toNat ≤ r.pos.toNat) :
    loadedReader inp r = .error { kind := .malformedContainer, info := 2 } := by
  simp [loadedReader, h, nextByte_end hp]

theorem loadedReader_error {inp : Input} {r : Reader} {e : Raise} (h : loadedReader inp r = .error e) :
    e = { kind := .malformedContainer, info := 2 } := by
  by_cases hl : r.left = 0
  · by_cases hc : r.pos.toNat < inp.len.toNat
    · rw [loadedReader_ok hl hc] at h; cases h
    · rw [loadedReader_end hl (Nat.not_lt.mp hc)] at h; cases h; rfl
  · rw [loadedReader_some hl] at h; cases h

theorem readBit_error {inp : Input} {r : Reader} {e : Raise} (h : readBit inp r = .error e) :
    e = { kind := .malformedContainer, info := 2 } := by
  rcases bind_eq_error h with h | ⟨r', -, h⟩
  · exact loadedReader_error h
  · cases h

/-- The position of the reader stays within the buffer. -/
theorem readBit_pos {inp : Input} {r r' : Reader} {b : Bool} {cap : Nat} (hl : inp.len.toNat ≤ cap)
    (hp : r.pos.toNat ≤ cap) (h : readBit inp r = .ok (b, r')) : r'.pos.toNat ≤ cap := by
  obtain ⟨r1, h1, h2⟩ := bind_eq_ok h
  cases h2
  by_cases h0 : r.left = 0
  · by_cases hc : r.pos.toNat < inp.len.toNat
    · rw [loadedReader_ok h0 hc] at h1; cases h1
      simp only [byteLoaded, nextPos_toNat hc]; omega
    · rw [loadedReader_end h0 (Nat.not_lt.mp hc)] at h1; cases h1
  · rw [loadedReader_some h0] at h1; cases h1; exact hp

theorem readBitsInto_error {inp : Input} : ∀ {n v : Nat} {r : Reader} {e : Raise},
    readBitsInto inp n v r = .error e → e = { kind := .malformedContainer, info := 2 }
  | 0, _, _, _, h => by cases h
  | n + 1, v, r, e, h => by
    rcases bind_eq_error h with h | ⟨x, -, h⟩
    · exact readBit_error h
    · exact readBitsInto_error h

theorem readBitsInto_pos {inp : Input} {cap : Nat} (hl : inp.len.toNat ≤ cap) :
    ∀ {n v : Nat} {r : Reader} {x : Nat × Reader}, r.pos.toNat ≤ cap → readBitsInto inp n v r = .ok x →
      x.2.pos.toNat ≤ cap
  | 0, _, _, _, hp, h => by cases h; exact hp
  | n + 1, v, r, x, hp, h => by
    obtain ⟨⟨b, r1⟩, h1, h2⟩ := bind_eq_ok h
    exact readBitsInto_pos hl (readBit_pos hl hp h1) h2

theorem readRawByte_error {inp : Input} {r : Reader} {e : Raise} (h : readRawByte inp r = .error e) :
    e = { kind := .malformedContainer, info := 2 } := by
  rcases bind_eq_error h with h | ⟨x, -, h⟩
  · exact nextByte_error h
  · cases h

theorem readRawByte_ok {inp : Input} {r : Reader} (h : r.pos.toNat < inp.len.toNat) :
    readRawByte inp r = .ok (ibufRead inp r.pos.toNat, { r with pos := BitVec.ofNat 25 (r.pos.toNat + 1) }) := by
  simp [readRawByte, nextByte_ok h]

theorem readRawByte_end {inp : Input} {r : Reader} (h : inp.len.toNat ≤ r.pos.toNat) :
    readRawByte inp r = .error { kind := .malformedContainer, info := 2 } := by
  simp [readRawByte, nextByte_end h]

/-- A raw byte is read only below IN_LEN, and moves IN_POS only (42_bitstream_packer.md R100). -/
theorem readRawByte_eq_ok {inp : Input} {r r' : Reader} {v : Byte} (h : readRawByte inp r = .ok (v, r')) :
    r.pos.toNat < inp.len.toNat ∧ v = ibufRead inp r.pos.toNat ∧ r'.pos.toNat = r.pos.toNat + 1 ∧
      r' = { r with pos := BitVec.ofNat 25 (r.pos.toNat + 1) } := by
  by_cases hc : r.pos.toNat < inp.len.toNat
  · rw [readRawByte_ok hc] at h; cases h; exact ⟨hc, rfl, nextPos_toNat hc, rfl⟩
  · rw [readRawByte_end (Nat.not_lt.mp hc)] at h; cases h

theorem readRawBytes_error {inp : Input} : ∀ {k : Nat} {r : Reader} {e : Raise},
    readRawBytes inp k r = .error e → e = { kind := .malformedContainer, info := 2 }
  | 0, _, _, h => by cases h
  | k + 1, r, e, h => by
    rcases bind_eq_error h with h | ⟨x, -, h⟩
    · exact readRawByte_error h
    · rcases bind_eq_error h with h | ⟨y, -, h⟩
      · exact readRawBytes_error h
      · cases h

theorem inputHoldsBytes_cons {inp : Input} {k : Nat} {v : Byte} {vs : List Byte} :
    inputHoldsBytes inp k (v :: vs) ↔ k < inp.len.toNat ∧ ibufRead inp k = v ∧ inputHoldsBytes inp (k + 1) vs := by
  constructor
  · rintro ⟨h1, h2⟩
    simp only [List.length_cons] at h1
    refine ⟨by omega, h2 0 (by simp), by omega, fun i hi => ?_⟩
    have := h2 (i + 1) (by simpa using hi)
    simp only [List.getElem_cons_succ] at this
    rw [← this]; congr 1; omega
  · rintro ⟨h1, h2, h3, h4⟩
    refine ⟨by simp only [List.length_cons]; omega, fun i hi => ?_⟩
    cases i with
    | zero => simpa using h2
    | succ i =>
      have := h4 i (by simpa using hi)
      simp only [List.getElem_cons_succ]
      rw [← this]; congr 1; omega

/-- `k` raw bytes are the next `k` bytes of the input, which are there. -/
theorem readRawBytes_eq_ok {inp : Input} : ∀ {k : Nat} {r r' : Reader} {vs : List Byte},
    readRawBytes inp k r = .ok (vs, r') →
      vs.length = k ∧ (k ≠ 0 → inputHoldsBytes inp r.pos.toNat vs) ∧ r'.pos.toNat = r.pos.toNat + k ∧ r'.acc = r.acc ∧
        r'.left = r.left
  | 0, r, r', vs, h => by cases h; exact ⟨rfl, fun h => absurd rfl h, rfl, rfl, rfl⟩
  | k + 1, r, r', vs, h => by
    obtain ⟨⟨v, r1⟩, h1, h⟩ := bind_eq_ok h
    obtain ⟨⟨ws, r2⟩, h2, h⟩ := bind_eq_ok h
    cases h
    obtain ⟨hlt, rfl, hp, he⟩ := readRawByte_eq_ok h1
    obtain ⟨l, b, p, a, c⟩ := readRawBytes_eq_ok h2
    refine ⟨by simp [l], fun _ => ?_, by omega, by rw [a, he], by rw [c, he]⟩
    rw [inputHoldsBytes_cons]
    refine ⟨hlt, rfl, ?_⟩
    by_cases hk : k = 0
    · subst hk
      have : ws = [] := List.eq_nil_of_length_eq_zero l
      subst this
      exact ⟨by simp; omega, fun i hi => absurd hi (by simp)⟩
    · rw [← hp]; exact b hk

theorem readRawBytes_ok {inp : Input} : ∀ (vs : List Byte) {r : Reader}, inputHoldsBytes inp r.pos.toNat vs →
    ∃ r', readRawBytes inp vs.length r = .ok (vs, r') ∧ r'.pos.toNat = r.pos.toNat + vs.length ∧ r'.acc = r.acc ∧
      r'.left = r.left
  | [], r, _ => ⟨r, rfl, rfl, rfl, rfl⟩
  | v :: vs, r, h => by
    obtain ⟨h1, h2, h3⟩ := inputHoldsBytes_cons.mp h
    have hp := nextPos_toNat h1
    obtain ⟨r', e, p, a, c⟩ := readRawBytes_ok vs (r := { r with pos := BitVec.ofNat 25 (r.pos.toNat + 1) })
      (by simp only [hp]; exact h3)
    refine ⟨r', ?_, by simp only [hp] at p; simp only [List.length_cons]; omega, a, c⟩
    simp [readRawBytes, readRawByte_ok h1, h2, e]

theorem readRawBytes_short {inp : Input} : ∀ (k : Nat) {r : Reader},
    inp.len.toNat < r.pos.toNat + k → (r.pos.toNat ≤ inp.len.toNat ∨ k ≠ 0) →
    readRawBytes inp k r = .error { kind := .malformedContainer, info := 2 }
  | 0, r, h, h' => by omega
  | k + 1, r, h, _ => by
    by_cases hc : r.pos.toNat < inp.len.toNat
    · have hp := nextPos_toNat hc
      have := readRawBytes_short k (r := { r with pos := BitVec.ofNat 25 (r.pos.toNat + 1) }) (inp := inp)
        (by simp only [hp]; omega) (by simp only [hp]; omega)
      simp [readRawBytes, readRawByte_ok hc, this]
    · simp [readRawBytes, readRawByte_end (Nat.not_lt.mp hc)]

/-! ### The stream of read bits -/

/-- ReadBit reads the next input bit, where there is one (42_bitstream_packer.md R98). -/
theorem readBit_spec {inp : Input} {r : Reader} (h : 1 ≤ bitsAvailable inp r) :
    ∃ r', readBit inp r = .ok (inputBit inp r 0, r') ∧ bitsAvailable inp r' + 1 = bitsAvailable inp r ∧
      (∀ p, inputBit inp r' p = inputBit inp r (p + 1)) ∧
      readerAdvanced inp r r' 1 := by
  have hl := r.left.isLt
  by_cases h0 : r.left = 0
  · have hz : r.left.val = 0 := by rw [h0]; rfl
    have hp : r.pos.toNat < inp.len.toNat := by unfold bitsAvailable at h; omega
    have hn := nextPos_toNat hp
    have e := loadedReader_ok h0 hp
    have h7 : (Fin.ofNat 9 ((8 : Fin 9).val - 1)).val = 7 := rfl
    refine ⟨{ byteLoaded inp r with left := Fin.ofNat 9 ((8 : Fin 9).val - 1) }, ?_, ?_, ?_, ?_⟩
    · simp [readBit, e, inputBit, hz, byteLoaded]
    · simp only [bitsAvailable, byteLoaded, hn, h7, hz]; omega
    · intro p
      simp only [inputBit, byteLoaded, hn, h7, hz, Nat.not_lt_zero, if_false, Nat.sub_zero]
      by_cases hp7 : p < 7
      · rw [if_pos hp7]
        have : (p + 1) / 8 = 0 := by omega
        have h2 : (p + 1) % 8 = 8 - 7 + p := by omega
        rw [this, h2]; rfl
      · rw [if_neg hp7]
        have h1 : r.pos.toNat + 1 + (p - 7) / 8 = r.pos.toNat + (p + 1) / 8 := by omega
        have h2 : (p - 7) % 8 = (p + 1) % 8 := by omega
        rw [h1, h2]
    · have hb : bytesLoaded r 1 = 1 := by simp [bytesLoaded, hz]
      refine ⟨by simp only [hb, byteLoaded, hn], ?_, ?_⟩
      · simp only [hb, h7, hz]
      · simp [hb, byteLoaded]
  · have hz : 0 < r.left.val := Nat.pos_of_ne_zero fun e => h0 (Fin.ext e)
    have e := loadedReader_some (inp := inp) h0
    have hv : (Fin.ofNat 9 (r.left.val - 1)).val = r.left.val - 1 := by simp only [Fin.ofNat]; omega
    refine ⟨{ r with left := Fin.ofNat 9 (r.left.val - 1) }, ?_, ?_, ?_, ?_⟩
    · simp [readBit, e, inputBit, hz]
    · simp only [bitsAvailable, hv]; omega
    · intro p
      simp only [inputBit, hv]
      by_cases hp : p < r.left.val - 1
      · rw [if_pos hp, if_pos (by omega)]
        congr 1; omega
      · rw [if_neg hp, if_neg (by omega)]
        have : p - (r.left.val - 1) = p + 1 - r.left.val := by omega
        rw [this]
    · have hb : bytesLoaded r 1 = 0 := by simp only [bytesLoaded]; omega
      refine ⟨by simp [hb], by simp only [hb, hv]; omega, by simp [hb]⟩

theorem readBit_end {inp : Input} {r : Reader} (h : bitsAvailable inp r = 0) :
    readBit inp r = .error { kind := .malformedContainer, info := 2 } := by
  unfold bitsAvailable at h
  have h0 : r.left = 0 := Fin.ext (by simp; omega)
  simp [readBit, loadedReader_end (inp := inp) h0 (by omega)]

theorem readerAdvanced_zero (inp : Input) (r : Reader) : readerAdvanced inp r r 0 := by
  have : bytesLoaded r 0 = 0 := by simp only [bytesLoaded]; omega
  simp [readerAdvanced, this]

/-- Two advances make one. -/
theorem readerAdvanced_add {inp : Input} {r r1 r2 : Reader} {n m : Nat} (h : readerAdvanced inp r r1 n)
    (h' : readerAdvanced inp r1 r2 m) : readerAdvanced inp r r2 (n + m) := by
  obtain ⟨p, l, a⟩ := h
  obtain ⟨p', l', a'⟩ := h'
  have hb : bytesLoaded r (n + m) = bytesLoaded r n + bytesLoaded r1 m := by
    have := r.left.isLt
    have := r1.left.isLt
    simp only [bytesLoaded] at *
    omega
  refine ⟨by rw [hb]; omega, by rw [hb]; omega, ?_⟩
  rw [a', hb]
  by_cases h1 : bytesLoaded r1 m = 0
  · simp only [h1, if_true, Nat.add_zero]; exact a
  · rw [if_neg h1, if_neg (by omega)]
    congr 1; omega

theorem numberOfBits_snoc (v : Nat) (bits : List Bool) :
    bits.foldl (fun v b => 2 * v + b.toNat) v = v * 2 ^ bits.length + numberOfBits bits := by
  unfold numberOfBits
  induction bits generalizing v with
  | nil => simp
  | cons b bs ih =>
    simp only [List.foldl_cons, List.length_cons]
    rw [ih, ih (2 * 0 + b.toNat)]
    ring

theorem numberOfBits_lt (bits : List Bool) : numberOfBits bits < 2 ^ bits.length := by
  induction bits with
  | nil => simp [numberOfBits]
  | cons b bs ih =>
    have e : numberOfBits (b :: bs) = b.toNat * 2 ^ bs.length + numberOfBits bs := by
      rw [numberOfBits, List.foldl_cons, numberOfBits_snoc]; simp
    rw [e, List.length_cons, pow_succ]
    have := Bool.toNat_le b
    nlinarith [Nat.mul_le_mul_right (2 ^ bs.length) this]

/-- The next `n` input bits. -/
def nextBits (inp : Input) (r : Reader) (n : Nat) : List Bool := (List.range n).map (inputBit inp r)

theorem nextBits_succ {inp : Input} {r r' : Reader} (n : Nat) (h : ∀ p, inputBit inp r' p = inputBit inp r (p + 1)) :
    nextBits inp r (n + 1) = inputBit inp r 0 :: nextBits inp r' n := by
  simp only [nextBits, List.range_succ_eq_map, List.map_cons, List.map_map]
  congr 1
  exact List.map_congr_left fun p _ => (h p).symm

@[simp] theorem length_nextBits (inp : Input) (r : Reader) (n : Nat) : (nextBits inp r n).length = n := by
  simp [nextBits]

/-- ReadBits reads the next bits, where there are enough (42_bitstream_packer.md R99). -/
theorem readBitsInto_spec {inp : Input} : ∀ (n v : Nat) {r : Reader}, n ≤ bitsAvailable inp r →
    ∃ r', readBitsInto inp n v r = .ok ((nextBits inp r n).foldl (fun v b => 2 * v + b.toNat) v, r') ∧
      bitsAvailable inp r' + n = bitsAvailable inp r ∧ (∀ p, inputBit inp r' p = inputBit inp r (p + n)) ∧
      readerAdvanced inp r r' n
  | 0, v, r, _ => ⟨r, rfl, rfl, fun _ => rfl, readerAdvanced_zero inp r⟩
  | n + 1, v, r, h => by
    obtain ⟨r1, e1, a1, b1, d1⟩ := readBit_spec (inp := inp) (r := r) (by omega)
    obtain ⟨r2, e2, a2, b2, d2⟩ := readBitsInto_spec (inp := inp) n (2 * v + (inputBit inp r 0).toNat) (r := r1) (by omega)
    refine ⟨r2, ?_, by omega, fun p => ?_, ?_⟩
    · simp [readBitsInto, e1, e2, nextBits_succ n b1]
    · rw [b2, b1]; rfl
    · rw [Nat.add_comm n 1]; exact readerAdvanced_add d1 d2

theorem readBitsInto_end {inp : Input} : ∀ (n v : Nat) {r : Reader}, bitsAvailable inp r < n →
    readBitsInto inp n v r = .error { kind := .malformedContainer, info := 2 }
  | 0, _, _, h => absurd h (Nat.not_lt_zero _)
  | n + 1, v, r, h => by
    by_cases h0 : bitsAvailable inp r = 0
    · simp [readBitsInto, readBit_end h0]
    · obtain ⟨r1, e1, a1, -, -⟩ := readBit_spec (inp := inp) (r := r) (by omega)
      simp [readBitsInto, e1, readBitsInto_end (inp := inp) n _ (r := r1) (by omega)]

end Sys2Proof.Machine
end

