-- ==== Sys2Proof/Laws/Bus.lean ====
section
/-! SUPPORT. The host bus: the address map and what one access does. -/

namespace Sys2Proof.Machine

/-! ### The address map -/

theorem targetWord_lt (t : BusTarget) : targetWord t < 2 ^ 24 := by
  cases t <;> simp only [targetWord] <;> omega

theorem targetAddr_toNat (t : BusTarget) : (targetAddr t).toNat = 4 * targetWord t := by
  have := targetWord_lt t
  simp only [targetAddr, BitVec.toNat_ofNat]
  exact Nat.mod_eq_of_lt (by omega)

/-- The map, on the word address. -/
def wordTarget (k : Nat) : BusTarget :=
  if k < 0x400 then controlTarget k
  else if k < 0x400000 then windowTarget k
  else if k < 0x800000 then .ibuf (Fin.ofNat (2 ^ 22) (k - 0x400000))
  else if k < 0xC00000 then .obuf (Fin.ofNat (2 ^ 22) (k - 0x800000))
  else .unmapped

theorem busTarget_aligned {a : Addr} (h : a.toNat % 4 = 0) : busTarget a = wordTarget (a.toNat / 4) := by
  unfold busTarget wordTarget
  exact if_neg (not_not.mpr h)

theorem busTarget_misaligned {a : Addr} (h : a.toNat % 4 ≠ 0) : busTarget a = .unmapped := by
  unfold busTarget
  exact if_pos h

theorem wordTarget_control {k : Nat} (h : k < 0x400) : wordTarget k = controlTarget k := by
  rw [wordTarget, if_pos h]

theorem wordTarget_window {k : Nat} (h1 : 0x400 ≤ k) (h2 : k < 0x400000) : wordTarget k = windowTarget k := by
  have : ¬ k < 0x400 := by omega
  rw [wordTarget, if_neg this, if_pos h2]

theorem ofNat_mod_self (x : Byte) : BitVec.ofNat 8 x.toNat = x := by simp

theorem wordTarget_targetWord {t : BusTarget} (h : t ≠ .unmapped) : wordTarget (targetWord t) = t := by
  cases t with
  | unmapped => exact absurd rfl h
  | freqLo s =>
    have := s.isLt
    have e1 : 0x400 ≤ 0x400 + 2 * s.toNat ∧ 0x400 + 2 * s.toNat < 0x600 := by omega
    have e2 : (0x400 + 2 * s.toNat - 0x400) / 2 = s.toNat := by omega
    have e3 : (0x400 + 2 * s.toNat) % 2 = 0 := by omega
    simp only [targetWord]
    rw [wordTarget_window (by omega) (by omega), windowTarget, if_pos e1, e2, if_pos e3, ofNat_mod_self]
  | freqHi s =>
    have := s.isLt
    have e1 : 0x400 ≤ 0x401 + 2 * s.toNat ∧ 0x401 + 2 * s.toNat < 0x600 := by omega
    have e2 : (0x401 + 2 * s.toNat - 0x400) / 2 = s.toNat := by omega
    have e3 : ¬ (0x401 + 2 * s.toNat) % 2 = 0 := by omega
    simp only [targetWord]
    rw [wordTarget_window (by omega) (by omega), windowTarget, if_pos e1, e2, if_neg e3, ofNat_mod_self]
  | len s =>
    have := s.isLt
    have e1 : ¬ (0x400 ≤ 0x600 + s.toNat ∧ 0x600 + s.toNat < 0x600) := by omega
    have e2 : 0x600 ≤ 0x600 + s.toNat ∧ 0x600 + s.toNat < 0x700 := by omega
    have e3 : 0x600 + s.toNat - 0x600 = s.toNat := by omega
    simp only [targetWord]
    rw [wordTarget_window (by omega) (by omega), windowTarget, if_neg e1, if_pos e2, e3, ofNat_mod_self]
  | codeLo s =>
    have := s.isLt
    have e1 : ¬ (0x400 ≤ 0x800 + 2 * s.toNat ∧ 0x800 + 2 * s.toNat < 0x600) := by omega
    have e2 : ¬ (0x600 ≤ 0x800 + 2 * s.toNat ∧ 0x800 + 2 * s.toNat < 0x700) := by omega
    have e3 : 0x800 ≤ 0x800 + 2 * s.toNat ∧ 0x800 + 2 * s.toNat < 0xA00 := by omega
    have e4 : (0x800 + 2 * s.toNat - 0x800) / 2 = s.toNat := by omega
    have e5 : (0x800 + 2 * s.toNat) % 2 = 0 := by omega
    simp only [targetWord]
    rw [wordTarget_window (by omega) (by omega), windowTarget, if_neg e1, if_neg e2, if_pos e3, e4, if_pos e5,
      ofNat_mod_self]
  | codeHi s =>
    have := s.isLt
    have e1 : ¬ (0x400 ≤ 0x801 + 2 * s.toNat ∧ 0x801 + 2 * s.toNat < 0x600) := by omega
    have e2 : ¬ (0x600 ≤ 0x801 + 2 * s.toNat ∧ 0x801 + 2 * s.toNat < 0x700) := by omega
    have e3 : 0x800 ≤ 0x801 + 2 * s.toNat ∧ 0x801 + 2 * s.toNat < 0xA00 := by omega
    have e4 : (0x801 + 2 * s.toNat - 0x800) / 2 = s.toNat := by omega
    have e5 : ¬ (0x801 + 2 * s.toNat) % 2 = 0 := by omega
    simp only [targetWord]
    rw [wordTarget_window (by omega) (by omega), windowTarget, if_neg e1, if_neg e2, if_pos e3, e4, if_neg e5,
      ofNat_mod_self]
  | hist l =>
    have := l.isLt
    have e1 : ¬ (0x400 ≤ 0xA00 + l.toNat ∧ 0xA00 + l.toNat < 0x600) := by omega
    have e2 : ¬ (0x600 ≤ 0xA00 + l.toNat ∧ 0xA00 + l.toNat < 0x700) := by omega
    have e3 : ¬ (0x800 ≤ 0xA00 + l.toNat ∧ 0xA00 + l.toNat < 0xA00) := by omega
    have e4 : 0xA00 ≤ 0xA00 + l.toNat ∧ 0xA00 + l.toNat < 0xB00 := by omega
    have e5 : 0xA00 + l.toNat - 0xA00 = l.toNat := by omega
    simp only [targetWord]
    rw [wordTarget_window (by omega) (by omega), windowTarget, if_neg e1, if_neg e2, if_neg e3, if_pos e4, e5,
      ofNat_mod_self]
  | syms i =>
    have := i.isLt
    have e1 : ¬ (0x400 ≤ 0xB00 + i.toNat ∧ 0xB00 + i.toNat < 0x600) := by omega
    have e2 : ¬ (0x600 ≤ 0xB00 + i.toNat ∧ 0xB00 + i.toNat < 0x700) := by omega
    have e3 : ¬ (0x800 ≤ 0xB00 + i.toNat ∧ 0xB00 + i.toNat < 0xA00) := by omega
    have e4 : ¬ (0xA00 ≤ 0xB00 + i.toNat ∧ 0xB00 + i.toNat < 0xB00) := by omega
    have e5 : 0xB00 ≤ 0xB00 + i.toNat ∧ 0xB00 + i.toNat < 0xC00 := by omega
    have e6 : 0xB00 + i.toNat - 0xB00 = i.toNat := by omega
    simp only [targetWord]
    rw [wordTarget_window (by omega) (by omega), windowTarget, if_neg e1, if_neg e2, if_neg e3, if_neg e4, if_pos e5,
      e6, ofNat_mod_self]
  | node id k =>
    have hi := id.isLt
    have hk := k.isLt
    have e1 : ¬ (0x400 ≤ 0xC00 + 4 * id.val + k.val ∧ 0xC00 + 4 * id.val + k.val < 0x600) := by omega
    have e2 : ¬ (0x600 ≤ 0xC00 + 4 * id.val + k.val ∧ 0xC00 + 4 * id.val + k.val < 0x700) := by omega
    have e3 : ¬ (0x800 ≤ 0xC00 + 4 * id.val + k.val ∧ 0xC00 + 4 * id.val + k.val < 0xA00) := by omega
    have e4 : ¬ (0xA00 ≤ 0xC00 + 4 * id.val + k.val ∧ 0xC00 + 4 * id.val + k.val < 0xB00) := by omega
    have e5 : ¬ (0xB00 ≤ 0xC00 + 4 * id.val + k.val ∧ 0xC00 + 4 * id.val + k.val < 0xC00) := by omega
    have e6 : 0xC00 ≤ 0xC00 + 4 * id.val + k.val ∧ 0xC00 + 4 * id.val + k.val < 0x13FC := by omega
    have e7 : (0xC00 + 4 * id.val + k.val - 0xC00) / 4 = id.val := by omega
    have e8 : (0xC00 + 4 * id.val + k.val) % 4 = k.val := by omega
    have f1 : Fin.ofNat 511 id.val = id := Fin.ext (Nat.mod_eq_of_lt hi)
    have f2 : Fin.ofNat 4 k.val = k := Fin.ext (Nat.mod_eq_of_lt hk)
    simp only [targetWord]
    rw [wordTarget_window (by omega) (by omega), windowTarget, if_neg e1, if_neg e2, if_neg e3, if_neg e4, if_neg e5,
      if_pos e6, e7, e8, f1, f2]
  | trie t =>
    have ht := t.isLt
    have e1 : ¬ (0x400 ≤ 0x1400 + t.val ∧ 0x1400 + t.val < 0x600) := by omega
    have e2 : ¬ (0x600 ≤ 0x1400 + t.val ∧ 0x1400 + t.val < 0x700) := by omega
    have e3 : ¬ (0x800 ≤ 0x1400 + t.val ∧ 0x1400 + t.val < 0xA00) := by omega
    have e4 : ¬ (0xA00 ≤ 0x1400 + t.val ∧ 0x1400 + t.val < 0xB00) := by omega
    have e5 : ¬ (0xB00 ≤ 0x1400 + t.val ∧ 0x1400 + t.val < 0xC00) := by omega
    have e6 : ¬ (0xC00 ≤ 0x1400 + t.val ∧ 0x1400 + t.val < 0x13FC) := by omega
    have e7 : 0x1400 ≤ 0x1400 + t.val ∧ 0x1400 + t.val < 0x15FF := by omega
    have e8 : 0x1400 + t.val - 0x1400 = t.val := by omega
    have f1 : Fin.ofNat 511 t.val = t := Fin.ext (Nat.mod_eq_of_lt ht)
    simp only [targetWord]
    rw [wordTarget_window (by omega) (by omega), windowTarget, if_neg e1, if_neg e2, if_neg e3, if_neg e4, if_neg e5,
      if_neg e6, if_pos e7, e8, f1]
  | ibuf j =>
    have hj := j.isLt
    have e1 : ¬ 0x400000 + j.val < 0x400 := by omega
    have e2 : ¬ 0x400000 + j.val < 0x400000 := by omega
    have e3 : 0x400000 + j.val < 0x800000 := by omega
    have e4 : 0x400000 + j.val - 0x400000 = j.val := by omega
    have f1 : Fin.ofNat (2 ^ 22) j.val = j := Fin.ext (Nat.mod_eq_of_lt hj)
    simp only [targetWord]
    rw [wordTarget, if_neg e1, if_neg e2, if_pos e3, e4, f1]
  | obuf j =>
    have hj := j.isLt
    have e1 : ¬ 0x800000 + j.val < 0x400 := by omega
    have e2 : ¬ 0x800000 + j.val < 0x400000 := by omega
    have e3 : ¬ 0x800000 + j.val < 0x800000 := by omega
    have e4 : 0x800000 + j.val < 0xC00000 := by omega
    have e5 : 0x800000 + j.val - 0x800000 = j.val := by omega
    have f1 : Fin.ofNat (2 ^ 22) j.val = j := Fin.ext (Nat.mod_eq_of_lt hj)
    simp only [targetWord]
    rw [wordTarget, if_neg e1, if_neg e2, if_neg e3, if_pos e4, e5, f1]
  | _ => rfl

/-- The address of a target selects it (20_memory.md R47). -/
theorem busTarget_targetAddr {t : BusTarget} (h : t ≠ .unmapped) : busTarget (targetAddr t) = t := by
  have e := targetAddr_toNat t
  have h4 : (targetAddr t).toNat % 4 = 0 := by omega
  have hd : (targetAddr t).toNat / 4 = targetWord t := by omega
  rw [busTarget_aligned h4, hd, wordTarget_targetWord h]

theorem toNat_ofNat_byte {n : Nat} (h : n < 256) : (BitVec.ofNat 8 n).toNat = n := by
  simp only [BitVec.toNat_ofNat]; exact Nat.mod_eq_of_lt h

theorem targetWord_wordTarget {k : Nat} (h : wordTarget k ≠ .unmapped) : targetWord (wordTarget k) = k := by
  unfold wordTarget at h ⊢
  split
  · next h1 =>
    rw [if_pos h1] at h
    by_cases h22 : k < 22
    · interval_cases k <;> rfl
    · exfalso; apply h
      unfold controlTarget
      split <;> first | omega | rfl
  · next h1 =>
    rw [if_neg h1] at h
    split
    · next h2 =>
      rw [if_pos h2] at h
      unfold windowTarget at h ⊢
      simp only at h ⊢
      split
      · next h3 =>
        split
        · simp only [targetWord]; rw [toNat_ofNat_byte (by omega)]; omega
        · simp only [targetWord]; rw [toNat_ofNat_byte (by omega)]; omega
      · next h3 =>
        rw [if_neg h3] at h
        split
        · simp only [targetWord]; rw [toNat_ofNat_byte (by omega)]; omega
        · next h4 =>
          rw [if_neg h4] at h
          split
          · split
            · simp only [targetWord]; rw [toNat_ofNat_byte (by omega)]; omega
            · simp only [targetWord]; rw [toNat_ofNat_byte (by omega)]; omega
          · next h5 =>
            rw [if_neg h5] at h
            split
            · simp only [targetWord]; rw [toNat_ofNat_byte (by omega)]; omega
            · next h6 =>
              rw [if_neg h6] at h
              split
              · simp only [targetWord]; rw [toNat_ofNat_byte (by omega)]; omega
              · next h7 =>
                rw [if_neg h7] at h
                split
                · simp only [targetWord, Fin.ofNat]; omega
                · next h8 =>
                  rw [if_neg h8] at h
                  split
                  · simp only [targetWord, Fin.ofNat]; omega
                  · next h9 => rw [if_neg h9] at h; exact absurd rfl h
    · next h2 =>
      rw [if_neg h2] at h
      split
      · simp only [targetWord, Fin.ofNat]; omega
      · next h3 =>
        rw [if_neg h3] at h
        split
        · simp only [targetWord, Fin.ofNat]; omega
        · next h4 => rw [if_neg h4] at h; exact absurd rfl h

/-- An address that selects a target is that target's address (20_memory.md R47, R48). -/
theorem targetAddr_busTarget {a : Addr} (h : busTarget a ≠ .unmapped) : targetAddr (busTarget a) = a := by
  by_cases h4 : a.toNat % 4 = 0
  · rw [busTarget_aligned h4] at h ⊢
    apply BitVec.eq_of_toNat_eq
    rw [targetAddr_toNat, targetWord_wordTarget h]
    omega
  · exact absurd (busTarget_misaligned h4) h

/-- An address in an unmapped range, or misaligned, selects nothing (20_memory.md R48). -/
theorem busTarget_unmapped {a : Addr} (h : a.toNat % 4 ≠ 0 ∨ unmappedRange a.toNat) : busTarget a = .unmapped := by
  by_contra hn
  have e := targetAddr_busTarget hn
  have e2 := targetAddr_toNat (busTarget a)
  rw [e] at e2
  rcases h with h | h
  · omega
  · unfold unmappedRange at h
    cases ht : busTarget a <;> rw [ht] at e2 <;> simp only [targetWord] at e2 <;> first
      | exact hn ht
      | omega

/-! ### Accesses -/

theorem hostWrite_idle {s : State} (a : Addr) (w : Word) (h : s.pend.valid = false) :
    hostWrite a w s = { writeTarget (busTarget a) w s with bus := .acked } := by simp [hostWrite, h]

theorem hostWrite_busy {s : State} (a : Addr) (w : Word) (h : s.pend.valid = true) :
    hostWrite a w s =
      { s with
        bus := .acked
        errs := if s.errs.err = .none then { err := .busyWrite, cmd := 0, info := a.setWidth 32 } else s.errs } := by
  simp [hostWrite, h, raiseBusyWrite, recordError_eq]

theorem hostWrite_target {s : State} {t : BusTarget} (w : Word) (ht : t ≠ .unmapped) (h : s.pend.valid = false) :
    hostWrite (targetAddr t) w s = { writeTarget t w s with bus := .acked } := by
  rw [hostWrite_idle _ _ h, busTarget_targetAddr ht]

theorem readData_idle {s : State} (a : Addr) (h : s.pend.valid = false) :
    readData s a = readTarget s (busTarget a) := by simp [readData, h]

/-- A host read of an entry of SYMS answers what its last write left (20_memory.md R58). -/
theorem readTarget_syms_kept {s t : State} {k : Byte} (hk : k.toNat < s.canon.symsWritten.val)
    (hw : s.canon.symsWritten.val ≤ t.canon.symsWritten.val)
    (h : symGet t.canon.syms k = symGet s.canon.syms k) : readTarget t (.syms k) = readTarget s (.syms k) := by
  simp only [readTarget, symsSeen, if_pos hk, if_pos (Nat.lt_of_lt_of_le hk hw), h]

/-- Bits 31:25 of a word written to a buffer position do not matter (20_memory.md R49). -/
theorem clampPosition_low {w w' : Word} (cap : Nat) (h : w.toNat % 2 ^ 25 = w'.toNat % 2 ^ 25) :
    clampPosition cap w = clampPosition cap w' := by rw [clampPosition, clampPosition, h]

/-- A clamped position is within its buffer (10_state.md R24 to R26). -/
theorem clampPosition_le (cap : Nat) (w : Word) : (clampPosition cap w).toNat ≤ cap := by
  rw [clampPosition, BitVec.toNat_ofNat]
  exact Nat.le_trans (Nat.mod_le _ _) (Nat.min_le_right _ _)

end Sys2Proof.Machine
end

