-- ==== Sys2Proof/Laws/Exec.lean ====
section
/-! SUPPORT. For each command: everything it can do, as a completion or a raise. -/

namespace Sys2Proof.Machine

theorem next_inj {s t : State} (h : (Host.Outcome.next s : Host.Outcome State Fault Refusal) = .next t) : s = t :=
  Host.Outcome.next.inj h

/-! ### The cases of each command -/

theorem execNop_cases {s t : State} (h : exec .nop s = .next t) : t = s := (next_inj h).symm

theorem execClear_cases {s t : State} (h : exec .clear s = .next t) : t = clearedState s := (next_inj h).symm

theorem countSymbol_error {sym : Byte} {freq : Table Dword 256} {r : Raise} (h : countSymbol sym freq = .error r) :
    r = { kind := .overflow, info := counterInfo sym } ∧ symGet freq sym = maxCount := by
  unfold countSymbol at h
  split at h
  · next hc => cases h; exact ⟨rfl, hc⟩
  · cases h

theorem countSymbol_eq_ok {sym : Byte} {freq freq' : Table Dword 256} (h : countSymbol sym freq = .ok freq') :
    symGet freq sym ≠ maxCount ∧ freq' = symSet freq sym (symGet freq sym + 1) := by
  unfold countSymbol at h
  split at h
  · cases h
  · next hc => cases h; exact ⟨hc, rfl⟩

theorem countSymbols_error : ∀ {bytes : List Byte} {freq : Table Dword 256} {r : Raise},
    countSymbols bytes freq = .error r → r.kind = .overflow
  | [], _, _, h => by cases h
  | b :: bs, freq, r, h => by
    rcases bind_eq_error h with h | ⟨f, -, h⟩
    · rw [(countSymbol_error h).1]
    · exact countSymbols_error h

theorem execFreqInc_cases {sym : Byte} {s t : State} (h : exec (.freqInc sym) s = .next t) :
    (∃ freq, countSymbol sym s.freq = .ok freq ∧ t = withFreq s freq) ∨
      ∃ r, countSymbol sym s.freq = .error r ∧ t = raisedState (spoilFreqInc sym) s r := by
  rcases conclude_cases (next_inj h) with h | ⟨r, h, ht⟩
  · obtain ⟨freq, h1, h2⟩ := bind_eq_ok h
    cases h2; exact .inl ⟨freq, h1, rfl⟩
  · rcases bind_eq_error h with h | ⟨freq, h1, h2⟩
    · exact .inr ⟨r, h, ht⟩
    · cases h2

theorem execFreqScan_cases {s t : State} (h : exec .freqScan s = .next t) :
    (∃ freq, countSymbols (inputBytes s.input) s.freq = .ok freq ∧ t = withFreq s freq) ∨
      ∃ r, countSymbols (inputBytes s.input) s.freq = .error r ∧ t = raisedState spoilFreqScan s r := by
  rcases conclude_cases (next_inj h) with h | ⟨r, h, ht⟩
  · obtain ⟨freq, h1, h2⟩ := bind_eq_ok h
    cases h2; exact .inl ⟨freq, h1, rfl⟩
  · rcases bind_eq_error h with h | ⟨freq, h1, h2⟩
    · exact .inr ⟨r, h, ht⟩
    · cases h2

theorem buildTree_error {freq : Table Dword 256} {old : Table Node 511} {r : Raise}
    (h : buildTree freq old = .error r) : r.kind = .emptyInput ∨ r.kind = .overflow := by
  rcases bind_eq_error h with h | ⟨u, -, h⟩
  · rw [(require_eq_error h).2]; exact .inl rfl
  · rcases bind_eq_error h with h | ⟨u, -, h⟩
    · rw [(require_eq_error h).2]; exact .inr rfl
    · cases h

theorem buildTree_eq_ok {freq : Table Dword 256} {old : Table Node 511} {tree : Tree}
    (h : buildTree freq old = .ok tree) :
    (countedSymbols freq).length ≠ 0 ∧ totalWeight freq < 2 ^ 64 ∧
      tree = treeOfLeaves (sortLeaves (countedSymbols freq)) old := by
  obtain ⟨u, h1, h⟩ := bind_eq_ok h
  obtain ⟨u', h2, h⟩ := bind_eq_ok h
  cases h
  exact ⟨by simpa using require_eq_ok h1, by simpa using require_eq_ok h2, rfl⟩

theorem execBuild_cases {s t : State} (h : exec .build s = .next t) :
    (∃ tree, buildTree s.freq s.tree.node = .ok tree ∧
      t = { s with tree := tree, flags := setTreeFlag s.flags }) ∨
      ∃ r, buildTree s.freq s.tree.node = .error r ∧
        t = raisedState (spoilBuild (countedSymbols s.freq).length) s r := by
  rcases conclude_cases (next_inj h) with h | ⟨r, h, ht⟩
  · obtain ⟨tree, h1, h2⟩ := bind_eq_ok h
    cases h2; exact .inl ⟨tree, h1, rfl⟩
  · rcases bind_eq_error h with h | ⟨tree, h1, h2⟩
    · exact .inr ⟨r, h, ht⟩
    · cases h2

theorem mapError_eq_ok {α : Type} {m : Run α} {x : α} (h : m.mapError Stop.raising = .ok x) : m = .ok x := by
  cases m with
  | ok y => cases h; rfl
  | error r => cases h

theorem mapError_eq_error {α : Type} {m : Run α} {e : Stop} (h : m.mapError Stop.raising = .error e) :
    ∃ r, m = .error r ∧ e = .raising r := by
  cases m with
  | ok y => cases h
  | error r => cases h; exact ⟨r, rfl, rfl⟩

theorem walkStack_error {maxLen : Nat} {node : Table Node 511} :
    ∀ {visits : Nat} {stack : List (NodeRef × Nat)} {len : Table Byte 256} {r : Raise},
      walkStack maxLen node visits stack len = .error (.raising r) → r.kind = .unrepresentableCode
  | _, [], _, _, h => by simp [walkStack] at h
  | 0, _ :: _, _, _, h => by simp [walkStack] at h
  | _ + 1, (none, _) :: _, _, _, h => by simp [walkStack] at h
  | visits + 1, (some t, d) :: stack, len, r, h => by
    simp only [walkStack] at h
    split at h
    · exact walkStack_error h
    · split at h
      · cases h; rfl
      · exact walkStack_error h

theorem treeLengths_error {maxLen : Nat} {tree : Tree} {r : Raise}
    (h : treeLengths maxLen tree = .error (.raising r)) : r.kind = .unrepresentableCode := by
  unfold treeLengths at h
  split at h
  · cases h
  · simp only at h
    split at h
    · exact walkStack_error h
    · cases h

theorem execWalk_cases {s t : State} (h : exec .walk s = .next t) :
    (s.flags.tree = true ∧ ∃ len, treeLengths s.cfg.maxCodeLen s.tree = .ok len ∧ t = withLengths s len) ∨
      (s.flags.tree = false ∧ t = raisedState spoilWalk s { kind := .sequence, info := 1 }) ∨
      ∃ r, s.flags.tree = true ∧ treeLengths s.cfg.maxCodeLen s.tree = .error (.raising r) ∧
        t = raisedState spoilWalk s r := by
  rcases concludeOrFault_cases h with h | ⟨r, h, ht⟩
  · obtain ⟨u, h1, h⟩ := bind_eq_ok h
    obtain ⟨len, h2, h⟩ := bind_eq_ok h
    cases h
    exact .inl ⟨require_eq_ok (mapError_eq_ok h1), len, h2, rfl⟩
  · rcases bind_eq_error h with h | ⟨u, h1, h⟩
    · obtain ⟨r', h1, h2⟩ := mapError_eq_error h
      cases h2
      obtain ⟨hf, rfl⟩ := require_eq_error h1
      exact .inr (.inl ⟨hf, ht⟩)
    · rcases bind_eq_error h with h | ⟨len, h2, h⟩
      · exact .inr (.inr ⟨r, require_eq_ok (mapError_eq_ok h1), h, ht⟩)
      · cases h

theorem requireRepresentable_error {maxLen : Nat} : ∀ {ps : List (Byte × Byte)} {r : Raise},
    requireRepresentable maxLen ps = .error r → r.kind = .unrepresentableCode
  | [], _, h => by cases h
  | p :: ps, r, h => by
    unfold requireRepresentable at h
    split at h
    · cases h; rfl
    · exact requireRepresentable_error h

theorem validateLengths_error {lengths : List Nat} {m : Nat} {r : Raise} (h : validateLengths lengths m = .error r) :
    r.kind = .badLengths := by
  unfold validateLengths at h
  split at h
  · rw [(require_eq_error h).2]
  · rcases bind_eq_error h with h | ⟨u, -, h⟩
    · rw [(require_eq_error h).2]
    · rw [(require_eq_error h).2]

theorem buildCanon_error {maxLen : Nat} {len : Table Byte 256} {old : Canon} {r : Raise}
    (h : buildCanon maxLen len old = .error r) :
    r.kind = .emptyInput ∨ r.kind = .unrepresentableCode ∨ r.kind = .badLengths := by
  rcases bind_eq_error h with h | ⟨u, -, h⟩
  · rw [(require_eq_error h).2]; exact .inl rfl
  · rcases bind_eq_error h with h | ⟨u, -, h⟩
    · exact .inr (.inl (requireRepresentable_error h))
    · rcases bind_eq_error h with h | ⟨u, -, h⟩
      · exact .inr (.inr (validateLengths_error h))
      · cases h

/-- An accepted length table (41_canonical_code_generator.md R88, R91), as CANON tests it. -/
structure Accepted (maxLen : Nat) (len : Table Byte 256) : Prop where
  nonempty : (codedSymbols len).length ≠ 0
  representable : requireRepresentable maxLen (symEntries len) = .ok ()
  valid : validateLengths ((codedSymbols len).map fun p => p.2.toNat) (maxLength len) = .ok ()

/-- The canonical table of a length table, over the old contents. -/
def canonOf (len : Table Byte 256) (old : Canon) : Canon :=
  canonTable len (canonicalOrder len (maxLength len)) (histogramOf len) (BitVec.ofNat 8 (maxLength len)) old

theorem buildCanon_eq_ok {maxLen : Nat} {len : Table Byte 256} {old c : Canon} :
    buildCanon maxLen len old = .ok c ↔ Accepted maxLen len ∧ c = canonOf len old := by
  constructor
  · intro h
    obtain ⟨u, h1, h⟩ := bind_eq_ok h
    obtain ⟨u', h2, h⟩ := bind_eq_ok h
    obtain ⟨u'', h3, h⟩ := bind_eq_ok h
    cases h
    exact ⟨⟨by simpa using require_eq_ok h1, h2, h3⟩, rfl⟩
  · rintro ⟨⟨h1, h2, h3⟩, rfl⟩
    have h1' : ((codedSymbols len).length != 0) = true := bne_iff_ne.mpr h1
    simp only [buildCanon, h1', require_true, h2, h3, run_ok_bind, canonOf]

theorem execCanon_cases {s t : State} (h : exec .canon s = .next t) :
    (∃ c, buildCanon s.cfg.maxCodeLen s.len s.canon = .ok c ∧
      t = { s with canon := c, flags := setCodesFlag s.flags }) ∨
      ∃ r, buildCanon s.cfg.maxCodeLen s.len s.canon = .error r ∧
        t = raisedState (spoilCanon (codedSymbols s.len).length) s r := by
  rcases conclude_cases (next_inj h) with h | ⟨r, h, ht⟩
  · obtain ⟨c, h1, h2⟩ := bind_eq_ok h
    cases h2; exact .inl ⟨c, h1, rfl⟩
  · rcases bind_eq_error h with h | ⟨c, h1, h2⟩
    · exact .inr ⟨r, h, ht⟩
    · cases h2

/-! ### Output commands -/

/-- What an output command can do: it moves the writer, or raises. -/
def WriterCases (spoil : Nat → State → State) (s t : State) (kinds : Raise → Prop) (run : Run Writer) : Prop :=
  (∃ w, run = .ok w ∧ t = withWriter s w) ∨ ∃ r, run = .error r ∧ kinds r ∧ t = raisedState spoil s r

theorem execPutBits_cases {n : Byte} {s t : State} (h : exec (.putBits n) s = .next t) :
    WriterCases spoilBitOutput s t (fun r => r.kind = .overflow)
      (writeBits s.cfg.obufBytes s.arg n.toNat s.writer) := by
  rcases conclude_cases (next_inj h) with h | ⟨r, h, ht⟩
  · obtain ⟨w, h1, h2⟩ := bind_eq_ok h
    cases h2; exact .inl ⟨w, h1, rfl⟩
  · rcases bind_eq_error h with h | ⟨w, h1, h2⟩
    · exact .inr ⟨r, h, by rw [writeBits_error h], ht⟩
    · cases h2

/-- The Requires checks and the body of PUT_BYTE. -/
def putByteRun (b : Byte) (s : State) : Run Writer := do
  requireWriterAligned s
  emitByte s.cfg.obufBytes b s.writer

theorem execPutByte_cases {b : Byte} {s t : State} (h : exec (.putByte b) s = .next t) :
    WriterCases spoilPutByte s t (fun r => r.kind = .sequence ∨ r.kind = .overflow) (putByteRun b s) := by
  rcases conclude_cases (next_inj h) with h | ⟨r, h, ht⟩
  · obtain ⟨u, h0, h⟩ := bind_eq_ok h
    obtain ⟨w, h1, h2⟩ := bind_eq_ok h
    cases h2
    refine .inl ⟨w, ?_, rfl⟩
    simp only [putByteRun, h0]; exact h1
  · rcases bind_eq_error h with h | ⟨u, h0, h⟩
    · refine .inr ⟨r, ?_, by rw [(require_eq_error h).2]; exact .inl rfl, ht⟩
      simp [putByteRun, h]
    · rcases bind_eq_error h with h | ⟨w, h1, h2⟩
      · refine .inr ⟨r, ?_, by rw [(emitByte_eq_error h).2]; exact .inr rfl, ht⟩
        simp only [putByteRun, h0]; exact h
      · cases h2

theorem execFlush_cases {s t : State} (h : exec .flush s = .next t) :
    WriterCases spoilFlush s t (fun r => r.kind = .overflow) (flushWriter s.cfg.obufBytes s.writer) := by
  rcases conclude_cases (next_inj h) with h | ⟨r, h, ht⟩
  · obtain ⟨w, h1, h2⟩ := bind_eq_ok h
    cases h2; exact .inl ⟨w, h1, rfl⟩
  · rcases bind_eq_error h with h | ⟨w, h1, h2⟩
    · exact .inr ⟨r, h, by rw [flushWriter_error h], ht⟩
    · cases h2

theorem writeCode_error {cap : Nat} {len : Table Byte 256} {code : Table Dword 256} {sym : Byte} {w : Writer}
    {r : Raise} (h : writeCode cap len code sym w = .error r) : r.kind = .noCode ∨ r.kind = .overflow := by
  unfold writeCode at h
  split at h
  · cases h; exact .inl rfl
  · rw [writeBits_error h]; exact .inr rfl

theorem writeCodes_error {cap : Nat} {len : Table Byte 256} {code : Table Dword 256} :
    ∀ {syms : List Byte} {w : Writer} {r : Raise},
      writeCodes cap len code syms w = .error r → r.kind = .noCode ∨ r.kind = .overflow
  | [], _, _, h => by cases h
  | sym :: syms, w, r, h => by
    rcases bind_eq_error h with h | ⟨w', -, h⟩
    · exact writeCode_error h
    · exact writeCodes_error h

/-- The Requires check and the body of ENC_SYM. -/
def encSymRun (sym : Byte) (s : State) : Run Writer := do
  requireCodes s
  writeCode s.cfg.obufBytes s.len s.canon.code sym s.writer

theorem execEncSym_cases {sym : Byte} {s t : State} (h : exec (.encSym sym) s = .next t) :
    WriterCases spoilBitOutput s t (fun r => r.kind = .sequence ∨ r.kind = .noCode ∨ r.kind = .overflow)
      (encSymRun sym s) := by
  rcases conclude_cases (next_inj h) with h | ⟨r, h, ht⟩
  · obtain ⟨u, h0, h⟩ := bind_eq_ok h
    obtain ⟨w, h1, h2⟩ := bind_eq_ok h
    cases h2
    refine .inl ⟨w, ?_, rfl⟩
    simp only [encSymRun, h0]; exact h1
  · rcases bind_eq_error h with h | ⟨u, h0, h⟩
    · refine .inr ⟨r, ?_, by rw [(require_eq_error h).2]; exact .inl rfl, ht⟩
      simp [encSymRun, h]
    · rcases bind_eq_error h with h | ⟨w, h1, h2⟩
      · refine .inr ⟨r, ?_, .inr (writeCode_error h), ht⟩
        simp only [encSymRun, h0]; exact h
      · cases h2

/-- The Requires check and the body of ENC_SCAN. -/
def encScanRun (s : State) : Run Writer := do
  requireCodes s
  writeCodes s.cfg.obufBytes s.len s.canon.code (inputBytes s.input) s.writer

theorem execEncScan_cases {s t : State} (h : exec .encScan s = .next t) :
    WriterCases spoilBitOutput s t (fun r => r.kind = .sequence ∨ r.kind = .noCode ∨ r.kind = .overflow)
      (encScanRun s) := by
  rcases conclude_cases (next_inj h) with h | ⟨r, h, ht⟩
  · obtain ⟨u, h0, h⟩ := bind_eq_ok h
    obtain ⟨w, h1, h2⟩ := bind_eq_ok h
    cases h2
    refine .inl ⟨w, ?_, rfl⟩
    simp only [encScanRun, h0]; exact h1
  · rcases bind_eq_error h with h | ⟨u, h0, h⟩
    · refine .inr ⟨r, ?_, by rw [(require_eq_error h).2]; exact .inl rfl, ht⟩
      simp [encScanRun, h]
    · rcases bind_eq_error h with h | ⟨w, h1, h2⟩
      · refine .inr ⟨r, ?_, .inr (writeCodes_error h), ht⟩
        simp only [encScanRun, h0]; exact h
      · cases h2

/-- The Requires checks and the body of HDR_WRITE. -/
def hdrWriteRun (s : State) : Run Writer := do
  requireCodes s
  requireWriterAligned s
  emitBytes s.cfg.obufBytes (headerBytes s.canon s.plen) s.writer

theorem execHdrWrite_cases {s t : State} (h : exec .hdrWrite s = .next t) :
    WriterCases spoilHdrWrite s t (fun r => r.kind = .sequence ∨ r.kind = .overflow) (hdrWriteRun s) := by
  rcases conclude_cases (next_inj h) with h | ⟨r, h, ht⟩
  · obtain ⟨u, h0, h⟩ := bind_eq_ok h
    obtain ⟨u', h0', h⟩ := bind_eq_ok h
    obtain ⟨w, h1, h2⟩ := bind_eq_ok h
    cases h2
    refine .inl ⟨w, ?_, rfl⟩
    simp only [hdrWriteRun, h0, run_ok_bind, h0']; exact h1
  · rcases bind_eq_error h with h | ⟨u, h0, h⟩
    · refine .inr ⟨r, ?_, by rw [(require_eq_error h).2]; exact .inl rfl, ht⟩
      simp [hdrWriteRun, h]
    · rcases bind_eq_error h with h | ⟨u', h0', h⟩
      · refine .inr ⟨r, ?_, by rw [(require_eq_error h).2]; exact .inl rfl, ht⟩
        simp [hdrWriteRun, h0, h]
      · rcases bind_eq_error h with h | ⟨w, h1, h2⟩
        · refine .inr ⟨r, ?_, by rw [emitBytes_error h]; exact .inr rfl, ht⟩
          simp only [hdrWriteRun, h0, run_ok_bind, h0']; exact h
        · cases h2

/-! ### Input commands -/

theorem execGetBits_cases {n : Byte} {s t : State} (h : exec (.getBits n) s = .next t) :
    (∃ v r, readBits s.input n.toNat s.reader = .ok (v, r) ∧ t = withRead s (BitVec.ofNat 64 v) r) ∨
      ∃ e, readBits s.input n.toNat s.reader = .error e ∧ e = { kind := .malformedContainer, info := 2 } ∧
        t = raisedState spoilGetBits s e := by
  rcases conclude_cases (next_inj h) with h | ⟨e, h, ht⟩
  · obtain ⟨⟨v, r⟩, h1, h2⟩ := bind_eq_ok h
    cases h2; exact .inl ⟨v, r, h1, rfl⟩
  · rcases bind_eq_error h with h | ⟨⟨v, r⟩, h1, h2⟩
    · exact .inr ⟨e, h, readBitsInto_error h, ht⟩
    · cases h2

theorem execGetByte_cases {s t : State} (h : exec .getByte s = .next t) :
    (s.reader.left = 0 ∧ ∃ v r, readRawByte s.input s.reader = .ok (v, r) ∧ t = withRead s (v.setWidth 64) r) ∨
      (s.reader.left ≠ 0 ∧ t = raisedState spoilGetByte s { kind := .sequence, info := 5 }) ∨
      (s.reader.left = 0 ∧ readRawByte s.input s.reader = .error { kind := .malformedContainer, info := 2 } ∧
        t = raisedState spoilGetByte s { kind := .malformedContainer, info := 2 }) := by
  rcases conclude_cases (next_inj h) with h | ⟨e, h, ht⟩
  · obtain ⟨u, h0, h⟩ := bind_eq_ok h
    obtain ⟨⟨v, r⟩, h1, h2⟩ := bind_eq_ok h
    cases h2; exact .inl ⟨by simpa using require_eq_ok h0, v, r, h1, rfl⟩
  · rcases bind_eq_error h with h | ⟨u, h0, h⟩
    · obtain ⟨hl, rfl⟩ := require_eq_error h
      exact .inr (.inl ⟨by simpa using hl, ht⟩)
    · rcases bind_eq_error h with h | ⟨⟨v, r⟩, h1, h2⟩
      · have he := readRawByte_error h
        subst he
        exact .inr (.inr ⟨by simpa using require_eq_ok h0, h, ht⟩)
      · cases h2

/-! ### The decoder's commands -/

theorem readSymbols_error {inp : Input} {hist : List Nat} : ∀ {k i : Nat} {seen : List Byte} {r : Reader} {e : Raise},
    readSymbols inp hist k i seen r = .error e → e.kind = .malformedContainer
  | 0, _, _, _, _, h => by cases h
  | k + 1, i, seen, r, e, h => by
    rcases bind_eq_error h with h | ⟨⟨v, r'⟩, -, h⟩
    · rw [readRawByte_error h]
    · rcases bind_eq_error h with h | ⟨u, -, h⟩
      · rw [(require_eq_error h).2]
      · exact readSymbols_error h

theorem checkHistogram_error {maxLen : Nat} {m : Byte} {hist : List Nat} {e : Raise}
    (h : checkHistogram maxLen m hist = .error e) :
    e.kind = .malformedContainer ∨ e.kind = .unrepresentableCode := by
  rcases bind_eq_error h with h | ⟨u, -, h⟩
  · rw [(require_eq_error h).2]; exact .inl rfl
  · rcases bind_eq_error h with h | ⟨u, -, h⟩
    · rw [(require_eq_error h).2]; exact .inl rfl
    · rcases bind_eq_error h with h | ⟨u, -, h⟩
      · rw [(require_eq_error h).2]; exact .inr rfl
      · split at h
        · rw [(require_eq_error h).2]; exact .inl rfl
        · rw [(require_eq_error h).2]; exact .inl rfl

theorem readHistogram_error {inp : Input} {r : Reader} {e : Raise} (h : readHistogram inp r = .error e) :
    e.kind = .malformedContainer := by
  rcases bind_eq_error h with h | ⟨⟨m, r1⟩, -, h⟩
  · rw [readRawByte_error h]
  · rcases bind_eq_error h with h | ⟨u, -, h⟩
    · rw [(require_eq_error h).2]
    · rcases bind_eq_error h with h | ⟨⟨raw, r2⟩, -, h⟩
      · rw [readRawBytes_error h]
      · cases h

theorem readHeader_error {maxLen : Nat} {inp : Input} {r : Reader} {e : Raise}
    (h : readHeader maxLen inp r = .error e) :
    e.kind = .malformedContainer ∨ e.kind = .unrepresentableCode := by
  rcases bind_eq_error h with h | ⟨⟨m, raw, r2⟩, -, h⟩
  · exact .inl (readHistogram_error h)
  · rcases bind_eq_error h with h | ⟨u, -, h⟩
    · exact checkHistogram_error h
    · rcases bind_eq_error h with h | ⟨⟨syms, r3⟩, -, h⟩
      · exact .inl (readSymbols_error h)
      · rcases bind_eq_error h with h | ⟨⟨bytes, r4⟩, -, h⟩
        · rw [readRawBytes_error h]; exact .inl rfl
        · cases h

theorem execHdrRead_cases {s t : State} (h : exec .hdrRead s = .next t) :
    (s.reader.left = 0 ∧ ∃ hd r, readHeader s.cfg.maxCodeLen s.input s.reader = .ok (hd, r) ∧
      t = commitHeader s hd r) ∨
      (s.reader.left ≠ 0 ∧ t = raisedState (spoilHdrRead (hdrReadSymbols s)) s { kind := .sequence, info := 5 }) ∨
      ∃ e, s.reader.left = 0 ∧ readHeader s.cfg.maxCodeLen s.input s.reader = .error e ∧
        t = raisedState (spoilHdrRead (hdrReadSymbols s)) s e := by
  rcases conclude_cases (next_inj h) with h | ⟨e, h, ht⟩
  · obtain ⟨u, h0, h⟩ := bind_eq_ok h
    obtain ⟨⟨hd, r⟩, h1, h2⟩ := bind_eq_ok h
    cases h2; exact .inl ⟨by simpa using require_eq_ok h0, hd, r, h1, rfl⟩
  · rcases bind_eq_error h with h | ⟨u, h0, h⟩
    · obtain ⟨hl, rfl⟩ := require_eq_error h
      exact .inr (.inl ⟨by simpa using hl, ht⟩)
    · rcases bind_eq_error h with h | ⟨⟨hd, r⟩, h1, h2⟩
      · exact .inr (.inr ⟨e, by simpa using require_eq_ok h0, h, ht⟩)
      · cases h2

theorem trieAllocate_error {t : NodeId} {b : Bool} {e : TrieEntry} {w : TrieWork} {x : Stop}
    (h : trieAllocate t b e w = .error x) : x = .broken .trieArenaFull := by
  unfold trieAllocate at h
  split at h
  · cases h
  · cases h; rfl

theorem trieDescend_error {code : Dword} : ∀ {j : Nat} {t : NodeId} {w : TrieWork} {r : Raise},
    trieDescend code j t w = .error (.raising r) → r = { kind := .malformedContainer, info := 8 }
  | 0, _, _, _, h => by cases h
  | j + 1, t, w, r, h => by
    unfold trieDescend at h
    simp only at h
    split at h
    · cases h; rfl
    · split at h
      · exact trieDescend_error h
      · rcases bind_eq_error h with h | ⟨x, -, h⟩
        · cases trieAllocate_error h
        · exact trieDescend_error h

theorem trieInsert_error {sym : Byte} {length : Nat} {code : Dword} {w : TrieWork} {r : Raise}
    (h : trieInsert sym length code w = .error (.raising r)) : r = { kind := .malformedContainer, info := 8 } := by
  rcases bind_eq_error h with h | ⟨⟨t, w1⟩, -, h⟩
  · exact trieDescend_error h
  · simp only at h
    split at h
    · cases h; rfl
    · rcases bind_eq_error h with h | ⟨x, -, h⟩
      · cases trieAllocate_error h
      · cases h

theorem trieInsertAll_error {len : Table Byte 256} {code : Table Dword 256} :
    ∀ {syms : List Byte} {w : TrieWork} {r : Raise},
      trieInsertAll len code syms w = .error (.raising r) → r = { kind := .malformedContainer, info := 8 }
  | [], _, _, h => by cases h
  | s :: ss, w, r, h => by
    rcases bind_eq_error h with h | ⟨w', -, h⟩
    · exact trieInsert_error h
    · exact trieInsertAll_error h

theorem buildTrie_error {len : Table Byte 256} {c : Canon} {old : Table TrieEntry 511} {r : Raise}
    (h : buildTrie len c old = .error (.raising r)) : r = { kind := .malformedContainer, info := 8 } := by
  rcases bind_eq_error h with h | ⟨w, -, h⟩
  · exact trieInsertAll_error h
  · cases h

theorem execTrieBuild_cases {s t : State} (h : exec .trieBuild s = .next t) :
    (s.flags.codes = true ∧ ∃ trie, buildTrie s.len s.canon s.trie.entry = .ok trie ∧
      t = { s with trie := trie, flags := setTrieFlag s.flags }) ∨
      (s.flags.codes = false ∧ t = raisedState spoilTrieBuild s { kind := .sequence, info := 2 }) ∨
      ∃ r, s.flags.codes = true ∧ buildTrie s.len s.canon s.trie.entry = .error (.raising r) ∧
        t = raisedState spoilTrieBuild s r := by
  rcases concludeOrFault_cases h with h | ⟨r, h, ht⟩
  · obtain ⟨u, h1, h⟩ := bind_eq_ok h
    obtain ⟨trie, h2, h⟩ := bind_eq_ok h
    cases h
    exact .inl ⟨require_eq_ok (mapError_eq_ok h1), trie, h2, rfl⟩
  · rcases bind_eq_error h with h | ⟨u, h1, h⟩
    · obtain ⟨r', h1, h2⟩ := mapError_eq_error h
      cases h2
      obtain ⟨hf, rfl⟩ := require_eq_error h1
      exact .inr (.inl ⟨hf, ht⟩)
    · rcases bind_eq_error h with h | ⟨trie, h2, h⟩
      · exact .inr (.inr ⟨r, require_eq_ok (mapError_eq_ok h1), h, ht⟩)
      · cases h

theorem walkTrie_error {inp : Input} {entry : Table TrieEntry 511} :
    ∀ {bits : Nat} {t : NodeId} {r : Reader} {e : Raise},
      walkTrie inp entry bits t r = .error e → e.kind = .malformedContainer
  | 0, _, _, _, h => by cases h; rfl
  | bits + 1, t, r, e, h => by
    rcases bind_eq_error h with h | ⟨⟨b, r'⟩, -, h⟩
    · rw [readBit_error h]
    · simp only at h
      split at h
      · cases h; rfl
      · split at h
        · cases h
        · exact walkTrie_error h

theorem decodeOne_error {cap : Nat} {inp : Input} {entry : Table TrieEntry 511} {w : DecodeWork} {e : Raise}
    (h : decodeOne cap inp entry w = .error e) : e.kind = .malformedContainer ∨ e.kind = .overflow := by
  rcases bind_eq_error h with h | ⟨⟨x, r⟩, -, h⟩
  · exact .inl (walkTrie_error h)
  · rcases bind_eq_error h with h | ⟨w', -, h⟩
    · rw [(emitByte_eq_error h).2]; exact .inr rfl
    · cases h

theorem decodeTimes_error {cap : Nat} {inp : Input} {entry : Table TrieEntry 511} :
    ∀ {k : Nat} {w : DecodeWork} {e : Raise},
      decodeTimes cap inp entry k w = .error e → e.kind = .malformedContainer ∨ e.kind = .overflow
  | 0, _, _, h => by cases h
  | k + 1, w, e, h => by
    rcases bind_eq_error h with h | ⟨w', -, h⟩
    · exact decodeOne_error h
    · exact decodeTimes_error h

/-- The Requires checks and the body of DEC_SYM. -/
def decSymRun (s : State) : Run DecodeWork := do
  requireTrie s
  requireWriterAligned s
  decodeOne s.cfg.obufBytes s.input s.trie.entry (decodeStart s)

/-- The Requires checks and the body of DECODE. -/
def decodeRun (s : State) : Run DecodeWork := do
  requireTrie s
  requireWriterAligned s
  decodeTimes s.cfg.obufBytes s.input s.trie.entry s.plen.toNat (decodeStart s)

/-- What DEC_SYM and DECODE can do. -/
def DecodeCases (spoil : Nat → State → State) (s t : State) (run : Run DecodeWork) : Prop :=
  (∃ w, run = .ok w ∧ t = withDecoded s w) ∨
    ∃ r, run = .error r ∧ (r.kind = .sequence ∨ r.kind = .malformedContainer ∨ r.kind = .overflow) ∧
      t = raisedState spoil s r

theorem execDecSym_cases {s t : State} (h : exec .decSym s = .next t) :
    DecodeCases spoilDecSym s t (decSymRun s) := by
  rcases conclude_cases (next_inj h) with h | ⟨r, h, ht⟩
  · obtain ⟨u, h0, h⟩ := bind_eq_ok h
    obtain ⟨u', h0', h⟩ := bind_eq_ok h
    obtain ⟨w, h1, h2⟩ := bind_eq_ok h
    cases h2
    refine .inl ⟨w, ?_, rfl⟩
    simp only [decSymRun, h0, run_ok_bind, h0']; exact h1
  · rcases bind_eq_error h with h | ⟨u, h0, h⟩
    · refine .inr ⟨r, ?_, by rw [(require_eq_error h).2]; exact .inl rfl, ht⟩
      simp [decSymRun, h]
    · rcases bind_eq_error h with h | ⟨u', h0', h⟩
      · refine .inr ⟨r, ?_, by rw [(require_eq_error h).2]; exact .inl rfl, ht⟩
        simp [decSymRun, h0, h]
      · rcases bind_eq_error h with h | ⟨w, h1, h2⟩
        · refine .inr ⟨r, ?_, .inr (decodeOne_error h), ht⟩
          simp only [decSymRun, h0, run_ok_bind, h0']; exact h
        · cases h2

theorem execDecode_cases {s t : State} (h : exec .decode s = .next t) :
    DecodeCases spoilDecode s t (decodeRun s) := by
  rcases conclude_cases (next_inj h) with h | ⟨r, h, ht⟩
  · obtain ⟨u, h0, h⟩ := bind_eq_ok h
    obtain ⟨u', h0', h⟩ := bind_eq_ok h
    obtain ⟨w, h1, h2⟩ := bind_eq_ok h
    cases h2
    refine .inl ⟨w, ?_, rfl⟩
    simp only [decodeRun, h0, run_ok_bind, h0']; exact h1
  · rcases bind_eq_error h with h | ⟨u, h0, h⟩
    · refine .inr ⟨r, ?_, by rw [(require_eq_error h).2]; exact .inl rfl, ht⟩
      simp [decodeRun, h]
    · rcases bind_eq_error h with h | ⟨u', h0', h⟩
      · refine .inr ⟨r, ?_, by rw [(require_eq_error h).2]; exact .inl rfl, ht⟩
        simp [decodeRun, h0, h]
      · rcases bind_eq_error h with h | ⟨w, h1, h2⟩
        · refine .inr ⟨r, ?_, .inr (decodeTimes_error h), ht⟩
          simp only [decodeRun, h0, run_ok_bind, h0']; exact h
        · cases h2

end Sys2Proof.Machine
end

