-- ==== Sys2Proof/Laws/Table.lean ====
section
/-! SUPPORT. What the table operations equal, and read after write. -/

namespace Sys2Proof.Machine

variable {α : Type} {n : Nat}

theorem tblGet_eq_getElem (t : Table α n) (i : Fin n) : tblGet t i = t[i] := by simp [tblGet]

theorem tblSet_eq_set (t : Table α n) (i : Fin n) (x : α) : tblSet t i x = t.set i x := by
  apply Vector.toList_inj.mp
  simp [tblSet]
  rfl

/-- Two tables with the same entries are the same. -/
theorem tbl_ext {t u : Table α n} (h : ∀ i, tblGet t i = tblGet u i) : t = u := by
  apply Vector.ext
  intro i hi
  have := h ⟨i, hi⟩
  simpa [tblGet_eq_getElem] using this

@[simp] theorem tblGet_tblSet_self (t : Table α n) (i : Fin n) (x : α) : tblGet (tblSet t i x) i = x := by
  simp [tblGet_eq_getElem, tblSet_eq_set]

theorem tblGet_tblSet_ne (t : Table α n) {i j : Fin n} (x : α) (h : i ≠ j) :
    tblGet (tblSet t i x) j = tblGet t j := by
  have h' : (i : Nat) ≠ j := fun e => h (Fin.ext e)
  simp [tblGet_eq_getElem, tblSet_eq_set, Vector.getElem_set_ne, h']

theorem tblGet_tblSet (t : Table α n) (i j : Fin n) (x : α) :
    tblGet (tblSet t i x) j = if i = j then x else tblGet t j := by
  split
  · next h => subst h; simp
  · next h => exact tblGet_tblSet_ne t x h

/-- Writing the value an entry holds changes nothing. -/
theorem tblSet_tblGet_self (t : Table α n) (i : Fin n) : tblSet t i (tblGet t i) = t := by
  apply tbl_ext
  intro j
  rw [tblGet_tblSet]
  split
  · next h => rw [h]
  · rfl

@[simp] theorem tblGet_tblOf (n : Nat) (f : Nat → α) (i : Fin n) : tblGet (tblOf n f) i = f i.val := by
  simp [tblGet, tblOf]
  rfl

@[simp] theorem byteIndex_val (s : Byte) : (byteIndex s).val = s.toNat := rfl

theorem byteIndex_inj {s s' : Byte} : byteIndex s = byteIndex s' ↔ s = s' := by
  constructor
  · intro h
    have : (byteIndex s).val = (byteIndex s').val := by rw [h]
    exact BitVec.eq_of_toNat_eq this
  · rintro rfl; rfl

@[simp] theorem symGet_symSet_self (t : Table α 256) (s : Byte) (x : α) : symGet (symSet t s x) s = x := by
  simp [symGet, symSet]

theorem symGet_symSet (t : Table α 256) (s s' : Byte) (x : α) :
    symGet (symSet t s x) s' = if s = s' then x else symGet t s' := by
  simp [symGet, symSet, tblGet_tblSet, byteIndex_inj]

theorem symGet_symSet_ne (t : Table α 256) {s s' : Byte} (x : α) (h : s ≠ s') :
    symGet (symSet t s x) s' = symGet t s' := by
  simp [symGet_symSet, h]

@[simp] theorem symGet_tblOf (f : Nat → α) (s : Byte) : symGet (tblOf 256 f) s = f s.toNat := by
  simp [symGet]

theorem sym_ext {t u : Table α 256} (h : ∀ s, symGet t s = symGet u s) : t = u := by
  apply tbl_ext
  intro i
  have := h (BitVec.ofNat 8 i.val)
  have hi : byteIndex (BitVec.ofNat 8 i.val) = i := by
    apply Fin.ext
    simp only [byteIndex_val, BitVec.toNat_ofNat]
    exact Nat.mod_eq_of_lt i.isLt
  rw [symGet, symGet, hi] at this
  exact this

@[simp] theorem mem_allSymbols (s : Byte) : s ∈ allSymbols := by
  simp only [allSymbols, List.mem_map, List.mem_range]
  exact ⟨s.toNat, s.isLt, by simp⟩

@[simp] theorem length_allSymbols : allSymbols.length = 256 := by simp [allSymbols]

theorem nodup_allSymbols : allSymbols.Nodup := by
  unfold allSymbols
  rw [List.nodup_map_iff_inj_on List.nodup_range]
  intro a ha b hb h
  have ha' : a < 256 := List.mem_range.mp ha
  have hb' : b < 256 := List.mem_range.mp hb
  have := congrArg BitVec.toNat h
  simp only [BitVec.toNat_ofNat] at this
  omega

/-- A table listed by symbol is the list of the symbols with their entries. -/
theorem symEntries_eq_map (t : Table α 256) : symEntries t = allSymbols.map fun s => (s, symGet t s) := by
  apply List.ext_getElem
  · simp [symEntries]
  · intro i h1 h2
    have hi : i < 256 := by simpa using h2
    have e : byteIndex (BitVec.ofNat 8 i) = ⟨i, hi⟩ := by
      apply Fin.ext
      simp only [byteIndex_val, BitVec.toNat_ofNat]
      exact Nat.mod_eq_of_lt hi
    have g : symGet t (BitVec.ofNat 8 i) = t[i] := by rw [symGet, e, tblGet_eq_getElem]; rfl
    simp [symEntries, allSymbols, g]

theorem mem_symEntries (t : Table α 256) (p : Byte × α) : p ∈ symEntries t ↔ symGet t p.1 = p.2 := by
  rw [symEntries_eq_map, List.mem_map]
  constructor
  · rintro ⟨s, -, rfl⟩; rfl
  · intro h; exact ⟨p.1, by simp, by rw [h]⟩

/-- What a run of writes leaves at each index. -/
theorem tblGet_tblSetFrom (xs : List α) : ∀ (i : Nat) (t : Table α n) (j : Fin n),
    tblGet (tblSetFrom i xs t) j = if h : i ≤ j.val ∧ j.val - i < xs.length then xs[j.val - i]'h.2 else tblGet t j := by
  induction xs with
  | nil => intro i t j; simp [tblSetFrom]
  | cons x xs ih =>
    intro i t j
    unfold tblSetFrom
    split
    · next hi =>
      rw [ih, tblGet_tblSet]
      rcases Nat.lt_trichotomy j.val i with hj | hj | hj
      · have h1 : ¬ (i + 1 ≤ j.val ∧ j.val - (i + 1) < xs.length) := by omega
        have h2 : ¬ (i ≤ j.val ∧ j.val - i < (x :: xs).length) := by omega
        have h3 : (⟨i, hi⟩ : Fin n) ≠ j := fun e => by have := congrArg Fin.val e; simp at this; omega
        rw [dif_neg h1, dif_neg h2, if_neg h3]
      · have h1 : ¬ (i + 1 ≤ j.val ∧ j.val - (i + 1) < xs.length) := by omega
        have h3 : (⟨i, hi⟩ : Fin n) = j := Fin.ext hj.symm
        have h2 : i ≤ j.val ∧ j.val - i < (x :: xs).length := by simp; omega
        rw [dif_neg h1, dif_pos h2, if_pos h3]
        simp [hj]
      · have h3 : (⟨i, hi⟩ : Fin n) ≠ j := fun e => by have := congrArg Fin.val e; simp at this; omega
        rw [if_neg h3]
        by_cases hl : j.val - i < (x :: xs).length
        · have h1 : i + 1 ≤ j.val ∧ j.val - (i + 1) < xs.length := by simp at hl; omega
          have h2 : i ≤ j.val ∧ j.val - i < (x :: xs).length := ⟨by omega, hl⟩
          rw [dif_pos h1, dif_pos h2]
          have e : j.val - i = (j.val - (i + 1)) + 1 := by omega
          simp [e]
        · have h1 : ¬ (i + 1 ≤ j.val ∧ j.val - (i + 1) < xs.length) := by simp at hl; omega
          have h2 : ¬ (i ≤ j.val ∧ j.val - i < (x :: xs).length) := fun h => hl h.2
          rw [dif_neg h1, dif_neg h2]
    · next hi =>
      have h2 : ¬ (i ≤ j.val ∧ j.val - i < (x :: xs).length) := by
        intro h; have := j.isLt; omega
      rw [dif_neg h2]

end Sys2Proof.Machine
end

