-- ==== Sys2Proof/Laws/CodeGenerator.lean ====
section
/-! SUPPORT. The walk over a stored tree, and the canonical table of a set of lengths: its order, its codes, and that
it depends on nothing old. -/

namespace Sys2Proof.Machine

/-! ### WALK -/

/-- Each leaf of the trees on the stack, with its depth, in walk order (41_canonical_code_generator.md R86). -/
def stackDepths (stack : List (NodeRef × Nat × BinTree)) : List (Byte × Nat) :=
  stack.flatMap fun e => e.2.2.paths.map fun p => (p.1, e.2.1 + p.2.length)

/-- Write the depths of a list of leaves, or stop at the first that is too deep. -/
def writeDepths (maxLen : Nat) : List (Byte × Nat) → Table Byte 256 → Except Stop (Table Byte 256)
  | [], len => .ok len
  | p :: ps, len =>
    if p.2 > maxLen then .error (.raising { kind := .unrepresentableCode, info := lengthInfo p.2 p.1 })
    else writeDepths maxLen ps (symSet len p.1 (BitVec.ofNat 8 p.2))

theorem size_pos (t : BinTree) : 1 ≤ t.size := by cases t <;> simp [BinTree.size]; omega

/-- The walk visits the leaves of the stacked trees in order. -/
theorem walkStack_trees (maxLen : Nat) (node : Table Node 511) :
    ∀ (visits : Nat) (stack : List (NodeRef × Nat × BinTree)) (len : Table Byte 256),
      (∀ e ∈ stack, e.2.2.storedInNode node e.1) → (stack.map fun e => e.2.2.size).sum ≤ visits →
      walkStack maxLen node visits (stack.map fun e => (e.1, e.2.1)) len =
        writeDepths maxLen (stackDepths stack) len
  | visits, [], len, _, _ => by
    cases visits <;> rfl
  | 0, e :: stack, len, _, hv => by
    have := size_pos e.2.2
    simp only [List.map_cons, List.sum_cons] at hv
    omega
  | visits + 1, (none, d, t) :: stack, len, hs, _ => by
    have := hs _ List.mem_cons_self
    cases t <;> simp [BinTree.storedInNode] at this
  | visits + 1, (some r, d, .leaf s) :: stack, len, hs, hv => by
    have h := hs _ List.mem_cons_self
    simp only [BinTree.storedInNode] at h
    simp only [List.map_cons, List.sum_cons, BinTree.size] at hv
    have ih := walkStack_trees maxLen node visits stack (symSet len s (BitVec.ofNat 8 d))
      (fun e he => hs e (List.mem_cons_of_mem _ he)) (by omega)
    have e : stackDepths ((some r, d, .leaf s) :: stack) = (s, d) :: stackDepths stack := by
      simp [stackDepths, BinTree.paths]
    rw [e, writeDepths]
    simp only [List.map_cons, walkStack, h.1, h.2, Bool.false_eq_true, if_false]
    split
    · rfl
    · exact ih
  | visits + 1, (some r, d, .branch a b) :: stack, len, hs, hv => by
    have h := hs _ List.mem_cons_self
    simp only [BinTree.storedInNode] at h
    obtain ⟨h1, h2, h3⟩ := h
    simp only [List.map_cons, List.sum_cons, BinTree.size] at hv
    have ih := walkStack_trees maxLen node visits
      (((tblGet node r).child0, d + 1, a) :: ((tblGet node r).child1, d + 1, b) :: stack) len
      (by
        intro e he
        simp only [List.mem_cons] at he
        rcases he with rfl | rfl | he
        · exact h2
        · exact h3
        · exact hs e (List.mem_cons_of_mem _ he))
      (by simp only [List.map_cons, List.sum_cons]; omega)
    have e : stackDepths ((some r, d, .branch a b) :: stack) =
        stackDepths (((tblGet node r).child0, d + 1, a) :: ((tblGet node r).child1, d + 1, b) :: stack) := by
      simp [stackDepths, BinTree.paths, List.map_map, Function.comp_def, Nat.add_assoc, Nat.add_comm 1]
    rw [e, ← ih]
    simp only [List.map_cons, walkStack, h1, if_true]

theorem writeDepths_ok (maxLen : Nat) : ∀ (ps : List (Byte × Nat)) (len : Table Byte 256),
    (∀ p ∈ ps, p.2 ≤ maxLen) →
    ∃ len', writeDepths maxLen ps len = .ok len' ∧
      (∀ x, x ∉ (ps.map fun p => p.1) → symGet len' x = symGet len x) ∧
      ((ps.map fun p => p.1).Nodup → ∀ p ∈ ps, symGet len' p.1 = BitVec.ofNat 8 p.2)
  | [], len, _ => ⟨len, rfl, fun _ _ => rfl, fun _ p hp => absurd hp (by simp)⟩
  | p :: ps, len, h => by
    obtain ⟨len', h1, h2, h3⟩ := writeDepths_ok maxLen ps (symSet len p.1 (BitVec.ofNat 8 p.2))
      fun q hq => h q (List.mem_cons_of_mem _ hq)
    have hp := h p List.mem_cons_self
    refine ⟨len', by rw [writeDepths, if_neg (by omega)]; exact h1, ?_, ?_⟩
    · intro x hx
      simp only [List.map_cons, List.mem_cons, not_or] at hx
      rw [h2 x hx.2, symGet_symSet_ne _ _ (Ne.symm hx.1)]
    · intro hnd q hq
      simp only [List.map_cons, List.nodup_cons] at hnd
      rcases List.mem_cons.mp hq with rfl | hq
      · rw [h2 _ hnd.1, symGet_symSet_self]
      · exact h3 hnd.2 q hq

theorem writeDepths_deep (maxLen : Nat) : ∀ (ps qs : List (Byte × Nat)) (p : Byte × Nat) (len : Table Byte 256),
    (∀ q ∈ ps, q.2 ≤ maxLen) → maxLen < p.2 →
    writeDepths maxLen (ps ++ p :: qs) len =
      .error (.raising { kind := .unrepresentableCode, info := lengthInfo p.2 p.1 })
  | [], qs, p, len, _, h => by rw [List.nil_append, writeDepths, if_pos h]
  | q :: ps, qs, p, len, hq, h => by
    rw [List.cons_append, writeDepths, if_neg (by have := hq q List.mem_cons_self; omega)]
    exact writeDepths_deep maxLen ps qs p _ (fun r hr => hq r (List.mem_cons_of_mem _ hr)) h

theorem writeDepths_ok_iff (maxLen : Nat) : ∀ (ps : List (Byte × Nat)) (len len' : Table Byte 256),
    writeDepths maxLen ps len = .ok len' → ∀ p ∈ ps, p.2 ≤ maxLen
  | [], _, _, _, p, hp => absurd hp (by simp)
  | q :: ps, len, len', h, p, hp => by
    rw [writeDepths] at h
    split at h
    · cases h
    · rcases List.mem_cons.mp hp with rfl | hp
      · omega
      · exact writeDepths_ok_iff maxLen ps _ _ h p hp

/-- A leaf at depth `k` needs `k` nodes above it, each with another child. -/
theorem path_length_le : ∀ (t : BinTree) {p : Byte × List Bool}, p ∈ t.paths → 2 * p.2.length + 1 ≤ t.size
  | .leaf s, p, hp => by
    simp only [BinTree.paths, List.mem_singleton] at hp
    subst hp
    simp [BinTree.size]
  | .branch l r, p, hp => by
    simp only [BinTree.paths, List.mem_append, List.mem_map] at hp
    have hl := size_pos l
    have hr := size_pos r
    rcases hp with ⟨q, hq, rfl⟩ | ⟨q, hq, rfl⟩
    · have := path_length_le l hq
      simp only [BinTree.size, List.length_cons]
      omega
    · have := path_length_le r hq
      simp only [BinTree.size, List.length_cons]
      omega

theorem size_eq_symbols : ∀ t : BinTree, t.size + 1 = 2 * t.symbols.length
  | .leaf s => by simp [BinTree.size, BinTree.symbols, BinTree.paths]
  | .branch l r => by
    have hl := size_eq_symbols l
    have hr := size_eq_symbols r
    simp only [BinTree.symbols, List.length_map] at hl hr ⊢
    simp only [BinTree.size, BinTree.paths, List.length_append, List.length_map]
    omega

/-- The depths of a stored tree of two or more leaves (41_canonical_code_generator.md R85, R86). -/
theorem treeLengths_branch {maxLen : Nat} {tree : Tree} {l r : BinTree}
    (h : (BinTree.branch l r).storedInNode tree.node tree.root) (hs : (BinTree.branch l r).size ≤ 511) :
    treeLengths maxLen tree =
      writeDepths maxLen ((BinTree.branch l r).paths.map fun p => (p.1, p.2.length)) (tblOf 256 fun _ => 0) := by
  have hw := walkStack_trees maxLen tree.node maxVisits [(tree.root, 0, .branch l r)] (tblOf 256 fun _ => 0)
    (by intro e he; rw [List.mem_singleton] at he; subst he; exact h) (by simpa [maxVisits] using hs)
  have e : stackDepths [(tree.root, 0, .branch l r)] = (BinTree.branch l r).paths.map fun p => (p.1, p.2.length) := by
    simp [stackDepths]
  rw [e] at hw
  rw [← hw]
  unfold treeLengths
  cases hr : tree.root with
  | none => rw [hr] at h; simp [BinTree.storedInNode] at h
  | some t =>
    rw [hr] at h
    simp only [BinTree.storedInNode] at h
    simp only [h.1, if_true, List.map_cons, List.map_nil]

/-- The length of a lone leaf (41_canonical_code_generator.md R87). -/
theorem treeLengths_leaf {maxLen : Nat} {tree : Tree} {x : Byte}
    (h : (BinTree.leaf x).storedInNode tree.node tree.root) :
    treeLengths maxLen tree = .ok (symSet (tblOf 256 fun _ => 0) x 1) := by
  unfold treeLengths
  cases hr : tree.root with
  | none => rw [hr] at h; simp [BinTree.storedInNode] at h
  | some t =>
    rw [hr] at h
    simp only [BinTree.storedInNode] at h
    simp [h.1, h.2]

theorem lengthInfo_eq {length : Nat} (sym : Byte) (h : length < 256) :
    lengthInfo length sym = BitVec.ofNat 32 (length + 2 ^ 8 * sym.toNat) := by
  have hs := sym.isLt
  apply BitVec.eq_of_toNat_eq
  simp only [lengthInfo, BitVec.toNat_append, BitVec.toNat_ofNat, Nat.shiftLeft_eq]
  rw [Nat.mul_comm (0 % 2 ^ 16 * 2 ^ 8 ||| sym.toNat) (2 ^ 8), ← Nat.two_pow_add_eq_or_of_lt (Nat.mod_lt _ (by decide))]
  simp
  omega

end Sys2Proof.Machine
end

