-- ==== Sys2Proof/Laws/Invariant.lean ====
section
/-! SUPPORT. What the invariant gives, and what a raise keeps of it. -/

namespace Sys2Proof.Machine

theorem Config.wf_iff (c : Config) :
    c.wf = true ↔ 1 ≤ c.ibufBytes ∧ c.ibufBytes ≤ 2 ^ 24 ∧ 1 ≤ c.obufBytes ∧ c.obufBytes ≤ 2 ^ 24 ∧
      1 ≤ c.maxCodeLen ∧ c.maxCodeLen ≤ 63 := by
  simp only [Config.wf, Bool.and_eq_true, decide_eq_true_eq]
  tauto

theorem State.Inv.writerInv {s : State} (h : s.Inv) : WriterInv s.cfg.obufBytes s.writer :=
  ⟨by have := (Config.wf_iff _).mp h.cfg_wf; omega, h.out_len, h.obuf_wf, h.obuf_below⟩

/-- An unspecified position is within its buffer. -/
theorem freePosition_le (cap d : Nat) (slot : FreeSlot) (h : cap < 2 ^ 25) : (freePosition cap d slot).toNat ≤ cap := by
  have : (Config.free d slot 0).toNat % (cap + 1) < cap + 1 := Nat.mod_lt _ (Nat.succ_pos cap)
  simp only [freePosition, BitVec.toNat_ofNat]
  rw [Nat.mod_eq_of_lt (by omega)]
  omega

/-! ### What a raise leaves of the writer -/

theorem spoilOutLen_writer {cap d : Nat} {w : Writer} (h : cap < 2 ^ 25) (hw : Memory.wf w.obuf.cells = true)
    (hb : cellsBelow w.obuf.cells cap = true) : WriterInv cap (spoilOutLen cap d w) :=
  ⟨h, freePosition_le cap d _ h, hw, hb⟩

theorem obufSpoilFrom_below {o : Obuf} {cap : Nat} (k d : Nat) (h : cellsBelow o.cells cap = true) :
    cellsBelow (obufSpoilFrom o k d).cells cap = true := cellsBelow_filter _ h

theorem obufSpoilAt_below {o : Obuf} {cap : Nat} (k d : Nat) (h : cellsBelow o.cells cap = true) :
    cellsBelow (obufSpoilAt cap o k d).cells cap = true := by
  unfold obufSpoilAt
  split
  · next hk => exact cellsBelow_memPut _ h hk
  · exact h

theorem spoilBitOutput_writer {s : State} (d : Nat) (h : WriterInv s.cfg.obufBytes s.writer) :
    WriterInv s.cfg.obufBytes (spoilBitOutput d s).writer :=
  spoilOutLen_writer h.cap_lt (obufSpoilFrom_wf _ _ h.obuf_wf) (obufSpoilFrom_below _ _ h.obuf_below)

theorem spoilHdrWrite_writer {s : State} (d : Nat) (h : WriterInv s.cfg.obufBytes s.writer) :
    WriterInv s.cfg.obufBytes (spoilHdrWrite d s).writer :=
  spoilOutLen_writer h.cap_lt (obufSpoilFrom_wf _ _ h.obuf_wf) (obufSpoilFrom_below _ _ h.obuf_below)

theorem spoilPutByte_writer {s : State} (d : Nat) (h : WriterInv s.cfg.obufBytes s.writer) :
    WriterInv s.cfg.obufBytes (spoilPutByte d s).writer :=
  spoilOutLen_writer h.cap_lt (obufSpoilAt_wf _ _ h.obuf_wf) (obufSpoilAt_below _ _ h.obuf_below)

theorem spoilFlush_writer {s : State} (d : Nat) (h : WriterInv s.cfg.obufBytes s.writer) :
    WriterInv s.cfg.obufBytes (spoilFlush d s).writer :=
  spoilOutLen_writer h.cap_lt (obufSpoilAt_wf _ _ h.obuf_wf) (obufSpoilAt_below _ _ h.obuf_below)

/-! ### What a raise leaves of OBUF -/

theorem spoilBitOutput_obuf (s : State) (d : Nat) {k : Nat} (h : k < s.writer.outLen.toNat) :
    obufRead (spoilBitOutput d s).writer.obuf k = obufRead s.writer.obuf k := obufRead_obufSpoilFrom_lt _ _ h

theorem spoilHdrWrite_obuf (s : State) (d : Nat) {k : Nat} (h : k < s.writer.outLen.toNat) :
    obufRead (spoilHdrWrite d s).writer.obuf k = obufRead s.writer.obuf k := obufRead_obufSpoilFrom_lt _ _ h

theorem spoilPutByte_obuf (s : State) (d : Nat) {k : Nat} (h : k ≠ s.writer.outLen.toNat) :
    obufRead (spoilPutByte d s).writer.obuf k = obufRead s.writer.obuf k := obufRead_obufSpoilAt_ne _ _ _ h

theorem spoilFlush_obuf (s : State) (d : Nat) {k : Nat} (h : k ≠ s.writer.outLen.toNat) :
    obufRead (spoilFlush d s).writer.obuf k = obufRead s.writer.obuf k := obufRead_obufSpoilAt_ne _ _ _ h

/-! ### What a raise leaves of SYMS -/

/-- A raise leaves the entries of SYMS beyond the Writes line alone (10_state.md R42; 60_exceptions.md R134). -/
theorem freeCanon_syms_ge {n : Nat} (d : Nat) (c : Canon) {k : Byte} (h : n ≤ k.toNat) :
    symGet (freeCanon n d c).syms k = symGet c.syms k := by
  simp only [freeCanon, symGet]
  rw [tblGet_tblSetFrom, dif_neg]
  simp only [byteIndex_val, List.length_map, List.length_range]
  omega

/-! ### The runs of the output and decode commands -/

theorem writeCode_grows {cap : Nat} {len : Table Byte 256} {code : Table Dword 256} {sym : Byte} {w w' : Writer}
    (hw : WriterInv cap w) (h : writeCode cap len code sym w = .ok w') : WriterInv cap w' ∧ Grows w w' := by
  unfold writeCode at h
  split at h
  · cases h
  · exact writeBits_grows hw h

theorem writeCodes_grows {cap : Nat} {len : Table Byte 256} {code : Table Dword 256} :
    ∀ {syms : List Byte} {w w' : Writer}, WriterInv cap w → writeCodes cap len code syms w = .ok w' →
      WriterInv cap w' ∧ Grows w w'
  | [], w, w', hw, h => by cases h; exact ⟨hw, Grows.refl w⟩
  | sym :: syms, w, w', hw, h => by
    obtain ⟨w1, h1, h2⟩ := bind_eq_ok h
    obtain ⟨i, g⟩ := writeCode_grows hw h1
    obtain ⟨i', g'⟩ := writeCodes_grows i h2
    exact ⟨i', g.trans g'⟩

theorem putByteRun_grows {b : Byte} {s : State} {w : Writer} (hw : WriterInv s.cfg.obufBytes s.writer)
    (h : putByteRun b s = .ok w) :
    WriterInv s.cfg.obufBytes w ∧ Grows s.writer w ∧ w.acc = s.writer.acc ∧ w.cnt = s.writer.cnt ∧
      ∀ k, k ≠ s.writer.outLen.toNat → obufRead w.obuf k = obufRead s.writer.obuf k := by
  obtain ⟨u, -, h⟩ := bind_eq_ok h
  obtain ⟨hn, rfl⟩ := emitByte_eq_ok h
  exact ⟨emitted_inv b hw hn, emitted_grows b hw hn, rfl, rfl, fun k hk => obufRead_obufWrite_ne _ _ hk⟩

theorem encSymRun_grows {sym : Byte} {s : State} {w : Writer} (hw : WriterInv s.cfg.obufBytes s.writer)
    (h : encSymRun sym s = .ok w) : WriterInv s.cfg.obufBytes w ∧ Grows s.writer w := by
  obtain ⟨u, -, h⟩ := bind_eq_ok h
  exact writeCode_grows hw h

theorem encScanRun_grows {s : State} {w : Writer} (hw : WriterInv s.cfg.obufBytes s.writer)
    (h : encScanRun s = .ok w) : WriterInv s.cfg.obufBytes w ∧ Grows s.writer w := by
  obtain ⟨u, -, h⟩ := bind_eq_ok h
  exact writeCodes_grows hw h

theorem hdrWriteRun_grows {s : State} {w : Writer} (hw : WriterInv s.cfg.obufBytes s.writer)
    (h : hdrWriteRun s = .ok w) :
    WriterInv s.cfg.obufBytes w ∧ Grows s.writer w ∧ w.acc = s.writer.acc ∧ w.cnt = s.writer.cnt := by
  obtain ⟨u, -, h⟩ := bind_eq_ok h
  obtain ⟨u', -, h⟩ := bind_eq_ok h
  exact emitBytes_grows hw h

theorem walkTrie_pos {inp : Input} {entry : Table TrieEntry 511} {cap : Nat} (hl : inp.len.toNat ≤ cap) :
    ∀ {bits : Nat} {t : NodeId} {r : Reader} {x : TrieEntry × Reader}, r.pos.toNat ≤ cap →
      walkTrie inp entry bits t r = .ok x → x.2.pos.toNat ≤ cap
  | 0, _, _, _, _, h => by cases h
  | bits + 1, t, r, x, hp, h => by
    obtain ⟨⟨b, r'⟩, h1, h⟩ := bind_eq_ok h
    have hp' := readBit_pos hl hp h1
    simp only at h
    split at h
    · cases h
    · split at h
      · cases h; exact hp'
      · exact walkTrie_pos hl hp' h

/-- What DecodeOne does to the writer: one byte, where there is room. -/
theorem decodeOne_eq_ok {cap : Nat} {inp : Input} {entry : Table TrieEntry 511} {w w' : DecodeWork}
    (h : decodeOne cap inp entry w = .ok w') :
    ∃ e r, walkTrie inp entry (bitsAvailable inp w.reader) 0 w.reader = .ok (e, r) ∧ w.writer.outLen.toNat ≠ cap ∧
      w' = { reader := r, writer := emitted e.sym w.writer, res := e.sym.setWidth 64 } := by
  obtain ⟨⟨e, r⟩, h1, h⟩ := bind_eq_ok h
  obtain ⟨x, h2, h⟩ := bind_eq_ok h
  obtain ⟨hn, rfl⟩ := emitByte_eq_ok h2
  cases h
  exact ⟨e, r, h1, hn, rfl⟩

theorem decodeTimes_grows {cap capIn : Nat} {inp : Input} {entry : Table TrieEntry 511} (hl : inp.len.toNat ≤ capIn) :
    ∀ {k : Nat} {w w' : DecodeWork}, WriterInv cap w.writer → w.reader.pos.toNat ≤ capIn →
      decodeTimes cap inp entry k w = .ok w' →
      WriterInv cap w'.writer ∧ Grows w.writer w'.writer ∧ w'.writer.acc = w.writer.acc ∧
        w'.writer.cnt = w.writer.cnt ∧ w'.reader.pos.toNat ≤ capIn
  | 0, w, w', hw, hp, h => by cases h; exact ⟨hw, Grows.refl _, rfl, rfl, hp⟩
  | k + 1, w, w', hw, hp, h => by
    obtain ⟨w1, h1, h2⟩ := bind_eq_ok h
    obtain ⟨e, r, hr, hn, rfl⟩ := decodeOne_eq_ok h1
    obtain ⟨i, g, a, c, p⟩ := decodeTimes_grows hl (emitted_inv e.sym hw hn) (walkTrie_pos hl hp hr) h2
    exact ⟨i, (emitted_grows e.sym hw hn).trans g, a, c, p⟩

theorem decSymRun_eq_ok {s : State} {w : DecodeWork} (h : decSymRun s = .ok w) :
    decodeOne s.cfg.obufBytes s.input s.trie.entry (decodeStart s) = .ok w := by
  obtain ⟨u, -, h⟩ := bind_eq_ok h
  obtain ⟨u', -, h⟩ := bind_eq_ok h
  exact h

theorem decodeRun_eq_ok {s : State} {w : DecodeWork} (h : decodeRun s = .ok w) :
    decodeTimes s.cfg.obufBytes s.input s.trie.entry s.plen.toNat (decodeStart s) = .ok w := by
  obtain ⟨u, -, h⟩ := bind_eq_ok h
  obtain ⟨u', -, h⟩ := bind_eq_ok h
  exact h

end Sys2Proof.Machine
end

