-- ==== Sys2Proof/Laws/Packer.lean ====
section
/-! SUPPORT. The packer's compound writes and reads: codes, the header's bytes, and sequences of fields. -/

namespace Sys2Proof.Machine

/-! ### Codes -/

theorem writeCode_coded {cap : Nat} {len : Table Byte 256} {code : Table Dword 256} {sym : Byte} {w : Writer}
    (h : symGet len sym ≠ 0) :
    writeCode cap len code sym w = writeBits cap (symGet code sym) (symGet len sym).toNat w := if_neg h

theorem writeCode_uncoded {cap : Nat} {len : Table Byte 256} {code : Table Dword 256} {sym : Byte} {w : Writer}
    (h : symGet len sym = 0) :
    writeCode cap len code sym w = .error { kind := .noCode, info := BitVec.ofNat 32 sym.toNat } := by
  have : symbolInfo sym = BitVec.ofNat 32 sym.toNat := by
    apply BitVec.eq_of_toNat_eq
    simp [symbolInfo]
  rw [← this]
  exact if_pos h

theorem writeCodes_append {cap : Nat} {len : Table Byte 256} {code : Table Dword 256} (ys : List Byte) :
    ∀ (xs : List Byte) (w : Writer),
      writeCodes cap len code (xs ++ ys) w = writeCodes cap len code xs w >>= writeCodes cap len code ys
  | [], w => rfl
  | x :: xs, w => by simp only [List.cons_append, writeCodes, writeCodes_append ys xs, bind_assoc]

/-- With room for all their bits, the codes are appended. -/
theorem writeCodes_spec {cap : Nat} {len : Table Byte 256} {code : Table Dword 256} :
    ∀ (syms : List Byte) {w : Writer}, WriterInv cap w → writerPadded w = true → (∀ b ∈ syms, symGet len b ≠ 0) →
      (bitsWritten w + (syms.map fun b => (symGet len b).toNat).sum) / 8 ≤ cap →
      ∃ w', writeCodes cap len code syms w = .ok w' ∧ WriterInv cap w' ∧
        appendsBits w w' (syms.flatMap (codeWord len code))
  | [], w, hw, hp, _, _ => ⟨w, rfl, hw, appendsBits_nil hp⟩
  | b :: bs, w, hw, hp, hl, hr => by
    simp only [List.map_cons, List.sum_cons] at hr
    obtain ⟨w1, e1, i1, a1⟩ := writeBits_spec (symGet code b) (symGet len b).toNat hw hp (by omega)
    have hb := a1.1
    simp only [length_bitsOf] at hb
    obtain ⟨w2, e2, i2, a2⟩ := writeCodes_spec bs i1 a1.2.1 (fun x hx => hl x (by simp [hx])) (by omega)
    refine ⟨w2, ?_, i2, appendsBits_trans a1 a2⟩
    simp [writeCodes, writeCode_coded (hl b (by simp)), e1, e2]

theorem writeBits_bits {cap : Nat} {v : Dword} : ∀ {n : Nat} {w w' : Writer}, WriterInv cap w →
    writeBits cap v n w = .ok w' → bitsWritten w' = bitsWritten w + n
  | 0, w, w', _, h => by cases h; rfl
  | n + 1, w, w', hw, h => by
    obtain ⟨w1, h1, h2⟩ := bind_eq_ok h
    have := writeBit_bits hw h1
    rw [writeBits_bits (writeBit_grows hw h1).1 h2]
    omega

/-- Without room for all their bits, the codes overflow. -/
theorem writeCodes_full {cap : Nat} {len : Table Byte 256} {code : Table Dword 256} :
    ∀ (syms : List Byte) {w : Writer}, WriterInv cap w → (∀ b ∈ syms, symGet len b ≠ 0) →
      cap < (bitsWritten w + (syms.map fun b => (symGet len b).toNat).sum) / 8 →
      writeCodes cap len code syms w = .error { kind := .overflow, info := 3 }
  | [], w, hw, _, hr => absurd hr (by have := hw.out_len; have := w.cnt.isLt; simp [bitsWritten]; omega)
  | b :: bs, w, hw, hl, hr => by
    simp only [List.map_cons, List.sum_cons] at hr
    cases h : writeBits cap (symGet code b) (symGet len b).toNat w with
    | error r => simp [writeCodes, writeCode_coded (hl b (by simp)), h, writeBits_error h]
    | ok w1 =>
      have hb := writeBits_bits hw h
      simp [writeCodes, writeCode_coded (hl b (by simp)), h,
        writeCodes_full bs (writeBits_grows hw h).1 (fun x hx => hl x (by simp [hx])) (by omega)]

/-! ### The header -/

@[simp] theorem length_histogramBytes (c : Canon) : (histogramBytes c).length = c.maxlen.toNat := by
  simp [histogramBytes]

@[simp] theorem length_symsList (c : Canon) : (symsList c).length = c.nsym.val := by
  have := c.nsym.isLt
  simp [symsList]
  omega

@[simp] theorem length_littleEndianBytes (v : Dword) : (littleEndianBytes v).length = 8 := by simp [littleEndianBytes]

theorem length_headerBytes (c : Canon) (p : Dword) :
    (headerBytes c p).length = 1 + c.maxlen.toNat + c.nsym.val + 8 := by
  simp only [headerBytes, List.length_append, length_histogramBytes, length_symsList, length_littleEndianBytes,
    List.length_singleton]

theorem histogramBytes_get (c : Canon) {k : Nat} (h : k < c.maxlen.toNat) :
    (histogramBytes c)[k]? = some (BitVec.ofNat 8 (symGet c.hist (BitVec.ofNat 8 (k + 1))).val) := by
  have hm := c.maxlen.isLt
  have hz : (BitVec.ofNat 8 (k + 1) : Byte) ≠ 0 := by
    intro e
    have := congrArg BitVec.toNat e
    simp at this
    omega
  simp only [histogramBytes, List.getElem?_map, List.getElem?_range h, Option.map_some, histAt, if_neg hz]

theorem symsList_get (c : Canon) {k : Byte} (h : k.toNat < c.nsym.val) :
    (symsList c)[k.toNat]? = some (symGet c.syms k) := by
  rw [symsList, List.getElem?_take_of_lt h]
  simp [symGet, tblGet, byteIndex]

theorem littleEndianBytes_get (v : Dword) {k : Nat} (h : k < 8) :
    (littleEndianBytes v)[k]? = some (v.extractLsb' (8 * k) 8) := by
  simp only [littleEndianBytes, List.getElem?_map, List.getElem?_range h, Option.map_some]

/-! ### Fields -/

/-- Fields that were written without a raise had room, and stand in the stream one after the other. -/
theorem writeFields_spec {cap : Nat} : ∀ (fs : List (Dword × Nat)) {w w' : Writer}, WriterInv cap w →
    writerPadded w = true → writeFields cap fs w = .ok w' →
    WriterInv cap w' ∧ appendsBits w w' (fs.flatMap fun f => bitsOf f.1 f.2)
  | [], w, w', hw, hp, h => by cases h; exact ⟨hw, appendsBits_nil hp⟩
  | f :: fs, w, w', hw, hp, h => by
    obtain ⟨w1, h1, h2⟩ := bind_eq_ok h
    have hr : (bitsWritten w + f.2) / 8 ≤ cap := by
      have hb := writeBits_bits hw h1
      have ho := (writeBits_grows hw h1).1.out_len
      have := w1.cnt.isLt
      simp only [bitsWritten] at hb ⊢
      omega
    obtain ⟨w2, e, i, a⟩ := writeBits_spec f.1 f.2 hw hp hr
    rw [h1] at e
    cases e
    obtain ⟨i', a'⟩ := writeFields_spec fs i a.2.1 h2
    exact ⟨i', appendsBits_trans a a'⟩

/-- FLUSH keeps the bits of the stream and ends it on a byte boundary. -/
theorem flushWriter_bits {cap : Nat} {w w' : Writer} (hw : WriterInv cap w) (h : flushWriter cap w = .ok w') :
    w'.cnt = 0 ∧ w'.outLen.toNat = (bitsWritten w + 7) / 8 ∧
      ∀ p, p < bitsWritten w → (obufRead w'.obuf (p / 8)).getLsbD (p % 8) = outputBit w p := by
  by_cases h0 : w.cnt = 0
  · rw [flushWriter_aligned h0] at h
    cases h
    have hz : w.cnt.val = 0 := by rw [h0]; rfl
    refine ⟨h0, by simp only [bitsWritten]; omega, fun p hp => ?_⟩
    rw [outputBit, if_pos (by simp only [bitsWritten] at hp; omega)]
  · have hz : w.cnt.val ≠ 0 := fun e => h0 (Fin.ext e)
    have hl := w.cnt.isLt
    by_cases hc : w.outLen.toNat = cap
    · rw [flushWriter_full h0 hc] at h
      cases h
    · rw [flushWriter_partial h0 hc] at h
      cases h
      refine ⟨rfl, ?_, fun p hp => ?_⟩
      · have := emitted_outLen w.acc hw hc
        simp only [freshByte, bitsWritten] at *
        omega
      · simp only [bitsWritten] at hp
        simp only [freshByte, emitted, outputBit]
        split
        · next hq => rw [obufRead_obufWrite_ne _ _ (by omega)]
        · next hq =>
          have : p / 8 = w.outLen.toNat := by omega
          rw [this]
          simp

theorem numberOfBits_cons (b : Bool) (bs : List Bool) :
    numberOfBits (b :: bs) = b.toNat * 2 ^ bs.length + numberOfBits bs := by
  rw [numberOfBits, List.foldl_cons, numberOfBits_snoc]
  simp

theorem numberOfBits_bitsOf (v : Dword) (n : Nat) : numberOfBits (bitsOf v n) = v.toNat % 2 ^ n := by
  induction n with
  | zero => simp [bitsOf, numberOfBits, Nat.mod_one]
  | succ n ih =>
    rw [bitsOf_succ, numberOfBits_cons, ih, length_bitsOf, Nat.mod_pow_succ]
    have : (v.getLsbD n).toNat = v.toNat / 2 ^ n % 2 := by
      rw [BitVec.getLsbD, Nat.testBit_eq_decide_div_mod_eq]
      have := Nat.mod_two_eq_zero_or_one (v.toNat / 2 ^ n)
      rcases this with h | h <;> simp [h]
    rw [this]
    ring

/-- ReadBits reads a field that stands at the reader's position. -/
theorem readBits_field {inp : Input} (bits : List Bool) {r : Reader} (h : inputHolds inp r bits) :
    ∃ r', readBits inp bits.length r = .ok (numberOfBits bits, r') ∧
      bitsAvailable inp r' + bits.length = bitsAvailable inp r ∧
      (∀ p, inputBit inp r' p = inputBit inp r (p + bits.length)) ∧ readerAdvanced inp r r' bits.length := by
  obtain ⟨r', e, a, b, d⟩ := readBitsInto_spec (inp := inp) bits.length 0 h.1
  have : nextBits inp r bits.length = bits := by
    apply List.ext_getElem (by simp)
    intro i h1 h2
    simp only [nextBits, List.getElem_map, List.getElem_range]
    exact h.2 i h2
  rw [this] at e
  exact ⟨r', e, a, b, d⟩

/-- ReadBits of each width reads the fields that stand at the reader's position. -/
theorem readFields_spec {inp : Input} : ∀ (fs : List (Dword × Nat)) {r : Reader},
    inputHolds inp r (fs.flatMap fun f => bitsOf f.1 f.2) →
    ∃ r', readFields inp (fs.map fun f => f.2) r = .ok (fs.map fun f => f.1.toNat % 2 ^ f.2, r') ∧
      readerAdvanced inp r r' (fs.flatMap fun f => bitsOf f.1 f.2).length
  | [], r, _ => ⟨r, rfl, readerAdvanced_zero inp r⟩
  | f :: fs, r, h => by
    obtain ⟨hl, hg⟩ := h
    simp only [List.flatMap_cons, List.length_append] at hl hg
    obtain ⟨r1, e1, a1, b1, d1⟩ := readBits_field (inp := inp) (bitsOf f.1 f.2) (r := r)
      ⟨by omega, fun i hi => by rw [hg i (by omega), List.getElem_append_left hi]⟩
    obtain ⟨r2, e2, d2⟩ := readFields_spec (inp := inp) fs (r := r1)
      ⟨by omega, fun i hi => by
        rw [b1, Nat.add_comm, hg _ (by omega), List.getElem_append_right (by omega)]
        simp⟩
    rw [length_bitsOf] at e1
    refine ⟨r2, ?_, ?_⟩
    · simp [readFields, e1, e2, numberOfBits_bitsOf]
    · simp only [List.flatMap_cons, List.length_append]
      exact readerAdvanced_add d1 d2

end Sys2Proof.Machine
end

