-- ==== Sys2Proof/Laws/Canon.lean ====
section
/-! SUPPORT. Canonical tables: which sets of lengths CANON accepts, the canonical order, and the codes as intervals of the
Kraft sum (41_canonical_code_generator.md). -/

namespace Sys2Proof.Machine

/-! ### Sets of lengths -/

/-- The symbols with a code, ascending. -/
def codedList (len : Table Byte 256) : List Byte := allSymbols.filter fun s => symGet len s != 0

theorem mem_codedList {len : Table Byte 256} {x : Byte} : x ∈ codedList len ↔ symGet len x ≠ 0 := by
  simp [codedList]

theorem nodup_codedList (len : Table Byte 256) : (codedList len).Nodup := nodup_allSymbols.filter _

theorem codedSymbols_eq (len : Table Byte 256) : codedSymbols len = (codedList len).map fun s => (s, symGet len s) := by
  simp only [codedSymbols, codedList, symEntries_eq_map, List.filter_map]
  rfl

theorem length_codedSymbols (len : Table Byte 256) : (codedSymbols len).length = codedCount len := by
  rw [codedSymbols_eq, List.length_map]
  rfl

theorem codedCount_le (len : Table Byte 256) : codedCount len ≤ 256 := by
  have := List.length_filter_le (fun s => symGet len s != 0) allSymbols
  rw [length_allSymbols] at this
  exact this

theorem kraftSum_coded (len : Table Byte 256) (m : Nat) :
    kraftSum ((codedSymbols len).map fun p => p.2.toNat) m = tableKraft len m := by
  simp only [kraftSum, tableKraft, codedSymbols_eq, codedList, List.map_map]
  rfl

theorem foldl_max_le (l : List Nat) : ∀ a b : Nat, l.foldl max a ≤ b ↔ a ≤ b ∧ ∀ x ∈ l, x ≤ b := by
  induction l with
  | nil => intro a b; simp
  | cons x l ih =>
    intro a b
    rw [List.foldl_cons, ih]
    simp only [List.mem_cons, forall_eq_or_imp, Nat.max_le, and_assoc]

theorem le_foldl_max (l : List Nat) (a : Nat) : a ≤ l.foldl max a := ((foldl_max_le l a _).mp (Nat.le_refl _)).1

theorem foldl_max_mem (l : List Nat) : ∀ a : Nat, l.foldl max a = a ∨ l.foldl max a ∈ l := by
  induction l with
  | nil => intro a; exact .inl rfl
  | cons x l ih =>
    intro a
    rw [List.foldl_cons]
    rcases ih (max a x) with h | h
    · rw [h]
      rcases Nat.le_total a x with hx | hx
      · rw [Nat.max_eq_right hx]; exact .inr List.mem_cons_self
      · rw [Nat.max_eq_left hx]; exact .inl rfl
    · exact .inr (List.mem_cons_of_mem _ h)

theorem maxLength_le {len : Table Byte 256} {m : Nat} : maxLength len ≤ m ↔ ∀ s, (symGet len s).toNat ≤ m := by
  simp only [maxLength, foldl_max_le, symEntries_eq_map, List.map_map, List.mem_map, Function.comp]
  constructor
  · intro h s; exact h.2 _ ⟨s, mem_allSymbols s, rfl⟩
  · intro h; exact ⟨Nat.zero_le _, by rintro x ⟨s, -, rfl⟩; exact h s⟩

theorem length_le_maxLength (len : Table Byte 256) (s : Byte) : (symGet len s).toNat ≤ maxLength len :=
  maxLength_le.mp (Nat.le_refl _) s

/-- `maxLength` is the longest length (41_canonical_code_generator.md R88). -/
theorem isLongest_iff {len : Table Byte 256} {m : Nat} : isLongest len m ↔ maxLength len = m := by
  have hmem : ∃ s, (symGet len s).toNat = maxLength len := by
    rcases foldl_max_mem ((symEntries len).map fun p => p.2.toNat) 0 with h | h
    · refine ⟨0, ?_⟩
      have := length_le_maxLength len 0
      have h' : maxLength len = 0 := h
      omega
    · obtain ⟨p, hp, h⟩ := List.mem_map.mp h
      exact ⟨p.1, by rw [(mem_symEntries len p).mp hp]; exact h⟩
  constructor
  · rintro ⟨h1, s, h2⟩
    have := maxLength_le.mpr h1
    have := length_le_maxLength len s
    omega
  · rintro rfl
    exact ⟨length_le_maxLength len, hmem⟩

theorem maxLength_lt (len : Table Byte 256) : maxLength len < 256 := by
  have : maxLength len ≤ 255 := maxLength_le.mpr fun s => by have := (symGet len s).isLt; omega
  omega

/-- The check against `MAX_CODE_LEN` passes exactly where no length is too long. -/
theorem requireRepresentable_iff {maxLen : Nat} {ps : List (Byte × Byte)} :
    requireRepresentable maxLen ps = .ok () ↔ ∀ p ∈ ps, p.2.toNat ≤ maxLen := by
  induction ps with
  | nil => simp [requireRepresentable]
  | cons p ps ih =>
    rw [requireRepresentable]
    split
    · next h =>
      constructor
      · intro h'; cases h'
      · intro h'; have := h' p List.mem_cons_self; omega
    · next h => rw [ih]; simp only [List.mem_cons, forall_eq_or_imp]; exact ⟨fun h' => ⟨by omega, h'⟩, fun h' => h'.2⟩

/-- The first symbol that is too long is reported. -/
theorem requireRepresentable_first {maxLen : Nat} (p : Byte × Byte) (qs : List (Byte × Byte)) (h : maxLen < p.2.toNat) :
    ∀ ps : List (Byte × Byte), (∀ q ∈ ps, q.2.toNat ≤ maxLen) →
      requireRepresentable maxLen (ps ++ p :: qs) =
        .error { kind := .unrepresentableCode, info := lengthInfo p.2.toNat p.1 }
  | [], _ => by rw [List.nil_append, requireRepresentable, if_pos h]; rfl
  | q :: ps, hq => by
    have := hq q List.mem_cons_self
    rw [List.cons_append, requireRepresentable, if_neg (by omega)]
    exact requireRepresentable_first p qs h ps fun r hr => hq r (List.mem_cons_of_mem _ hr)

theorem requireRepresentable_entries {maxLen : Nat} {len : Table Byte 256} :
    requireRepresentable maxLen (symEntries len) = .ok () ↔ maxLength len ≤ maxLen := by
  rw [requireRepresentable_iff, maxLength_le]
  constructor
  · intro h s; exact h (s, symGet len s) ((mem_symEntries len _).mpr rfl)
  · intro h p hp; rw [← (mem_symEntries len p).mp hp]; exact h p.1

/-- Validation passes exactly on the full sets of lengths (41_canonical_code_generator.md R91). -/
theorem validateLengths_iff {lengths : List Nat} {m : Nat} :
    validateLengths lengths m = .ok () ↔
      (lengths.length = 1 ∧ m = 1) ∨ (lengths.length ≠ 1 ∧ kraftSum lengths m = 2 ^ m) := by
  unfold validateLengths
  split
  · next h =>
    simp only [h, true_and, ne_eq, not_true_eq_false, false_and, or_false]
    by_cases hm : m = 1
    · simp [hm]
    · simp [beq_false_of_ne hm, hm]
  · next h =>
    simp only [h, false_and, false_or, ne_eq, not_false_eq_true, true_and]
    rcases Nat.lt_trichotomy (kraftSum lengths m) (2 ^ m) with hk | hk | hk
    · simp [hk.le, Nat.not_le.mpr hk, hk.ne]
    · simp [hk]
    · simp [Nat.not_le.mpr hk, hk.ne']

theorem codedCount_pos {len : Table Byte 256} (h : (codedSymbols len).length ≠ 0) : 1 ≤ codedCount len := by
  rw [length_codedSymbols] at h
  omega

/-- CANON accepts exactly the full codes with no length above `MAX_CODE_LEN`. -/
theorem accepted_iff {maxLen : Nat} {len : Table Byte 256} :
    Accepted maxLen len ↔ 1 ≤ codedCount len ∧ maxLength len ≤ maxLen ∧ fullCode len (maxLength len) := by
  have e : ((codedSymbols len).map fun p => p.2.toNat).length = codedCount len := by
    rw [List.length_map, length_codedSymbols]
  constructor
  · rintro ⟨h1, h2, h3⟩
    have hp := codedCount_pos h1
    refine ⟨hp, requireRepresentable_entries.mp h2, ?_⟩
    rw [validateLengths_iff, e, kraftSum_coded] at h3
    rcases h3 with h3 | ⟨h3, h4⟩
    · exact .inl h3
    · exact .inr ⟨by omega, h4⟩
  · rintro ⟨h1, h2, h3⟩
    refine ⟨by rw [length_codedSymbols]; omega, requireRepresentable_entries.mpr h2, ?_⟩
    rw [validateLengths_iff, e, kraftSum_coded]
    rcases h3 with h3 | ⟨h3, h4⟩
    · exact .inl h3
    · exact .inr ⟨by omega, h4⟩

/-! ### The canonical order -/

theorem symbolsOfLength_eq (len : Table Byte 256) (l : Nat) :
    symbolsOfLength len l = allSymbols.filter fun s => (symGet len s).toNat == l := by
  simp only [symbolsOfLength, symEntries_eq_map, List.filter_map, List.map_map]
  exact List.map_id' _

theorem pairwise_allSymbols : allSymbols.Pairwise fun x y => x.toNat < y.toNat := by
  unfold allSymbols
  rw [List.pairwise_map]
  refine List.pairwise_lt_range.imp_of_mem fun ha hb h => ?_
  have ha' : _ < 256 := List.mem_range.mp ha
  have hb' : _ < 256 := List.mem_range.mp hb
  simp only [BitVec.toNat_ofNat]
  omega

theorem mem_canonicalOrder {len : Table Byte 256} {m : Nat} (h : maxLength len ≤ m) {x : Byte} :
    x ∈ canonicalOrder len m ↔ symGet len x ≠ 0 := by
  have hz : symGet len x ≠ 0 ↔ (symGet len x).toNat ≠ 0 := by
    rw [not_iff_not]
    constructor
    · intro e; rw [e]; rfl
    · intro e; exact BitVec.eq_of_toNat_eq e
  have := maxLength_le.mp h x
  simp only [canonicalOrder, List.mem_flatMap, List.mem_range, symbolsOfLength_eq, List.mem_filter, mem_allSymbols,
    true_and, beq_iff_eq]
  rw [hz]
  constructor
  · rintro ⟨k, -, h'⟩; omega
  · intro h'; exact ⟨(symGet len x).toNat - 1, by omega, by omega⟩

/-- The canonical order ascends by length, then by symbol (41_canonical_code_generator.md R89). -/
theorem pairwise_canonicalOrder (len : Table Byte 256) (m : Nat) :
    (canonicalOrder len m).Pairwise (canonKeyBefore len) := by
  unfold canonicalOrder
  rw [List.pairwise_flatMap]
  constructor
  · intro k _
    rw [symbolsOfLength_eq]
    refine (pairwise_allSymbols.filter _).imp_of_mem fun ha hb h => ?_
    simp only [List.mem_filter, mem_allSymbols, true_and, beq_iff_eq] at ha hb
    exact .inr ⟨by omega, h⟩
  · refine List.pairwise_lt_range.imp fun hab x hx y hy => ?_
    simp only [symbolsOfLength_eq, List.mem_filter, mem_allSymbols, true_and, beq_iff_eq] at hx hy
    exact .inl (by omega)

theorem canonKeyBefore_irrefl (len : Table Byte 256) (x : Byte) : ¬ canonKeyBefore len x x := by
  unfold canonKeyBefore; omega

theorem canonKeyBefore_asymm {len : Table Byte 256} {x y : Byte} (h : canonKeyBefore len x y) :
    ¬ canonKeyBefore len y x := by
  unfold canonKeyBefore at *; omega

theorem nodup_of_canonical {len : Table Byte 256} {l : List Byte} (h : l.Pairwise (canonKeyBefore len)) : l.Nodup :=
  h.imp (S := fun a b => a ≠ b) fun {a b} hab e => canonKeyBefore_irrefl len a (by rw [← e] at hab; exact hab)

/-- A list in canonical order is fixed by its members. -/
theorem canonical_unique {len : Table Byte 256} {l l' : List Byte} (h : l.Pairwise (canonKeyBefore len))
    (h' : l'.Pairwise (canonKeyBefore len)) (hm : ∀ x, x ∈ l ↔ x ∈ l') : l = l' := by
  have hp : l.Perm l' := (List.perm_ext_iff_of_nodup (nodup_of_canonical h) (nodup_of_canonical h')).mpr hm
  exact hp.eq_of_pairwise (fun a b _ _ hab hba => absurd hba (canonKeyBefore_asymm hab)) h h'

/-- A list with the coded symbols as its members lists each once. -/
theorem length_of_members {len : Table Byte 256} {l : List Byte} (hn : l.Nodup) (hm : ∀ x, x ∈ l ↔ symGet len x ≠ 0) :
    l.length = codedCount len :=
  ((List.perm_ext_iff_of_nodup hn (nodup_codedList len)).mpr fun x => (hm x).trans mem_codedList.symm).length_eq

theorem tableKraft_of_members {len : Table Byte 256} {l : List Byte} (hn : l.Nodup)
    (hm : ∀ x, x ∈ l ↔ symGet len x ≠ 0) (m : Nat) :
    tableKraft len m = (l.map fun s => 2 ^ (m - (symGet len s).toNat)).sum :=
  (((List.perm_ext_iff_of_nodup hn (nodup_codedList len)).mpr fun x => (hm x).trans mem_codedList.symm).map
    fun s => 2 ^ (m - (symGet len s).toNat)).sum_eq.symm

/-- CANON reports the lowest symbol that is too long (41_canonical_code_generator.md R88). -/
theorem requireRepresentable_lowest {maxLen : Nat} {len : Table Byte 256} {x : Byte}
    (h : maxLen < (symGet len x).toNat) (hy : ∀ y, y.toNat < x.toNat → (symGet len y).toNat ≤ maxLen) :
    requireRepresentable maxLen (symEntries len) =
      .error { kind := .unrepresentableCode, info := BitVec.ofNat 32 ((symGet len x).toNat + 2 ^ 8 * x.toNat) } := by
  obtain ⟨pre, post, e⟩ := List.append_of_mem (mem_allSymbols x)
  have hp := pairwise_allSymbols
  rw [e, List.pairwise_append] at hp
  rw [symEntries_eq_map, e, List.map_append, List.map_cons, requireRepresentable_first (x, symGet len x) _ h, lengthInfo_eq]
  · exact (symGet len x).isLt
  · intro q hq
    obtain ⟨y, hy', rfl⟩ := List.mem_map.mp hq
    exact hy y (hp.2.2 y hy' x List.mem_cons_self)

/-! ### Codes as intervals -/

/-- The share of the Kraft sum, scaled by `2^m`, that the code of a symbol takes. -/
def codeShare (len : Table Byte 256) (m : Nat) (s : Byte) : Nat := 2 ^ (m - (symGet len s).toNat)

/-- The share that a list of symbols takes. -/
def kraftOf (len : Table Byte 256) (m : Nat) (l : List Byte) : Nat := (l.map (codeShare len m)).sum

theorem kraftOf_append (len : Table Byte 256) (m : Nat) (l l' : List Byte) :
    kraftOf len m (l ++ l') = kraftOf len m l + kraftOf len m l' := by
  simp [kraftOf]

theorem kraftOf_cons (len : Table Byte 256) (m : Nat) (x : Byte) (l : List Byte) :
    kraftOf len m (x :: l) = codeShare len m x + kraftOf len m l := by
  simp [kraftOf]

theorem kraftOf_take_succ (len : Table Byte 256) (m : Nat) {l : List Byte} {k : Nat} (h : k < l.length) :
    kraftOf len m (l.take (k + 1)) = kraftOf len m (l.take k) + codeShare len m l[k] := by
  rw [List.take_succ_eq_append_getElem h, kraftOf_append]
  simp [kraftOf]

theorem kraftOf_take_le (len : Table Byte 256) (m : Nat) (l : List Byte) (k : Nat) :
    kraftOf len m (l.take k) ≤ kraftOf len m l := by
  conv => rhs; rw [← List.take_append_drop k l, kraftOf_append]
  exact Nat.le_add_right _ _

theorem kraftOf_take_mono (len : Table Byte 256) (m : Nat) (l : List Byte) {i j : Nat} (h : i ≤ j) :
    kraftOf len m (l.take i) ≤ kraftOf len m (l.take j) := by
  have : l.take i = (l.take j).take i := by rw [List.take_take, Nat.min_eq_left h]
  rw [this]
  exact kraftOf_take_le len m _ i

theorem canonKeyBefore_length {len : Table Byte 256} {x y : Byte} (h : canonKeyBefore len x y) :
    (symGet len x).toNat ≤ (symGet len y).toNat := by
  unfold canonKeyBefore at h; omega

/-- The codes that AssignCodes gives after `prev`: each starts where the one before it ends. -/
theorem assignRest_spec (len : Table Byte 256) (m : Nat) (hm : ∀ s, (symGet len s).toNat ≤ m) :
    ∀ (ss : List Byte) (prev : Byte) (c : Nat) (code : Table Dword 256) (v : Nat),
      (prev :: ss).Pairwise (canonKeyBefore len) → c * codeShare len m prev = v →
      (∀ x, x ∉ ss → symGet (assignRest len ss prev c code) x = symGet code x) ∧
      ∀ k (h : k < ss.length), ∃ c', symGet (assignRest len ss prev c code) ss[k] = BitVec.ofNat 64 c' ∧
        c' * codeShare len m ss[k] = v + kraftOf len m ((prev :: ss).take (k + 1))
  | [], prev, c, code, v, _, _ => ⟨fun _ _ => rfl, fun k h => absurd h (Nat.not_lt_zero k)⟩
  | s :: ss, prev, c, code, v, hp, hc => by
    obtain ⟨hprev, hss⟩ := List.pairwise_cons.mp hp
    have hle := canonKeyBefore_length (hprev s List.mem_cons_self)
    have hns : s ∉ ss := (List.nodup_cons.mp (nodup_of_canonical hss)).1
    have hstep : (c + 1) <<< ((symGet len s).toNat - (symGet len prev).toNat) * codeShare len m s =
        v + codeShare len m prev := by
      have hs := hm s
      rw [Nat.shiftLeft_eq, ← hc, Nat.mul_assoc, codeShare, codeShare, ← Nat.pow_add]
      have : (symGet len s).toNat - (symGet len prev).toNat + (m - (symGet len s).toNat) =
          m - (symGet len prev).toNat := by omega
      rw [this]
      ring
    obtain ⟨i1, i2⟩ := assignRest_spec len m hm ss s _ (symSet code s (BitVec.ofNat 64 _)) _ hss hstep
    refine ⟨fun x hx => ?_, fun k h => ?_⟩
    · simp only [List.mem_cons, not_or] at hx
      rw [assignRest, i1 x hx.2, symGet_symSet_ne _ _ (Ne.symm hx.1)]
    · cases k with
      | zero =>
        refine ⟨_, by rw [List.getElem_cons_zero, assignRest, i1 s hns, symGet_symSet_self], ?_⟩
        rw [List.getElem_cons_zero, hstep]
        simp [kraftOf]
      | succ k =>
        obtain ⟨c', e1, e2⟩ := i2 k (by simpa using h)
        refine ⟨c', by rw [List.getElem_cons_succ, assignRest]; exact e1, ?_⟩
        rw [List.getElem_cons_succ, e2]
        simp only [List.take_succ_cons, kraftOf_cons]
        omega

/-- The codes of AssignCodes (41_canonical_code_generator.md R90), each a number at the start of its interval; a symbol
outside the order has code 0 if it has no length. -/
theorem assignCodes_spec (len : Table Byte 256) (m : Nat) (hm : ∀ s, (symGet len s).toNat ≤ m) (order : List Byte)
    (old : Table Dword 256) (hp : order.Pairwise (canonKeyBefore len)) :
    (∀ x, x ∉ order → symGet (assignCodes len order old) x = if symGet len x = 0 then 0 else symGet old x) ∧
    ∀ k (h : k < order.length), ∃ c, symGet (assignCodes len order old) order[k] = BitVec.ofNat 64 c ∧
      c * codeShare len m order[k] = kraftOf len m (order.take k) := by
  have base : ∀ x, symGet (tblOf 256 fun s =>
      if symGet len (BitVec.ofNat 8 s) = 0 then 0 else symGet old (BitVec.ofNat 8 s)) x =
      if symGet len x = 0 then 0 else symGet old x := by
    intro x
    rw [symGet_tblOf]
    simp
  cases order with
  | nil => exact ⟨fun x _ => base x, fun k h => absurd h (Nat.not_lt_zero k)⟩
  | cons s ss =>
    obtain ⟨i1, i2⟩ := assignRest_spec len m hm ss s 0 (symSet (tblOf 256 fun s =>
      if symGet len (BitVec.ofNat 8 s) = 0 then 0 else symGet old (BitVec.ofNat 8 s)) s 0) 0 hp (Nat.zero_mul _)
    have hns : s ∉ ss := (List.nodup_cons.mp (nodup_of_canonical hp)).1
    refine ⟨fun x hx => ?_, fun k h => ?_⟩
    · simp only [List.mem_cons, not_or] at hx
      simp only [assignCodes]
      rw [i1 x hx.2, symGet_symSet_ne _ _ (Ne.symm hx.1), base]
    · cases k with
      | zero =>
        refine ⟨0, ?_, by simp [kraftOf]⟩
        simp only [List.getElem_cons_zero, assignCodes]
        rw [i1 s hns, symGet_symSet_self]
        rfl
      | succ k =>
        obtain ⟨c', e1, e2⟩ := i2 k (by simpa using h)
        refine ⟨c', by simp only [List.getElem_cons_succ, assignCodes]; exact e1, ?_⟩
        rw [List.getElem_cons_succ, e2, Nat.zero_add]

/-- A canonical order that fits in the Kraft sum: its codes fit their lengths. -/
structure Codes (len : Table Byte 256) (m : Nat) (order : List Byte) (code : Table Dword 256) : Prop where
  /-- Every length is at most the longest, and that is less than 64. -/
  longest : ∀ s, (symGet len s).toNat ≤ m
  small : m ≤ 63
  /-- The order. -/
  sorted : order.Pairwise (canonKeyBefore len)
  members : ∀ x, x ∈ order ↔ symGet len x ≠ 0
  /-- The code of the symbol at position `k` is the start of its interval. -/
  start : ∀ k (h : k < order.length),
    (symGet code order[k]).toNat * codeShare len m order[k] = kraftOf len m (order.take k)
  /-- Symbols without a length have code 0. -/
  uncoded : ∀ x, symGet len x = 0 → symGet code x = 0
  /-- The intervals do not reach past the end. -/
  fits : kraftOf len m order ≤ 2 ^ m

theorem codes_of_order {len : Table Byte 256} {m : Nat} (hm : ∀ s, (symGet len s).toNat ≤ m) (h63 : m ≤ 63)
    {order : List Byte} (old : Table Dword 256) (hp : order.Pairwise (canonKeyBefore len))
    (hmem : ∀ x, x ∈ order ↔ symGet len x ≠ 0) (hk : kraftOf len m order ≤ 2 ^ m) :
    Codes len m order (assignCodes len order old) := by
  obtain ⟨a1, a2⟩ := assignCodes_spec len m hm order old hp
  refine ⟨hm, h63, hp, hmem, fun k h => ?_, fun x hx => ?_, hk⟩
  · obtain ⟨c, e1, e2⟩ := a2 k h
    have hlt : c < 2 ^ 64 := by
      have h1 := kraftOf_take_le len m order k
      have h2 : 0 < codeShare len m order[k] := Nat.two_pow_pos _
      have h3 : c ≤ c * codeShare len m order[k] := Nat.le_mul_of_pos_right _ h2
      have h4 : (2 : Nat) ^ m ≤ 2 ^ 63 := Nat.pow_le_pow_right (by decide) h63
      have h5 : (2 : Nat) ^ 63 < 2 ^ 64 := by decide
      omega
    rw [e1, BitVec.toNat_ofNat, Nat.mod_eq_of_lt hlt]
    exact e2
  · rw [a1 x (fun h => (hmem x).mp h hx), if_pos hx]

namespace Codes

variable {len : Table Byte 256} {m : Nat} {order : List Byte} {code : Table Dword 256}

theorem nodup (h : Codes len m order code) : order.Nodup := nodup_of_canonical h.sorted

theorem length_eq (h : Codes len m order code) : order.length = codedCount len := length_of_members h.nodup h.members

/-- A symbol of the table, by its position. -/
theorem position (h : Codes len m order code) {x : Byte} (hx : symGet len x ≠ 0) :
    ∃ k, ∃ hk : k < order.length, order[k] = x := List.getElem_of_mem ((h.members x).mpr hx)

theorem share_mul (h : Codes len m order code) (x : Byte) : 2 ^ (symGet len x).toNat * codeShare len m x = 2 ^ m := by
  have := h.longest x
  rw [codeShare, ← Nat.pow_add]
  congr 1
  omega

/-- The code of a symbol ends within the Kraft sum. -/
theorem stop (h : Codes len m order code) {k : Nat} (hk : k < order.length) :
    ((symGet code order[k]).toNat + 1) * codeShare len m order[k] = kraftOf len m (order.take (k + 1)) := by
  rw [Nat.add_mul, h.start k hk, Nat.one_mul, kraftOf_take_succ len m hk]

/-- 41_canonical_code_generator.md R92 item 1: a code fits its length. -/
theorem lt (h : Codes len m order code) {x : Byte} (hx : symGet len x ≠ 0) :
    (symGet code x).toNat < 2 ^ (symGet len x).toNat := by
  obtain ⟨k, hk, rfl⟩ := h.position hx
  have h1 := h.stop hk
  have h2 := kraftOf_take_le len m order (k + 1)
  have h3 := h.fits
  have h4 := h.share_mul order[k]
  have h5 : 0 < codeShare len m order[k] := Nat.two_pow_pos _
  by_contra hc
  have : (2 ^ (symGet len order[k]).toNat + 1) * codeShare len m order[k] ≤
      ((symGet code order[k]).toNat + 1) * codeShare len m order[k] := Nat.mul_le_mul_right _ (by omega)
  rw [Nat.add_mul, h4] at this
  omega

/-- 41_canonical_code_generator.md R90: the code after the code of the symbol before. -/
theorem next (h : Codes len m order code) {k : Nat} (hk : k + 1 < order.length) :
    (symGet code order[k + 1]).toNat =
      ((symGet code order[k]).toNat + 1) * 2 ^ ((symGet len order[k + 1]).toNat - (symGet len order[k]).toNat) := by
  have h1 := h.start (k + 1) hk
  rw [← h.stop (Nat.lt_of_succ_lt hk)] at h1
  have hle := canonKeyBefore_length (List.pairwise_iff_getElem.mp h.sorted k (k + 1) (by omega) hk (by omega))
  have hl := h.longest order[k + 1]
  have h2 : codeShare len m order[k] =
      2 ^ ((symGet len order[k + 1]).toNat - (symGet len order[k]).toNat) * codeShare len m order[k + 1] := by
    rw [codeShare, codeShare, ← Nat.pow_add]
    congr 1
    omega
  rw [h2, ← Nat.mul_assoc] at h1
  exact Nat.eq_of_mul_eq_mul_right (Nat.two_pow_pos _) h1

/-- 41_canonical_code_generator.md R92 item 2: no code is a prefix of another. -/
theorem prefix_free (h : Codes len m order code) {x y : Byte} (hx : symGet len x ≠ 0) (hy : symGet len y ≠ 0)
    (hne : x ≠ y) : ¬ codeWord len code x <+: codeWord len code y := by
  rintro ⟨t, ht⟩
  obtain ⟨i, hi, rfl⟩ := h.position hx
  obtain ⟨j, hj, rfl⟩ := h.position hy
  have hlen := congrArg List.length ht
  simp only [codeWord, List.length_append, length_bitsOf] at hlen
  have hnum := congrArg numberOfBits ht
  have happ : numberOfBits (codeWord len code order[i] ++ t) =
      numberOfBits (codeWord len code order[i]) * 2 ^ t.length + numberOfBits t := by
    rw [numberOfBits, List.foldl_append, numberOfBits_snoc]
    rfl
  rw [happ, codeWord, codeWord, numberOfBits_bitsOf, numberOfBits_bitsOf, Nat.mod_eq_of_lt (h.lt hx),
    Nat.mod_eq_of_lt (h.lt hy)] at hnum
  have hlt := numberOfBits_lt t
  have hshare : codeShare len m order[i] = 2 ^ t.length * codeShare len m order[j] := by
    have := h.longest order[j]
    rw [codeShare, codeShare, ← Nat.pow_add]
    congr 1
    omega
  have hsi := h.start i hi
  have hsj := h.start j hj
  have hei := h.stop hi
  have hej := h.stop hj
  have hpos : 0 < codeShare len m order[j] := Nat.two_pow_pos _
  rw [← hnum, Nat.add_mul, Nat.mul_assoc, ← hshare, hsi] at hsj
  have hb : numberOfBits t * codeShare len m order[j] < codeShare len m order[i] := by
    rw [hshare]
    exact Nat.mul_lt_mul_of_pos_right hlt hpos
  rw [Nat.add_mul, hsi] at hei
  rcases Nat.lt_trichotomy i j with hij | hij | hij
  · have := kraftOf_take_mono len m order (show i + 1 ≤ j by omega)
    omega
  · subst hij
    exact hne rfl
  · have := kraftOf_take_mono len m order (show j + 1 ≤ i by omega)
    have h2 := kraftOf_take_succ len m hj
    omega

/-- 41_canonical_code_generator.md R92 item 3: where the Kraft sum is full, the last code is all ones. -/
theorem last (h : Codes len m order code) (hfull : kraftOf len m order = 2 ^ m) {x : Byte}
    (hx : order.getLast? = some x) : (symGet code x).toNat + 1 = 2 ^ (symGet len x).toNat := by
  have hne : order ≠ [] := by rintro rfl; cases hx
  have hk : order.length - 1 < order.length := by
    have := List.length_pos_of_ne_nil hne
    omega
  have e : order[order.length - 1] = x := by
    rw [List.getLast?_eq_getElem?, List.getElem?_eq_getElem hk] at hx
    exact Option.some.inj hx
  have h1 := h.stop hk
  have h2 : order.length - 1 + 1 = order.length := by omega
  rw [h2, List.take_length, hfull, ← h.share_mul order[order.length - 1]] at h1
  rw [← e]
  exact Nat.eq_of_mul_eq_mul_right (Nat.two_pow_pos _) h1

end Codes

/-! ### The table of an order -/

/-- The codes do not depend on the old contents. -/
theorem assignCodes_old {len : Table Byte 256} {m : Nat} (hm : ∀ s, (symGet len s).toNat ≤ m) {order : List Byte}
    (hp : order.Pairwise (canonKeyBefore len)) (hmem : ∀ x, x ∈ order ↔ symGet len x ≠ 0) (old old' : Table Dword 256) :
    assignCodes len order old = assignCodes len order old' := by
  obtain ⟨a1, a2⟩ := assignCodes_spec len m hm order old hp
  obtain ⟨b1, b2⟩ := assignCodes_spec len m hm order old' hp
  apply sym_ext
  intro x
  by_cases hx : x ∈ order
  · obtain ⟨k, hk, rfl⟩ := List.getElem_of_mem hx
    obtain ⟨c, e1, e2⟩ := a2 k hk
    obtain ⟨c', e1', e2'⟩ := b2 k hk
    rw [e1, e1', Nat.eq_of_mul_eq_mul_right (Nat.two_pow_pos _) (e2.trans e2'.symm)]
  · have hz : symGet len x = 0 := by
      by_contra h0
      exact hx ((hmem x).mpr h0)
    rw [a1 x hx, b1 x hx, if_pos hz, if_pos hz]

theorem symsList_canonTable (len : Table Byte 256) {order : List Byte} (hist : Table (Fin 257) 256) (m : Byte)
    (old : Canon) (h : order.length ≤ 256) : symsList (canonTable len order hist m old) = order := by
  have hn : (Fin.ofNat 257 order.length).val = order.length := Nat.mod_eq_of_lt (by omega)
  apply List.ext_getElem
  · rw [length_symsList]; exact hn
  · intro k h1 h2
    have hk : k < 256 := by omega
    have g := tblGet_tblSetFrom order 0 old.syms ⟨k, hk⟩
    rw [dif_pos ⟨Nat.zero_le _, by simpa using h2⟩] at g
    simp only [Nat.sub_zero] at g
    rw [← g]
    simp only [symsList, canonTable, List.getElem_take]
    simp [tblGet]

theorem tblSetFrom_again {α : Type} {n : Nat} (xs : List α) (i : Nat) (t : Table α n) :
    tblSetFrom i xs (tblSetFrom i xs t) = tblSetFrom i xs t := by
  apply tbl_ext
  intro j
  rw [tblGet_tblSetFrom, tblGet_tblSetFrom]
  split <;> rfl

theorem canonTable_again {len : Table Byte 256} {m : Nat} (hm : ∀ s, (symGet len s).toNat ≤ m) {order : List Byte}
    (hp : order.Pairwise (canonKeyBefore len)) (hmem : ∀ x, x ∈ order ↔ symGet len x ≠ 0)
    (hist : Table (Fin 257) 256) (b : Byte) (old : Canon) :
    canonTable len order hist b (canonTable len order hist b old) = canonTable len order hist b old := by
  simp only [canonTable, tblSetFrom_again, coverSyms_again, assignCodes_old hm hp hmem (assignCodes len order old.code) old.code]

/-- The order of a length table. -/
def orderOf (len : Table Byte 256) : List Byte := canonicalOrder len (maxLength len)

theorem orderOf_sorted (len : Table Byte 256) : (orderOf len).Pairwise (canonKeyBefore len) :=
  pairwise_canonicalOrder len _

theorem mem_orderOf (len : Table Byte 256) (x : Byte) : x ∈ orderOf len ↔ symGet len x ≠ 0 :=
  mem_canonicalOrder (Nat.le_refl _)

theorem length_orderOf (len : Table Byte 256) : (orderOf len).length = codedCount len :=
  length_of_members (nodup_of_canonical (orderOf_sorted len)) (mem_orderOf len)

theorem kraftOf_orderOf (len : Table Byte 256) (m : Nat) : kraftOf len m (orderOf len) = tableKraft len m :=
  (tableKraft_of_members (nodup_of_canonical (orderOf_sorted len)) (mem_orderOf len) m).symm

/-- CANON of a table that CANON built is that table (10_state.md R34). -/
theorem canonOf_again (len : Table Byte 256) (old : Canon) : canonOf len (canonOf len old) = canonOf len old :=
  canonTable_again (length_le_maxLength len) (orderOf_sorted len) (mem_orderOf len) _ _ old

theorem buildCanon_again {maxLen : Nat} {len : Table Byte 256} {old c : Canon} (h : buildCanon maxLen len old = .ok c) :
    buildCanon maxLen len c = .ok c := by
  obtain ⟨ha, rfl⟩ := buildCanon_eq_ok.mp h
  exact buildCanon_eq_ok.mpr ⟨ha, (canonOf_again len old).symm⟩

theorem symsList_canonOf (len : Table Byte 256) (old : Canon) : symsList (canonOf len old) = orderOf len :=
  symsList_canonTable len _ _ old (by
    have := codedCount_le len
    have := length_orderOf len
    simp only [orderOf] at this
    omega)

theorem nsym_canonOf (len : Table Byte 256) (old : Canon) : (canonOf len old).nsym.val = codedCount len := by
  have := codedCount_le len
  rw [← length_symsList, symsList_canonOf, length_orderOf]

theorem maxlen_canonOf (len : Table Byte 256) (old : Canon) : (canonOf len old).maxlen.toNat = maxLength len := by
  simp only [canonOf, canonTable, BitVec.toNat_ofNat]
  exact Nat.mod_eq_of_lt (maxLength_lt len)

/-- The entries of SYMS beyond the symbols of a table keep what they hold (10_state.md R42). -/
theorem syms_canonTable_ge (len : Table Byte 256) {order : List Byte} (hist : Table (Fin 257) 256) (m : Byte)
    (old : Canon) {k : Byte} (h : order.length ≤ k.toNat) :
    symGet (canonTable len order hist m old).syms k = symGet old.syms k := by
  simp only [canonTable, symGet]
  rw [tblGet_tblSetFrom, dif_neg]
  simp only [byteIndex_val]
  omega

theorem syms_canonOf_ge (len : Table Byte 256) (old : Canon) {k : Byte} (h : codedCount len ≤ k.toNat) :
    symGet (canonOf len old).syms k = symGet old.syms k :=
  syms_canonTable_ge len _ _ old (by rw [← length_orderOf] at h; exact h)

/-- The symbols of a current table have been written since the last reset or CLEAR (10_state.md R42). -/
theorem nsym_le_symsWritten {s : State} (h : s.Current) (hf : s.flags.codes = true) :
    s.canon.nsym.val ≤ s.canon.symsWritten.val := by
  obtain ⟨-, e⟩ := buildCanon_eq_ok.mp (h.codes hf)
  rw [e]
  exact ofNat_le_coverSyms _ _

theorem countOfLength_eq (len : Table Byte 256) (l : Byte) : countOfLength len l.toNat = symbolsWithLength len l := by
  simp only [countOfLength, symbolsWithLength, symEntries_eq_map, List.filter_map, List.length_map]
  congr 1
  apply List.filter_congr
  intro s _
  simp only [Function.comp]
  rw [Bool.eq_iff_iff, beq_iff_eq, beq_iff_eq]
  exact ⟨fun h => BitVec.eq_of_toNat_eq h, fun h => by rw [h]⟩

theorem symbolsWithLength_le (len : Table Byte 256) (l : Byte) : symbolsWithLength len l ≤ 256 := by
  have := List.length_filter_le (fun s => symGet len s == l) allSymbols
  rw [length_allSymbols] at this
  exact this

/-- HIST counts the symbols of each length (41_canonical_code_generator.md R93). -/
theorem symGet_histogramOf (len : Table Byte 256) (l : Byte) :
    (symGet (histogramOf len) l).val = if l = 0 then 0 else symbolsWithLength len l := by
  have hz : l = 0 ↔ l.toNat = 0 := ⟨fun e => by rw [e]; rfl, fun e => BitVec.eq_of_toNat_eq e⟩
  rw [histogramOf, symGet_tblOf]
  by_cases h : l = 0
  · rw [if_pos h, if_pos (hz.mp h)]; rfl
  · rw [if_neg h, if_neg (fun e => h (hz.mpr e)), countOfLength_eq]
    have := symbolsWithLength_le len l
    exact Nat.mod_eq_of_lt (by omega)

/-- The codes of an accepted length table. -/
theorem codes_of_accepted {maxLen : Nat} {len : Table Byte 256} (h63 : maxLen ≤ 63) (h : Accepted maxLen len)
    (old : Canon) : Codes len (maxLength len) (orderOf len) (canonOf len old).code := by
  obtain ⟨h1, h2, h3⟩ := accepted_iff.mp h
  refine codes_of_order (length_le_maxLength len) (by omega) old.code (orderOf_sorted len) (mem_orderOf len) ?_
  rcases h3 with ⟨hc, hm⟩ | ⟨-, hk⟩
  · have hl : (orderOf len).length = 1 := by rw [length_orderOf]; exact hc
    obtain ⟨x, hx⟩ := List.length_eq_one_iff.mp hl
    rw [hx, hm, kraftOf_cons]
    have hle : codeShare len 1 x ≤ 2 ^ 1 := Nat.pow_le_pow_right (by decide) (by omega)
    simpa [kraftOf] using hle
  · rw [kraftOf_orderOf, hk]

end Sys2Proof.Machine
end

