-- ==== Sys2Proof/Laws/Header.lean ====
section
/-! SUPPORT. The header that HDR_READ reads: the lengths of its positions, its order, and that an accepted header is a
canonical table (43_decoder_trie_walker.md R115 to R120). -/

namespace Sys2Proof.Machine

/-! ### The lengths of the positions -/

/-- `h` times each length, from `l` on: the lengths of the positions of a histogram. -/
def expandHistogram : Nat → List Nat → List Nat
  | _, [] => []
  | l, h :: hs => List.replicate h l ++ expandHistogram (l + 1) hs

@[simp] theorem length_expandHistogram : ∀ (l : Nat) (hist : List Nat), (expandHistogram l hist).length = hist.sum
  | _, [] => rfl
  | l, h :: hs => by simp [expandHistogram, length_expandHistogram (l + 1) hs]

theorem lengthFrom_eq : ∀ (l : Nat) (hist : List Nat) {i : Nat} (h : i < hist.sum),
    lengthFrom l hist i = (expandHistogram l hist)[i]'(by simpa using h)
  | _, [], i, h => by simp at h
  | l, x :: xs, i, h => by
    simp only [lengthFrom, expandHistogram]
    split
    · next hx => rw [List.getElem_append_left (by simpa using hx), List.getElem_replicate]
    · next hx =>
      rw [lengthFrom_eq (l + 1) xs (by simp at h; omega), List.getElem_append_right (by simpa using hx)]
      simp

theorem mem_expandHistogram : ∀ (l : Nat) (hist : List Nat) {x : Nat}, x ∈ expandHistogram l hist →
    l ≤ x ∧ x < l + hist.length
  | _, [], x, h => by simp [expandHistogram] at h
  | l, y :: ys, x, h => by
    simp only [expandHistogram, List.mem_append, List.mem_replicate] at h
    simp only [List.length_cons]
    rcases h with ⟨-, rfl⟩ | h
    · omega
    · have := mem_expandHistogram (l + 1) ys h
      omega

theorem pairwise_expandHistogram : ∀ (l : Nat) (hist : List Nat), (expandHistogram l hist).Pairwise (· ≤ ·)
  | _, [] => List.Pairwise.nil
  | l, y :: ys => by
    rw [expandHistogram, List.pairwise_append]
    refine ⟨List.pairwise_replicate.mpr (.inr (Nat.le_refl _)), pairwise_expandHistogram (l + 1) ys, ?_⟩
    intro a ha b hb
    have := (List.mem_replicate.mp ha).2
    have := mem_expandHistogram (l + 1) ys hb
    omega

theorem count_expandHistogram : ∀ (l : Nat) (hist : List Nat) (j : Nat),
    (expandHistogram l hist).count (l + j) = hist.getD j 0
  | _, [], j => by simp [expandHistogram]
  | l, y :: ys, 0 => by
    rw [expandHistogram, List.count_append, Nat.add_zero, List.count_replicate_self]
    have : (expandHistogram (l + 1) ys).count l = 0 := List.count_eq_zero.mpr fun h => by
      have := mem_expandHistogram (l + 1) ys h
      omega
    rw [this]
    rfl
  | l, y :: ys, j + 1 => by
    have h := count_expandHistogram (l + 1) ys j
    rw [expandHistogram, List.count_append, List.count_replicate, if_neg (by simp), Nat.zero_add]
    have e : l + (j + 1) = l + 1 + j := by omega
    rw [e, h]
    rfl

theorem kraft_expandHistogram : ∀ (l : Nat) (hist : List Nat),
    ((expandHistogram l hist).map fun x => 2 ^ (l + hist.length - 1 - x)).sum = headerKraft hist
  | _, [] => rfl
  | l, y :: ys => by
    have h := kraft_expandHistogram (l + 1) ys
    rw [expandHistogram, List.map_append, List.sum_append, List.map_replicate, List.sum_replicate, headerKraft, ← h]
    simp only [List.length_cons, smul_eq_mul]
    congr 3
    · omega
    · funext x
      congr 1
      omega

/-- The length of a position, between 1 and the longest (43_decoder_trie_walker.md R119). -/
theorem lengthAt_range {hist : List Nat} {i : Nat} (h : i < hist.sum) :
    1 ≤ lengthAt hist i ∧ lengthAt hist i ≤ hist.length := by
  rw [lengthAt, lengthFrom_eq 1 hist h]
  have := mem_expandHistogram 1 hist (List.getElem_mem (by simpa using h))
  omega

theorem lengthAt_mono {hist : List Nat} {i j : Nat} (hij : i ≤ j) (h : j < hist.sum) :
    lengthAt hist i ≤ lengthAt hist j := by
  rw [lengthAt, lengthAt, lengthFrom_eq 1 hist h, lengthFrom_eq 1 hist (Nat.lt_of_le_of_lt hij h)]
  rcases Nat.eq_or_lt_of_le hij with rfl | hlt
  · exact Nat.le_refl _
  · exact List.pairwise_iff_getElem.mp (pairwise_expandHistogram 1 hist) i j _ _ hlt

theorem lengthFrom_position : ∀ (l : Nat) (hist : List Nat) {i : Nat}, i < hist.sum →
    ∃ j, lengthFrom l hist i = l + j ∧ (hist.take j).sum ≤ i ∧ i < (hist.take (j + 1)).sum
  | _, [], i, h => by simp at h
  | l, x :: xs, i, h => by
    rw [lengthFrom]
    split
    · next hx => exact ⟨0, rfl, by simp, by simpa using hx⟩
    · next hx =>
      obtain ⟨j, e, h1, h2⟩ := lengthFrom_position (l + 1) xs (i := i - x) (by simp at h; omega)
      refine ⟨j + 1, by omega, ?_, ?_⟩
      · simp only [List.take_succ_cons, List.sum_cons]; omega
      · simp only [List.take_succ_cons, List.sum_cons] at h2 ⊢; omega

theorem take_sum_mono (hist : List Nat) {a b : Nat} (h : a ≤ b) : (hist.take a).sum ≤ (hist.take b).sum := by
  have e : hist.take b = hist.take a ++ (hist.take b).drop a := by
    conv => lhs; rw [← List.take_append_drop a (hist.take b), List.take_take, Nat.min_eq_left h]
  rw [e, List.sum_append]
  omega

/-- `ln(i)` is the least length with enough symbols (43_decoder_trie_walker.md R119). -/
theorem positionLength_iff {hist : List Nat} {i l : Nat} (h : i < hist.sum) :
    positionLength hist i l ↔ l = lengthAt hist i := by
  obtain ⟨j, e, h1, h2⟩ := lengthFrom_position 1 hist h
  have e' : lengthAt hist i = j + 1 := by rw [lengthAt, e]; omega
  rw [e']
  constructor
  · rintro ⟨h3, h4⟩
    rcases Nat.lt_trichotomy l (j + 1) with hl | hl | hl
    · have := take_sum_mono hist (show l ≤ j by omega)
      omega
    · exact hl
    · have := take_sum_mono hist (show j + 1 ≤ l - 1 by omega)
      omega
  · rintro rfl
    exact ⟨h1, h2⟩

theorem positionLength_lt {hist : List Nat} {i l : Nat} (h : positionLength hist i l) : i < hist.sum := by
  have := take_sum_mono hist (Nat.le_max_left l hist.length)
  rw [List.take_of_length_le (Nat.le_max_right l hist.length)] at this
  have := h.2
  omega

/-! ### The symbol list -/

/-- Each symbol of a list keeps the order after `seen`. -/
def inOrderFrom (hist : List Nat) : Nat → List Byte → List Byte → Prop
  | _, _, [] => True
  | i, seen, v :: vs => symbolInOrder hist i v seen = true ∧ inOrderFrom hist (i + 1) (v :: seen) vs

theorem readSymbols_eq_ok {inp : Input} {hist : List Nat} : ∀ {k i : Nat} {seen : List Byte} {r r' : Reader}
    {out : List Byte}, readSymbols inp hist k i seen r = .ok (out, r') →
    ∃ vs, readRawBytes inp k r = .ok (vs, r') ∧ inOrderFrom hist i seen vs ∧ out = seen.reverse ++ vs
  | 0, i, seen, r, r', out, h => by
    cases h
    exact ⟨[], rfl, trivial, by simp⟩
  | k + 1, i, seen, r, r', out, h => by
    obtain ⟨⟨v, r1⟩, h1, h⟩ := bind_eq_ok h
    obtain ⟨u, h2, h⟩ := bind_eq_ok h
    obtain ⟨vs, h3, h4, h5⟩ := readSymbols_eq_ok h
    refine ⟨v :: vs, ?_, ⟨require_eq_ok h2, h4⟩, by simp [h5]⟩
    simp [readRawBytes, h1, h3]

theorem readSymbols_ok {inp : Input} {hist : List Nat} : ∀ {vs : List Byte} {i : Nat} {seen : List Byte} {r r' : Reader},
    readRawBytes inp vs.length r = .ok (vs, r') → inOrderFrom hist i seen vs →
    readSymbols inp hist vs.length i seen r = .ok (seen.reverse ++ vs, r')
  | [], i, seen, r, r', h, _ => by cases h; simp [readSymbols]
  | v :: vs, i, seen, r, r', h, ho => by
    obtain ⟨⟨v', r1⟩, h1, h⟩ := bind_eq_ok h
    obtain ⟨⟨vs', r2⟩, h2, h⟩ := bind_eq_ok h
    cases h
    have := readSymbols_ok (i := i + 1) (seen := v :: seen) h2 ho.2
    simp only [List.length_cons, readSymbols, h1, ho.1, run_ok_bind, require_true, this, List.reverse_cons,
      List.append_assoc, List.singleton_append]

theorem inOrderFrom_append {hist : List Nat} : ∀ {us vs : List Byte} {i : Nat} {seen : List Byte},
    inOrderFrom hist i seen (us ++ vs) ↔
      inOrderFrom hist i seen us ∧ inOrderFrom hist (i + us.length) (us.reverse ++ seen) vs
  | [], vs, i, seen => by simp [inOrderFrom]
  | u :: us, vs, i, seen => by
    simp only [List.cons_append, inOrderFrom, inOrderFrom_append (us := us), List.length_cons, List.reverse_cons,
      List.append_assoc, and_assoc, List.nil_append]
    rw [Nat.add_assoc, Nat.add_comm 1]

/-- One more symbol. -/
theorem inOrderFrom_snoc {hist : List Nat} {us : List Byte} {v : Byte} :
    inOrderFrom hist 0 [] (us ++ [v]) ↔ inOrderFrom hist 0 [] us ∧ symbolInOrder hist us.length v us.reverse = true := by
  simp [inOrderFrom_append, inOrderFrom]

/-- Check 7 symbol by symbol is check 7 on the whole list (43_decoder_trie_walker.md R118 row 7). -/
theorem inOrderFrom_iff {hist : List Nat} (vs : List Byte) (h : vs.length ≤ hist.sum) :
    inOrderFrom hist 0 [] vs ↔ symbolsInOrder hist vs := by
  induction vs using List.reverseRecOn with
  | nil => simp [inOrderFrom, symbolsInOrder]
  | append_singleton us v ih =>
    simp only [List.length_append, List.length_singleton] at h
    rw [inOrderFrom_snoc, ih (by omega)]
    have hn : (us ++ [v]).Nodup ↔ us.Nodup ∧ v ∉ us := by
      rw [← List.concat_eq_append, List.nodup_concat]; tauto
    have hc : symbolInOrder hist us.length v us.reverse = true ↔ v ∉ us ∧
        ∀ l x, us[us.length - 1]? = some x → us ≠ [] → positionLength hist (us.length - 1) l →
          positionLength hist us.length l → x.toNat < v.toNat := by
      unfold symbolInOrder
      rcases List.eq_nil_or_concat us with rfl | ⟨ws, x, rfl⟩
      · simp
      · simp only [List.concat_eq_append, List.length_append, List.length_singleton, List.reverse_append,
          List.reverse_singleton, List.singleton_append, Nat.add_sub_cancel] at h ⊢
        have p1 : ∀ l, positionLength hist ws.length l ↔ l = lengthAt hist ws.length :=
          fun l => positionLength_iff (by omega)
        have p2 : ∀ l, positionLength hist (ws.length + 1) l ↔ l = lengthAt hist (ws.length + 1) :=
          fun l => positionLength_iff (by omega)
        simp only [p1, p2, Bool.and_eq_true, Bool.or_eq_true, bne_iff_ne, decide_eq_true_eq, Bool.not_eq_true',
          List.contains_eq_mem, decide_eq_false_iff_not, List.mem_cons, List.mem_reverse, List.mem_append,
          List.getElem?_concat_length, Option.some.injEq, List.not_mem_nil, or_false]
        constructor
        · rintro ⟨ha, hb⟩
          refine ⟨by tauto, ?_⟩
          rintro l y rfl - rfl he
          rcases ha with ha | ha
          · exact absurd he.symm ha
          · exact ha
        · rintro ⟨ha, hb⟩
          refine ⟨?_, by tauto⟩
          by_cases he : lengthAt hist (ws.length + 1) = lengthAt hist ws.length
          · exact .inr (hb _ x rfl (by simp) he rfl)
          · exact .inl he
    rw [hc]
    unfold symbolsInOrder
    rw [hn]
    constructor
    · rintro ⟨⟨a, b⟩, c, d⟩
      refine ⟨⟨a, c⟩, fun i l x y hx hy p q => ?_⟩
      by_cases hi : i + 1 < us.length
      · rw [List.getElem?_append_left (by omega)] at hx
        rw [List.getElem?_append_left hi] at hy
        exact b i l x y hx hy p q
      · have hi' : i + 1 = us.length := by
          have := (List.getElem?_eq_some_iff.mp hy).1
          simp at this
          omega
        rw [List.getElem?_append_left (by omega)] at hx
        rw [hi', List.getElem?_concat_length] at hy
        cases hy
        have e : us.length - 1 = i := by omega
        exact d l x (by rw [e]; exact hx) (by rintro rfl; simp at hi') (by rw [e]; exact p) (by rw [← hi']; exact q)
    · rintro ⟨⟨a, c⟩, b⟩
      refine ⟨⟨a, fun i l x y hx hy p q => ?_⟩, c, fun l x hx hne p q => ?_⟩
      · have h1 := (List.getElem?_eq_some_iff.mp hx).1
        have h2 := (List.getElem?_eq_some_iff.mp hy).1
        exact b i l x y (by rw [List.getElem?_append_left h1]; exact hx) (by rw [List.getElem?_append_left h2]; exact hy) p q
      · have h1 := (List.getElem?_eq_some_iff.mp hx).1
        have e : us.length - 1 + 1 = us.length := by omega
        exact b (us.length - 1) l x v (by rw [List.getElem?_append_left h1]; exact hx)
          (by rw [e, List.getElem?_concat_length]) p (by rw [e]; exact q)

/-! ### The lengths of an accepted header -/

theorem lengthsFrom_spec (hist : List Nat) : ∀ (vs : List Byte) (i : Nat) (len : Table Byte 256), vs.Nodup →
    (∀ x, x ∉ vs → symGet (lengthsFrom hist i vs len) x = symGet len x) ∧
    ∀ k (h : k < vs.length), symGet (lengthsFrom hist i vs len) vs[k] = BitVec.ofNat 8 (lengthAt hist (i + k))
  | [], _, _, _ => ⟨fun _ _ => rfl, fun k h => absurd h (Nat.not_lt_zero k)⟩
  | v :: vs, i, len, hn => by
    obtain ⟨hv, hn'⟩ := List.nodup_cons.mp hn
    obtain ⟨a, b⟩ := lengthsFrom_spec hist vs (i + 1) (symSet len v (BitVec.ofNat 8 (lengthAt hist i))) hn'
    refine ⟨fun x hx => ?_, fun k h => ?_⟩
    · simp only [List.mem_cons, not_or] at hx
      rw [lengthsFrom, a x hx.2, symGet_symSet_ne _ _ (Ne.symm hx.1)]
    · cases k with
      | zero => rw [List.getElem_cons_zero, lengthsFrom, a v hv, symGet_symSet_self]; rfl
      | succ k =>
        have := b k (by simpa using h)
        rw [List.getElem_cons_succ, lengthsFrom, this]
        congr 2
        omega

/-- A header that passes every check of 43_decoder_trie_walker.md R118. -/
structure GoodHeader (maxLen : Nat) (h : Header) : Prop where
  length_hist : h.hist.length = h.m.toNat
  sum_pos : 1 ≤ h.hist.sum
  sum_le : h.hist.sum ≤ 256
  last : h.hist.getLastD 0 ≠ 0
  representable : h.m.toNat ≤ maxLen
  full : (h.hist.sum = 1 ∧ h.m.toNat = 1) ∨ (h.hist.sum ≠ 1 ∧ headerKraft h.hist = 2 ^ h.m.toNat)
  length_syms : h.syms.length = h.hist.sum
  inOrder : symbolsInOrder h.hist h.syms

theorem checkHistogram_iff {maxLen : Nat} {m : Byte} {hist : List Nat} :
    checkHistogram maxLen m hist = .ok () ↔
      1 ≤ hist.sum ∧ hist.sum ≤ 256 ∧ hist.getLastD 0 ≠ 0 ∧ m.toNat ≤ maxLen ∧
        ((hist.sum = 1 ∧ m.toNat = 1) ∨ (hist.sum ≠ 1 ∧ headerKraft hist = 2 ^ m.toNat)) := by
  have hm1 : m = 1 ↔ m.toNat = 1 := ⟨fun e => by rw [e]; rfl, fun e => BitVec.eq_of_toNat_eq e⟩
  constructor
  · intro h
    obtain ⟨u1, h1, h⟩ := bind_eq_ok h
    obtain ⟨u2, h2, h⟩ := bind_eq_ok h
    obtain ⟨u3, h3, h⟩ := bind_eq_ok h
    have h1 := require_eq_ok h1
    have h2 := require_eq_ok h2
    have h3 := require_eq_ok h3
    simp only [Bool.and_eq_true, decide_eq_true_eq] at h1 h3
    refine ⟨h1.1, h1.2, bne_iff_ne.mp h2, h3, ?_⟩
    split at h
    · next hs => exact .inl ⟨hs, hm1.mp (beq_iff_eq.mp (require_eq_ok h))⟩
    · next hs => exact .inr ⟨hs, beq_iff_eq.mp (require_eq_ok h)⟩
  · rintro ⟨h1, h2, h3, h4, h5⟩
    have h3' : (hist.getLastD 0 != 0) = true := bne_iff_ne.mpr h3
    simp only [checkHistogram, h1, h2, decide_true, Bool.and_self, require_true, run_ok_bind, h3', h4]
    rcases h5 with ⟨h5, h6⟩ | ⟨h5, h6⟩
    · rw [if_pos h5, hm1.mpr h6]; rfl
    · rw [if_neg h5, beq_iff_eq.mpr h6]; rfl

namespace GoodHeader

variable {maxLen : Nat} {h : Header}

theorem length_small (g : GoodHeader maxLen h) {k : Nat} (hk : k < h.syms.length) :
    1 ≤ lengthAt h.hist k ∧ lengthAt h.hist k ≤ h.m.toNat := by
  have := lengthAt_range (hist := h.hist) (i := k) (by rw [← g.length_syms]; exact hk)
  rw [g.length_hist] at this
  exact this

/-- The length of a listed symbol. -/
theorem length_get (g : GoodHeader maxLen h) {k : Nat} (hk : k < h.syms.length) :
    (symGet (headerLengths h) h.syms[k]).toNat = lengthAt h.hist k := by
  have h1 := (lengthsFrom_spec h.hist h.syms 0 (tblOf 256 fun _ => 0) g.inOrder.1).2 k hk
  have h2 := g.length_small hk
  have h3 := h.m.isLt
  rw [headerLengths, h1, Nat.zero_add, BitVec.toNat_ofNat]
  exact Nat.mod_eq_of_lt (by omega)

theorem length_absent (g : GoodHeader maxLen h) {x : Byte} (hx : x ∉ h.syms) : symGet (headerLengths h) x = 0 := by
  rw [headerLengths, (lengthsFrom_spec h.hist h.syms 0 (tblOf 256 fun _ => 0) g.inOrder.1).1 x hx, symGet_tblOf]

theorem members (g : GoodHeader maxLen h) (x : Byte) : x ∈ h.syms ↔ symGet (headerLengths h) x ≠ 0 := by
  constructor
  · intro hx e
    obtain ⟨k, hk, rfl⟩ := List.getElem_of_mem hx
    have h1 := g.length_get hk
    have h2 := g.length_small hk
    rw [e] at h1
    have : (0 : Byte).toNat = 0 := rfl
    omega
  · intro hx
    by_contra hc
    exact hx (g.length_absent hc)

/-- The listed symbols stand in canonical order (43_decoder_trie_walker.md R119). -/
theorem sorted (g : GoodHeader maxLen h) : h.syms.Pairwise (canonKeyBefore (headerLengths h)) := by
  have step : ∀ i (hi : i + 1 < h.syms.length), canonKeyBefore (headerLengths h) h.syms[i] h.syms[i + 1] := by
    intro i hi
    have hs := g.length_syms
    unfold canonKeyBefore
    rw [g.length_get (by omega), g.length_get hi]
    have hle := lengthAt_mono (hist := h.hist) (show i ≤ i + 1 by omega) (by omega)
    rcases Nat.eq_or_lt_of_le hle with he | hlt
    · refine .inr ⟨he, g.inOrder.2 i (lengthAt h.hist i) _ _ (List.getElem?_eq_getElem _) (List.getElem?_eq_getElem _) ?_ ?_⟩
      · exact (positionLength_iff (by omega)).mpr rfl
      · exact (positionLength_iff (by omega)).mpr he
    · exact .inl hlt
  have far : ∀ d i (hi : i + d + 1 < h.syms.length),
      canonKeyBefore (headerLengths h) h.syms[i] h.syms[i + d + 1] := by
    intro d
    induction d with
    | zero => exact fun i hi => step i hi
    | succ d ih =>
      intro i hi
      have h1 := ih i (by omega)
      have h2 := step (i + d + 1) (by omega)
      unfold canonKeyBefore at *
      have e : i + (d + 1) + 1 = i + d + 1 + 1 := by omega
      simp only [e]
      omega
  rw [List.pairwise_iff_getElem]
  intro i j hi hj hij
  have := far (j - i - 1) i (by omega)
  have e : i + (j - i - 1) + 1 = j := by omega
  simp only [e] at this
  exact this

/-- The lengths of the listed symbols, one after the other. -/
theorem map_length (g : GoodHeader maxLen h) :
    (h.syms.map fun s => (symGet (headerLengths h) s).toNat) = expandHistogram 1 h.hist := by
  apply List.ext_getElem
  · rw [List.length_map, length_expandHistogram, g.length_syms]
  · intro k h1 h2
    have hk : k < h.syms.length := by simpa using h1
    rw [List.getElem_map, g.length_get hk, lengthAt, lengthFrom_eq]
    rw [← g.length_syms]
    exact hk

theorem longest (g : GoodHeader maxLen h) : maxLength (headerLengths h) = h.m.toNat := by
  apply isLongest_iff.mp
  constructor
  · intro s
    by_cases hs : s ∈ h.syms
    · obtain ⟨k, hk, rfl⟩ := List.getElem_of_mem hs
      rw [g.length_get hk]
      exact (g.length_small hk).2
    · rw [g.length_absent hs]
      exact Nat.zero_le _
  · have hne : h.hist ≠ [] := by
      intro e
      have := g.sum_pos
      rw [e] at this
      simp at this
    have hpos := List.length_pos_of_ne_nil hne
    have hc := count_expandHistogram 1 h.hist (h.hist.length - 1)
    have hd : h.hist.getD (h.hist.length - 1) 0 = h.hist.getLastD 0 := by
      rw [List.getLastD_eq_getLast?, List.getLast?_eq_getElem?, List.getD_eq_getElem?_getD]
    rw [hd] at hc
    have hmem : h.hist.length ∈ expandHistogram 1 h.hist := by
      have e : 1 + (h.hist.length - 1) = h.hist.length := by omega
      rw [e] at hc
      apply List.count_pos_iff.mp
      have := g.last
      omega
    rw [← g.map_length] at hmem
    obtain ⟨s, -, hs⟩ := List.mem_map.mp hmem
    exact ⟨s, by rw [hs, g.length_hist]⟩

theorem order_eq (g : GoodHeader maxLen h) : orderOf (headerLengths h) = h.syms :=
  canonical_unique (orderOf_sorted _) g.sorted fun x => (mem_orderOf _ x).trans (g.members x).symm

theorem count_eq (g : GoodHeader maxLen h) : codedCount (headerLengths h) = h.hist.sum := by
  rw [← length_orderOf, g.order_eq, g.length_syms]

theorem kraft_eq (g : GoodHeader maxLen h) : tableKraft (headerLengths h) h.m.toNat = headerKraft h.hist := by
  have e := kraft_expandHistogram 1 h.hist
  rw [← g.map_length, List.map_map] at e
  rw [tableKraft_of_members (nodup_of_canonical g.sorted) g.members, ← e]
  congr 2
  funext s
  simp only [Function.comp]
  congr 2
  have := g.length_hist
  omega

/-- A listed length is counted by the histogram. -/
theorem withLength (g : GoodHeader maxLen h) {l : Byte} (hl : l ≠ 0) :
    symbolsWithLength (headerLengths h) l = h.hist.getD (l.toNat - 1) 0 := by
  have hz : l.toNat ≠ 0 := fun e => hl (BitVec.eq_of_toNat_eq e)
  have hp : (allSymbols.filter fun s => symGet (headerLengths h) s == l).Perm
      (h.syms.filter fun s => symGet (headerLengths h) s == l) := by
    rw [List.perm_ext_iff_of_nodup (nodup_allSymbols.filter _) (g.inOrder.1.filter _)]
    intro x
    simp only [List.mem_filter, mem_allSymbols, true_and, beq_iff_eq]
    constructor
    · intro e; exact ⟨(g.members x).mpr (by rw [e]; exact hl), e⟩
    · exact fun e => e.2
  have hc := count_expandHistogram 1 h.hist (l.toNat - 1)
  have e : 1 + (l.toNat - 1) = l.toNat := by omega
  rw [e, ← g.map_length, List.count_eq_length_filter, List.filter_map, List.length_map] at hc
  rw [symbolsWithLength, hp.length_eq, ← hc]
  congr 1
  apply List.filter_congr
  intro s _
  simp only [Function.comp]
  rw [Bool.eq_iff_iff, beq_iff_eq, beq_iff_eq]
  exact ⟨fun h => by rw [h], fun h => BitVec.eq_of_toNat_eq h⟩

theorem hist_eq (g : GoodHeader maxLen h) : headerHist h = histogramOf (headerLengths h) := by
  apply sym_ext
  intro l
  rw [headerHist, histogramOf, symGet_tblOf, symGet_tblOf]
  by_cases hz : l.toNat = 0
  · rw [if_pos hz, if_pos hz]
  · rw [if_neg hz, if_neg hz, countOfLength_eq, g.withLength fun e => hz (by rw [e]; rfl)]

/-- The lengths of an accepted header are an accepted length table (43_decoder_trie_walker.md R120). -/
theorem accepted (g : GoodHeader maxLen h) : Accepted maxLen (headerLengths h) := by
  rw [accepted_iff, g.longest]
  refine ⟨by rw [g.count_eq]; exact g.sum_pos, g.representable, ?_⟩
  have hp := g.sum_pos
  rcases g.full with ⟨h1, h2⟩ | ⟨h1, h2⟩
  · exact .inl ⟨by rw [g.count_eq]; exact h1, h2⟩
  · exact .inr ⟨by rw [g.count_eq]; omega, by rw [g.kraft_eq]; exact h2⟩

/-- The table that HDR_READ commits is the one CANON builds from its lengths (43_decoder_trie_walker.md R120). -/
theorem canon_eq (g : GoodHeader maxLen h) (old : Canon) :
    canonTable (headerLengths h) h.syms (headerHist h) h.m old = canonOf (headerLengths h) old := by
  have hm : BitVec.ofNat 8 (maxLength (headerLengths h)) = h.m := by rw [g.longest]; simp
  have ho := g.order_eq
  simp only [orderOf] at ho
  rw [canonOf, ho, hm, g.hist_eq]

end GoodHeader

/-! ### Reading a header -/

theorem inputHoldsBytes_append {inp : Input} : ∀ {us vs : List Byte} {k : Nat}, us ≠ [] → vs ≠ [] →
    (inputHoldsBytes inp k (us ++ vs) ↔ inputHoldsBytes inp k us ∧ inputHoldsBytes inp (k + us.length) vs)
  | [], _, _, h, _ => absurd rfl h
  | [u], vs, k, _, hv => by
    rw [List.singleton_append, inputHoldsBytes_cons, inputHoldsBytes_cons]
    simp only [List.length_singleton]
    have : inputHoldsBytes inp (k + 1) vs → k + 1 ≤ inp.len.toNat := fun h => by
      have := h.1; omega
    constructor
    · rintro ⟨a, b, c⟩; exact ⟨⟨a, b, this c, fun i hi => absurd hi (by simp)⟩, c⟩
    · rintro ⟨⟨a, b, -⟩, c⟩; exact ⟨a, b, c⟩
  | u :: u' :: us, vs, k, _, hv => by
    have ih := inputHoldsBytes_append (inp := inp) (us := u' :: us) (vs := vs) (k := k + 1) (by simp) hv
    rw [List.cons_append, inputHoldsBytes_cons, inputHoldsBytes_cons, ih]
    simp only [List.length_cons, and_assoc]
    have : k + 1 + (us.length + 1) = k + (us.length + 1 + 1) := by omega
    rw [this]

/-- What HDR_READ has read when it completes. -/
theorem readHeader_eq_ok {maxLen : Nat} {inp : Input} {r r' : Reader} {h : Header}
    (e : readHeader maxLen inp r = .ok (h, r')) :
    GoodHeader maxLen h ∧ ∃ raw bytes, h.hist = headerHistogram raw ∧ raw.length = h.m.toNat ∧ bytes.length = 8 ∧
      h.plen = BitVec.ofNat 64 (dwordOfBytes bytes) ∧
      inputHoldsBytes inp r.pos.toNat ([h.m] ++ raw ++ h.syms ++ bytes) ∧
      r'.pos.toNat = r.pos.toNat + ([h.m] ++ raw ++ h.syms ++ bytes).length ∧ r'.acc = r.acc ∧ r'.left = r.left := by
  obtain ⟨⟨m, raw, r2⟩, h0, e⟩ := bind_eq_ok e
  obtain ⟨⟨m', r1⟩, h1, h0⟩ := bind_eq_ok h0
  obtain ⟨u, h2, h0⟩ := bind_eq_ok h0
  obtain ⟨⟨raw', r2'⟩, h3, h0⟩ := bind_eq_ok h0
  cases h0
  obtain ⟨u', h4, e⟩ := bind_eq_ok e
  obtain ⟨⟨syms, r3⟩, h5, e⟩ := bind_eq_ok e
  obtain ⟨⟨bytes, r4⟩, h6, e⟩ := bind_eq_ok e
  cases e
  obtain ⟨vs, h7, h8, h9⟩ := readSymbols_eq_ok h5
  simp only [List.reverse_nil, List.nil_append] at h9
  subst h9
  obtain ⟨c1, c2, c3, c4, c5⟩ := checkHistogram_iff.mp h4
  obtain ⟨p1, rfl, p2, p3⟩ := readRawByte_eq_ok h1
  obtain ⟨l2, b2, q2, a2, f2⟩ := readRawBytes_eq_ok h3
  obtain ⟨l3, b3, q3, a3, f3⟩ := readRawBytes_eq_ok h7
  obtain ⟨l4, b4, q4, a4, f4⟩ := readRawBytes_eq_ok h6
  have hm : (ibufRead inp r.pos.toNat).toNat ≠ 0 := by
    intro ez
    have := bne_iff_ne.mp (require_eq_ok h2)
    exact this (BitVec.eq_of_toNat_eq ez)
  have hl : (headerHistogram raw).length = raw.length := by
    unfold headerHistogram
    split
    · next hr => rw [hr]; rfl
    · simp
  refine ⟨⟨by simp only; rw [hl, l2], c1, c2, c3, c4, c5, l3, (inOrderFrom_iff syms (Nat.le_of_eq l3)).mp h8⟩, raw, bytes, rfl, l2,
    l4, rfl, ?_, ?_, ?_, ?_⟩
  · have n1 : raw ≠ [] := by rintro rfl; exact hm l2.symm
    have n2 : syms ≠ [] := by rintro rfl; simp at l3; omega
    have n3 : bytes ≠ [] := by rintro rfl; simp at l4
    rw [inputHoldsBytes_append (by simp) n3, inputHoldsBytes_append (by simp) n2, inputHoldsBytes_append (by simp) n1]
    refine ⟨⟨⟨?_, ?_⟩, ?_⟩, ?_⟩
    · rw [inputHoldsBytes_cons]
      exact ⟨p1, rfl, by simp; omega, fun i hi => absurd hi (by simp)⟩
    · rw [List.length_singleton, ← p2]; exact b2 hm
    · rw [List.length_append, List.length_singleton, ← Nat.add_assoc, ← p2, l2, ← q2]; exact b3 (Nat.ne_of_gt c1)
    · rw [List.length_append, List.length_append, List.length_singleton, ← Nat.add_assoc, ← Nat.add_assoc, ← p2, l2,
        ← q2, l3, ← q3]
      exact b4 (by decide)
  · simp only [List.length_append, List.length_singleton]
    omega
  · simp only [a4, a3, a2, p3]
  · simp only [f4, f3, f2, p3]

/-- HDR_READ reads a header that stands at the reader's position. -/
theorem readHeader_ok {maxLen : Nat} {inp : Input} {r : Reader} {h : Header} (g : GoodHeader maxLen h) {raw : List Byte}
    {bytes : List Byte} (hh : h.hist = headerHistogram raw) (hr : raw.length = h.m.toNat) (hb : bytes.length = 8)
    (hp : h.plen = BitVec.ofNat 64 (dwordOfBytes bytes))
    (hi : inputHoldsBytes inp r.pos.toNat ([h.m] ++ raw ++ h.syms ++ bytes)) :
    ∃ r', readHeader maxLen inp r = .ok (h, r') ∧
      r'.pos.toNat = r.pos.toNat + ([h.m] ++ raw ++ h.syms ++ bytes).length ∧ r'.acc = r.acc ∧ r'.left = r.left := by
  have hlen := g.length_hist
  have hmz : h.m.toNat ≠ 0 := by
    intro ez
    rw [ez] at hlen
    have := g.sum_pos
    rw [List.eq_nil_of_length_eq_zero hlen] at this
    simp at this
  have n1 : raw ≠ [] := by rintro rfl; exact hmz hr.symm
  have n2 : h.syms ≠ [] := by
    intro e
    have h1 := g.length_syms
    have h2 := g.sum_pos
    rw [e] at h1
    simp at h1
    omega
  have n3 : bytes ≠ [] := by rintro rfl; simp at hb
  rw [inputHoldsBytes_append (by simp) n3, inputHoldsBytes_append (by simp) n2, inputHoldsBytes_append (by simp) n1] at hi
  obtain ⟨⟨⟨i1, i2⟩, i3⟩, i4⟩ := hi
  rw [inputHoldsBytes_cons] at i1
  have hn := nextPos_toNat i1.1
  simp only [List.length_append, List.length_singleton] at i2 i3 i4
  have e1 := readRawByte_ok (r := r) i1.1
  rw [i1.2.1] at e1
  obtain ⟨r2, e2, p2, a2, f2⟩ := readRawBytes_ok raw (r := { r with pos := BitVec.ofNat 25 (r.pos.toNat + 1) })
    (by simp only [hn]; exact i2)
  simp only [hn] at p2
  obtain ⟨r3, e3, p3, a3, f3⟩ := readRawBytes_ok h.syms (r := r2) (inp := inp) (by rw [p2, Nat.add_assoc]; exact i3)
  obtain ⟨r4, e4, p4, a4, f4⟩ := readRawBytes_ok bytes (r := r3) (inp := inp)
    (by rw [p3, p2, Nat.add_assoc, Nat.add_assoc, ← Nat.add_assoc 1]; exact i4)
  have e5 := readSymbols_ok (hist := h.hist) (i := 0) (seen := []) e3
    ((inOrderFrom_iff h.syms (by rw [g.length_syms])).mpr g.inOrder)
  have e6 : checkHistogram maxLen h.m h.hist = .ok () :=
    checkHistogram_iff.mpr ⟨g.sum_pos, g.sum_le, g.last, g.representable, g.full⟩
  have hm0 : (h.m != 0) = true := bne_iff_ne.mpr fun e => hmz (by rw [e]; rfl)
  rw [hr] at e2
  rw [g.length_syms] at e5
  rw [hb] at e4
  refine ⟨r4, ?_, ?_, ?_, ?_⟩
  · simp only [readHeader, readHistogram, e1, run_ok_bind, hm0, require_true, e2, ← hh, e6, e5, List.reverse_nil, List.nil_append, e4,
      ← hp]
  · simp only [List.length_append, List.length_singleton]
    omega
  · rw [a4, a3, a2]
  · rw [f4, f3, f2]

/-! ### Reading a header in part -/

/-- After the symbols that keep the order, the rest are read. -/
theorem readSymbols_prefix {inp : Input} {hist : List Nat} (k : Nat) :
    ∀ {vs : List Byte} {i : Nat} {seen : List Byte} {r r' : Reader},
      readRawBytes inp vs.length r = .ok (vs, r') → inOrderFrom hist i seen vs →
      readSymbols inp hist (vs.length + k) i seen r = readSymbols inp hist k (i + vs.length) (vs.reverse ++ seen) r'
  | [], i, seen, r, r', h, _ => by cases h; simp
  | v :: vs, i, seen, r, r', h, ho => by
    obtain ⟨⟨v', r1⟩, h1, h⟩ := bind_eq_ok h
    obtain ⟨⟨vs', r2⟩, h2, h⟩ := bind_eq_ok h
    cases h
    have := readSymbols_prefix k (i := i + 1) (seen := v :: seen) h2 ho.2
    have e : (v :: vs).length + k = vs.length + k + 1 := by simp only [List.length_cons]; omega
    rw [e, readSymbols, h1]
    simp only [run_ok_bind, ho.1, require_true, this, List.length_cons, List.reverse_cons, List.append_assoc,
      List.singleton_append]
    rw [Nat.add_assoc, Nat.add_comm 1]

/-- The histogram that stands at the reader's position. -/
theorem readHistogram_ok {inp : Input} {r : Reader} {m : Byte} {raw : List Byte} (hm : m ≠ 0)
    (hr : raw.length = m.toNat) (hi : inputHoldsBytes inp r.pos.toNat (m :: raw)) :
    ∃ r2 : Reader, r2.pos.toNat = r.pos.toNat + 1 + m.toNat ∧ readHistogram inp r = .ok (m, raw, r2) := by
  obtain ⟨h1, h2, h3⟩ := inputHoldsBytes_cons.mp hi
  have hn := nextPos_toNat h1
  have e1 := readRawByte_ok h1
  rw [h2] at e1
  obtain ⟨r2, e2, p2, -, -⟩ := readRawBytes_ok raw (r := { r with pos := BitVec.ofNat 25 (r.pos.toNat + 1) })
    (by simp only [hn]; exact h3)
  simp only [hn] at p2
  rw [hr] at e2 p2
  have hm0 : (m != 0) = true := bne_iff_ne.mpr hm
  exact ⟨r2, p2, by simp only [readHistogram, e1, run_ok_bind, hm0, require_true, e2]⟩

/-- The histogram of the header that HDR_READ accepts is the one read first. -/
theorem readHeader_hist {maxLen : Nat} {inp : Input} {r r2 r' : Reader} {m : Byte} {raw : List Byte} {h : Header}
    (e : readHistogram inp r = .ok (m, raw, r2)) (e' : readHeader maxLen inp r = .ok (h, r')) :
    h.hist = headerHistogram raw := by
  rw [readHeader, e, run_ok_bind] at e'
  obtain ⟨u, -, e'⟩ := bind_eq_ok e'
  obtain ⟨⟨syms, r3⟩, -, e'⟩ := bind_eq_ok e'
  obtain ⟨⟨bytes, r4⟩, -, e'⟩ := bind_eq_ok e'
  cases e'
  rfl

/-- HDR_READ knows the number of symbols once the histogram has been read (43_decoder_trie_walker.md R115). -/
theorem hdrReadSymbols_eq {s : State} {m : Byte} {raw : List Byte} (hl : s.reader.left = 0) (hm : m ≠ 0)
    (hr : raw.length = m.toNat) (hi : inputHoldsBytes s.input s.reader.pos.toNat (m :: raw)) :
    hdrReadSymbols s = min (headerHistogram raw).sum 256 := by
  obtain ⟨r2, -, e⟩ := readHistogram_ok hm hr hi
  simp only [hdrReadSymbols, requireReaderAligned_yes hl, run_ok_bind, e]

/-- The header once its histogram has been read. -/
theorem readHeader_histogram {maxLen : Nat} {inp : Input} {r : Reader} {m : Byte} {raw : List Byte} (hm : m ≠ 0)
    (hr : raw.length = m.toNat) (hi : inputHoldsBytes inp r.pos.toNat (m :: raw)) :
    ∃ r2 : Reader, r2.pos.toNat = r.pos.toNat + 1 + m.toNat ∧
      readHeader maxLen inp r = (do
        checkHistogram maxLen m (headerHistogram raw)
        let (syms, r3) ← readSymbols inp (headerHistogram raw) (headerHistogram raw).sum 0 [] r2
        let (bytes, r4) ← readRawBytes inp 8 r3
        .ok ({ m := m, hist := headerHistogram raw, syms := syms, plen := BitVec.ofNat 64 (dwordOfBytes bytes) }, r4)) := by
  obtain ⟨r2, p2, e⟩ := readHistogram_ok hm hr hi
  exact ⟨r2, p2, by simp only [readHeader, e, run_ok_bind]⟩

/-- A prefix of held bytes is held. -/
theorem inputHoldsBytes_prefix {inp : Input} : ∀ {us vs : List Byte} {k : Nat}, inputHoldsBytes inp k (us ++ vs) →
    inputHoldsBytes inp k us
  | us, vs, k, h => by
    refine ⟨?_, fun i hi => ?_⟩
    · have := h.1
      rw [List.length_append] at this
      omega
    · rw [h.2 i (by rw [List.length_append]; omega), List.getElem_append_left hi]

/-- The rest of held bytes is held, further on. -/
theorem inputHoldsBytes_suffix {inp : Input} {us vs : List Byte} {k : Nat} (h : inputHoldsBytes inp k (us ++ vs)) :
    inputHoldsBytes inp (k + us.length) vs := by
  refine ⟨?_, fun i hi => ?_⟩
  · have := h.1
    rw [List.length_append] at this
    omega
  · rw [Nat.add_assoc, h.2 (us.length + i) (by rw [List.length_append]; omega),
      List.getElem_append_right (Nat.le_add_right _ _)]
    simp

end Sys2Proof.Machine
end

