-- ==== Sys2Proof/Laws/HeaderBytes.lean ====
section
/-! SUPPORT. The bytes of a header: the histogram escape, the little-endian payload length, and that the header of an
accepted table passes every check (42_bitstream_packer.md R107, R113; 43_decoder_trie_walker.md R117). -/

namespace Sys2Proof.Machine

/-! ### Little-endian values -/

theorem dwordOfBytes_snoc (b : Byte) : ∀ bs : List Byte,
    dwordOfBytes (bs ++ [b]) = dwordOfBytes bs + 256 ^ bs.length * b.toNat
  | [] => by simp [dwordOfBytes]
  | x :: xs => by
    rw [List.cons_append, dwordOfBytes, dwordOfBytes_snoc b xs, dwordOfBytes, List.length_cons, pow_succ]
    ring

theorem dwordOfBytes_extract (v : Dword) (n : Nat) :
    dwordOfBytes ((List.range n).map fun k => v.extractLsb' (8 * k) 8) = v.toNat % 2 ^ (8 * n) := by
  induction n with
  | zero => simp [dwordOfBytes, Nat.mod_one]
  | succ n ih =>
    rw [List.range_succ, List.map_append, List.map_singleton, dwordOfBytes_snoc, ih, List.length_map, List.length_range]
    have e : (v.extractLsb' (8 * n) 8).toNat = v.toNat / 2 ^ (8 * n) % 2 ^ 8 := by
      rw [BitVec.extractLsb'_toNat, Nat.shiftRight_eq_div_pow]
    have p : (256 : Nat) ^ n = 2 ^ (8 * n) := by rw [Nat.pow_mul]
    rw [e, p, Nat.mul_add, Nat.mul_one, Nat.pow_add, Nat.mod_mul]

theorem dwordOfBytes_littleEndian (v : Dword) : BitVec.ofNat 64 (dwordOfBytes (littleEndianBytes v)) = v := by
  apply BitVec.eq_of_toNat_eq
  rw [littleEndianBytes, dwordOfBytes_extract, BitVec.toNat_ofNat]
  have := v.isLt
  rw [Nat.mod_mod, Nat.mod_eq_of_lt this]

theorem dwordOfBytes_lt : ∀ bs : List Byte, dwordOfBytes bs < 256 ^ bs.length
  | [] => by simp [dwordOfBytes]
  | b :: bs => by
    have := dwordOfBytes_lt bs
    have hb := b.isLt
    rw [dwordOfBytes, List.length_cons, pow_succ]
    omega

theorem dwordOfBytes_get : ∀ (bs : List Byte) {k : Nat} (h : k < bs.length),
    dwordOfBytes bs / 256 ^ k % 256 = bs[k].toNat
  | [], k, h => absurd h (Nat.not_lt_zero k)
  | b :: bs, 0, _ => by
    have hb := b.isLt
    simp only [dwordOfBytes, pow_zero, Nat.div_one, List.getElem_cons_zero]
    omega
  | b :: bs, k + 1, h => by
    have ih := dwordOfBytes_get bs (k := k) (by simpa using h)
    have hb := b.isLt
    have e : (b.toNat + 256 * dwordOfBytes bs) / 256 = dwordOfBytes bs := by omega
    rw [dwordOfBytes, pow_succ, Nat.mul_comm (256 ^ k), ← Nat.div_div_eq_div_mul, e, List.getElem_cons_succ]
    exact ih

theorem littleEndianBytes_dword {bs : List Byte} (h : bs.length = 8) :
    littleEndianBytes (BitVec.ofNat 64 (dwordOfBytes bs)) = bs := by
  apply List.ext_getElem
  · rw [length_littleEndianBytes, h]
  · intro k h1 h2
    have hk : k < 8 := by omega
    have hlt := dwordOfBytes_lt bs
    rw [h] at hlt
    have hmod : dwordOfBytes bs % 2 ^ 64 = dwordOfBytes bs := Nat.mod_eq_of_lt hlt
    apply BitVec.eq_of_toNat_eq
    simp only [littleEndianBytes, List.getElem_map, List.getElem_range, BitVec.extractLsb'_toNat, BitVec.toNat_ofNat]
    rw [hmod, Nat.shiftRight_eq_div_pow, Nat.pow_mul]
    exact dwordOfBytes_get bs h2

/-! ### The histogram escape -/

theorem histogramRead_eq (raw : List Byte) : histogramRead raw = headerHistogram raw := by
  unfold histogramRead headerHistogram
  by_cases h : raw = List.replicate 8 0
  · rw [if_pos h, if_pos (List.eq_replicate_iff.mp h)]; rfl
  · rw [if_neg h, if_neg fun h' => h (List.eq_replicate_iff.mpr h')]

theorem histogramKraft_eq (hist : List Nat) : histogramKraft hist = headerKraft hist := by
  unfold histogramKraft
  induction hist with
  | nil => rfl
  | cons x xs ih =>
    rw [headerKraft, ← ih, List.length_cons, List.range_succ_eq_map, List.map_cons, List.sum_cons, List.map_map]
    simp only [List.getD_cons_zero, Nat.zero_add, Nat.add_sub_cancel]
    congr 3
    funext k
    simp only [Function.comp, List.getD_cons_succ]
    congr 2
    omega

theorem length_headerHistogram (raw : List Byte) : (headerHistogram raw).length = raw.length := by
  unfold headerHistogram
  split
  · next h => rw [h]; rfl
  · simp

/-- The bytes of the histogram that was read are the bytes read. -/
theorem headerHistogram_bytes (raw : List Byte) : (headerHistogram raw).map (BitVec.ofNat 8) = raw := by
  unfold headerHistogram
  split
  · next h => rw [h]; rfl
  · rw [List.map_map]
    conv => rhs; rw [← List.map_id raw]
    apply List.map_congr_left
    intro b _
    simp

theorem headerKraft_zeros (n x : Nat) : headerKraft (List.replicate n 0 ++ [x]) = x := by
  induction n with
  | zero => simp [headerKraft]
  | succ n ih => rw [List.replicate_succ, List.cons_append, headerKraft, ih]; omega

theorem le_sum_of_mem {l : List Nat} {x : Nat} (h : x ∈ l) : x ≤ l.sum := List.le_sum_of_mem h

/-- Reading the histogram's bytes gives the histogram back, 256 symbols of one length included
(43_decoder_trie_walker.md R117). -/
theorem GoodHeader.histogram_again {maxLen : Nat} {h : Header} (g : GoodHeader maxLen h) :
    headerHistogram (h.hist.map (BitVec.ofNat 8)) = h.hist := by
  have hne : h.hist ≠ [] := by
    intro e
    have := g.sum_pos
    rw [e] at this
    simp at this
  have hd : h.hist = h.hist.dropLast ++ [h.hist.getLast hne] := (List.dropLast_concat_getLast hne).symm
  have hlast : h.hist.getLast hne ≠ 0 := by
    have := g.last
    rwa [List.getLastD_eq_getLast?, List.getLast?_eq_some_getLast hne, Option.getD_some] at this
  have hsum : h.hist.dropLast.sum + h.hist.getLast hne = h.hist.sum := by
    conv => rhs; rw [hd, List.sum_append, List.sum_singleton]
  have hle := g.sum_le
  by_cases h256 : 256 ∈ h.hist
  · have h0 : h.hist.getLast hne = 256 ∧ h.hist.dropLast.sum = 0 := by
      rw [hd, List.mem_append, List.mem_singleton] at h256
      rcases h256 with hm | hm
      · have := le_sum_of_mem hm
        omega
      · omega
    have hz : h.hist.dropLast = List.replicate h.hist.dropLast.length 0 := by
      rw [List.eq_replicate_iff]
      refine ⟨rfl, fun x hx => ?_⟩
      have := le_sum_of_mem hx
      omega
    have hform : h.hist = List.replicate h.hist.dropLast.length 0 ++ [256] := by
      rw [← hz]
      conv => lhs; rw [hd, h0.1]
    have hs : h.hist.sum = 256 := by omega
    have hm : h.m.toNat = 8 := by
      rcases g.full with ⟨h1, -⟩ | ⟨-, h2⟩
      · omega
      · rw [hform, headerKraft_zeros] at h2
        exact (Nat.pow_right_injective (Nat.le_refl 2) (show 2 ^ 8 = 2 ^ h.m.toNat from h2)).symm
    have hl : h.hist.dropLast.length = 7 := by
      rw [List.length_dropLast, g.length_hist, hm]
    rw [hl] at hform
    rw [hform]
    rfl
  · have hlt : ∀ x ∈ h.hist, x < 256 := by
      intro x hx
      have := le_sum_of_mem hx
      have : x ≠ 256 := fun e => h256 (e ▸ hx)
      omega
    have hback : (h.hist.map (BitVec.ofNat 8)).map (fun b => b.toNat) = h.hist := by
      rw [List.map_map]
      conv => rhs; rw [← List.map_id h.hist]
      apply List.map_congr_left
      intro x hx
      simp only [Function.comp, BitVec.toNat_ofNat, id]
      exact Nat.mod_eq_of_lt (hlt x hx)
    unfold headerHistogram
    rw [if_neg, hback]
    intro e
    have hz := (List.eq_replicate_iff.mp e).2 (BitVec.ofNat 8 (h.hist.getLast hne))
      (List.mem_map_of_mem (List.getLast_mem hne))
    have := congrArg BitVec.toNat hz
    simp only [BitVec.toNat_ofNat] at this
    rw [Nat.mod_eq_of_lt (hlt _ (List.getLast_mem hne))] at this
    exact hlast this

/-! ### The header of an accepted table -/

/-- The histogram of a length table, from length 1 to the longest. -/
def tableHistogram (len : Table Byte 256) : List Nat :=
  (List.range (maxLength len)).map fun k => symbolsWithLength len (BitVec.ofNat 8 (k + 1))

/-- The header of a length table. -/
def tableHeader (len : Table Byte 256) (plen : Dword) : Header :=
  { m := BitVec.ofNat 8 (maxLength len), hist := tableHistogram len, syms := orderOf len, plen := plen }

theorem expandHistogram_range (f : Nat → Nat) : ∀ (n l : Nat) (g : Nat → Nat),
    expandHistogram l ((List.range n).map g) = (List.range n).flatMap fun k => List.replicate (g k) (l + k)
  | 0, _, _ => rfl
  | n + 1, l, g => by
    have ih := expandHistogram_range f n (l + 1) (fun k => g (k + 1))
    rw [List.range_succ_eq_map, List.map_cons, List.map_map, expandHistogram, List.flatMap_cons, List.flatMap_map]
    simp only [Function.comp_def, Nat.add_zero]
    rw [ih]
    congr 2
    funext k
    congr 1
    omega

theorem expand_tableHistogram (len : Table Byte 256) :
    expandHistogram 1 (tableHistogram len) = (orderOf len).map fun s => (symGet len s).toNat := by
  rw [tableHistogram, expandHistogram_range id, orderOf, canonicalOrder, List.map_flatMap]
  apply List.flatMap_congr
  intro k hk
  have hlt := maxLength_lt len
  have hk' := List.mem_range.mp hk
  have ht : (BitVec.ofNat 8 (k + 1) : Byte).toNat = k + 1 := by
    rw [BitVec.toNat_ofNat]
    exact Nat.mod_eq_of_lt (by omega)
  symm
  rw [List.eq_replicate_iff]
  constructor
  · rw [List.length_map, symbolsOfLength_eq, symbolsWithLength]
    congr 1
    apply List.filter_congr
    intro s _
    rw [Bool.eq_iff_iff, beq_iff_eq, beq_iff_eq]
    exact ⟨fun h => BitVec.eq_of_toNat_eq (by rw [h, ht]), fun h => by rw [h, ht]⟩
  · intro x hx
    obtain ⟨s, hs, rfl⟩ := List.mem_map.mp hx
    rw [symbolsOfLength_eq] at hs
    simp only [List.mem_filter, beq_iff_eq] at hs
    omega

theorem sum_tableHistogram (len : Table Byte 256) : (tableHistogram len).sum = codedCount len := by
  rw [← length_expandHistogram 1, expand_tableHistogram, List.length_map, length_orderOf]

theorem lengthAt_tableHistogram {len : Table Byte 256} {k : Nat} (h : k < (orderOf len).length) :
    lengthAt (tableHistogram len) k = (symGet len (orderOf len)[k]).toNat := by
  have hk : k < (tableHistogram len).sum := by rw [sum_tableHistogram, ← length_orderOf]; exact h
  rw [lengthAt, lengthFrom_eq 1 _ hk]
  simp only [expand_tableHistogram, List.getElem_map]

theorem toNat_tableHeader_m (len : Table Byte 256) (plen : Dword) : (tableHeader len plen).m.toNat = maxLength len := by
  simp only [tableHeader, BitVec.toNat_ofNat]
  exact Nat.mod_eq_of_lt (maxLength_lt len)

/-- The header of an accepted table passes every check. -/
theorem tableHeader_good {maxLen : Nat} {len : Table Byte 256} (h : Accepted maxLen len) (plen : Dword) :
    GoodHeader maxLen (tableHeader len plen) := by
  obtain ⟨h1, h2, h3⟩ := accepted_iff.mp h
  have hm := toNat_tableHeader_m len plen
  have hs : (tableHeader len plen).hist.sum = codedCount len := sum_tableHistogram len
  have hkr : headerKraft (tableHistogram len) = tableKraft len (maxLength len) := by
    have e := kraft_expandHistogram 1 (tableHistogram len)
    rw [expand_tableHistogram, List.map_map] at e
    rw [← e, tableKraft_of_members (nodup_of_canonical (orderOf_sorted len)) (mem_orderOf len)]
    congr 2
    funext s
    simp only [Function.comp, tableHistogram, List.length_map, List.length_range]
    congr 2
    omega
  refine ⟨?_, by rw [hs]; exact h1, by rw [hs]; exact codedCount_le len, ?_, by rw [hm]; exact h2, ?_, ?_, ?_⟩
  · rw [hm]; simp [tableHeader, tableHistogram]
  · obtain ⟨-, s, hs⟩ := isLongest_iff.mpr (rfl : maxLength len = maxLength len)
    obtain ⟨x, hx⟩ := List.exists_mem_of_length_pos (l := codedList len) h1
    have hxz := mem_codedList.mp hx
    have hle := length_le_maxLength len x
    have hpos : 1 ≤ maxLength len := by
      have : (symGet len x).toNat ≠ 0 := fun e => hxz (BitVec.eq_of_toNat_eq e)
      omega
    obtain ⟨k, hk⟩ : ∃ k, maxLength len = k + 1 := ⟨maxLength len - 1, by omega⟩
    have hlt := maxLength_lt len
    have : symGet len s = BitVec.ofNat 8 (k + 1) := by
      apply BitVec.eq_of_toNat_eq
      rw [hs, hk, BitVec.toNat_ofNat]
      exact (Nat.mod_eq_of_lt (by omega)).symm
    simp only [tableHeader, tableHistogram, hk, List.range_succ, List.map_append, List.map_singleton]
    rw [List.getLastD_eq_getLast?, List.getLast?_append, List.getLast?_singleton, Option.some_or, Option.getD_some]
    apply Nat.ne_of_gt
    apply List.length_pos_of_mem (a := s)
    simp [this]
  · rw [hs, hm]
    rcases h3 with ⟨a, b⟩ | ⟨a, b⟩
    · exact .inl ⟨a, b⟩
    · exact .inr ⟨by omega, by rw [← b, ← hkr]; rfl⟩
  · rw [hs]; exact length_orderOf len
  · refine ⟨nodup_of_canonical (orderOf_sorted len), fun i l x y hx hy p q => ?_⟩
    obtain ⟨hi, rfl⟩ := List.getElem?_eq_some_iff.mp hx
    obtain ⟨hj, rfl⟩ := List.getElem?_eq_some_iff.mp hy
    have hi' : i < (orderOf len).length := hi
    have hj' : i + 1 < (orderOf len).length := hj
    have hsum : (tableHeader len plen).hist.sum = (orderOf len).length := by rw [hs, length_orderOf]
    have e1 := (positionLength_iff (by rw [hsum]; exact hi')).mp p
    have e2 := (positionLength_iff (by rw [hsum]; exact hj')).mp q
    have l1 : lengthAt (tableHeader len plen).hist i = _ := lengthAt_tableHistogram hi'
    have l2 : lengthAt (tableHeader len plen).hist (i + 1) = _ := lengthAt_tableHistogram hj'
    have hb := List.pairwise_iff_getElem.mp (orderOf_sorted len) i (i + 1) hi' hj' (by omega)
    unfold canonKeyBefore at hb
    simp only [tableHeader]
    omega

/-- The lengths of the header of a length table are that table. -/
theorem headerLengths_table {maxLen : Nat} {len : Table Byte 256} (h : Accepted maxLen len) (plen : Dword) :
    headerLengths (tableHeader len plen) = len := by
  have g := tableHeader_good h plen
  apply sym_ext
  intro x
  by_cases hx : x ∈ orderOf len
  · obtain ⟨k, hk, rfl⟩ := List.getElem_of_mem hx
    apply BitVec.eq_of_toNat_eq
    have e1 := g.length_get (k := k) hk
    have e2 := lengthAt_tableHistogram hk
    exact e1.trans e2
  · rw [g.length_absent hx]
    by_contra hc
    exact hx ((mem_orderOf len x).mpr fun e => hc e.symm)

/-- The header bytes of an accepted table (42_bitstream_packer.md R107). -/
theorem headerBytes_table (len : Table Byte 256) (old : Canon) (plen : Dword) :
    headerBytes (canonOf len old) plen =
      [(tableHeader len plen).m] ++ (tableHistogram len).map (BitVec.ofNat 8) ++ orderOf len ++
        littleEndianBytes plen := by
  have hlt := maxLength_lt len
  have e : histogramBytes (canonOf len old) = (tableHistogram len).map (BitVec.ofNat 8) := by
    apply List.ext_getElem
    · rw [length_histogramBytes, maxlen_canonOf]; simp [tableHistogram]
    · intro k h1 h2
      have hk : k < (canonOf len old).maxlen.toNat := by rw [length_histogramBytes] at h1; exact h1
      have g := histogramBytes_get (canonOf len old) hk
      rw [List.getElem?_eq_getElem h1] at g
      rw [Option.some.inj g]
      have hz : (BitVec.ofNat 8 (k + 1) : Byte) ≠ 0 := by
        intro ez
        have := congrArg BitVec.toNat ez
        rw [maxlen_canonOf] at hk
        simp at this
        omega
      have hh : (canonOf len old).hist = histogramOf len := rfl
      rw [hh, symGet_histogramOf, if_neg hz]
      simp [tableHistogram]
  rw [headerBytes, e, symsList_canonOf]
  rfl

/-- An accepted header is the header of its length table. -/
theorem GoodHeader.table {maxLen : Nat} {h : Header} (g : GoodHeader maxLen h) :
    tableHeader (headerLengths h) h.plen = h := by
  have hm : BitVec.ofNat 8 (maxLength (headerLengths h)) = h.m := by rw [g.longest]; simp
  have hh : tableHistogram (headerLengths h) = h.hist := by
    apply List.ext_getElem
    · simp [tableHistogram, g.longest, g.length_hist]
    · intro k h1 h2
      have hk : k + 1 < 256 := by
        have := g.length_hist
        have := h.m.isLt
        omega
      have ht : (BitVec.ofNat 8 (k + 1) : Byte).toNat = k + 1 := by
        rw [BitVec.toNat_ofNat]
        exact Nat.mod_eq_of_lt hk
      have hz : (BitVec.ofNat 8 (k + 1) : Byte) ≠ 0 := by
        intro e
        rw [e] at ht
        simp at ht
      simp only [tableHistogram, List.getElem_map, List.getElem_range]
      rw [g.withLength hz, ht, Nat.add_sub_cancel, List.getD_eq_getElem?_getD, List.getElem?_eq_getElem h2]
      rfl
  simp only [tableHeader, hm, hh, g.order_eq]

/-! ### The tables of CANON and HDR_READ -/

/-- What HDR_READ commits is an accepted table (43_decoder_trie_walker.md R120). -/
theorem commitHeader_table {maxLen : Nat} {h : Header} (g : GoodHeader maxLen h) (s : State) (r : Reader) :
    (commitHeader s h r).canon = canonOf (commitHeader s h r).len s.canon := g.canon_eq s.canon

/-- A completed CANON or HDR_READ leaves the canonical table of an accepted length table. -/
theorem built_table {i : Instr} {s t : State} (h : buildsTable i s t) :
    Accepted s.cfg.maxCodeLen t.len ∧ t.canon = canonOf t.len s.canon := by
  obtain ⟨hi, he, hr⟩ := h
  rcases hi with rfl | rfl
  · rcases execCanon_cases he with ⟨c, hc, rfl⟩ | ⟨r, -, rfl⟩
    · obtain ⟨ha, rfl⟩ := buildCanon_eq_ok.mp hc
      exact ⟨ha, rfl⟩
    · simp at hr
  · rcases execHdrRead_cases he with ⟨-, hd, r, hh, rfl⟩ | ⟨-, rfl⟩ | ⟨e, -, -, rfl⟩
    · obtain ⟨g, -⟩ := readHeader_eq_ok hh
      exact ⟨g.accepted, commitHeader_table g s r⟩
    · simp at hr
    · simp at hr

/-- The sum of the numbers of symbols of each length is the number of symbols with a code
(41_canonical_code_generator.md R93). -/
theorem sum_symbolsWithLength (len : Table Byte 256) :
    ((allSymbols.filter fun l => l != 0).map (symbolsWithLength len)).sum = codedCount len := by
  have part : ∀ (xs : List Byte) (ls : List Byte), ls.Nodup → (∀ x ∈ xs, symGet len x ∈ ls) →
      (ls.map fun l => (xs.filter fun s => symGet len s == l).length).sum = xs.length := by
    intro xs
    induction xs with
    | nil => intro ls _ _; simp
    | cons x xs ih =>
      intro ls hn hx
      have ih' := ih ls hn fun y hy => hx y (List.mem_cons_of_mem _ hy)
      have hone : (ls.map fun l => if symGet len x == l then 1 else 0).sum = 1 := by
        have hmem := hx x List.mem_cons_self
        clear ih ih' hx
        induction ls with
        | nil => simp at hmem
        | cons a as iha =>
          rw [List.map_cons, List.sum_cons]
          obtain ⟨ha, hn'⟩ := List.nodup_cons.mp hn
          by_cases e : symGet len x = a
          · have hz : (as.map fun l => if symGet len x == l then 1 else 0).sum = 0 := by
              rw [List.sum_eq_zero_iff]
              intro y hy
              obtain ⟨l, hl, rfl⟩ := List.mem_map.mp hy
              rw [if_neg]
              intro hc
              rw [beq_iff_eq] at hc
              exact ha (by rw [← e, hc]; exact hl)
            rw [hz, if_pos (by rw [e]; exact beq_self_eq_true a)]
          · rw [if_neg (by rw [beq_iff_eq]; exact e), iha hn' (by
              rcases List.mem_cons.mp hmem with h | h
              · exact absurd h e
              · exact h)]
      have hsplit : (ls.map fun l => ((x :: xs).filter fun s => symGet len s == l).length) =
          ls.map fun l => (if symGet len x == l then 1 else 0) + (xs.filter fun s => symGet len s == l).length := by
        apply List.map_congr_left
        intro l _
        rw [List.filter_cons]
        split
        · rw [List.length_cons]; omega
        · omega
      rw [hsplit, List.sum_map_add, hone, ih', List.length_cons]
      omega
  have hp := part (codedList len) (allSymbols.filter fun l => l != 0) (nodup_allSymbols.filter _) fun x hx =>
    List.mem_filter.mpr ⟨mem_allSymbols _, bne_iff_ne.mpr (mem_codedList.mp hx)⟩
  have hc : codedCount len = (codedList len).length := rfl
  rw [hc, ← hp]
  refine congrArg List.sum (List.map_congr_left fun l hl => ?_)
  have hl0 : l ≠ 0 := bne_iff_ne.mp (List.mem_filter.mp hl).2
  rw [symbolsWithLength, codedList, List.filter_filter]
  refine congrArg List.length (List.filter_congr fun s _ => ?_)
  rw [Bool.eq_iff_iff, Bool.and_eq_true, beq_iff_eq, bne_iff_ne]
  exact ⟨fun h => ⟨h, by rw [h]; exact hl0⟩, fun h => h.1⟩

end Sys2Proof.Machine
end

