-- ==== Sys2Proof/Laws/TreeBuilder.lean ====
section
/-! SUPPORT. The merge of BUILD: what a selection takes, what every merge keeps, and what the last merge leaves. -/

namespace Sys2Proof.Machine

/-! ### NODE by number -/

theorem finOfNat_inj {i j : Nat} (hi : i < 511) (hj : j < 511) : Fin.ofNat 511 i = Fin.ofNat 511 j ↔ i = j := by
  constructor
  · intro h
    have := congrArg Fin.val h
    simp only [Fin.ofNat] at this
    omega
  · rintro rfl; rfl

theorem nodeAt_set {t : Table Node 511} {i k : Nat} (v : Node) (hi : i < 511) (hk : k < 511) :
    nodeAt (tblSet t (Fin.ofNat 511 k) v) i = if k = i then v else nodeAt t i := by
  rw [nodeAt, nodeAt, tblGet_tblSet]
  simp only [finOfNat_inj hk hi]

theorem nodeAt_setFrom (xs : List Node) (t : Table Node 511) {i : Nat} (hi : i < 511) :
    nodeAt (tblSetFrom 0 xs t) i = if h : i < xs.length then xs[i] else nodeAt t i := by
  have e : (Fin.ofNat 511 i).val = i := Nat.mod_eq_of_lt hi
  unfold nodeAt
  rw [tblGet_tblSetFrom]
  by_cases h : i < xs.length
  · rw [dif_pos ⟨Nat.zero_le _, by omega⟩, dif_pos h]
    simp [Nat.mod_eq_of_lt hi]
  · rw [dif_neg (by omega), dif_neg h]

theorem nodeAt_val (t : Table Node 511) (id : NodeId) : nodeAt t id.val = tblGet t id := by
  unfold nodeAt
  congr 1
  exact Fin.ext (Nat.mod_eq_of_lt id.isLt)

theorem nodeRefOf_lt {i : Nat} (h : i < 511) : nodeRefOf i = some (Fin.ofNat 511 i) := by
  rw [nodeRefOf, dif_pos h]
  congr 1
  exact Fin.ext (Nat.mod_eq_of_lt h).symm

theorem nodeRefOf_inj {i j : Nat} (hi : i < 511) (hj : j < 511) : nodeRefOf i = nodeRefOf j ↔ i = j := by
  rw [nodeRefOf_lt hi, nodeRefOf_lt hj, Option.some.injEq, finOfNat_inj hi hj]

/-! ### Selection -/

/-- The nodes not consumed yet: Queue A, then Queue B (40_tree_builder.md R78). -/
def queued (n : Nat) (m : MergeState) : List Nat :=
  List.range' m.qa (n - m.qa) ++ List.range' m.qb (m.nx - m.qb)

/-- The queues stand in their ranges (40_tree_builder.md R78). -/
structure InRange (n : Nat) (m : MergeState) : Prop where
  qa : m.qa ≤ n
  qb_ge : n ≤ m.qb
  qb_le : m.qb ≤ m.nx

theorem mem_queued {n : Nat} {m : MergeState} (h : InRange n m) (z : Nat) :
    z ∈ queued n m ↔ (m.qa ≤ z ∧ z < n) ∨ (m.qb ≤ z ∧ z < m.nx) := by
  have := h.qa
  have := h.qb_le
  simp only [queued, List.mem_append, List.mem_range'_1]
  omega

theorem length_queued {n : Nat} (m : MergeState) : (queued n m).length = (n - m.qa) + (m.nx - m.qb) := by
  simp [queued]

theorem nodup_queued {n : Nat} {m : MergeState} (h : InRange n m) : (queued n m).Nodup := by
  have := h.qb_ge
  unfold queued
  refine List.Nodup.append (List.nodup_range' ..) (List.nodup_range' ..) ?_
  intro a ha hb
  simp only [List.mem_range'_1] at ha hb
  have := h.qa
  omega

/-- The weight of a node. -/
abbrev weightAt (t : Table Node 511) (i : Nat) : Nat := (nodeAt t i).w.toNat

/-- Both queues ascend in weight (40_tree_builder.md R77, R82 item 3). -/
structure Ascending (n : Nat) (m : MergeState) : Prop where
  leaves : ∀ i j, i ≤ j → j < n → weightAt m.node i ≤ weightAt m.node j
  inner : ∀ i j, n ≤ i → i ≤ j → j < m.nx → weightAt m.node i ≤ weightAt m.node j

/-- Select takes the unconsumed node with the least key (40_tree_builder.md R79, R81). -/
theorem selectNode_spec {n : Nat} {m : MergeState} (h : InRange n m) (ha : Ascending n m)
    (hq : 0 < (queued n m).length) :
    (selectNode n m).2.node = m.node ∧ (selectNode n m).2.nx = m.nx ∧ InRange n (selectNode n m).2 ∧
      (selectNode n m).1 ∈ queued n m ∧
      (queued n m).Perm ((selectNode n m).1 :: queued n (selectNode n m).2) ∧
      (∀ z ∈ queued n m, z ≠ (selectNode n m).1 → nodeKeyBefore m.node (selectNode n m).1 z) ∧
      (selectNode n m).2.qa + (selectNode n m).2.qb = m.qa + m.qb + 1 := by
  have h1 := h.qa
  have h2 := h.qb_ge
  have h3 := h.qb_le
  rw [length_queued] at hq
  unfold selectNode
  by_cases hw : queueAWins n m = true
  · rw [if_pos hw]
    simp only [queueAWins, Bool.and_eq_true, Bool.or_eq_true, decide_eq_true_eq, beq_iff_eq] at hw
    obtain ⟨hlt, hle⟩ := hw
    refine ⟨rfl, rfl, ⟨hlt, h2, h3⟩, (mem_queued h _).mpr (.inl ⟨Nat.le_refl _, hlt⟩), ?_, ?_, by simp; omega⟩
    · have e : n - m.qa = (n - (m.qa + 1)) + 1 := by omega
      simp only [queued]
      rw [e, List.range'_succ]
      exact List.Perm.refl _
    · intro z hz hne
      rcases (mem_queued h z).mp hz with ⟨hz1, hz2⟩ | ⟨hz1, hz2⟩
      · have := ha.leaves m.qa z hz1 hz2
        have hz3 : m.qa < z := by simp at hne; omega
        unfold nodeKeyBefore
        simp only [weightAt] at this
        simp only
        omega
      · rcases hle with hle | hle
        · omega
        · have := ha.inner m.qb z h2 hz1 hz2
          unfold nodeKeyBefore
          simp only [weightAt] at this
          simp only
          omega
  · rw [if_neg hw]
    have hw' : ¬ (m.qa < n ∧ (m.qb = m.nx ∨ (nodeAt m.node m.qa).w.toNat ≤ (nodeAt m.node m.qb).w.toNat)) := by
      intro hc
      apply hw
      simp only [queueAWins, Bool.and_eq_true, Bool.or_eq_true, decide_eq_true_eq, beq_iff_eq]
      exact hc
    have hlt : m.qb < m.nx := by
      by_cases hc : m.qa < n
      · by_cases hb : m.qb = m.nx
        · exact absurd ⟨hc, .inl hb⟩ hw'
        · omega
      · omega
    refine ⟨rfl, rfl, ⟨h1, by simp; omega, hlt⟩, (mem_queued h _).mpr (.inr ⟨Nat.le_refl _, hlt⟩), ?_, ?_, by simp; omega⟩
    · have e : m.nx - m.qb = (m.nx - (m.qb + 1)) + 1 := by omega
      simp only [queued]
      rw [e, List.range'_succ]
      exact List.perm_middle
    · intro z hz hne
      rcases (mem_queued h z).mp hz with ⟨hz1, hz2⟩ | ⟨hz1, hz2⟩
      · have hc : ¬ (nodeAt m.node m.qa).w.toNat ≤ (nodeAt m.node m.qb).w.toNat := fun hc =>
          hw' ⟨by omega, .inr hc⟩
        have := ha.leaves m.qa z hz1 hz2
        unfold nodeKeyBefore
        simp only [weightAt] at this
        simp only
        omega
      · have := ha.inner m.qb z h2 hz1 hz2
        unfold nodeKeyBefore
        simp only [weightAt] at this
        simp only at hne ⊢
        omega

/-! ### The forest in NODE -/

/-- NODE below `nx`: leaves below `n`, and above it internal nodes over lower indices (40_tree_builder.md R78). -/
def Shaped (n nx : Nat) (t : Table Node 511) : Prop :=
  (∀ k, k < n → (nodeAt t k).isInternal = false) ∧
  ∀ k, n ≤ k → k < nx → ∃ x y, x < k ∧ y < k ∧ (nodeAt t k).child0 = nodeRefOf x ∧ (nodeAt t k).child1 = nodeRefOf y

/-- A stored tree stays stored, with its weights, while NODE keeps what lies below `nx`. -/
theorem stored_of_agree {n nx : Nat} {t t' : Table Node 511} {freq : Table Dword 256} (hs : Shaped n nx t)
    (hx : nx ≤ 511) (h : ∀ i, i < nx → nodeAt t' i = nodeAt t i) :
    ∀ (tree : BinTree) {i : Nat}, i < nx → tree.storedInNode t (nodeRefOf i) → tree.weighed t freq (nodeRefOf i) →
      tree.storedInNode t' (nodeRefOf i) ∧ tree.weighed t' freq (nodeRefOf i) := by
  intro tree
  induction tree with
  | leaf s =>
    intro i hi h1 h2
    have hn := h i hi
    rw [nodeRefOf_lt (by omega)] at h1 h2 ⊢
    simp only [BinTree.storedInNode, BinTree.weighed] at h1 h2 ⊢
    change nodeAt t' i = nodeAt t i at hn
    unfold nodeAt at hn
    rw [hn]
    exact ⟨h1, h2⟩
  | branch l r ihl ihr =>
    intro i hi h1 h2
    have hn := h i hi
    rw [nodeRefOf_lt (by omega)] at h1 h2 ⊢
    simp only [BinTree.storedInNode, BinTree.weighed] at h1 h2 ⊢
    obtain ⟨h1a, h1b, h1c⟩ := h1
    obtain ⟨h2a, h2b, h2c⟩ := h2
    have hin : n ≤ i := by
      by_contra hc
      have := hs.1 i (by omega)
      unfold nodeAt at this
      rw [this] at h1a
      cases h1a
    obtain ⟨x, y, hx', hy', c0, c1⟩ := hs.2 i hin hi
    unfold nodeAt at hn c0 c1
    rw [hn]
    rw [c0] at h1b h2b
    rw [c1] at h1c h2c
    obtain ⟨l1, l2⟩ := ihl (by omega) h1b h2b
    obtain ⟨r1, r2⟩ := ihr (by omega) h1c h2c
    rw [c0, c1]
    exact ⟨⟨h1a, l1, r1⟩, h2a, l2, r2⟩

/-- The weight at the root of a stored tree is the sum of its leaves' counts. -/
theorem weighed_root {t : Table Node 511} {freq : Table Dword 256} {tree : BinTree} {i : Nat} (hi : i < 511)
    (h : tree.weighed t freq (nodeRefOf i)) :
    weightAt t i = (tree.symbols.map fun s => (symGet freq s).toNat).sum := by
  rw [nodeRefOf_lt hi] at h
  cases tree with
  | leaf s =>
    simp only [BinTree.weighed] at h
    rw [weightAt, nodeAt, h]
    simp [BinTree.symbols, BinTree.paths]
  | branch l r =>
    simp only [BinTree.weighed] at h
    exact h.1

theorem symbols_branch (l r : BinTree) : (BinTree.branch l r).symbols = l.symbols ++ r.symbols := by
  simp [BinTree.symbols, BinTree.paths, List.map_map, Function.comp_def]

/-- Where a list maps to a permutation of `a :: l`, one element maps to `a` and the rest to `l`. -/
theorem perm_cons_of_map {α β : Type} [DecidableEq α] {f : α → β} {F : List α} {a : β} {l : List β}
    (h : (F.map f).Perm (a :: l)) : ∃ b F', f b = a ∧ F.Perm (b :: F') ∧ (F'.map f).Perm l := by
  have hm : a ∈ F.map f := h.symm.subset List.mem_cons_self
  obtain ⟨b, hb, rfl⟩ := List.mem_map.mp hm
  refine ⟨b, F.erase b, rfl, List.perm_cons_erase hb, ?_⟩
  have h1 : (F.map f).Perm (f b :: (F.erase b).map f) := (List.perm_cons_erase hb).map f
  exact (h1.symm.trans h).cons_inv

/-- The trees at the unconsumed nodes: the pieces of the tree that BUILD is putting together. -/
structure Forest (freq : Table Dword 256) (leaves : List (Byte × Dword)) (m : MergeState) (F : List (Nat × BinTree)) :
    Prop where
  roots : (F.map fun p => p.1).Perm (queued leaves.length m)
  stored : ∀ p ∈ F, p.2.storedInNode m.node (nodeRefOf p.1) ∧ p.2.weighed m.node freq (nodeRefOf p.1)
  symbols : (F.flatMap fun p => p.2.symbols).Perm (leaves.map fun p => p.1)
  size : (F.map fun p => p.2.size).sum = m.nx

/-! ### The merge -/

/-- Node `k` merges the two unconsumed nodes with the least keys (40_tree_builder.md R78 to R81). -/
def MergesLeast (t : Table Node 511) (n k : Nat) : Prop :=
  ∃ x y, x < k ∧ y < k ∧ x ≠ y ∧
    nodeAt t k =
      { isInternal := true, sym := 0, child0 := nodeRefOf x, child1 := nodeRefOf y, w := (nodeAt t k).w } ∧
    (nodeAt t k).w.toNat = (nodeAt t x).w.toNat + (nodeAt t y).w.toNat ∧
    unconsumed t n k x ∧ unconsumed t n k y ∧ nodeKeyBefore t x y ∧
    ∀ z, z < k → z ≠ x → z ≠ y → unconsumed t n k z → nodeKeyBefore t y z

/-- What every merge keeps (40_tree_builder.md R82). -/
structure Merging (freq : Table Dword 256) (leaves : List (Byte × Dword)) (m : MergeState) : Prop where
  range : InRange leaves.length m
  count : m.qa + m.qb + leaves.length = 2 * m.nx
  bound : m.nx ≤ 2 * leaves.length - 1
  leaf : ∀ i (h : i < leaves.length), nodeAt m.node i = leafNode leaves[i]
  inner : ∀ k, leaves.length ≤ k → k < m.nx → MergesLeast m.node leaves.length k
  consumed : ∀ z, z < m.nx → (unconsumed m.node leaves.length m.nx z ↔ z ∈ queued leaves.length m)
  ascending : Ascending leaves.length m
  last : leaves.length < m.nx → ∃ a b, weightAt m.node (m.nx - 1) = a + b ∧
    ∀ z ∈ queued leaves.length m, a ≤ weightAt m.node z ∧ b ≤ weightAt m.node z
  forest : ∃ F, Forest freq leaves m F

/-- The leaves BUILD starts from: the counted symbols in key order, with a total weight that fits. -/
structure LeavesOk (freq : Table Dword 256) (leaves : List (Byte × Dword)) : Prop where
  pos : 1 ≤ leaves.length
  le : leaves.length ≤ 256
  entry : ∀ p ∈ leaves, p.2 = symGet freq p.1
  sorted : leaves.Pairwise leafBefore
  total : (leaves.map fun p => (symGet freq p.1).toNat).sum < 2 ^ 64

theorem Merging.shaped {freq : Table Dword 256} {leaves : List (Byte × Dword)} {m : MergeState}
    (h : Merging freq leaves m) : Shaped leaves.length m.nx m.node := by
  constructor
  · intro k hk
    rw [h.leaf k hk]; rfl
  · intro k h1 h2
    obtain ⟨x, y, hx, hy, -, he, -⟩ := h.inner k h1 h2
    exact ⟨x, y, hx, hy, by rw [he], by rw [he]⟩

theorem unconsumed_congr {t t' : Table Node 511} {n k z : Nat} (h : ∀ i, i < k → nodeAt t' i = nodeAt t i) :
    unconsumed t' n k z ↔ unconsumed t n k z := by
  constructor
  · intro hu j h1 h2
    have := hu j h1 h2
    rwa [h j h2] at this
  · intro hu j h1 h2
    rw [h j h2]
    exact hu j h1 h2

theorem MergesLeast.congr {t t' : Table Node 511} {n k : Nat} (h : ∀ i, i ≤ k → nodeAt t' i = nodeAt t i)
    (hm : MergesLeast t n k) : MergesLeast t' n k := by
  obtain ⟨x, y, hx, hy, hne, he, hw, hux, huy, hk, hz⟩ := hm
  have hk' : ∀ i, i < k → nodeAt t' i = nodeAt t i := fun i hi => h i (by omega)
  refine ⟨x, y, hx, hy, hne, ?_, ?_, (unconsumed_congr hk').mpr hux, (unconsumed_congr hk').mpr huy, ?_, ?_⟩
  · rw [h k (Nat.le_refl _)]; exact he
  · rw [h k (Nat.le_refl _), h x (by omega), h y (by omega)]; exact hw
  · unfold nodeKeyBefore
    rw [h x (by omega), h y (by omega)]; exact hk
  · intro z h1 h2 h3 h4
    unfold nodeKeyBefore
    rw [h z (by omega), h y (by omega)]
    exact hz z h1 h2 h3 ((unconsumed_congr hk').mp h4)

theorem queued_push {n : Nat} {m : MergeState} (h : InRange n m) (t : Table Node 511) :
    queued n { m with node := t, nx := m.nx + 1 } = queued n m ++ [m.nx] := by
  have := h.qb_le
  simp only [queued, List.append_assoc]
  congr 1
  have e : m.nx + 1 - m.qb = (m.nx - m.qb) + 1 := by omega
  rw [e, List.range'_concat]
  congr 2
  omega

theorem mergeOnce_spec {freq : Table Dword 256} {leaves : List (Byte × Dword)} {m : MergeState}
    (hl : LeavesOk freq leaves) (h : Merging freq leaves m) (hm : m.nx < 2 * leaves.length - 1) :
    Merging freq leaves (mergeOnce leaves.length m) ∧ (mergeOnce leaves.length m).nx = m.nx + 1 ∧
      ∀ i, i < 511 → i ≠ m.nx → nodeAt (mergeOnce leaves.length m).node i = nodeAt m.node i := by
  have hle := hl.le
  have hr := h.range
  have hqa := hr.qa
  have hqb := hr.qb_ge
  have hqb' := hr.qb_le
  have hcount := h.count
  have hlen : 2 ≤ (queued leaves.length m).length := by rw [length_queued]; omega
  obtain ⟨n1, x1, r1, mx, p1, k1, c1⟩ := selectNode_spec hr h.ascending (by omega)
  generalize hs1 : selectNode leaves.length m = s1 at *
  obtain ⟨x, m1⟩ := s1
  simp only at n1 x1 r1 mx p1 k1 c1
  have asc1 : Ascending leaves.length m1 := ⟨by rw [n1]; exact h.ascending.leaves, by rw [n1, x1]; exact h.ascending.inner⟩
  have hlen1 : 1 ≤ (queued leaves.length m1).length := by
    have := p1.length_eq
    simp only [List.length_cons] at this
    omega
  obtain ⟨n2, x2, r2, my, p2, k2, c2⟩ := selectNode_spec r1 asc1 (by omega)
  generalize hs2 : selectNode leaves.length m1 = s2 at *
  obtain ⟨y, m2⟩ := s2
  simp only at n2 x2 r2 my p2 k2 c2
  rw [n1] at n2
  rw [x1] at x2
  have hnd := nodup_queued hr
  have hnd1 : (x :: queued leaves.length m1).Nodup := p1.nodup_iff.mp hnd
  have hxy : x ≠ y := fun e => (List.nodup_cons.mp hnd1).1 (e ▸ my)
  have hnd2 : (y :: queued leaves.length m2).Nodup := p2.nodup_iff.mp (List.nodup_cons.mp hnd1).2
  have hmem : ∀ z, z ∈ queued leaves.length m ↔ z = x ∨ z = y ∨ z ∈ queued leaves.length m2 := by
    intro z
    rw [p1.mem_iff, List.mem_cons, p2.mem_iff, List.mem_cons]
  have hlt : ∀ z, z ∈ queued leaves.length m → z < m.nx := by
    intro z hz
    rcases (mem_queued hr z).mp hz with hz | hz <;> omega
  have hx : x < m.nx := hlt x mx
  have hy : y < m.nx := hlt y ((hmem y).mpr (.inr (.inl rfl)))
  have e3 : mergeOnce leaves.length m =
      { m2 with node := tblSet m.node (Fin.ofNat 511 m.nx) (mergedNode m.node x y), nx := m2.nx + 1 } := by
    unfold mergeOnce
    rw [hs1]
    simp only
    rw [hs2]
    simp only [n2, x2]
  obtain ⟨F, hF⟩ := h.forest
  have hroots : (F.map fun p => p.1).Perm (x :: y :: queued leaves.length m2) :=
    hF.roots.trans (p1.trans (p2.cons x))
  obtain ⟨bx, F1, rfl, pF1, hr1⟩ := perm_cons_of_map hroots
  obtain ⟨bY, F2, rfl, pF2, hr2⟩ := perm_cons_of_map hr1
  have pF : F.Perm (bx :: bY :: F2) := pF1.trans (pF2.cons bx)
  have hbx := hF.stored bx (pF.mem_iff.mpr (by simp))
  have hby := hF.stored bY (pF.mem_iff.mpr (by simp))
  have hwx := weighed_root (by omega) hbx.2
  have hwy := weighed_root (by omega) hby.2
  have psym : (bx.2.symbols ++ (bY.2.symbols ++ F2.flatMap fun p => p.2.symbols)).Perm (leaves.map fun p => p.1) := by
    have := (pF.flatMap_right fun p => p.2.symbols).symm.trans hF.symbols
    simpa [List.flatMap_cons] using this
  have hsum : weightAt m.node bx.1 + weightAt m.node bY.1 < 2 ^ 64 := by
    have h1 := (psym.map fun s => (symGet freq s).toNat).sum_eq
    have h2 := hl.total
    simp only [List.map_append, List.sum_append, List.map_map, Function.comp_def] at h1
    rw [hwx, hwy]
    omega
  have hwadd : (mergedNode m.node bx.1 bY.1).w.toNat = weightAt m.node bx.1 + weightAt m.node bY.1 := by
    simp only [mergedNode, BitVec.toNat_add]
    exact Nat.mod_eq_of_lt hsum
  have hnode : ∀ i, i < 511 → nodeAt (tblSet m.node (Fin.ofNat 511 m.nx) (mergedNode m.node bx.1 bY.1)) i =
      if m.nx = i then mergedNode m.node bx.1 bY.1 else nodeAt m.node i :=
    fun i hi => nodeAt_set _ hi (by omega)
  rw [e3]
  generalize htdef : tblSet m.node (Fin.ofNat 511 m.nx) (mergedNode m.node bx.1 bY.1) = t at *
  have hsame : ∀ i, i < m.nx → nodeAt t i = nodeAt m.node i := by
    intro i hi
    rw [hnode i (by omega), if_neg (by omega)]
  have hnew : nodeAt t m.nx = mergedNode m.node bx.1 bY.1 := by rw [hnode _ (by omega), if_pos rfl]
  have hq3 : queued leaves.length { m2 with node := t, nx := m2.nx + 1 } = queued leaves.length m2 ++ [m.nx] := by
    rw [queued_push r2, x2]
  have hkey : ∀ z ∈ queued leaves.length m2, nodeKeyBefore m.node bx.1 z ∧ nodeKeyBefore m.node bY.1 z := by
    intro z hz
    have hzx : z ≠ bx.1 := fun e =>
      (List.nodup_cons.mp hnd1).1 (e ▸ p2.mem_iff.mpr (List.mem_cons_of_mem _ hz))
    have hzy : z ≠ bY.1 := fun e => (List.nodup_cons.mp hnd2).1 (e ▸ hz)
    refine ⟨k1 z ((hmem z).mpr (.inr (.inr hz))) hzx, ?_⟩
    rw [← n1]
    exact k2 z (p2.mem_iff.mpr (List.mem_cons_of_mem _ hz)) hzy
  have hkxy : nodeKeyBefore m.node bx.1 bY.1 := k1 _ ((hmem _).mpr (.inr (.inl rfl))) (Ne.symm hxy)
  have hkw : ∀ {a b : Nat}, nodeKeyBefore m.node a b → weightAt m.node a ≤ weightAt m.node b := by
    intro a b hab
    rcases hab with hab | hab
    · exact Nat.le_of_lt hab
    · exact Nat.le_of_eq hab.1
  have hwnew : weightAt t m.nx = weightAt m.node bx.1 + weightAt m.node bY.1 := by
    rw [weightAt, hnew]; exact hwadd
  refine ⟨⟨⟨r2.qa, r2.qb_ge, by have := r2.qb_le; simp only; omega⟩, ?_, ?_, ?_, ?_, ?_, ⟨?_, ?_⟩, ?_, ?_⟩, ?_, ?_⟩
  · simp only; omega
  · simp only; omega
  · intro i hi
    simp only
    rw [hsame i (by omega)]
    exact h.leaf i hi
  · intro k hk1 hk2
    simp only at hk2 ⊢
    by_cases hk : k = m.nx
    · subst hk
      refine ⟨bx.1, bY.1, hx, hy, hxy, ?_, ?_, ?_, ?_, ?_, ?_⟩
      · rw [hnew]; rfl
      · rw [hsame _ hx, hsame _ hy]
        exact hwnew
      · rw [unconsumed_congr hsame]; exact (h.consumed _ hx).mpr mx
      · rw [unconsumed_congr hsame]; exact (h.consumed _ hy).mpr ((hmem _).mpr (.inr (.inl rfl)))
      · unfold nodeKeyBefore
        rw [hsame _ hx, hsame _ hy]; exact hkxy
      · intro z hz1 hz2 hz3 hz4
        rw [unconsumed_congr hsame, h.consumed z hz1, hmem] at hz4
        unfold nodeKeyBefore
        rw [hsame _ hy, hsame _ hz1]
        rcases hz4 with rfl | rfl | hz4
        · exact absurd rfl hz2
        · exact absurd rfl hz3
        · exact (hkey z hz4).2
    · exact (h.inner k hk1 (by omega)).congr fun i hi => hsame i (by omega)
  · intro z hz
    simp only at hz
    rw [hq3, List.mem_append, List.mem_singleton]
    have hsplit : unconsumed t leaves.length (m2.nx + 1) z ↔
        unconsumed m.node leaves.length m.nx z ∧ nodeRefOf bx.1 ≠ nodeRefOf z ∧ nodeRefOf bY.1 ≠ nodeRefOf z := by
      rw [x2, ← unconsumed_congr hsame]
      constructor
      · intro hu
        refine ⟨fun j h1 h2 => hu j h1 (by omega), ?_⟩
        have := hu m.nx (by omega) (by omega)
        rw [hnew] at this
        exact this
      · rintro ⟨hu, hc⟩ j h1 h2
        by_cases hj : j = m.nx
        · subst hj; rw [hnew]; exact hc
        · exact hu j h1 (by omega)
    show unconsumed t leaves.length (m2.nx + 1) z ↔ _
    rw [hsplit]
    simp only [ne_eq]
    rw [nodeRefOf_inj (by omega) (by omega), nodeRefOf_inj (by omega) (by omega)]
    by_cases hzn : z = m.nx
    · subst hzn
      simp only [or_true, iff_true]
      refine ⟨fun j h1 h2 => ?_, by omega, by omega⟩
      obtain ⟨a, b, ha, hb, -, he, -⟩ := h.inner j h1 h2
      rw [he]
      simp only [ne_eq]
      rw [nodeRefOf_inj (by omega) (by omega), nodeRefOf_inj (by omega) (by omega)]
      omega
    · rw [h.consumed z (by omega), hmem]
      have hx2 : bx.1 ∉ queued leaves.length m2 := fun hc =>
        (List.nodup_cons.mp hnd1).1 (p2.mem_iff.mpr (List.mem_cons_of_mem _ hc))
      have hy2 : bY.1 ∉ queued leaves.length m2 := (List.nodup_cons.mp hnd2).1
      constructor
      · rintro ⟨rfl | rfl | hz2, h2, h3⟩
        · exact absurd rfl h2
        · exact absurd rfl h3
        · exact .inl hz2
      · rintro (hz2 | hz2)
        · exact ⟨.inr (.inr hz2), fun e => hx2 (e ▸ hz2), fun e => hy2 (e ▸ hz2)⟩
        · exact absurd hz2 hzn
  · intro i j hij hj
    simp only [weightAt]
    rw [hsame i (by omega), hsame j (by omega)]
    exact h.ascending.leaves i j hij hj
  · intro i j hi hij hj
    simp only at hj ⊢
    by_cases hjn : j = m.nx
    · subst hjn
      by_cases hin : i = m.nx
      · subst hin; exact Nat.le_refl _
      · obtain ⟨a, b, hab, hz⟩ := h.last (by omega)
        have h1 := h.ascending.inner i (m.nx - 1) hi (by omega) (by omega)
        have h2 := hz bx.1 mx
        have h3 := hz bY.1 ((hmem _).mpr (.inr (.inl rfl)))
        rw [hwnew]
        have h4 : weightAt t i = weightAt m.node i := by rw [weightAt, hsame i (by omega)]
        rw [h4]
        omega
    · have h4 : weightAt t i = weightAt m.node i := by rw [weightAt, hsame i (by omega)]
      have h5 : weightAt t j = weightAt m.node j := by rw [weightAt, hsame j (by omega)]
      rw [h4, h5]
      exact h.ascending.inner i j hi hij (by omega)
  · intro _
    refine ⟨weightAt m.node bx.1, weightAt m.node bY.1, ?_, ?_⟩
    · simp only
      have e : m2.nx + 1 - 1 = m.nx := by omega
      rw [e]
      exact hwnew
    · intro z hz
      rw [hq3, List.mem_append, List.mem_singleton] at hz
      simp only
      rcases hz with hz | rfl
      · have h4 : weightAt t z = weightAt m.node z := by
          rw [weightAt, hsame z (hlt z ((hmem z).mpr (.inr (.inr hz))))]
        rw [h4]
        exact ⟨hkw (hkey z hz).1, hkw (hkey z hz).2⟩
      · rw [hwnew]; omega
  · refine ⟨F2 ++ [(m.nx, .branch bx.2 bY.2)], ?_, ?_, ?_, ?_⟩
    · rw [hq3]
      simpa using hr2.append_right [m.nx]
    · have hst : ∀ p ∈ bx :: bY :: F2, p.1 < m.nx →
          p.2.storedInNode t (nodeRefOf p.1) ∧ p.2.weighed t freq (nodeRefOf p.1) := by
        intro p hp hlt'
        obtain ⟨h1, h2⟩ := hF.stored p (pF.mem_iff.mpr hp)
        exact stored_of_agree h.shaped (by omega) hsame p.2 hlt' h1 h2
      intro p hp
      simp only
      rcases List.mem_append.mp hp with hp | hp
      · refine hst p (by simp [hp]) ?_
        apply hlt
        rw [hmem]
        exact .inr (.inr (hr2.mem_iff.mp (List.mem_map_of_mem hp)))
      · rw [List.mem_singleton] at hp
        subst hp
        obtain ⟨s1, s2⟩ := hst bx (by simp) hx
        obtain ⟨s3, s4⟩ := hst bY (by simp) hy
        have hn2 : tblGet t (Fin.ofNat 511 m.nx) = mergedNode m.node bx.1 bY.1 := hnew
        rw [nodeRefOf_lt (by omega)]
        refine ⟨?_, ?_⟩
        · simp only [BinTree.storedInNode]
          rw [hn2]
          exact ⟨rfl, s1, s3⟩
        · simp only [BinTree.weighed]
          rw [hn2]
          refine ⟨?_, s2, s4⟩
          rw [hwadd, hwx, hwy, symbols_branch, List.map_append, List.sum_append]
    · rw [List.flatMap_append]
      refine List.Perm.trans ?_ psym
      simp only [List.flatMap_cons, List.flatMap_nil, List.append_nil, symbols_branch]
      rw [← List.append_assoc bx.2.symbols]
      exact List.perm_append_comm
    · have h1 := (pF.map fun p => p.2.size).sum_eq
      rw [hF.size] at h1
      simp only [List.map_cons, List.sum_cons] at h1
      simp only [List.map_append, List.map_cons, List.map_nil, List.sum_append, List.sum_cons, List.sum_nil,
        BinTree.size]
      omega
  · simp only [x2]
  · intro i hi hne
    simp only
    rw [hnode i hi, if_neg (Ne.symm hne)]

theorem mergeTimes_spec {freq : Table Dword 256} {leaves : List (Byte × Dword)} (hl : LeavesOk freq leaves) :
    ∀ (k : Nat) {m : MergeState}, Merging freq leaves m → m.nx + k ≤ 2 * leaves.length - 1 →
      Merging freq leaves (mergeTimes leaves.length k m) ∧ (mergeTimes leaves.length k m).nx = m.nx + k ∧
        ∀ i, i < 511 → m.nx + k ≤ i → nodeAt (mergeTimes leaves.length k m).node i = nodeAt m.node i
  | 0, m, h, _ => ⟨h, rfl, fun _ _ _ => rfl⟩
  | k + 1, m, h, hk => by
    obtain ⟨h1, h2, h3⟩ := mergeOnce_spec hl h (by omega)
    obtain ⟨g1, g2, g3⟩ := mergeTimes_spec hl k h1 (by omega)
    refine ⟨g1, by rw [mergeTimes, g2, h2]; omega, fun i hi hik => ?_⟩
    rw [mergeTimes, g3 i hi (by omega), h3 i hi (by omega)]

/-- What BUILD starts merging from. -/
def mergeStart (leaves : List (Byte × Dword)) (old : Table Node 511) : MergeState :=
  { node := tblSetFrom 0 (leaves.map leafNode) old, qa := 0, qb := leaves.length, nx := leaves.length }

theorem mergeStart_spec {freq : Table Dword 256} {leaves : List (Byte × Dword)} (hl : LeavesOk freq leaves)
    (old : Table Node 511) : Merging freq leaves (mergeStart leaves old) := by
  have hle := hl.le
  have hpos := hl.pos
  have hleaf : ∀ i (h : i < leaves.length), nodeAt (mergeStart leaves old).node i = leafNode leaves[i] := by
    intro i h
    rw [mergeStart, nodeAt_setFrom _ _ (by omega), dif_pos (by simpa using h)]
    simp
  have hr : InRange leaves.length (mergeStart leaves old) := ⟨Nat.zero_le _, Nat.le_refl _, Nat.le_refl _⟩
  refine ⟨hr, ?_, ?_, hleaf, ?_, ?_, ⟨?_, ?_⟩, ?_, ?_⟩
  · simp only [mergeStart]; omega
  · simp only [mergeStart]; omega
  · intro k h1 h2; simp only [mergeStart] at h2; omega
  · intro z hz
    simp only [mergeStart] at hz
    rw [mem_queued hr]
    constructor
    · intro _; left; exact ⟨Nat.zero_le _, hz⟩
    · intro _ j h1 h2; simp only [mergeStart] at h2; omega
  · intro i j hij hj
    simp only [weightAt]
    rw [hleaf i (by omega), hleaf j hj]
    rcases Nat.lt_or_eq_of_le hij with hlt | rfl
    · have := List.pairwise_iff_getElem.mp hl.sorted i j (by omega) hj hlt
      simp only [leafNode]
      rcases this with h | h <;> omega
    · exact Nat.le_refl _
  · intro i j h1 h2 h3; simp only [mergeStart] at h3; omega
  · intro h; simp only [mergeStart] at h; omega
  · refine ⟨leaves.zipIdx.map fun p => (p.2, .leaf p.1.1), ?_, ?_, ?_, ?_⟩
    · have e : queued leaves.length (mergeStart leaves old) = List.range' 0 leaves.length := by
        simp [queued, mergeStart]
      rw [e, List.map_map]
      have : ((fun p => p.1) ∘ fun (p : (Byte × Dword) × Nat) => (p.2, BinTree.leaf p.1.1)) = Prod.snd := rfl
      rw [this, List.zipIdx_map_snd]
    · intro p hp
      obtain ⟨q, hq, rfl⟩ := List.mem_map.mp hp
      have hq' := List.mem_zipIdx hq
      simp only [Nat.zero_add, Nat.sub_zero, Nat.zero_le, true_and] at hq'
      obtain ⟨hlt, he⟩ := hq'
      have hn : tblGet (mergeStart leaves old).node (Fin.ofNat 511 q.2) = leafNode q.1 := by
        rw [he]; exact hleaf q.2 hlt
      simp only
      rw [nodeRefOf_lt (by omega)]
      simp only [BinTree.storedInNode, BinTree.weighed]
      rw [hn]
      refine ⟨⟨rfl, rfl⟩, ?_⟩
      have hmem : q.1 ∈ leaves := by rw [he]; exact List.getElem_mem hlt
      exact hl.entry _ hmem
    · rw [List.flatMap_map]
      have : (leaves.zipIdx.flatMap fun p => (BinTree.leaf p.1.1).symbols) = leaves.map fun p => p.1 := by
        simp only [BinTree.symbols, BinTree.paths, List.map_cons, List.map_nil]
        rw [← List.map_eq_flatMap]
        conv_rhs => rw [← List.zipIdx_map_fst 0 leaves]
        rw [List.map_map]
        rfl
      rw [this]
    · simp only [List.map_map, Function.comp_def, BinTree.size, mergeStart]
      simp

/-! ### The leaves -/

theorem insertLeaf_perm (p : Byte × Dword) : ∀ qs : List (Byte × Dword), (insertLeaf p qs).Perm (p :: qs)
  | [] => List.Perm.refl _
  | q :: qs => by
    unfold insertLeaf
    split
    · exact List.Perm.refl _
    · exact ((insertLeaf_perm p qs).cons q).trans (List.Perm.swap _ _ _)

theorem sortLeaves_perm : ∀ ps : List (Byte × Dword), (sortLeaves ps).Perm ps
  | [] => List.Perm.refl _
  | p :: ps => (insertLeaf_perm p (sortLeaves ps)).trans ((sortLeaves_perm ps).cons p)

theorem leafBefore_trans {p q r : Byte × Dword} (h : leafBefore p q) (h' : leafBefore q r) : leafBefore p r := by
  unfold leafBefore at *; omega

theorem leafBefore_total {p q : Byte × Dword} (h : ¬ leafBefore p q) : leafBefore q p := by
  unfold leafBefore at *; omega

theorem insertLeaf_sorted (p : Byte × Dword) : ∀ qs : List (Byte × Dword), qs.Pairwise leafBefore →
    (insertLeaf p qs).Pairwise leafBefore
  | [], _ => List.pairwise_singleton _ _
  | q :: qs, h => by
    unfold insertLeaf
    obtain ⟨h1, h2⟩ := List.pairwise_cons.mp h
    split
    · next hpq =>
      refine List.pairwise_cons.mpr ⟨?_, h⟩
      intro r hr
      rcases List.mem_cons.mp hr with rfl | hr
      · exact hpq
      · exact leafBefore_trans hpq (h1 r hr)
    · next hpq =>
      refine List.pairwise_cons.mpr ⟨?_, insertLeaf_sorted p qs h2⟩
      intro r hr
      rcases List.mem_cons.mp ((insertLeaf_perm p qs).mem_iff.mp hr) with rfl | hr
      · exact leafBefore_total hpq
      · exact h1 r hr

theorem sortLeaves_sorted : ∀ ps : List (Byte × Dword), (sortLeaves ps).Pairwise leafBefore
  | [] => List.Pairwise.nil
  | p :: ps => insertLeaf_sorted p _ (sortLeaves_sorted ps)

theorem countedSymbols_eq (freq : Table Dword 256) :
    countedSymbols freq = (allSymbols.filter fun s => symGet freq s != 0).map fun s => (s, symGet freq s) := by
  rw [countedSymbols, symEntries_eq_map, List.filter_map]
  rfl

theorem length_countedSymbols (freq : Table Dword 256) : (countedSymbols freq).length = countedCount freq := by
  rw [countedSymbols_eq, List.length_map, countedCount]

theorem totalWeight_eq (freq : Table Dword 256) : totalWeight freq = weightSum freq := by
  rw [totalWeight, symEntries_eq_map, List.map_map, weightSum]
  rfl

/-- The leaves of a frequency table, in key order (40_tree_builder.md R77). -/
abbrev leavesOf (freq : Table Dword 256) : List (Byte × Dword) := sortLeaves (countedSymbols freq)

theorem mem_leavesOf (freq : Table Dword 256) (p : Byte × Dword) :
    p ∈ leavesOf freq ↔ symGet freq p.1 ≠ 0 ∧ p.2 = symGet freq p.1 := by
  rw [leavesOf, (sortLeaves_perm _).mem_iff, countedSymbols_eq, List.mem_map]
  constructor
  · rintro ⟨s, hs, rfl⟩
    simpa using hs
  · rintro ⟨h1, h2⟩
    exact ⟨p.1, by simpa using h1, by rw [← h2]⟩

theorem length_leavesOf (freq : Table Dword 256) : (leavesOf freq).length = countedCount freq := by
  rw [leavesOf, (sortLeaves_perm _).length_eq, length_countedSymbols]

theorem nodup_leavesOf (freq : Table Dword 256) : ((leavesOf freq).map fun p => p.1).Nodup := by
  rw [((sortLeaves_perm _).map _).nodup_iff, countedSymbols_eq, List.map_map]
  have : ((fun p => p.1) ∘ fun s => (s, symGet freq s)) = (id : Byte → Byte) := rfl
  rw [this, List.map_id]
  exact nodup_allSymbols.filter _

theorem sum_filter_le (f : Byte → Nat) (p : Byte → Bool) : ∀ l : List Byte,
    ((l.filter p).map f).sum ≤ (l.map f).sum
  | [] => Nat.le_refl _
  | x :: l => by
    have := sum_filter_le f p l
    by_cases h : p x <;> simp [h] <;> omega

theorem leavesOk {freq : Table Dword 256} (h : buildable freq) : LeavesOk freq (leavesOf freq) := by
  refine ⟨by rw [length_leavesOf]; exact h.1, ?_, fun p hp => ((mem_leavesOf freq p).mp hp).2, sortLeaves_sorted _, ?_⟩
  · rw [length_leavesOf, countedCount]
    exact (List.length_filter_le _ _).trans (by simp)
  · have e := (((sortLeaves_perm (countedSymbols freq)).map fun p => (symGet freq p.1).toNat)).sum_eq
    rw [leavesOf, e, countedSymbols_eq, List.map_map]
    exact Nat.lt_of_le_of_lt (sum_filter_le (fun s => (symGet freq s).toNat) _ allSymbols) h.2

theorem weightSum_counted (freq : Table Dword 256) :
    weightSum freq = ((allSymbols.filter fun s => symGet freq s != 0).map fun s => (symGet freq s).toNat).sum := by
  unfold weightSum
  generalize allSymbols = l
  induction l with
  | nil => rfl
  | cons x l ih =>
    by_cases h : symGet freq x = 0
    · rw [List.filter_cons_of_neg (by simp [h]), List.map_cons, List.sum_cons, ih, h]
      simp
    · rw [List.filter_cons_of_pos (by simpa using h), List.map_cons, List.map_cons, List.sum_cons, List.sum_cons, ih]

/-! ### What BUILD leaves -/

/-- NODE after BUILD on a frequency table it has a tree for. -/
def builtTree (freq : Table Dword 256) (old : Table Node 511) : Tree := treeOfLeaves (leavesOf freq) old

theorem buildTree_ok {freq : Table Dword 256} (old : Table Node 511) (h : buildable freq) :
    buildTree freq old = .ok (builtTree freq old) := by
  have h1 : ((countedSymbols freq).length != 0) = true := by
    have := h.1
    rw [length_countedSymbols, bne_iff_ne]
    omega
  have h2 : decide (totalWeight freq < 2 ^ 64) = true := by rw [totalWeight_eq]; exact decide_eq_true h.2
  simp only [buildTree, h1, h2, require_true, run_ok_bind]
  rfl

theorem buildable_of_ok {freq : Table Dword 256} {old : Table Node 511} {tree : Tree}
    (h : buildTree freq old = .ok tree) : buildable freq ∧ tree = builtTree freq old := by
  obtain ⟨h1, h2, h3⟩ := buildTree_eq_ok h
  rw [length_countedSymbols] at h1
  rw [totalWeight_eq] at h2
  exact ⟨⟨by omega, h2⟩, h3⟩

/-- The merge has run to its end. -/
theorem builtTree_spec {freq : Table Dword 256} (old : Table Node 511) (h : buildable freq) :
    ∃ m : MergeState, Merging freq (leavesOf freq) m ∧ m.nx = 2 * countedCount freq - 1 ∧
      (builtTree freq old).node = m.node ∧ (builtTree freq old).root = nodeRefOf (2 * countedCount freq - 2) ∧
      (builtTree freq old).nnodes.val = 2 * countedCount freq - 1 ∧
      ∀ i, i < 511 → 2 * countedCount freq - 1 ≤ i → nodeAt m.node i = nodeAt old i := by
  have hl := leavesOk h
  have hpos := h.1
  have hle := hl.le
  have hlen := length_leavesOf freq
  obtain ⟨g1, g2, g3⟩ := mergeTimes_spec hl (countedCount freq - 1) (mergeStart_spec hl old)
    (by simp only [mergeStart]; omega)
  have hnx : (mergeTimes (leavesOf freq).length (countedCount freq - 1) (mergeStart (leavesOf freq) old)).nx =
      2 * countedCount freq - 1 := by
    rw [g2]; simp only [mergeStart]; omega
  refine ⟨_, g1, hnx, ?_, ?_, ?_, ?_⟩
  · simp only [builtTree, treeOfLeaves, mergeStart, hlen]
  · have e : (builtTree freq old).root = nodeRefOf
        ((mergeTimes (leavesOf freq).length ((leavesOf freq).length - 1) (mergeStart (leavesOf freq) old)).nx - 1) := rfl
    rw [e]
    rw [hlen] at hnx ⊢
    rw [hnx]
    congr 1
  · have e : (builtTree freq old).nnodes = Fin.ofNat 512
        (mergeTimes (leavesOf freq).length ((leavesOf freq).length - 1) (mergeStart (leavesOf freq) old)).nx := rfl
    rw [e]
    rw [hlen] at hnx ⊢
    rw [hnx]
    exact Nat.mod_eq_of_lt (by omega)
  · intro i hi h2
    rw [g3 i hi (by simp only [mergeStart]; omega), mergeStart, nodeAt_setFrom _ _ hi, dif_neg]
    rw [List.length_map]
    omega

/-! ### BUILD reads no old entry -/

/-- Two merges at the same point, over NODE contents that differ at most at or above `nx`. -/
structure Agree (m m' : MergeState) : Prop where
  qa : m'.qa = m.qa
  qb : m'.qb = m.qb
  nx : m'.nx = m.nx
  node : ∀ i, i < m.nx → nodeAt m'.node i = nodeAt m.node i

theorem selectNode_agree {n : Nat} {m m' : MergeState} (h : InRange n m) (ha : Agree m m') :
    (selectNode n m').1 = (selectNode n m).1 ∧ Agree (selectNode n m).2 (selectNode n m').2 := by
  have h1 := h.qb_ge
  have h2 := h.qb_le
  have e : queueAWins n m' = queueAWins n m := by
    unfold queueAWins
    rw [ha.qa, ha.qb, ha.nx]
    by_cases hq : m.qa < n
    · by_cases hb : m.qb = m.nx
      · simp [hb]
      · rw [ha.node m.qa (by omega), ha.node m.qb (by omega)]
    · simp [hq]
  unfold selectNode
  rw [e]
  split
  · exact ⟨ha.qa, ⟨by simp [ha.qa], ha.qb, ha.nx, ha.node⟩⟩
  · exact ⟨ha.qb, ⟨ha.qa, by simp [ha.qb], ha.nx, ha.node⟩⟩

theorem mergeOnce_agree {freq : Table Dword 256} {leaves : List (Byte × Dword)} {m m' : MergeState}
    (hl : LeavesOk freq leaves) (h : Merging freq leaves m) (hm : m.nx < 2 * leaves.length - 1) (ha : Agree m m') :
    Agree (mergeOnce leaves.length m) (mergeOnce leaves.length m') := by
  have hr := h.range
  have hle := hl.le
  have hcount := h.count
  have h1 := hr.qa
  have h2 := hr.qb_ge
  have h3 := hr.qb_le
  have hlen : 2 ≤ (queued leaves.length m).length := by rw [length_queued]; omega
  obtain ⟨n1, x1, r1, mx, p1, -, -⟩ := selectNode_spec hr h.ascending (by omega)
  have asc1 : Ascending leaves.length (selectNode leaves.length m).2 :=
    ⟨by rw [n1]; exact h.ascending.leaves, by rw [n1, x1]; exact h.ascending.inner⟩
  have hlen1 : 1 ≤ (queued leaves.length (selectNode leaves.length m).2).length := by
    have := p1.length_eq
    simp only [List.length_cons] at this
    omega
  obtain ⟨n2, x2, r2, my, -, -, -⟩ := selectNode_spec r1 asc1 (by omega)
  obtain ⟨a1, a2⟩ := selectNode_agree hr ha
  obtain ⟨b1, b2⟩ := selectNode_agree r1 a2
  have hx : (selectNode leaves.length m).1 < m.nx := by
    rcases (mem_queued hr _).mp mx with hz | hz <;> omega
  have hy : (selectNode leaves.length (selectNode leaves.length m).2).1 < m.nx := by
    rcases (mem_queued r1 _).mp my with hz | hz <;> omega
  have hnx2 : (selectNode leaves.length (selectNode leaves.length m).2).2.nx = m.nx := x2.trans x1
  have hb := h.bound
  refine ⟨b2.qa, b2.qb, by simp only [mergeOnce, b2.nx], ?_⟩
  intro i hi
  simp only [mergeOnce] at hi ⊢
  rw [hnx2] at hi
  rw [b2.nx, hnx2, nodeAt_set _ (by omega) (by omega), nodeAt_set _ (by omega) (by omega)]
  have hnode := b2.node
  rw [hnx2] at hnode
  split
  · rw [a1, b1]
    unfold mergedNode
    rw [hnode _ hx, hnode _ hy]
  · exact hnode i (by omega)

theorem mergeTimes_agree {freq : Table Dword 256} {leaves : List (Byte × Dword)} (hl : LeavesOk freq leaves) :
    ∀ (k : Nat) {m m' : MergeState}, Merging freq leaves m → m.nx + k ≤ 2 * leaves.length - 1 → Agree m m' →
      Agree (mergeTimes leaves.length k m) (mergeTimes leaves.length k m')
  | 0, _, _, _, _, ha => ha
  | k + 1, m, m', h, hk, ha => by
    obtain ⟨h1, h2, -⟩ := mergeOnce_spec hl h (by omega)
    exact mergeTimes_agree hl k h1 (by omega) (mergeOnce_agree hl h (by omega) ha)

theorem tree_ext {a b : Tree} (h1 : a.node = b.node) (h2 : a.root = b.root) (h3 : a.nnodes = b.nnodes) : a = b := by
  cases a
  cases b
  simp only at h1 h2 h3
  subst h1 h2 h3
  rfl

/-- BUILD on the tables it left builds the same tree again. -/
theorem builtTree_again {freq : Table Dword 256} (old : Table Node 511) (h : buildable freq) :
    builtTree freq (builtTree freq old).node = builtTree freq old := by
  have hl := leavesOk h
  have hpos := h.1
  have hlen := length_leavesOf freq
  obtain ⟨m, hm, hnx, hn, hr, hnn, ho⟩ := builtTree_spec old h
  obtain ⟨m', hm', hnx', hn', hr', hnn', ho'⟩ := builtTree_spec (builtTree freq old).node h
  have hstart : Agree (mergeStart (leavesOf freq) old) (mergeStart (leavesOf freq) (builtTree freq old).node) := by
    refine ⟨rfl, rfl, rfl, fun i hi => ?_⟩
    have hi' : i < (leavesOf freq).length := hi
    rw [(mergeStart_spec hl old).leaf i hi', (mergeStart_spec hl _).leaf i hi']
  have hagree := mergeTimes_agree hl ((leavesOf freq).length - 1) (mergeStart_spec hl old)
    (by simp only [mergeStart]; omega) hstart
  have hnode : ∀ i, i < 2 * countedCount freq - 1 → nodeAt (builtTree freq (builtTree freq old).node).node i =
      nodeAt (builtTree freq old).node i := by
    intro i hi
    refine hagree.node i ?_
    have := (mergeTimes_spec hl ((leavesOf freq).length - 1) (mergeStart_spec hl old)
      (by simp only [mergeStart]; omega)).2.1
    rw [this]
    simp only [mergeStart]
    omega
  have e1 : (builtTree freq (builtTree freq old).node).node = (builtTree freq old).node := by
    apply tbl_ext
    intro id
    rw [← nodeAt_val, ← nodeAt_val]
    by_cases hi : id.val < 2 * countedCount freq - 1
    · exact hnode _ hi
    · rw [hn', ho' _ id.isLt (by omega)]
  have e2 : (builtTree freq (builtTree freq old).node).root = (builtTree freq old).root := by rw [hr, hr']
  have e3 : (builtTree freq (builtTree freq old).node).nnodes = (builtTree freq old).nnodes :=
    Fin.ext (by rw [hnn, hnn'])
  exact tree_ext e1 e2 e3

/-- The newest node is not consumed yet. -/
theorem Merging.newest {freq : Table Dword 256} {leaves : List (Byte × Dword)} {m : MergeState}
    (h : Merging freq leaves m) (hl : LeavesOk freq leaves) : m.nx - 1 ∈ queued leaves.length m := by
  have h1 := h.range.qb_ge
  have h2 := h.range.qb_le
  have h3 := h.bound
  have h4 := hl.pos
  have h5 := hl.le
  refine (h.consumed _ (by omega)).mp fun j hj hj' => ?_
  obtain ⟨a, b, ha, hb, -, he, -⟩ := h.inner j hj hj'
  rw [he]
  simp only [ne_eq]
  rw [nodeRefOf_inj (by omega) (by omega), nodeRefOf_inj (by omega) (by omega)]
  omega

/-- BUILD leaves one tree in NODE (40_tree_builder.md R82). -/
theorem builtTree_tree {freq : Table Dword 256} (old : Table Node 511) (h : buildable freq) :
    ∃ tree : BinTree, tree.size = 2 * countedCount freq - 1 ∧
      tree.storedInNode (builtTree freq old).node (builtTree freq old).root ∧
      tree.weighed (builtTree freq old).node freq (builtTree freq old).root ∧
      tree.symbols.Perm ((leavesOf freq).map fun p => p.1) := by
  obtain ⟨m, hm, hnx, hn, hr, -, -⟩ := builtTree_spec old h
  obtain ⟨F, hF⟩ := hm.forest
  have hpos := h.1
  have hlen := length_leavesOf freq
  have hl : (queued (leavesOf freq).length m).length = 1 := by
    have h1 := hm.range.qa
    have h2 := hm.range.qb_ge
    have h3 := hm.range.qb_le
    have h4 := hm.count
    rw [length_queued]
    omega
  have hq : queued (leavesOf freq).length m = [2 * countedCount freq - 2] := by
    obtain ⟨a, ha⟩ := List.length_eq_one_iff.mp hl
    have h1 := hm.newest (leavesOk h)
    rw [ha, List.mem_singleton] at h1
    rw [ha, ← h1, hnx]
    rfl
  have hroots := hF.roots
  rw [hq] at hroots
  obtain ⟨b, rfl⟩ := List.length_eq_one_iff.mp (show F.length = 1 by simpa using hroots.length_eq)
  have hb : b.1 = 2 * countedCount freq - 2 := by simpa using hroots
  obtain ⟨h1, h2⟩ := hF.stored b (by simp)
  have hsize : b.2.size = m.nx := by simpa using hF.size
  rw [hn, hr, ← hb]
  exact ⟨b.2, hsize.trans hnx, h1, h2, by simpa using hF.symbols⟩

end Sys2Proof.Machine
end

