-- ==== Sys2Proof/Laws/WalkCanon.lean ====
section
/-! SUPPORT. The lengths that WALK gives to a tree are a set that CANON accepts (41_canonical_code_generator.md R92). -/

namespace Sys2Proof.Machine

/-- The leaves of a tree take the whole Kraft sum. -/
theorem kraft_paths (m : Nat) : ∀ (t : BinTree) (d : Nat), (∀ p ∈ t.paths, d + p.2.length ≤ m) →
    (t.paths.map fun p => 2 ^ (m - (d + p.2.length))).sum = 2 ^ (m - d)
  | .leaf s, d, _ => by simp [BinTree.paths]
  | .branch l r, d, h => by
    have hl : ∀ p ∈ l.paths, d + 1 + p.2.length ≤ m := fun p hp => by
      have := h (p.1, false :: p.2) (by simp only [BinTree.paths, List.mem_append, List.mem_map]; exact .inl ⟨p, hp, rfl⟩)
      simp only [List.length_cons] at this
      omega
    have hr : ∀ p ∈ r.paths, d + 1 + p.2.length ≤ m := fun p hp => by
      have := h (p.1, true :: p.2) (by simp only [BinTree.paths, List.mem_append, List.mem_map]; exact .inr ⟨p, hp, rfl⟩)
      simp only [List.length_cons] at this
      omega
    have e : ∀ q : List Bool, d + (q.length + 1) = d + 1 + q.length := fun q => by omega
    have il := kraft_paths m l (d + 1) hl
    have ir := kraft_paths m r (d + 1) hr
    have hd : d + 1 ≤ m := by
      have hp : l.paths ≠ [] := by
        intro hn
        have h1 := size_eq_symbols l
        have h2 := size_pos l
        simp only [BinTree.symbols, hn, List.map_nil, List.length_nil] at h1
        omega
      obtain ⟨p, hp⟩ := List.exists_mem_of_ne_nil _ hp
      have := hl p hp
      omega
    simp only [BinTree.paths, List.map_append, List.map_map, List.sum_append, Function.comp_def, List.length_cons, e]
    rw [il, ir]
    have : m - d = m - (d + 1) + 1 := by omega
    rw [this, pow_succ]
    omega

/-- The depths of a tree of two or more leaves are an accepted length table. -/
theorem depths_accepted {maxLen : Nat} {l r : BinTree} {len : Table Byte 256}
    (hn : (BinTree.branch l r).symbols.Nodup) (hmax : ∀ p ∈ (BinTree.branch l r).paths, p.2.length ≤ maxLen)
    (hlen : ∀ p ∈ (BinTree.branch l r).paths, (symGet len p.1).toNat = p.2.length)
    (hout : ∀ x, x ∉ (BinTree.branch l r).symbols → symGet len x = 0) : Accepted maxLen len := by
  have hpos : ∀ p ∈ (BinTree.branch l r).paths, p.2.length ≠ 0 := by
    intro p hp
    simp only [BinTree.paths, List.mem_append, List.mem_map] at hp
    rcases hp with ⟨q, -, rfl⟩ | ⟨q, -, rfl⟩ <;> simp
  have hmem : ∀ x, x ∈ (BinTree.branch l r).symbols ↔ symGet len x ≠ 0 := by
    intro x
    constructor
    · intro hx e
      obtain ⟨p, hp, rfl⟩ := List.mem_map.mp hx
      have h1 := hlen p hp
      rw [e] at h1
      exact hpos p hp h1.symm
    · intro hx
      by_contra hc
      exact hx (hout x hc)
  have hcount := length_of_members hn hmem
  have hsize := size_eq_symbols (BinTree.branch l r)
  have h2 : 2 ≤ codedCount len := by
    have h1 := size_pos l
    have h2 := size_pos r
    simp only [BinTree.size] at hsize
    omega
  have hmx : maxLength len ≤ maxLen := by
    rw [maxLength_le]
    intro s
    by_cases hs : s ∈ (BinTree.branch l r).symbols
    · obtain ⟨p, hp, rfl⟩ := List.mem_map.mp hs
      rw [hlen p hp]
      exact hmax p hp
    · rw [hout s hs]
      exact Nat.zero_le _
  rw [accepted_iff]
  refine ⟨by omega, hmx, .inr ⟨h2, ?_⟩⟩
  rw [tableKraft_of_members hn hmem]
  have hk := kraft_paths (maxLength len) (BinTree.branch l r) 0 fun p hp => by
    have := length_le_maxLength len p.1
    rw [hlen p hp] at this
    omega
  rw [Nat.sub_zero] at hk
  rw [← hk, BinTree.symbols, List.map_map]
  refine congrArg List.sum (List.map_congr_left fun p hp => ?_)
  simp only [Function.comp]
  rw [hlen p hp, Nat.zero_add]

/-- A lone symbol of length 1 is an accepted length table (41_canonical_code_generator.md R87, R91). -/
theorem one_accepted {maxLen : Nat} (x : Byte) (h : 1 ≤ maxLen) : Accepted maxLen (symSet (tblOf 256 fun _ => 0) x 1) := by
  have hg : ∀ y, symGet (symSet (tblOf 256 fun _ => (0 : Byte)) x 1) y = if x = y then 1 else 0 := by
    intro y
    rw [symGet_symSet, symGet_tblOf]
  have hm : maxLength (symSet (tblOf 256 fun _ => (0 : Byte)) x 1) = 1 := by
    apply isLongest_iff.mp
    refine ⟨fun s => ?_, x, by rw [hg, if_pos rfl]; rfl⟩
    rw [hg]
    split <;> decide
  have hc : codedCount (symSet (tblOf 256 fun _ => (0 : Byte)) x 1) = 1 := by
    rw [← length_of_members (l := [x]) (by simp)]
    · rfl
    · intro y
      rw [hg, List.mem_singleton]
      by_cases e : x = y
      · simp [e]
      · simp [e, Ne.symm e]
  rw [accepted_iff, hm, hc]
  exact ⟨Nat.le_refl 1, h, .inl ⟨hc, rfl⟩⟩

/-- WALK of a tree that BUILD left ends in lengths that CANON accepts (41_canonical_code_generator.md R92 item 4). -/
theorem walk_accepted {maxLen : Nat} {freq : Table Dword 256} {tree : Tree} {len : Table Byte 256} (h1 : 1 ≤ maxLen)
    (hb : buildTree freq tree.node = .ok tree) (hw : treeLengths maxLen tree = .ok len) : Accepted maxLen len := by
  obtain ⟨hbl, htree⟩ := buildable_of_ok hb
  obtain ⟨t, hsize, hst, -, hperm⟩ := builtTree_tree tree.node hbl
  rw [← htree] at hst
  have hn : t.symbols.Nodup := hperm.nodup_iff.mpr (nodup_leavesOf freq)
  have hle := (leavesOk hbl).le
  rw [length_leavesOf] at hle
  cases t with
  | leaf x =>
    rw [treeLengths_leaf hst] at hw
    cases hw
    exact one_accepted x h1
  | branch l r =>
    rw [treeLengths_branch hst (by omega)] at hw
    have hmax : ∀ p ∈ (BinTree.branch l r).paths, p.2.length ≤ maxLen := fun p hp =>
      writeDepths_ok_iff maxLen _ _ _ hw (p.1, p.2.length) (List.mem_map.mpr ⟨p, hp, rfl⟩)
    obtain ⟨len', e, k1, k2⟩ := writeDepths_ok maxLen ((BinTree.branch l r).paths.map fun p => (p.1, p.2.length))
      (tblOf 256 fun _ => 0) (by
        intro q hq
        obtain ⟨p, hp, rfl⟩ := List.mem_map.mp hq
        exact hmax p hp)
    rw [hw] at e
    cases e
    have hs : ((BinTree.branch l r).paths.map fun p => (p.1, p.2.length)).map (fun p => p.1) =
        (BinTree.branch l r).symbols := by simp [BinTree.symbols]
    rw [hs] at k1 k2
    refine depths_accepted hn hmax (fun p hp => ?_) fun x hx => by rw [k1 x hx, symGet_tblOf]
    have hlt := path_length_le _ hp
    rw [k2 hn (p.1, p.2.length) (List.mem_map.mpr ⟨p, hp, rfl⟩), BitVec.toNat_ofNat]
    exact Nat.mod_eq_of_lt (by omega)

/-- WALK of a tree that BUILD left does not stop (log 11). -/
theorem walk_goes_on {maxLen : Nat} {freq : Table Dword 256} {tree : Tree} (hb : buildTree freq tree.node = .ok tree)
    {f : Fault} : treeLengths maxLen tree ≠ .error (.broken f) := by
  have nd : ∀ (ps : List (Byte × Nat)) (len : Table Byte 256), writeDepths maxLen ps len ≠ .error (.broken f) := by
    intro ps
    induction ps with
    | nil => intro len h; cases h
    | cons p ps ih =>
      intro len
      rw [writeDepths]
      split
      · intro h; cases h
      · exact ih _
  obtain ⟨hbl, htree⟩ := buildable_of_ok hb
  obtain ⟨t, hsize, hst, -, -⟩ := builtTree_tree tree.node hbl
  rw [← htree] at hst
  have hle := (leavesOk hbl).le
  rw [length_leavesOf] at hle
  cases t with
  | leaf x => rw [treeLengths_leaf hst]; intro h; cases h
  | branch l r => rw [treeLengths_branch hst (by omega)]; exact nd _ _

end Sys2Proof.Machine
end

