-- ==== Sys2Proof/Laws/PrefixCode.lean ====
section
/-! SUPPORT. Prefix codes: the Kraft inequality, and that a prefix code with a full Kraft sum is the set of paths of a
binary tree (41_canonical_code_generator.md R92; 43_decoder_trie_walker.md R122). -/

namespace Sys2Proof.Machine

/-- A set of code words with their symbols, none a prefix of another. -/
def PrefixFree (C : List (Byte × List Bool)) : Prop := C.Pairwise fun p q => ¬ p.2 <+: q.2 ∧ ¬ q.2 <+: p.2

/-- The Kraft sum of a set of code words, scaled by `2^m`. -/
def wordKraft (m : Nat) (C : List (Byte × List Bool)) : Nat := (C.map fun p => 2 ^ (m - p.2.length)).sum

/-- The tails of the code words that start with `b`. -/
def tailsOf (b : Bool) : List (Byte × List Bool) → List (Byte × List Bool)
  | [] => []
  | (s, c) :: C =>
    match c with
    | [] => tailsOf b C
    | b' :: c' => if b' = b then (s, c') :: tailsOf b C else tailsOf b C

theorem mem_tailsOf {b : Bool} {s : Byte} {c : List Bool} : ∀ {C : List (Byte × List Bool)},
    (s, c) ∈ tailsOf b C ↔ (s, b :: c) ∈ C
  | [] => by simp [tailsOf]
  | (s', []) :: C => by
    rw [tailsOf, mem_tailsOf (C := C)]
    simp
  | (s', b' :: c') :: C => by
    rw [tailsOf]
    by_cases h : b' = b
    · rw [if_pos h, List.mem_cons, List.mem_cons, mem_tailsOf (C := C)]
      subst h
      simp
    · rw [if_neg h, mem_tailsOf (C := C), List.mem_cons]
      constructor
      · exact .inr
      · rintro (e | e)
        · simp only [Prod.mk.injEq, List.cons.injEq] at e
          exact absurd e.2.1.symm h
        · exact e

theorem prefixFree_tailsOf (b : Bool) : ∀ {C : List (Byte × List Bool)}, PrefixFree C → PrefixFree (tailsOf b C)
  | [], _ => List.Pairwise.nil
  | (s, []) :: C, h => by
    rw [tailsOf]
    exact prefixFree_tailsOf b (List.pairwise_cons.mp h).2
  | (s, b' :: c) :: C, h => by
    obtain ⟨h1, h2⟩ := List.pairwise_cons.mp h
    have ih := prefixFree_tailsOf b h2
    rw [tailsOf]
    split
    · next e =>
      subst e
      refine List.pairwise_cons.mpr ⟨?_, ih⟩
      rintro ⟨s', c'⟩ hm
      have := h1 _ (mem_tailsOf.mp hm)
      simpa [List.cons_prefix_cons] using this
    · exact ih

theorem wordKraft_tails (m : Nat) : ∀ {C : List (Byte × List Bool)}, (∀ p ∈ C, p.2 ≠ []) →
    wordKraft (m + 1) C = wordKraft m (tailsOf false C) + wordKraft m (tailsOf true C)
  | [], _ => rfl
  | (s, []) :: C, h => absurd rfl (h (s, []) List.mem_cons_self)
  | (s, b :: c) :: C, h => by
    have ih := wordKraft_tails m (C := C) fun p hp => h p (List.mem_cons_of_mem _ hp)
    have e : m + 1 - (b :: c).length = m - c.length := by simp
    simp only [wordKraft] at ih ⊢
    rw [List.map_cons, List.sum_cons, ih]
    simp only [e]
    cases b
    · simp only [tailsOf, if_true, Bool.false_eq_true, if_false, List.map_cons, List.sum_cons]
      omega
    · simp only [tailsOf, if_true, Bool.true_eq_false, if_false, List.map_cons, List.sum_cons]
      omega

/-- An empty code word stands alone. -/
theorem prefixFree_nil {C : List (Byte × List Bool)} (h : PrefixFree C) {s : Byte} (hm : (s, []) ∈ C) :
    C = [(s, [])] := by
  cases C with
  | nil => simp at hm
  | cons p C =>
    obtain ⟨h1, h2⟩ := List.pairwise_cons.mp h
    rcases List.mem_cons.mp hm with rfl | hm
    · cases C with
      | nil => rfl
      | cons q C => exact absurd (List.nil_prefix) (h1 q List.mem_cons_self).1
    · exact absurd (List.nil_prefix) (h1 _ hm).2

/-- The Kraft inequality. -/
theorem wordKraft_le : ∀ (m : Nat) {C : List (Byte × List Bool)}, PrefixFree C → (∀ p ∈ C, p.2.length ≤ m) →
    wordKraft m C ≤ 2 ^ m
  | m, C, h, hl => by
    by_cases hn : ∃ s, (s, ([] : List Bool)) ∈ C
    · obtain ⟨s, hs⟩ := hn
      rw [prefixFree_nil h hs]
      simp [wordKraft]
    · cases m with
      | zero =>
        cases C with
        | nil => simp [wordKraft]
        | cons p C =>
          exfalso
          have := hl p List.mem_cons_self
          obtain ⟨s, c⟩ := p
          have : c = [] := List.eq_nil_of_length_eq_zero (by simpa using this)
          exact hn ⟨s, by rw [this]; exact List.mem_cons_self⟩
      | succ m =>
        have hne : ∀ p ∈ C, p.2 ≠ [] := by
          rintro ⟨s, c⟩ hp rfl
          exact hn ⟨s, hp⟩
        have hb : ∀ b, ∀ p ∈ tailsOf b C, p.2.length ≤ m := by
          rintro b ⟨s, c⟩ hp
          have := hl _ (mem_tailsOf.mp hp)
          simpa using this
        have h0 := wordKraft_le m (prefixFree_tailsOf false h) (hb false)
        have h1 := wordKraft_le m (prefixFree_tailsOf true h) (hb true)
        rw [wordKraft_tails m hne, pow_succ]
        omega

/-- A prefix code with a full Kraft sum is the set of paths of a tree. -/
theorem tree_of_full : ∀ (m : Nat) {C : List (Byte × List Bool)}, PrefixFree C → (∀ p ∈ C, p.2.length ≤ m) →
    wordKraft m C = 2 ^ m → ∃ t : BinTree, ∀ p, p ∈ t.paths ↔ p ∈ C
  | m, C, h, hl, hk => by
    by_cases hn : ∃ s, (s, ([] : List Bool)) ∈ C
    · obtain ⟨s, hs⟩ := hn
      rw [prefixFree_nil h hs]
      exact ⟨.leaf s, fun p => by simp [BinTree.paths]⟩
    · cases m with
      | zero =>
        exfalso
        cases C with
        | nil => simp [wordKraft] at hk
        | cons p C =>
          have := hl p List.mem_cons_self
          obtain ⟨s, c⟩ := p
          have : c = [] := List.eq_nil_of_length_eq_zero (by simpa using this)
          exact hn ⟨s, by rw [this]; exact List.mem_cons_self⟩
      | succ m =>
        have hne : ∀ p ∈ C, p.2 ≠ [] := by
          rintro ⟨s, c⟩ hp rfl
          exact hn ⟨s, hp⟩
        have hb : ∀ b, ∀ p ∈ tailsOf b C, p.2.length ≤ m := by
          rintro b ⟨s, c⟩ hp
          have := hl _ (mem_tailsOf.mp hp)
          simpa using this
        have h0 := wordKraft_le m (prefixFree_tailsOf false h) (hb false)
        have h1 := wordKraft_le m (prefixFree_tailsOf true h) (hb true)
        rw [wordKraft_tails m hne, pow_succ] at hk
        obtain ⟨l, pl⟩ := tree_of_full m (prefixFree_tailsOf false h) (hb false) (by omega)
        obtain ⟨r, pr⟩ := tree_of_full m (prefixFree_tailsOf true h) (hb true) (by omega)
        refine ⟨.branch l r, ?_⟩
        rintro ⟨s, c⟩
        simp only [BinTree.paths, List.mem_append, List.mem_map, Prod.mk.injEq]
        constructor
        · rintro (⟨⟨s', c'⟩, hp, rfl, rfl⟩ | ⟨⟨s', c'⟩, hp, rfl, rfl⟩)
          · exact mem_tailsOf.mp ((pl _).mp hp)
          · exact mem_tailsOf.mp ((pr _).mp hp)
        · intro hp
          cases c with
          | nil => exact absurd rfl (hne _ hp)
          | cons b c =>
            cases b
            · exact .inl ⟨(s, c), (pl _).mpr (mem_tailsOf.mpr hp), rfl, rfl⟩
            · exact .inr ⟨(s, c), (pr _).mpr (mem_tailsOf.mpr hp), rfl, rfl⟩

/-! ### The nodes of a tree -/

/-- The paths to all nodes of a tree. -/
def nodePaths : BinTree → List (List Bool)
  | .leaf _ => [[]]
  | .branch l r => [] :: ((nodePaths l).map (false :: ·) ++ (nodePaths r).map (true :: ·))

theorem length_nodePaths : ∀ t : BinTree, (nodePaths t).length = t.size
  | .leaf _ => rfl
  | .branch l r => by
    simp only [nodePaths, List.length_cons, List.length_append, List.length_map, length_nodePaths l, length_nodePaths r,
      BinTree.size]
    omega

theorem nodup_nodePaths : ∀ t : BinTree, (nodePaths t).Nodup
  | .leaf _ => by simp [nodePaths]
  | .branch l r => by
    have hl := nodup_nodePaths l
    have hr := nodup_nodePaths r
    rw [nodePaths, List.nodup_cons, List.nodup_append]
    refine ⟨by simp, hl.map fun a b h => by simpa using h, hr.map fun a b h => by simpa using h, ?_⟩
    intro a ha b hb e
    obtain ⟨x, -, rfl⟩ := List.mem_map.mp ha
    obtain ⟨y, -, rfl⟩ := List.mem_map.mp hb
    simp at e

/-- A node is on the way to a leaf. -/
theorem mem_nodePaths : ∀ {t : BinTree} {q : List Bool}, q ∈ nodePaths t ↔ ∃ p ∈ t.paths, q <+: p.2
  | .leaf s, q => by simp [nodePaths, BinTree.paths]
  | .branch l r, q => by
    have ne : ∀ t : BinTree, ∃ p, p ∈ t.paths := fun t => by
      have h1 := size_eq_symbols t
      have h2 := size_pos t
      have : t.paths ≠ [] := fun e => by
        simp only [BinTree.symbols, e, List.map_nil, List.length_nil] at h1
        omega
      exact List.exists_mem_of_ne_nil _ this
    simp only [nodePaths, List.mem_cons, List.mem_append, List.mem_map, mem_nodePaths (t := l), mem_nodePaths (t := r),
      BinTree.paths]
    constructor
    · rintro (rfl | ⟨x, ⟨p, hp, hx⟩, rfl⟩ | ⟨x, ⟨p, hp, hx⟩, rfl⟩)
      · obtain ⟨p, hp⟩ := ne l
        exact ⟨_, .inl ⟨p, hp, rfl⟩, List.nil_prefix⟩
      · exact ⟨_, .inl ⟨p, hp, rfl⟩, List.cons_prefix_cons.mpr ⟨rfl, hx⟩⟩
      · exact ⟨_, .inr ⟨p, hp, rfl⟩, List.cons_prefix_cons.mpr ⟨rfl, hx⟩⟩
    · rintro ⟨_, ⟨p, hp, rfl⟩ | ⟨p, hp, rfl⟩, hx⟩
      · cases q with
        | nil => exact .inl rfl
        | cons b q =>
          obtain ⟨rfl, hy⟩ := List.cons_prefix_cons.mp hx
          exact .inr (.inl ⟨q, ⟨p, hp, hy⟩, rfl⟩)
      · cases q with
        | nil => exact .inl rfl
        | cons b q =>
          obtain ⟨rfl, hy⟩ := List.cons_prefix_cons.mp hx
          exact .inr (.inr ⟨q, ⟨p, hp, hy⟩, rfl⟩)

end Sys2Proof.Machine
end

