-- ==== Sys2Proof/Laws/Trie.lean ====
section
/-! SUPPORT. TRIE_BUILD: the trie it makes of a prefix code, entry by entry, and that it reads no old entry
(43_decoder_trie_walker.md R121, R122). -/

namespace Sys2Proof.Machine

@[simp] theorem childOf_setChild (b b' : Bool) (x : NodeRef) (e : TrieEntry) :
    childOf b' (setChild b x e) = if b' = b then x else childOf b' e := by
  cases b <;> cases b' <;> rfl

@[simp] theorem isLeaf_setChild (b : Bool) (x : NodeRef) (e : TrieEntry) : (setChild b x e).isLeaf = e.isLeaf := by
  cases b <;> rfl

@[simp] theorem sym_setChild (b : Bool) (x : NodeRef) (e : TrieEntry) : (setChild b x e).sym = e.sym := by
  cases b <;> rfl

/-! ### Tries as lists of paths -/

/-- The entries of a trie, by their paths from the root in order of allocation: `D` the code words in it. -/
structure TrieHolds (D : List (Byte × List Bool)) (P : List (List Bool)) (w : TrieWork) : Prop where
  count : w.tn = P.length
  root : P[0]? = some []
  nodup : P.Nodup
  closed : ∀ p b, p ++ [b] ∈ P → p ∈ P
  children : ∀ (i : NodeId) (p : List Bool), P[i.val]? = some p → ∀ (b : Bool) (j : NodeId),
    childOf b (tblGet w.entry i) = some j ↔ P[j.val]? = some (p ++ [b])
  leaf : ∀ (i : NodeId) (p : List Bool), P[i.val]? = some p → ∀ s, (s, p) ∈ D →
    (tblGet w.entry i).isLeaf = true ∧ (tblGet w.entry i).sym = s
  inner : ∀ (i : NodeId) (p : List Bool), P[i.val]? = some p → (∀ s, (s, p) ∉ D) → (tblGet w.entry i).isLeaf = false

theorem getElem?_inj_of_nodup {P : List (List Bool)} (h : P.Nodup) {i j : Nat} {p : List Bool} (hi : P[i]? = some p)
    (hj : P[j]? = some p) : i = j := by
  obtain ⟨h1, e1⟩ := List.getElem?_eq_some_iff.mp hi
  obtain ⟨h2, e2⟩ := List.getElem?_eq_some_iff.mp hj
  exact (List.Nodup.getElem_inj_iff h).mp (e1.trans e2.symm)

/-- TRIE_BUILD starts from a root with nothing below it. -/
theorem trieHolds_start (old : Table TrieEntry 511) :
    TrieHolds [] [[]] { entry := tblSet old 0 internalEntry, tn := 1 } := by
  have h0 : ∀ (i : NodeId) (p : List Bool), ([[]] : List (List Bool))[i.val]? = some p → i = 0 ∧ p = [] := by
    intro i p h
    obtain ⟨h1, h2⟩ := List.getElem?_eq_some_iff.mp h
    have hi : i.val = 0 := by simpa using h1
    refine ⟨Fin.ext hi, ?_⟩
    simp only [hi] at h2
    exact h2.symm
  refine ⟨rfl, rfl, by simp, fun p b h => by simp at h, fun i p h b j => ?_, fun i p h s hs => by simp at hs,
    fun i p h _ => ?_⟩
  · obtain ⟨rfl, rfl⟩ := h0 i p h
    have hc : childOf b internalEntry = none := by cases b <;> rfl
    simp only [tblGet_tblSet_self, hc]
    constructor
    · intro e; cases e
    · intro e
      exact absurd (h0 j _ e).2 (by simp)
  · obtain ⟨rfl, rfl⟩ := h0 i p h
    simp only [tblGet_tblSet_self]
    rfl

/-- Allocating the node below `t` along `b`. -/
theorem trieAllocate_spec {D D' : List (Byte × List Bool)} {P : List (List Bool)} {w : TrieWork} (h : TrieHolds D P w)
    {t : NodeId} {p : List Bool} (ht : P[t.val]? = some p) {b : Bool} (hnew : p ++ [b] ∉ P) (hlen : P.length < 511)
    {e : TrieEntry} (he : ∀ b', childOf b' e = none) (hD : ∀ s q, q ∈ P → ((s, q) ∈ D' ↔ (s, q) ∈ D))
    (hleaf : ∀ s, (s, p ++ [b]) ∈ D' → e.isLeaf = true ∧ e.sym = s)
    (hinner : (∀ s, (s, p ++ [b]) ∉ D') → e.isLeaf = false) :
    ∃ (x : NodeId) (w' : TrieWork), trieAllocate t b e w = .ok (x, w') ∧ TrieHolds D' (P ++ [p ++ [b]]) w' ∧
      x.val = P.length ∧ ∀ i : NodeId, P.length < i.val → tblGet w'.entry i = tblGet w.entry i := by
  obtain ⟨old0, tn⟩ := w
  have hcount : tn = P.length := h.count
  subst hcount
  have htl := (List.getElem?_eq_some_iff.mp ht).1
  have hmem : p ∈ P := List.mem_of_getElem? ht
  have hne : (⟨P.length, hlen⟩ : NodeId) ≠ t := fun e => by
    have h2 : P.length = t.val := congrArg Fin.val e
    omega
  have entry : ∀ i : NodeId, tblGet
      (tblSet (tblSet old0 ⟨P.length, hlen⟩ e) t (setChild b (some ⟨P.length, hlen⟩) (tblGet (tblSet old0 ⟨P.length, hlen⟩ e) t))) i =
      if t = i then setChild b (some ⟨P.length, hlen⟩) (tblGet old0 t)
      else if (⟨P.length, hlen⟩ : NodeId) = i then e else tblGet old0 i := by
    intro i
    rw [tblGet_tblSet, tblGet_tblSet_ne _ _ hne, tblGet_tblSet]
  have old : ∀ {k : Nat} {q : List Bool}, (P ++ [p ++ [b]])[k]? = some q →
      P[k]? = some q ∨ (k = P.length ∧ q = p ++ [b]) := by
    intro k q hk
    rcases Nat.lt_trichotomy k P.length with hlt | heq | hgt
    · rw [List.getElem?_append_left hlt] at hk
      exact .inl hk
    · rw [heq, List.getElem?_concat_length] at hk
      exact .inr ⟨heq, (Option.some.inj hk).symm⟩
    · rw [List.getElem?_eq_none (by simp; omega)] at hk
      cases hk
  have new : ∀ {k : Nat} {q : List Bool}, P[k]? = some q → (P ++ [p ++ [b]])[k]? = some q := by
    intro k q hk
    rw [List.getElem?_append_left (List.getElem?_eq_some_iff.mp hk).1]
    exact hk
  have cases' : ∀ (i : NodeId) (q : List Bool), (P ++ [p ++ [b]])[i.val]? = some q →
      (P[i.val]? = some q ∧ (⟨P.length, hlen⟩ : NodeId) ≠ i) ∨ ((⟨P.length, hlen⟩ : NodeId) = i ∧ q = p ++ [b]) := by
    intro i q hi
    rcases old hi with hi | ⟨hi, hq⟩
    · refine .inl ⟨hi, fun e => ?_⟩
      have h1 := (List.getElem?_eq_some_iff.mp hi).1
      have h2 : P.length = i.val := congrArg Fin.val e
      omega
    · exact .inr ⟨Fin.ext hi.symm, hq⟩
  refine ⟨⟨P.length, hlen⟩,
    { entry := tblSet (tblSet old0 ⟨P.length, hlen⟩ e) t
        (setChild b (some ⟨P.length, hlen⟩) (tblGet (tblSet old0 ⟨P.length, hlen⟩ e) t))
      tn := P.length + 1 },
    by simp only [trieAllocate, dif_pos hlen], ⟨?_, new h.root, ?_, ?_, ?_, ?_, ?_⟩, rfl, ?_⟩
  · simp
  · exact List.nodup_append.mpr ⟨h.nodup, by simp, fun a ha c hc e => by
      rw [List.mem_singleton] at hc
      exact hnew (hc ▸ e ▸ ha)⟩
  · intro q b' hq
    rcases List.mem_append.mp hq with hq | hq
    · exact List.mem_append_left _ (h.closed q b' hq)
    · rw [List.mem_singleton] at hq
      obtain ⟨rfl, -⟩ := List.append_inj' hq rfl
      exact List.mem_append_left _ hmem
  · intro i q hi b' j
    simp only [entry]
    rcases cases' i q hi with ⟨hi, hni⟩ | ⟨rfl, rfl⟩
    · by_cases hti : t = i
      · subst hti
        have hqp : q = p := Option.some.inj (hi.symm.trans ht)
        subst hqp
        rw [if_pos rfl, childOf_setChild]
        by_cases hb : b' = b
        · subst hb
          rw [if_pos rfl, Option.some.injEq]
          constructor
          · rintro rfl
            exact List.getElem?_concat_length
          · intro hj
            rcases old hj with hj | ⟨hj, -⟩
            · exact absurd (List.mem_of_getElem? hj) hnew
            · exact Fin.ext hj.symm
        · rw [if_neg hb, h.children t q ht b' j]
          constructor
          · exact new
          · intro hj
            rcases old hj with hj | ⟨-, hq⟩
            · exact hj
            · have := (List.append_inj' hq rfl).2
              simp only [List.cons.injEq, and_true] at this
              exact absurd this hb
      · rw [if_neg hti, if_neg hni, h.children i q hi b' j]
        constructor
        · exact new
        · intro hj
          rcases old hj with hj | ⟨-, hq⟩
          · exact hj
          · have hqp := (List.append_inj' hq rfl).1
            rw [hqp] at hi
            exact absurd (Fin.ext (getElem?_inj_of_nodup h.nodup ht hi)) hti
    · rw [if_neg (Ne.symm hne), if_pos rfl, he]
      constructor
      · intro e; cases e
      · intro hj
        rcases old hj with hj | ⟨-, hq⟩
        · exact absurd (h.closed _ _ (List.mem_of_getElem? hj)) hnew
        · have := congrArg List.length hq
          simp at this
  · intro i q hi s hs
    simp only [entry]
    rcases cases' i q hi with ⟨hi, hni⟩ | ⟨rfl, rfl⟩
    · have hs' := (hD s q (List.mem_of_getElem? hi)).mp hs
      have := h.leaf i q hi s hs'
      simp only at this
      split
      · next e => subst e; simpa using this
      · exact this
    · rw [if_neg (Ne.symm hne), if_pos rfl]
      exact hleaf s hs
  · intro i q hi hs
    simp only [entry]
    rcases cases' i q hi with ⟨hi, hni⟩ | ⟨rfl, rfl⟩
    · have hs' : ∀ s, (s, q) ∉ D := fun s hm => hs s ((hD s q (List.mem_of_getElem? hi)).mpr hm)
      have := h.inner i q hi hs'
      simp only at this
      split
      · next e => subst e; simpa using this
      · exact this
    · rw [if_neg (Ne.symm hne), if_pos rfl]
      exact hinner hs
  · intro i hi
    simp only [entry]
    have h1 : t ≠ i := fun e => by subst e; omega
    have h2 : (⟨P.length, hlen⟩ : NodeId) ≠ i := fun e => by
      have h2 : P.length = i.val := congrArg Fin.val e
      omega
    rw [if_neg h1, if_neg h2]

/-! ### Inserting one code -/

/-- The code bits `k` down to 1. -/
def midBits (code : Dword) (j : Nat) : List Bool := (List.range j).map fun i => code.getLsbD (j - i)

theorem midBits_succ (code : Dword) (j : Nat) : midBits code (j + 1) = code.getLsbD (j + 1) :: midBits code j := by
  simp only [midBits, List.range_succ_eq_map, List.map_cons, List.map_map, Nat.sub_zero]
  congr 1
  apply List.map_congr_left
  intro i _
  simp only [Function.comp]
  congr 1
  omega

/-- The bits of a code word: all but the last, and the last. -/
theorem bitsOf_midBits (code : Dword) {n : Nat} (h : 1 ≤ n) :
    bitsOf code n = midBits code (n - 1) ++ [code.getLsbD 0] := by
  obtain ⟨j, rfl⟩ : ∃ j, n = j + 1 := ⟨n - 1, by omega⟩
  simp only [bitsOf, midBits, List.range_succ, List.map_append, List.map_singleton, Nat.add_sub_cancel, Nat.sub_self]

/-- With room for the paths in `N`, the walk to the end of the bits before the last finds or makes every node. -/
theorem trieDescend_spec {N : List (List Bool)} (hN : N.length ≤ 511) {D : List (Byte × List Bool)} (code : Dword) :
    ∀ (j : Nat) {P : List (List Bool)} {w : TrieWork} {t : NodeId} {p : List Bool}, TrieHolds D P w →
      P[t.val]? = some p → (∀ q ∈ P, q ∈ N) → (∀ q, q <+: p ++ midBits code j → q ∈ N) →
      (∀ q, p <+: q → q <+: p ++ midBits code j → ∀ s, (s, q) ∉ D) →
      ∃ (t' : NodeId) (w' : TrieWork) (Q : List (List Bool)), trieDescend code j t w = .ok (t', w') ∧
        TrieHolds D (P ++ Q) w' ∧ (P ++ Q)[t'.val]? = some (p ++ midBits code j) ∧ (∀ q ∈ P ++ Q, q ∈ N) ∧
        (∀ q ∈ Q, q <+: p ++ midBits code j) ∧
        ∀ i : NodeId, (P ++ Q).length ≤ i.val → tblGet w'.entry i = tblGet w.entry i
  | 0, P, w, t, p, h, ht, hP, hq, hD => by
    refine ⟨t, w, [], rfl, ?_, ?_, ?_, fun q hq => absurd hq (by simp), fun _ _ => rfl⟩
    · simpa using h
    · simpa [midBits] using ht
    · simpa using hP
  | j + 1, P, w, t, p, h, ht, hP, hq, hD => by
    have hmid : p ++ midBits code (j + 1) = (p ++ [code.getLsbD (j + 1)]) ++ midBits code j := by
      rw [midBits_succ]; simp
    rw [hmid] at hq hD ⊢
    have hpre : p <+: (p ++ [code.getLsbD (j + 1)]) ++ midBits code j := by
      rw [List.append_assoc]; exact List.prefix_append _ _
    have hin := h.inner t p ht (hD p List.prefix_rfl hpre)
    have hpb : p ++ [code.getLsbD (j + 1)] <+: (p ++ [code.getLsbD (j + 1)]) ++ midBits code j := List.prefix_append _ _
    have hD2 : ∀ q, p ++ [code.getLsbD (j + 1)] <+: q → q <+: (p ++ [code.getLsbD (j + 1)]) ++ midBits code j →
        ∀ s, (s, q) ∉ D := fun q h1 h2 => hD q ((List.prefix_append _ _).trans h1) h2
    by_cases hx : p ++ [code.getLsbD (j + 1)] ∈ P
    · obtain ⟨k, hk, hkp⟩ := List.getElem_of_mem hx
      have hk511 : k < 511 := by
        have hle : P.length ≤ N.length := (List.subperm_of_subset h.nodup hP).length_le
        omega
      have hkx : P[(⟨k, hk511⟩ : NodeId).val]? = some (p ++ [code.getLsbD (j + 1)]) := by
        rw [List.getElem?_eq_getElem hk, hkp]
      have hc := (h.children t p ht (code.getLsbD (j + 1)) ⟨k, hk511⟩).mpr hkx
      obtain ⟨t', w', Q, e, a1, a2, a3, a4, a5⟩ := trieDescend_spec hN code j h hkx hP hq hD2
      refine ⟨t', w', Q, ?_, a1, a2, a3, a4, a5⟩
      simp only [trieDescend, hin, Bool.false_eq_true, if_false, hc]
      exact e
    · have hc : childOf (code.getLsbD (j + 1)) (tblGet w.entry t) = none := by
        cases hcc : childOf (code.getLsbD (j + 1)) (tblGet w.entry t) with
        | none => rfl
        | some x => exact absurd (List.mem_of_getElem? ((h.children t p ht _ x).mp hcc)) hx
      have hroom : P.length < 511 := by
        have hnd : ((p ++ [code.getLsbD (j + 1)]) :: P).Nodup := List.nodup_cons.mpr ⟨hx, h.nodup⟩
        have hsub : ((p ++ [code.getLsbD (j + 1)]) :: P) ⊆ N := by
          intro q hq'
          rcases List.mem_cons.mp hq' with rfl | hq'
          · exact hq _ hpb
          · exact hP q hq'
        have := (List.subperm_of_subset hnd hsub).length_le
        simp only [List.length_cons] at this
        omega
      obtain ⟨x, w1, e1, g1, hxv, u1⟩ := trieAllocate_spec (D' := D) h ht hx hroom (e := internalEntry)
        (fun b' => by cases b' <;> rfl) (fun _ _ _ => Iff.rfl)
        (fun s hs => absurd hs (hD2 _ List.prefix_rfl hpb s)) (fun _ => rfl)
      have hxp : (P ++ [p ++ [code.getLsbD (j + 1)]])[x.val]? = some (p ++ [code.getLsbD (j + 1)]) := by
        rw [hxv, List.getElem?_concat_length]
      obtain ⟨t', w', Q, e, a1, a2, a3, a4, a5⟩ := trieDescend_spec hN code j g1 hxp (by
        intro q hq'
        rcases List.mem_append.mp hq' with hq' | hq'
        · exact hP q hq'
        · rw [List.mem_singleton] at hq'
          rw [hq']
          exact hq _ hpb) hq hD2
      rw [List.append_assoc] at a1 a2 a3 a5
      refine ⟨t', w', [p ++ [code.getLsbD (j + 1)]] ++ Q, ?_, a1, a2, a3, ?_, ?_⟩
      · simp only [trieDescend, hin, Bool.false_eq_true, if_false, hc, e1, run_ok_bind]
        exact e
      · intro q hq'
        rcases List.mem_append.mp hq' with hq' | hq'
        · rw [List.mem_singleton] at hq'
          rw [hq']
          exact hpb
        · exact a4 q hq'
      · intro i hi
        rw [a5 i hi, u1 i (by simp only [List.length_append, List.length_singleton] at hi; omega)]

/-- Every path of a trie is on the way to a code word in it. -/
def Covered (D : List (Byte × List Bool)) (P : List (List Bool)) : Prop :=
  ∀ q ∈ P, q = [] ∨ ∃ s c, (s, c) ∈ D ∧ q <+: c

/-- Inserting a code word that no word in the trie is a prefix of, or begins. -/
theorem trieInsert_spec {N : List (List Bool)} (hN : N.length ≤ 511) {D : List (Byte × List Bool)}
    {P : List (List Bool)} {w : TrieWork} (h : TrieHolds D P w) (hcov : Covered D P) (hP : ∀ q ∈ P, q ∈ N) {sym : Byte}
    {n : Nat} {code : Dword} (hn : 1 ≤ n) (hpre : ∀ q, q <+: bitsOf code n → q ∈ N)
    (hfree : ∀ s c, (s, c) ∈ D → ¬ c <+: bitsOf code n ∧ ¬ bitsOf code n <+: c) :
    ∃ (w' : TrieWork) (Q : List (List Bool)), trieInsert sym n code w = .ok w' ∧
      TrieHolds (D ++ [(sym, bitsOf code n)]) (P ++ Q) w' ∧ Covered (D ++ [(sym, bitsOf code n)]) (P ++ Q) ∧
      (∀ q ∈ P ++ Q, q ∈ N) ∧ bitsOf code n ∈ P ++ Q ∧
      ∀ i : NodeId, (P ++ Q).length ≤ i.val → tblGet w'.entry i = tblGet w.entry i := by
  have hbits := bitsOf_midBits code hn
  have hmidpre : midBits code (n - 1) <+: bitsOf code n := by rw [hbits]; exact List.prefix_append _ _
  have hnotD : ∀ q, q <+: bitsOf code n → ∀ s, (s, q) ∉ D := fun q hq s hs => (hfree s q hs).1 hq
  obtain ⟨t, w1, Q, e1, g1, hpos, hin, hQ, u1⟩ := trieDescend_spec hN code (n - 1) (t := 0) (p := []) h h.root hP
    (fun q hq => hpre q ((by simpa using hq : q <+: midBits code (n - 1)).trans hmidpre))
    (fun q _ hq => hnotD q ((by simpa using hq : q <+: midBits code (n - 1)).trans hmidpre))
  simp only [List.nil_append] at hpos hQ
  have hnew : bitsOf code n ∉ P ++ Q := by
    intro hm
    rcases List.mem_append.mp hm with hm | hm
    · rcases hcov _ hm with h0 | ⟨s, c, hs, hc⟩
      · have := congrArg List.length h0
        simp at this
        omega
      · exact (hfree s c hs).2 hc
    · have := (hQ _ hm).length_le
      rw [hbits] at this
      simp at this
  have hroom : (P ++ Q).length < 511 := by
    have hnd : (bitsOf code n :: (P ++ Q)).Nodup := List.nodup_cons.mpr ⟨hnew, g1.nodup⟩
    have hsub : (bitsOf code n :: (P ++ Q)) ⊆ N := by
      intro q hq
      rcases List.mem_cons.mp hq with rfl | hq
      · exact hpre _ List.prefix_rfl
      · exact hin q hq
    have := (List.subperm_of_subset hnd hsub).length_le
    simp only [List.length_cons] at this
    omega
  have hleafno : (tblGet w1.entry t).isLeaf = false := g1.inner t _ hpos (hnotD _ hmidpre)
  have hnone : childOf (code.getLsbD 0) (tblGet w1.entry t) = none := by
    cases hcc : childOf (code.getLsbD 0) (tblGet w1.entry t) with
    | none => rfl
    | some x =>
      have := List.mem_of_getElem? ((g1.children t _ hpos _ x).mp hcc)
      rw [← hbits] at this
      exact absurd this hnew
  obtain ⟨x, w2, e2, g2, -, u2⟩ := trieAllocate_spec (D' := D ++ [(sym, bitsOf code n)]) g1 hpos
    (b := code.getLsbD 0) (by rw [← hbits]; exact hnew) hroom (e := leafEntry sym) (fun b' => by cases b' <;> rfl)
    (by
      intro s q hq
      simp only [List.mem_append, List.mem_singleton, Prod.mk.injEq, or_iff_left_iff_imp]
      rintro ⟨-, rfl⟩
      exact absurd hq hnew)
    (by
      intro s hs
      rw [← hbits] at hs
      simp only [List.mem_append, List.mem_singleton, Prod.mk.injEq, and_true] at hs
      rcases hs with hs | rfl
      · exact absurd hs (hnotD _ List.prefix_rfl s)
      · exact ⟨rfl, rfl⟩)
    (by
      intro hs
      exact absurd (by rw [← hbits]; simp) (hs sym))
  rw [← hbits, List.append_assoc] at g2
  refine ⟨w2, Q ++ [bitsOf code n], ?_, g2, ?_, ?_, by simp, ?_⟩
  · simp only [trieInsert, e1, run_ok_bind, hleafno, hnone, Option.isSome_none, Bool.or_self, Bool.false_eq_true,
      if_false, e2]
  · intro q hq
    rw [← List.append_assoc, List.mem_append, List.mem_append, List.mem_singleton] at hq
    have hself : (sym, bitsOf code n) ∈ D ++ [(sym, bitsOf code n)] := by simp
    rcases hq with (hq | hq) | rfl
    · rcases hcov q hq with h0 | ⟨s, c, hs, hc⟩
      · exact .inl h0
      · exact .inr ⟨s, c, List.mem_append_left _ hs, hc⟩
    · exact .inr ⟨sym, _, hself, (hQ q hq).trans hmidpre⟩
    · exact .inr ⟨sym, _, hself, List.prefix_rfl⟩
  · intro q hq
    rw [← List.append_assoc, List.mem_append, List.mem_singleton] at hq
    rcases hq with hq | rfl
    · exact hin q hq
    · exact hpre _ List.prefix_rfl
  · intro i hi
    simp only [List.length_append, List.length_singleton] at hi u1 u2
    rw [u2 i (by omega), u1 i (by omega)]

/-! ### Inserting a code -/

/-- The code words of a list of symbols. -/
def wordsOf (len : Table Byte 256) (code : Table Dword 256) (syms : List Byte) : List (Byte × List Bool) :=
  syms.map fun s => (s, codeWord len code s)

theorem trieInsertAll_spec {N : List (List Bool)} (hN : N.length ≤ 511) {len : Table Byte 256} {code : Table Dword 256} :
    ∀ (syms : List Byte) {D : List (Byte × List Bool)} {P : List (List Bool)} {w : TrieWork}, TrieHolds D P w →
      Covered D P → (∀ q ∈ P, q ∈ N) → (∀ s c, (s, c) ∈ D → c ∈ P) → (∀ s ∈ syms, symGet len s ≠ 0) →
      (∀ s ∈ syms, ∀ q, q <+: codeWord len code s → q ∈ N) → PrefixFree (D ++ wordsOf len code syms) →
      ∃ (w' : TrieWork) (Q : List (List Bool)), trieInsertAll len code syms w = .ok w' ∧
        TrieHolds (D ++ wordsOf len code syms) (P ++ Q) w' ∧ Covered (D ++ wordsOf len code syms) (P ++ Q) ∧
        (∀ q ∈ P ++ Q, q ∈ N) ∧
        (∀ s c, (s, c) ∈ D ++ wordsOf len code syms → c ∈ P ++ Q) ∧
        ∀ i : NodeId, (P ++ Q).length ≤ i.val → tblGet w'.entry i = tblGet w.entry i
  | [], D, P, w, h, hc, hP, hDP, _, _, _ => by
    refine ⟨w, [], rfl, ?_, ?_, ?_, ?_, fun _ _ => rfl⟩
    · simpa [wordsOf] using h
    · simpa [wordsOf] using hc
    · simpa using hP
    · simpa [wordsOf] using hDP
  | s :: ss, D, P, w, h, hc, hP, hDP, hl, hpre, hfree => by
    have hs := hl s List.mem_cons_self
    have h1 : 1 ≤ (symGet len s).toNat := by
      have : (symGet len s).toNat ≠ 0 := fun e => hs (BitVec.eq_of_toNat_eq e)
      omega
    have hf := hfree
    rw [PrefixFree, List.pairwise_append] at hf
    obtain ⟨w1, Q, e1, g1, c1, n1, m1, u1⟩ := trieInsert_spec hN h hc hP (sym := s) h1
      (fun q hq => hpre s List.mem_cons_self q hq)
      (fun s' c' hd => hf.2.2 (s', c') hd (s, codeWord len code s) (by simp [wordsOf]))
    have hcons : D ++ wordsOf len code (s :: ss) = (D ++ [(s, codeWord len code s)]) ++ wordsOf len code ss := by
      simp [wordsOf]
    rw [hcons] at hfree ⊢
    obtain ⟨w2, Q2, e2, g2, c2, n2, m2, u2⟩ := trieInsertAll_spec hN ss g1 c1 n1
      (by
        intro s' c' hd
        rcases List.mem_append.mp hd with hd | hd
        · exact List.mem_append_left _ (hDP s' c' hd)
        · rw [List.mem_singleton] at hd
          cases hd
          exact m1)
      (fun x hx => hl x (List.mem_cons_of_mem _ hx)) (fun x hx => hpre x (List.mem_cons_of_mem _ hx)) hfree
    rw [List.append_assoc P Q Q2] at g2 c2 n2 m2 u2
    refine ⟨w2, Q ++ Q2, ?_, g2, c2, n2, m2, fun i hi => ?_⟩
    · simp only [trieInsertAll, e1, run_ok_bind, e2]
    · rw [u2 i hi, u1 i (by simp only [List.length_append] at hi ⊢; omega)]

end Sys2Proof.Machine
end

