-- ==== Sys2Proof/Laws/TrieAgain.lean ====
section
/-! SUPPORT. TRIE_BUILD reads no old entry, and what it makes of an accepted canonical table
(43_decoder_trie_walker.md R121, R122). -/

namespace Sys2Proof.Machine

/-! ### Two runs over different old entries -/

/-- Two tries at the same point, over contents that differ at most at or above the first free entry. -/
structure TrieAgree (w w' : TrieWork) : Prop where
  tn : w'.tn = w.tn
  entry : ∀ i : NodeId, i.val < w.tn → tblGet w'.entry i = tblGet w.entry i

/-- Every child is an allocated entry. -/
def ClosedTrie (w : TrieWork) : Prop :=
  ∀ i : NodeId, i.val < w.tn → ∀ (b : Bool) (x : NodeId), childOf b (tblGet w.entry i) = some x → x.val < w.tn

/-- What a second run over agreeing contents does. -/
structure SecondRun (w w' v v' : TrieWork) : Prop where
  agree : TrieAgree v v'
  closed : ClosedTrie v
  grows : w.tn ≤ v.tn
  kept : ∀ i : NodeId, v.tn ≤ i.val → tblGet v'.entry i = tblGet w'.entry i

theorem SecondRun.trans {w w' v v' u u' : TrieWork} (h : SecondRun w w' v v') (h' : SecondRun v v' u u') :
    SecondRun w w' u u' :=
  ⟨h'.agree, h'.closed, Nat.le_trans h.grows h'.grows, fun i hi => by
    rw [h'.kept i hi, h.kept i (Nat.le_trans h'.grows hi)]⟩

theorem trieAllocate_agree {t : NodeId} {b : Bool} {e : TrieEntry} {w w' v : TrieWork} {x : NodeId}
    (ha : TrieAgree w w') (hc : ClosedTrie w) (ht : t.val < w.tn) (he : ∀ b', childOf b' e = none)
    (h : trieAllocate t b e w = .ok (x, v)) :
    ∃ v', trieAllocate t b e w' = .ok (x, v') ∧ SecondRun w w' v v' ∧ x.val < v.tn := by
  obtain ⟨entry, tn⟩ := w
  obtain ⟨entry', tn'⟩ := w'
  have htn : tn' = tn := ha.tn
  subst htn
  have hae : ∀ i : NodeId, i.val < tn' → tblGet entry' i = tblGet entry i := ha.entry
  unfold trieAllocate at h
  split at h
  · next hn =>
    simp only at hn ht hc
    cases h
    have hne : (⟨tn', hn⟩ : NodeId) ≠ t := fun e => by
      have := congrArg Fin.val e
      simp only at this
      omega
    have val : ∀ (en : Table TrieEntry 511) (i : NodeId), tblGet (tblSet (tblSet en ⟨tn', hn⟩ e) t
        (setChild b (some ⟨tn', hn⟩) (tblGet (tblSet en ⟨tn', hn⟩ e) t))) i =
        if t = i then setChild b (some ⟨tn', hn⟩) (tblGet en t)
        else if (⟨tn', hn⟩ : NodeId) = i then e else tblGet en i := by
      intro en i
      rw [tblGet_tblSet, tblGet_tblSet_ne _ _ hne, tblGet_tblSet]
    refine ⟨⟨tblSet (tblSet entry' ⟨tn', hn⟩ e) t
          (setChild b (some ⟨tn', hn⟩) (tblGet (tblSet entry' ⟨tn', hn⟩ e) t)), tn' + 1⟩,
      by simp only [trieAllocate, dif_pos hn], ⟨⟨rfl, fun i hi => ?_⟩, fun i hi b' x hx => ?_, Nat.le_succ _,
        fun i hi => ?_⟩, Nat.lt_succ_self _⟩
    · simp only at hi ⊢
      rw [val, val, hae t ht]
      by_cases h2 : (⟨tn', hn⟩ : NodeId) = i
      · rw [if_pos h2, if_pos h2]
      · have hlt : i.val < tn' := by
          have : i.val ≠ tn' := fun e => h2 (Fin.ext e.symm)
          omega
        rw [if_neg h2, if_neg h2, hae i hlt]
    · simp only at hi hx ⊢
      rw [val] at hx
      by_cases h1 : t = i
      · rw [if_pos h1, childOf_setChild] at hx
        split at hx
        · cases hx; exact Nat.lt_succ_self _
        · have hxt : x.val < tn' := hc t ht b' x hx
          omega
      · rw [if_neg h1] at hx
        by_cases h2 : (⟨tn', hn⟩ : NodeId) = i
        · rw [if_pos h2, he] at hx
          cases hx
        · rw [if_neg h2] at hx
          have hlt : i.val < tn' := by
            have : i.val ≠ tn' := fun e => h2 (Fin.ext e.symm)
            omega
          have hxt : x.val < tn' := hc i hlt b' x hx
          omega
    · simp only at hi ⊢
      rw [val]
      have h1 : t ≠ i := fun e => by subst e; omega
      have h2 : (⟨tn', hn⟩ : NodeId) ≠ i := fun e => by
        have := congrArg Fin.val e
        simp only at this
        omega
      rw [if_neg h1, if_neg h2]
  · cases h

theorem internalEntry_child (b : Bool) : childOf b internalEntry = none := by cases b <;> rfl

theorem leafEntry_child (s : Byte) (b : Bool) : childOf b (leafEntry s) = none := by cases b <;> rfl

theorem trieDescend_agree (code : Dword) : ∀ (j : Nat) {t : NodeId} {w w' v : TrieWork} {x : NodeId},
    TrieAgree w w' → ClosedTrie w → t.val < w.tn → trieDescend code j t w = .ok (x, v) →
    ∃ v', trieDescend code j t w' = .ok (x, v') ∧ SecondRun w w' v v' ∧ x.val < v.tn
  | 0, t, w, w', v, x, ha, hc, ht, h => by
    cases h
    exact ⟨w', rfl, ⟨ha, hc, Nat.le_refl _, fun _ _ => rfl⟩, ht⟩
  | j + 1, t, w, w', v, x, ha, hc, ht, h => by
    have he := ha.entry t ht
    simp only [trieDescend] at h
    split at h
    · cases h
    · next hl =>
      cases hch : childOf (code.getLsbD (j + 1)) (tblGet w.entry t) with
      | some y =>
        rw [hch] at h
        simp only at h
        obtain ⟨v', e, r, hx⟩ := trieDescend_agree code j ha hc (hc t ht _ y hch) h
        refine ⟨v', ?_, r, hx⟩
        simp only [trieDescend, he, hl, hch]
        exact e
      | none =>
        rw [hch] at h
        simp only at h
        obtain ⟨⟨y, u⟩, h1, h2⟩ := bind_eq_ok h
        obtain ⟨u', e1, r1, hy⟩ := trieAllocate_agree ha hc ht internalEntry_child h1
        obtain ⟨v', e2, r2, hx⟩ := trieDescend_agree code j r1.agree r1.closed hy h2
        refine ⟨v', ?_, r1.trans r2, hx⟩
        simp only [trieDescend, he, hl, hch, e1, run_ok_bind]
        exact e2

theorem trieInsert_agree {sym : Byte} {n : Nat} {code : Dword} {w w' v : TrieWork} (ha : TrieAgree w w')
    (hc : ClosedTrie w) (h0 : 0 < w.tn) (h : trieInsert sym n code w = .ok v) :
    ∃ v', trieInsert sym n code w' = .ok v' ∧ SecondRun w w' v v' := by
  obtain ⟨⟨t, u⟩, h1, h⟩ := bind_eq_ok h
  obtain ⟨u', e1, r1, ht⟩ := trieDescend_agree code (n - 1) ha hc (t := 0) h0 h1
  have he := r1.agree.entry t ht
  simp only at h
  split at h
  · cases h
  · next hl =>
    obtain ⟨⟨y, v0⟩, h2, h⟩ := bind_eq_ok h
    cases h
    obtain ⟨v', e2, r2, -⟩ := trieAllocate_agree r1.agree r1.closed ht (leafEntry_child sym) h2
    refine ⟨v', ?_, r1.trans r2⟩
    simp only [trieInsert, e1, run_ok_bind, he, hl, e2]
    rfl

theorem trieInsertAll_agree {len : Table Byte 256} {code : Table Dword 256} : ∀ (syms : List Byte) {w w' v : TrieWork},
    TrieAgree w w' → ClosedTrie w → 0 < w.tn → trieInsertAll len code syms w = .ok v →
    ∃ v', trieInsertAll len code syms w' = .ok v' ∧ SecondRun w w' v v'
  | [], w, w', v, ha, hc, _, h => by
    cases h
    exact ⟨w', rfl, ha, hc, Nat.le_refl _, fun _ _ => rfl⟩
  | s :: ss, w, w', v, ha, hc, h0, h => by
    obtain ⟨u, h1, h2⟩ := bind_eq_ok h
    obtain ⟨u', e1, r1⟩ := trieInsert_agree ha hc h0 h1
    obtain ⟨v', e2, r2⟩ := trieInsertAll_agree ss r1.agree r1.closed (Nat.lt_of_lt_of_le h0 r1.grows) h2
    exact ⟨v', by simp only [trieInsertAll, e1, run_ok_bind, e2], r1.trans r2⟩

/-- TRIE_BUILD of the tables a TRIE_BUILD left is that trie again (10_state.md R34). -/
theorem buildTrie_again {len : Table Byte 256} {c : Canon} {old : Table TrieEntry 511} {trie : Trie}
    (h : buildTrie len c old = .ok trie) : buildTrie len c trie.entry = .ok trie := by
  obtain ⟨v, h1, h2⟩ := bind_eq_ok h
  cases h2
  have h0 : ∀ i : NodeId, i.val < 1 → i = 0 := fun i hi => Fin.ext (by simpa using hi)
  have hstart : TrieAgree { entry := tblSet old 0 internalEntry, tn := 1 }
      { entry := tblSet v.entry 0 internalEntry, tn := 1 } :=
    ⟨rfl, fun i hi => by rw [h0 i hi]; simp⟩
  have hclosed : ClosedTrie { entry := tblSet old 0 internalEntry, tn := 1 } := by
    intro i hi b x hx
    rw [h0 i hi] at hx
    simp only [tblGet_tblSet_self, internalEntry_child] at hx
    cases hx
  obtain ⟨v', e, r⟩ := trieInsertAll_agree _ hstart hclosed Nat.one_pos h1
  have hentry : v'.entry = v.entry := by
    apply tbl_ext
    intro i
    by_cases hi : i.val < v.tn
    · exact r.agree.entry i hi
    · rw [r.kept i (by omega)]
      have hg := r.grows
      simp only at hg
      rw [tblGet_tblSet_ne]
      intro e0
      subst e0
      simp at hi
      omega
  simp only [buildTrie, e, run_ok_bind, hentry, r.agree.tn]

/-! ### The entries above the last one -/

theorem trieAllocate_tn {t : NodeId} {b : Bool} {e : TrieEntry} {w v : TrieWork} {x : NodeId}
    (h : trieAllocate t b e w = .ok (x, v)) : v.tn ≤ 511 := by
  unfold trieAllocate at h
  split at h
  · next hlt => cases h; exact hlt
  · cases h

theorem trieDescend_tn (code : Dword) : ∀ (j : Nat) {t : NodeId} {w v : TrieWork} {x : NodeId}, w.tn ≤ 511 →
    trieDescend code j t w = .ok (x, v) → v.tn ≤ 511
  | 0, _, _, _, _, hw, h => by cases h; exact hw
  | j + 1, t, w, v, x, hw, h => by
    rw [trieDescend] at h
    simp only at h
    split at h
    · cases h
    · split at h
      · exact trieDescend_tn code j hw h
      · obtain ⟨⟨y, w1⟩, h1, h2⟩ := bind_eq_ok h
        exact trieDescend_tn code j (trieAllocate_tn h1) h2

theorem trieInsertAll_tn {len : Table Byte 256} {code : Table Dword 256} : ∀ (syms : List Byte) {w v : TrieWork},
    w.tn ≤ 511 → trieInsertAll len code syms w = .ok v → v.tn ≤ 511
  | [], _, _, hw, h => by cases h; exact hw
  | s :: ss, w, v, hw, h => by
    obtain ⟨w1, h1, h2⟩ := bind_eq_ok h
    refine trieInsertAll_tn ss ?_ h2
    obtain ⟨⟨t, w2⟩, -, h4⟩ := bind_eq_ok h1
    simp only at h4
    split at h4
    · cases h4
    · obtain ⟨⟨y, w3⟩, h5, h6⟩ := bind_eq_ok h4
      cases h6
      exact trieAllocate_tn h5

/-- TRIE_BUILD writes no entry at or above TNODES (43_decoder_trie_walker.md R121). -/
theorem buildTrie_kept {len : Table Byte 256} {c : Canon} {old : Table TrieEntry 511} {trie : Trie}
    (h : buildTrie len c old = .ok trie) (i : NodeId) (hi : trie.tnodes.val ≤ i.val) :
    tblGet trie.entry i = tblGet old i := by
  obtain ⟨v, h1, h2⟩ := bind_eq_ok h
  cases h2
  have h511 := trieInsertAll_tn (symsList c) (by decide : (1 : Nat) ≤ 511) h1
  have hn : (Fin.ofNat 512 v.tn).val = v.tn := Nat.mod_eq_of_lt (by omega)
  rw [hn] at hi
  have hroot : ∀ j : NodeId, j.val < 1 → j = 0 := fun j hj => Fin.ext (by simpa using hj)
  obtain ⟨v', e, r⟩ := trieInsertAll_agree (symsList c) (w' := { entry := tblSet old 0 internalEntry, tn := 1 })
    ⟨rfl, fun _ _ => rfl⟩ (fun j hj b x hx => by
      rw [hroot j hj, tblGet_tblSet_self, internalEntry_child] at hx
      cases hx) Nat.one_pos h1
  rw [h1] at e
  cases e
  have hg : 1 ≤ v.tn := r.grows
  rw [r.kept i hi]
  exact tblGet_tblSet_ne _ _ fun e => by
    rw [← e] at hi
    simp at hi
    omega

/-! ### The trie of a prefix code -/

/-- From an entry, the bits of a word lead to its leaf. -/
theorem trieLeafFor_word {D : List (Byte × List Bool)} {P : List (List Bool)} {w : TrieWork} (h : TrieHolds D P w)
    {s : Byte} : ∀ (bits : List Bool) {i : NodeId} {p : List Bool}, P[i.val]? = some p → bits ≠ [] →
      (s, p ++ bits) ∈ D → p ++ bits ∈ P → (∀ q, q <+: p ++ bits → q ≠ p ++ bits → ∀ s', (s', q) ∉ D) → P.length ≤ 511 →
      trieLeafFor w.entry i bits = some s
  | [], i, p, _, hne, _, _, _, _ => absurd rfl hne
  | b :: bs, i, p, hi, _, hD, hP, hmid, h511 => by
    have hb : p ++ (b :: bs) = (p ++ [b]) ++ bs := by simp
    have hmem : p ++ [b] ∈ P := by
      rw [hb] at hP
      clear hD hmid hb
      induction bs using List.reverseRecOn with
      | nil => simpa using hP
      | append_singleton bs c ih =>
        rw [← List.append_assoc] at hP
        exact ih (by simp) (h.closed _ _ hP)
    obtain ⟨k, hk, hkp⟩ := List.getElem_of_mem hmem
    have hkx : P[(⟨k, by omega⟩ : NodeId).val]? = some (p ++ [b]) := by rw [List.getElem?_eq_getElem hk, hkp]
    have hc := (h.children i p hi b ⟨k, by omega⟩).mpr hkx
    rw [trieLeafFor, hc]
    simp only
    cases bs with
    | nil =>
      obtain ⟨l1, l2⟩ := h.leaf _ _ hkx s hD
      simp [l1, l2]
    | cons c cs =>
      have hin := h.inner _ _ hkx (hmid (p ++ [b]) (by rw [hb]; exact List.prefix_append _ _) (by
        intro e
        have := congrArg List.length e
        simp at this))
      rw [hin]
      simp only [Bool.false_eq_true, if_false]
      rw [hb] at hD hP hmid
      exact trieLeafFor_word h (c :: cs) hkx (by simp) hD hP hmid h511

/-- A tree whose paths are the words of a trie stands in it. -/
theorem storedInTrie_tree {D : List (Byte × List Bool)} {P : List (List Bool)} {w : TrieWork} (h : TrieHolds D P w)
    (h511 : P.length ≤ 511) : ∀ (t : BinTree) {i : NodeId} {p : List Bool}, P[i.val]? = some p →
      (∀ q ∈ t.paths, (q.1, p ++ q.2) ∈ D) → (∀ q ∈ nodePaths t, p ++ q ∈ P) →
      (∀ q q' , (q' ∈ D) → (∃ x ∈ D, q <+: x.2 ∧ q ≠ x.2) → q'.2 ≠ q) →
      t.storedInTrie w.entry (some i)
  | .leaf s, i, p, hi, hD, _, _ => by
    have := hD (s, []) (by simp [BinTree.paths])
    exact h.leaf i p hi s (by simpa using this)
  | .branch l r, i, p, hi, hD, hP, hfree => by
    have child : ∀ b, p ++ [b] ∈ P → ∃ j : NodeId, childOf b (tblGet w.entry i) = some j ∧ P[j.val]? = some (p ++ [b]) := by
      intro b hb
      obtain ⟨k, hk, hkp⟩ := List.getElem_of_mem hb
      have hkx : P[(⟨k, by omega⟩ : NodeId).val]? = some (p ++ [b]) := by rw [List.getElem?_eq_getElem hk, hkp]
      exact ⟨_, (h.children i p hi b _).mpr hkx, hkx⟩
    have nil : ∀ t : BinTree, [] ∈ nodePaths t := fun t => by cases t <;> simp [nodePaths]
    have some_path : ∃ q, q ∈ l.paths := by
      have h1 := size_eq_symbols l
      have h2 := size_pos l
      have : l.paths ≠ [] := fun e => by
        simp only [BinTree.symbols, e, List.map_nil, List.length_nil] at h1
        omega
      exact List.exists_mem_of_ne_nil _ this
    obtain ⟨jl, cl, pl⟩ := child false (hP [false] (by
      simp only [nodePaths, List.mem_cons, List.mem_append, List.mem_map]
      exact .inr (.inl ⟨[], nil l, rfl⟩)))
    obtain ⟨jr, cr, pr⟩ := child true (hP [true] (by
      simp only [nodePaths, List.mem_cons, List.mem_append, List.mem_map]
      exact .inr (.inr ⟨[], nil r, rfl⟩)))
    have hl := storedInTrie_tree h h511 l pl
      (fun q hq => by
        have := hD (q.1, false :: q.2) (by
          simp only [BinTree.paths, List.mem_append, List.mem_map]
          exact .inl ⟨q, hq, rfl⟩)
        simpa using this)
      (fun q hq => by
        have := hP (false :: q) (by
          simp only [nodePaths, List.mem_cons, List.mem_append, List.mem_map]
          exact .inr (.inl ⟨q, hq, rfl⟩))
        simpa using this) hfree
    have hr := storedInTrie_tree h h511 r pr
      (fun q hq => by
        have := hD (q.1, true :: q.2) (by
          simp only [BinTree.paths, List.mem_append, List.mem_map]
          exact .inr ⟨q, hq, rfl⟩)
        simpa using this)
      (fun q hq => by
        have := hP (true :: q) (by
          simp only [nodePaths, List.mem_cons, List.mem_append, List.mem_map]
          exact .inr (.inr ⟨q, hq, rfl⟩))
        simpa using this) hfree
    refine ⟨h.inner i p hi fun s hs => ?_, by simp only [childOf, Bool.false_eq_true, if_false] at cl; rw [cl]; exact hl,
      by simp only [childOf, if_true] at cr; rw [cr]; exact hr⟩
    obtain ⟨q, hq⟩ := some_path
    have hx := hD (q.1, false :: q.2) (by
      simp only [BinTree.paths, List.mem_append, List.mem_map]
      exact .inl ⟨q, hq, rfl⟩)
    exact hfree p (s, p) hs ⟨_, hx, List.prefix_append _ _, by
      intro e
      have := congrArg List.length e
      simp at this⟩ rfl

/-- TRIE_BUILD of a prefix code whose prefixes are few enough for the arena. -/
theorem buildTrie_spec {len : Table Byte 256} {c : Canon} (old : Table TrieEntry 511) {N : List (List Bool)}
    (hN : N.length ≤ 511) (hroot : [] ∈ N) (hl : ∀ s ∈ symsList c, symGet len s ≠ 0)
    (hpre : ∀ s ∈ symsList c, ∀ q, q <+: codeWord len c.code s → q ∈ N)
    (hfree : PrefixFree (wordsOf len c.code (symsList c))) :
    ∃ (trie : Trie) (w : TrieWork) (P : List (List Bool)), buildTrie len c old = .ok trie ∧ trie.entry = w.entry ∧
      trie.tnodes.val = P.length ∧ P.length ≤ N.length ∧ (∀ q ∈ P, q ∈ N) ∧
      TrieHolds (wordsOf len c.code (symsList c)) P w ∧ Covered (wordsOf len c.code (symsList c)) P ∧
      (∀ s ∈ symsList c, codeWord len c.code s ∈ P) ∧
      ∀ i : NodeId, P.length ≤ i.val → tblGet trie.entry i = tblGet old i := by
  obtain ⟨w, Q, e, g, cov, n, m, u⟩ := trieInsertAll_spec hN (symsList c) (trieHolds_start old)
    (fun q hq => .inl (by simpa using hq)) (fun q hq => by rw [List.mem_singleton] at hq; rw [hq]; exact hroot)
    (fun s c hs => absurd hs (by simp)) hl hpre (by simpa using hfree)
  simp only [List.nil_append] at g cov m
  have hle : ([[]] ++ Q).length ≤ N.length := (List.subperm_of_subset g.nodup n).length_le
  refine ⟨{ entry := w.entry, tnodes := Fin.ofNat 512 w.tn }, w, [[]] ++ Q, by simp only [buildTrie, e, run_ok_bind], rfl,
    ?_, hle, n, g, cov, fun s hs => m s _ (by simp only [wordsOf, List.mem_map]; exact ⟨s, hs, rfl⟩), fun i hi => ?_⟩
  · rw [← g.count]
    refine Nat.mod_eq_of_lt ?_
    rw [g.count]
    omega
  · simp only
    rw [u i hi, tblGet_tblSet_ne]
    intro e0
    subst e0
    simp at hi

end Sys2Proof.Machine
end

