-- ==== Sys2Proof/Laws/CanonTrie.lean ====
section
/-! SUPPORT. The trie of an accepted canonical table: its size, its words and its tree (43_decoder_trie_walker.md R122). -/

namespace Sys2Proof.Machine

theorem nodup_paths : ∀ t : BinTree, t.paths.Nodup
  | .leaf _ => by simp [BinTree.paths]
  | .branch l r => by
    rw [BinTree.paths, List.nodup_append]
    refine ⟨(nodup_paths l).map fun a b h => ?_, (nodup_paths r).map fun a b h => ?_, ?_⟩
    · simp only [Prod.mk.injEq, List.cons.injEq, true_and] at h; exact Prod.ext h.1 h.2
    · simp only [Prod.mk.injEq, List.cons.injEq, true_and] at h; exact Prod.ext h.1 h.2
    · intro a ha b hb e
      obtain ⟨x, -, rfl⟩ := List.mem_map.mp ha
      obtain ⟨y, -, rfl⟩ := List.mem_map.mp hb
      simp at e

/-- The code words of a canonical table are a prefix code. -/
theorem Codes.prefixFree {len : Table Byte 256} {m : Nat} {order : List Byte} {code : Table Dword 256}
    (h : Codes len m order code) : PrefixFree (wordsOf len code order) := by
  rw [PrefixFree, wordsOf, List.pairwise_map]
  refine h.nodup.imp_of_mem fun {a b} ha hb hne => ?_
  have ha' := (h.members a).mp ha
  have hb' := (h.members b).mp hb
  exact ⟨h.prefix_free ha' hb' hne, h.prefix_free hb' ha' (Ne.symm hne)⟩

theorem length_codeWord (len : Table Byte 256) (code : Table Dword 256) (s : Byte) :
    (codeWord len code s).length = (symGet len s).toNat := length_bitsOf _ _

theorem wordKraft_words (len : Table Byte 256) (code : Table Dword 256) (m : Nat) (order : List Byte) :
    wordKraft m (wordsOf len code order) = kraftOf len m order := by
  simp only [wordKraft, wordsOf, kraftOf, List.map_map]
  congr 2
  funext s
  simp only [Function.comp, length_codeWord, codeShare]

/-- A full canonical table is the set of paths of a tree. -/
theorem Codes.tree {len : Table Byte 256} {m : Nat} {order : List Byte} {code : Table Dword 256}
    (h : Codes len m order code) (hfull : kraftOf len m order = 2 ^ m) :
    ∃ t : BinTree, (∀ p, p ∈ t.paths ↔ p ∈ wordsOf len code order) ∧ t.size + 1 = 2 * order.length := by
  obtain ⟨t, ht⟩ := tree_of_full m h.prefixFree (fun p hp => by
    obtain ⟨s, -, rfl⟩ := List.mem_map.mp hp
    simp only [length_codeWord]
    exact h.longest s) (by rw [wordKraft_words]; exact hfull)
  refine ⟨t, ht, ?_⟩
  have hn : (wordsOf len code order).Nodup := h.nodup.map fun a b e => congrArg Prod.fst e
  have := ((List.perm_ext_iff_of_nodup (nodup_paths t) hn).mpr ht).length_eq
  rw [size_eq_symbols, BinTree.symbols, List.length_map, this, wordsOf, List.length_map]

theorem closed_prefix {P : List (List Bool)} (h : ∀ p b, p ++ [b] ∈ P → p ∈ P) {q c : List Bool} (hq : q <+: c)
    (hc : c ∈ P) : q ∈ P := by
  obtain ⟨t, rfl⟩ := hq
  induction t using List.reverseRecOn with
  | nil => simpa using hc
  | append_singleton t b ih =>
    rw [← List.append_assoc] at hc
    exact ih (h _ _ hc)

/-- The size of the trie of a canonical table (43_decoder_trie_walker.md R122). -/
def trieSize (n : Nat) : Nat := if n = 1 then 2 else 2 * n - 1

/-- The code word of a lone symbol is 0 (41_canonical_code_generator.md R92 item 5). -/
theorem lone_word {maxLen : Nat} {len : Table Byte 256} (ha : Accepted maxLen len) (h63 : maxLen ≤ 63) (old : Canon)
    {x : Byte} (hx : orderOf len = [x]) :
    (symGet len x).toNat = 1 ∧ symGet (canonOf len old).code x = 0 ∧ codeWord len (canonOf len old).code x = [false] := by
  obtain ⟨h1, -, h3⟩ := accepted_iff.mp ha
  have c := codes_of_accepted h63 ha old
  have hn : codedCount len = 1 := by rw [← length_orderOf, hx]; rfl
  have hm : maxLength len = 1 := by rcases h3 with ⟨-, b⟩ | ⟨a, -⟩ <;> omega
  have hk : 0 < (orderOf len).length := by rw [hx]; simp
  have e : (orderOf len)[0] = x := by simp [hx]
  have hz := (c.members x).mp (by rw [hx]; simp)
  have hl1 : (symGet len x).toNat = 1 := by
    have h2 := length_le_maxLength len x
    have h3 : (symGet len x).toNat ≠ 0 := fun e => hz (BitVec.eq_of_toNat_eq e)
    omega
  have hs := c.start 0 hk
  rw [e] at hs
  simp only [List.take_zero, kraftOf, List.map_nil, List.sum_nil, codeShare, hm, hl1] at hs
  have h0 : symGet (canonOf len old).code x = 0 := BitVec.eq_of_toNat_eq (by simpa using hs)
  exact ⟨hl1, h0, by rw [codeWord, hl1, h0]; rfl⟩

/-- TRIE_BUILD of an accepted canonical table (43_decoder_trie_walker.md R121, R122). -/
theorem canonTrie_spec {maxLen : Nat} {len : Table Byte 256} (ha : Accepted maxLen len) (h63 : maxLen ≤ 63)
    (oldc : Canon) (old : Table TrieEntry 511) :
    ∃ (trie : Trie) (w : TrieWork) (P : List (List Bool)), buildTrie len (canonOf len oldc) old = .ok trie ∧
      trie.entry = w.entry ∧ trie.tnodes.val = P.length ∧ P.length = trieSize (codedCount len) ∧ P.length ≤ 511 ∧
      TrieHolds (wordsOf len (canonOf len oldc).code (orderOf len)) P w ∧
      (∀ s ∈ orderOf len, codeWord len (canonOf len oldc).code s ∈ P) ∧
      ∀ i : NodeId, P.length ≤ i.val → tblGet trie.entry i = tblGet old i := by
  have c := codes_of_accepted h63 ha oldc
  obtain ⟨h1, -, h3⟩ := accepted_iff.mp ha
  have hle := codedCount_le len
  have hmem : ∀ s ∈ orderOf len, symGet len s ≠ 0 := fun s hs => (mem_orderOf len s).mp hs
  have key : ∀ N : List (List Bool), N.Nodup → N.length = trieSize (codedCount len) → [] ∈ N →
      (∀ q, q ∈ N ↔ ∃ s ∈ orderOf len, q <+: codeWord len (canonOf len oldc).code s) →
      ∃ (trie : Trie) (w : TrieWork) (P : List (List Bool)), buildTrie len (canonOf len oldc) old = .ok trie ∧
      trie.entry = w.entry ∧ trie.tnodes.val = P.length ∧ P.length = trieSize (codedCount len) ∧ P.length ≤ 511 ∧
      TrieHolds (wordsOf len (canonOf len oldc).code (orderOf len)) P w ∧
      (∀ s ∈ orderOf len, codeWord len (canonOf len oldc).code s ∈ P) ∧
      ∀ i : NodeId, P.length ≤ i.val → tblGet trie.entry i = tblGet old i := by
    intro N hnd hsz hroot hN
    have h511 : N.length ≤ 511 := by
      rw [hsz, trieSize]
      split <;> omega
    have hb := buildTrie_spec (len := len) (c := canonOf len oldc) old h511 hroot
      (by rw [symsList_canonOf]; exact hmem)
      (by rw [symsList_canonOf]; exact fun s hs q hq => (hN q).mpr ⟨s, hs, hq⟩)
      (by rw [symsList_canonOf]; exact c.prefixFree)
    rw [symsList_canonOf] at hb
    obtain ⟨trie, w, P, e, he, hp, hPN, hin, g, -, hw, hu⟩ := hb
    have hback : N.length ≤ P.length := (List.subperm_of_subset hnd (fun q hq => by
      obtain ⟨s, hs, hqs⟩ := (hN q).mp hq
      exact closed_prefix g.closed hqs (hw s hs))).length_le
    exact ⟨trie, w, P, e, he, hp, by omega, by omega, g, hw, hu⟩
  rcases h3 with ⟨hn, -⟩ | ⟨hn, hk⟩
  · obtain ⟨x, hx⟩ := List.length_eq_one_iff.mp ((length_orderOf len).trans hn)
    have hw := (lone_word ha h63 oldc hx).2.2
    refine key [[], [false]] (by simp) (by rw [hn]; rfl) (by simp) fun q => ?_
    rw [hx]
    simp only [exists_eq_left, hw, List.mem_cons, List.not_mem_nil, or_false]
    cases q with
    | nil => simp
    | cons b q => simp [List.cons_prefix_cons]
  · have hfull : kraftOf len (maxLength len) (orderOf len) = 2 ^ maxLength len := by rw [kraftOf_orderOf, hk]
    obtain ⟨t, ht, hs⟩ := c.tree hfull
    rw [length_orderOf] at hs
    refine key (nodePaths t) (nodup_nodePaths t) ?_ ?_ fun q => ?_
    · rw [length_nodePaths, trieSize, if_neg (by omega)]
      omega
    · cases t <;> simp [nodePaths]
    · rw [mem_nodePaths]
      constructor
      · rintro ⟨p, hp, hq⟩
        obtain ⟨s, hs, rfl⟩ := List.mem_map.mp ((ht p).mp hp)
        exact ⟨s, hs, hq⟩
      · rintro ⟨s, hs, hq⟩
        exact ⟨(s, _), (ht _).mpr (List.mem_map.mpr ⟨s, hs, rfl⟩), hq⟩

/-- TRIE after TRIE_BUILD of a lone symbol (43_decoder_trie_walker.md R121). -/
def loneEntries (old : Table TrieEntry 511) (x : Byte) : Table TrieEntry 511 :=
  tblSet (tblSet (tblSet old 0 internalEntry) (1 : NodeId) (leafEntry x)) 0 (setChild false (some 1) internalEntry)

theorem lone_trie {len : Table Byte 256} {c : Canon} {x : Byte} (hs : symsList c = [x])
    (hl : (symGet len x).toNat = 1) (hc : symGet c.code x = 0) (old : Table TrieEntry 511) :
    ∃ trie, buildTrie len c old = .ok trie ∧
      tblGet trie.entry 0 = { isLeaf := false, sym := 0, child0 := some 1, child1 := none } ∧
      tblGet trie.entry 1 = { isLeaf := true, sym := x, child0 := none, child1 := none } := by
  have e0 : tblGet (tblSet old 0 internalEntry) 0 = internalEntry := tblGet_tblSet_self _ _ _
  have e1 : tblGet (tblSet (tblSet old 0 internalEntry) (1 : NodeId) (leafEntry x)) 0 = internalEntry := by
    rw [tblGet_tblSet_ne _ _ (by decide), e0]
  refine ⟨{ entry := loneEntries old x, tnodes := 2 }, ?_, tblGet_tblSet_self _ _ _, ?_⟩
  · have a : trieAllocate 0 false (leafEntry x) { entry := tblSet old 0 internalEntry, tn := 1 } = .ok
        ((1 : NodeId), { entry := loneEntries old x, tn := 2 }) := by
      rw [trieAllocate, dif_pos (by decide : (1 : Nat) < 511)]
      show Except.ok (_, _) = _
      rw [show (⟨1, by decide⟩ : NodeId) = 1 from rfl]
      rw [e1]
      rfl
    have i : trieInsert x 1 0 { entry := tblSet old 0 internalEntry, tn := 1 } = .ok
        { entry := loneEntries old x, tn := 2 } := by
      show (if _ then _ else _) = _
      rw [e0]
      show (trieAllocate 0 false (leafEntry x) { entry := tblSet old 0 internalEntry, tn := 1 } >>= _) = _
      rw [a]
      rfl
    simp only [buildTrie, hs, trieInsertAll, hl, hc, i, run_ok_bind]
    rfl
  · show tblGet (loneEntries old x) 1 = _
    rw [loneEntries, tblGet_tblSet_ne _ _ (by decide), tblGet_tblSet_self]
    rfl

end Sys2Proof.Machine
end

