-- ==== Sys2Proof/Laws/Commands.lean ====
section
/-! SUPPORT. What every command keeps of the registers and buffers: the pieces of `State.Inv`, command by command. -/

namespace Sys2Proof.Machine

/-! ### The unused bits of the writer (10_state.md R36) -/

theorem writeBits_padded {cap : Nat} {v : Dword} {n : Nat} {w w' : Writer} (hw : WriterInv cap w)
    (hp : writerPadded w = true) (h : writeBits cap v n w = .ok w') : writerPadded w' = true := by
  by_cases hr : (bitsWritten w + n) / 8 ≤ cap
  · obtain ⟨w1, e, -, a⟩ := writeBits_spec v n hw hp hr
    rw [h] at e
    cases e
    exact a.2.1
  · rw [writeBits_full v n hw (by omega)] at h
    cases h

theorem writeCode_padded {cap : Nat} {len : Table Byte 256} {code : Table Dword 256} {sym : Byte} {w w' : Writer}
    (hw : WriterInv cap w) (hp : writerPadded w = true) (h : writeCode cap len code sym w = .ok w') :
    writerPadded w' = true := by
  unfold writeCode at h
  split at h
  · cases h
  · exact writeBits_padded hw hp h

theorem writeCodes_padded {cap : Nat} {len : Table Byte 256} {code : Table Dword 256} :
    ∀ {syms : List Byte} {w w' : Writer}, WriterInv cap w → writerPadded w = true →
      writeCodes cap len code syms w = .ok w' → writerPadded w' = true
  | [], w, w', _, hp, h => by cases h; exact hp
  | s :: syms, w, w', hw, hp, h => by
    obtain ⟨w1, h1, h2⟩ := bind_eq_ok h
    exact writeCodes_padded (writeCode_grows hw h1).1 (writeCode_padded hw hp h1) h2

theorem flushWriter_padded {cap : Nat} {w w' : Writer} (hp : writerPadded w = true)
    (h : flushWriter cap w = .ok w') : writerPadded w' = true := by
  by_cases hc : w.cnt = 0
  · rw [flushWriter_aligned hc] at h
    cases h
    exact hp
  · by_cases hn : w.outLen.toNat = cap
    · rw [flushWriter_full hc hn] at h; cases h
    · rw [flushWriter_partial hc hn] at h
      cases h
      rfl

theorem padded_of_acc {w w' : Writer} (hp : writerPadded w = true) (ha : w'.acc = w.acc) (hc : w'.cnt = w.cnt) :
    writerPadded w' = true := by
  rw [writerPadded_iff] at hp ⊢
  rw [ha, hc]
  exact hp

/-! ### `HIST[0]` (10_state.md R41) -/

theorem histogramOf_zero (len : Table Byte 256) : symGet (histogramOf len) 0 = 0 := by
  rw [histogramOf, symGet_tblOf]
  rfl

theorem canonOf_hist_zero (len : Table Byte 256) (old : Canon) : symGet (canonOf len old).hist 0 = 0 :=
  histogramOf_zero len

theorem freeCanon_hist_zero (n d : Nat) (c : Canon) : symGet (freeCanon n d c).hist 0 = 0 := by
  rw [freeCanon, symGet_tblOf]
  rfl

/-! ### Every command -/

/-- What a command leaves of the registers and buffers. -/
structure CommandKeeps (i : Instr) (s t : State) : Prop where
  writer : WriterInv s.cfg.obufBytes t.writer
  pos : t.reader.pos.toNat ≤ s.cfg.ibufBytes
  hist : symGet t.canon.hist 0 = 0
  padded : writerPadded s.writer = true ∨ i = .clear → raisedIn s t = false → writerPadded t.writer = true

/-- A command that writes none of them. -/
theorem CommandKeeps.same {i : Instr} {s t : State} (hi : s.Inv) (hc : i ≠ .clear) (hw : t.writer = s.writer)
    (hr : t.reader = s.reader) (hh : t.canon.hist = s.canon.hist) : CommandKeeps i s t :=
  ⟨by rw [hw]; exact hi.writerInv, by rw [hr]; exact hi.in_pos, by rw [hh]; exact hi.hist_zero,
    fun hp _ => by rw [hw]; exact hp.resolve_right hc⟩

/-- A command that writes the table of codes alone. -/
theorem CommandKeeps.table {i : Instr} {s t : State} (hi : s.Inv) (hc : i ≠ .clear) (hw : t.writer = s.writer)
    (hr : t.reader = s.reader) (hh : symGet t.canon.hist 0 = 0) : CommandKeeps i s t :=
  ⟨by rw [hw]; exact hi.writerInv, by rw [hr]; exact hi.in_pos, hh, fun hp _ => by rw [hw]; exact hp.resolve_right hc⟩

/-- A command that reads the input alone. -/
theorem CommandKeeps.input {i : Instr} {s t : State} (hi : s.Inv) (hc : i ≠ .clear) (hw : t.writer = s.writer)
    (hp : t.reader.pos.toNat ≤ s.cfg.ibufBytes) (hh : t.canon.hist = s.canon.hist) : CommandKeeps i s t :=
  ⟨by rw [hw]; exact hi.writerInv, hp, by rw [hh]; exact hi.hist_zero,
    fun hp _ => by rw [hw]; exact hp.resolve_right hc⟩

/-- An output command that completes. -/
theorem CommandKeeps.output {i : Instr} {s t : State} (hi : s.Inv) (hc : i ≠ .clear)
    (hw : WriterInv s.cfg.obufBytes t.writer) (hr : t.reader.pos.toNat ≤ s.cfg.ibufBytes)
    (hh : t.canon.hist = s.canon.hist) (hp : writerPadded s.writer = true → writerPadded t.writer = true) :
    CommandKeeps i s t :=
  ⟨hw, hr, by rw [hh]; exact hi.hist_zero, fun h _ => hp (h.resolve_right hc)⟩

/-- A command that raises. -/
theorem CommandKeeps.raised {i : Instr} {s : State} {spoil : Nat → State → State} {r : Raise}
    (hw : WriterInv s.cfg.obufBytes (spoil s.draws s).writer)
    (hp : (spoil s.draws s).reader.pos.toNat ≤ s.cfg.ibufBytes) (hh : symGet (spoil s.draws s).canon.hist 0 = 0) :
    CommandKeeps i s (raisedState spoil s r) :=
  ⟨by simpa [raisedState] using hw, by simpa [raisedState] using hp, by simpa [raisedState] using hh,
    fun _ h => by simp at h⟩

theorem exec_keeps {i : Instr} {s t : State} (hi : s.Inv) (h : exec i s = .next t) : CommandKeeps i s t := by
  have hw := hi.writerInv
  have hl := hi.in_len
  have hp := hi.in_pos
  have hh := hi.hist_zero
  have hcap : s.cfg.ibufBytes < 2 ^ 25 := by
    have := (Config.wf_iff _).mp hi.cfg_wf
    omega
  have free : (freePosition s.cfg.ibufBytes s.draws .inPos).toNat ≤ s.cfg.ibufBytes := freePosition_le _ _ _ hcap
  cases i with
  | nop => rw [execNop_cases h]; exact .same hi (by simp) rfl rfl rfl
  | clear =>
    rw [execClear_cases h]
    exact ⟨⟨hw.cap_lt, Nat.zero_le _, hw.obuf_wf, hw.obuf_below⟩, Nat.zero_le _, hh, fun _ _ => rfl⟩
  | freqInc =>
    rcases execFreqInc_cases h with ⟨_, _, rfl⟩ | ⟨_, _, rfl⟩
    · exact .same hi (by simp) rfl rfl rfl
    · exact .raised hw hp hh
  | freqScan =>
    rcases execFreqScan_cases h with ⟨_, _, rfl⟩ | ⟨_, _, rfl⟩
    · exact .same hi (by simp) rfl rfl rfl
    · exact .raised hw hp hh
  | build =>
    rcases execBuild_cases h with ⟨_, _, rfl⟩ | ⟨_, _, rfl⟩
    · exact .same hi (by simp) rfl rfl rfl
    · exact .raised hw hp hh
  | walk =>
    rcases execWalk_cases h with ⟨_, _, _, rfl⟩ | ⟨_, rfl⟩ | ⟨_, _, _, rfl⟩
    · exact .same hi (by simp) rfl rfl rfl
    · exact .raised hw hp hh
    · exact .raised hw hp hh
  | canon =>
    rcases execCanon_cases h with ⟨c, hc, rfl⟩ | ⟨_, _, rfl⟩
    · obtain ⟨-, rfl⟩ := buildCanon_eq_ok.mp hc
      exact .table hi (by simp) rfl rfl (canonOf_hist_zero _ _)
    · exact .raised hw hp (freeCanon_hist_zero _ _ _)
  | putBits =>
    rcases execPutBits_cases h with ⟨w, hr, rfl⟩ | ⟨_, _, _, rfl⟩
    · exact .output hi (by simp) (writeBits_grows hw hr).1 hp rfl fun hpd => writeBits_padded hw hpd hr
    · exact .raised (spoilBitOutput_writer _ hw) hp hh
  | putByte =>
    rcases execPutByte_cases h with ⟨w, hr, rfl⟩ | ⟨_, _, _, rfl⟩
    · obtain ⟨g, -, ga, gc, -⟩ := putByteRun_grows hw hr
      exact .output hi (by simp) g hp rfl fun hpd => padded_of_acc hpd ga gc
    · exact .raised (spoilPutByte_writer _ hw) hp hh
  | flush =>
    rcases execFlush_cases h with ⟨w, hr, rfl⟩ | ⟨_, _, _, rfl⟩
    · exact .output hi (by simp) (flushWriter_grows hw hr).1 hp rfl fun hpd => flushWriter_padded hpd hr
    · exact .raised (spoilFlush_writer _ hw) hp hh
  | encSym =>
    rcases execEncSym_cases h with ⟨w, hr, rfl⟩ | ⟨_, _, _, rfl⟩
    · obtain ⟨_, _, hr'⟩ := bind_eq_ok hr
      exact .output hi (by simp) (encSymRun_grows hw hr).1 hp rfl fun hpd => writeCode_padded hw hpd hr'
    · exact .raised (spoilBitOutput_writer _ hw) hp hh
  | encScan =>
    rcases execEncScan_cases h with ⟨w, hr, rfl⟩ | ⟨_, _, _, rfl⟩
    · obtain ⟨_, _, hr'⟩ := bind_eq_ok hr
      exact .output hi (by simp) (encScanRun_grows hw hr).1 hp rfl fun hpd => writeCodes_padded hw hpd hr'
    · exact .raised (spoilBitOutput_writer _ hw) hp hh
  | hdrWrite =>
    rcases execHdrWrite_cases h with ⟨w, hr, rfl⟩ | ⟨_, _, _, rfl⟩
    · obtain ⟨g, -, ga, gc⟩ := hdrWriteRun_grows hw hr
      exact .output hi (by simp) g hp rfl fun hpd => padded_of_acc hpd ga gc
    · exact .raised (spoilHdrWrite_writer _ hw) hp hh
  | getBits =>
    rcases execGetBits_cases h with ⟨_, _, hr, rfl⟩ | ⟨_, _, _, rfl⟩
    · exact .input hi (by simp) rfl (readBitsInto_pos hl hp hr) rfl
    · exact .raised hw free hh
  | getByte =>
    rcases execGetByte_cases h with ⟨_, _, _, hr, rfl⟩ | ⟨_, rfl⟩ | ⟨_, _, rfl⟩
    · obtain ⟨h1, -, h2, -⟩ := readRawByte_eq_ok hr
      exact .input hi (by simp) rfl (by rw [withRead, h2]; omega) rfl
    · exact .raised hw free hh
    · exact .raised hw free hh
  | hdrRead =>
    rcases execHdrRead_cases h with ⟨_, hd, r, hr, rfl⟩ | ⟨_, rfl⟩ | ⟨_, _, _, rfl⟩
    · obtain ⟨g, raw, bytes, -, -, -, -, hb, hpos, -, -⟩ := readHeader_eq_ok hr
      refine ⟨hw, ?_, ?_, fun hpd _ => hpd.resolve_right (by simp)⟩
      · have := hb.1
        show r.pos.toNat ≤ _
        omega
      · rw [commitHeader_table g]
        exact canonOf_hist_zero _ _
    · exact .raised hw free (freeCanon_hist_zero _ _ _)
    · exact .raised hw free (freeCanon_hist_zero _ _ _)
  | trieBuild =>
    rcases execTrieBuild_cases h with ⟨_, _, _, rfl⟩ | ⟨_, rfl⟩ | ⟨_, _, _, rfl⟩
    · exact .same hi (by simp) rfl rfl rfl
    · exact .raised hw hp hh
    · exact .raised hw hp hh
  | decSym =>
    rcases execDecSym_cases h with ⟨w, hr, rfl⟩ | ⟨_, _, _, rfl⟩
    · have hd : decodeTimes s.cfg.obufBytes s.input s.trie.entry 1 (decodeStart s) = .ok w := by
        rw [decodeTimes, decSymRun_eq_ok hr]
        rfl
      obtain ⟨g, -, ga, gc, gp⟩ := decodeTimes_grows hl (w := decodeStart s) hw hp hd
      exact .output hi (by simp) g gp rfl fun hpd => padded_of_acc hpd ga gc
    · exact .raised (spoilPutByte_writer (s := spoilDecodeInput s.draws s) _ hw) free hh
  | decode =>
    rcases execDecode_cases h with ⟨w, hr, rfl⟩ | ⟨_, _, _, rfl⟩
    · obtain ⟨g, -, ga, gc, gp⟩ := decodeTimes_grows hl (w := decodeStart s) hw hp (decodeRun_eq_ok hr)
      exact .output hi (by simp) g gp rfl fun hpd => padded_of_acc hpd ga gc
    · exact .raised (spoilHdrWrite_writer (s := spoilDecodeInput s.draws s) _ hw) free hh

end Sys2Proof.Machine
end

