-- ==== Sys2Proof/Laws/Decoder.lean ====
section
/-! SUPPORT. DEC_SYM and DECODE: the walk from the root of TRIE, and one decoded symbol after another
(43_decoder_trie_walker.md R123 to R125). -/

namespace Sys2Proof.Machine

/-- The next input bits of `bits ++ rest` are `bits`. -/
theorem inputHolds_left {inp : Input} {r : Reader} {bits rest : List Bool} (h : inputHolds inp r (bits ++ rest)) :
    inputHolds inp r bits := by
  obtain ⟨hl, hg⟩ := h
  simp only [List.length_append] at hl hg
  exact ⟨by omega, fun i hi => by rw [hg i (by omega), List.getElem_append_left hi]⟩

/-- Once `bits` are read, the rest of the input follows. -/
theorem inputHolds_right {inp : Input} {r r' : Reader} {bits rest : List Bool} (h : inputHolds inp r (bits ++ rest))
    (ha : bitsAvailable inp r' + bits.length = bitsAvailable inp r)
    (hs : ∀ p, inputBit inp r' p = inputBit inp r (p + bits.length)) : inputHolds inp r' rest := by
  obtain ⟨hl, hg⟩ := h
  simp only [List.length_append] at hl hg
  exact ⟨by omega, fun i hi => by
    rw [hs, Nat.add_comm, hg _ (by omega), List.getElem_append_right (by omega)]
    simp⟩

/-- ReadBit reads the first of the bits that stand at the reader's position. -/
theorem readBit_first {inp : Input} {r : Reader} {b : Bool} {bs : List Bool} (h : inputHolds inp r (b :: bs)) :
    ∃ r', readBit inp r = .ok (b, r') ∧ bitsAvailable inp r' + 1 = bitsAvailable inp r ∧
      (∀ p, inputBit inp r' p = inputBit inp r (p + 1)) ∧ readerAdvanced inp r r' 1 ∧ inputHolds inp r' bs := by
  have hl := h.1
  simp only [List.length_cons] at hl
  obtain ⟨r', e, a, s, d⟩ := readBit_spec (inp := inp) (r := r) (by omega)
  have hb : inputBit inp r 0 = b := h.2 0 (by simp)
  rw [hb] at e
  exact ⟨r', e, a, s, d, inputHolds_right (bits := [b]) h a s⟩

/-- The walk along bits that lead to a leaf. -/
theorem walkTrie_leaf {inp : Input} {entry : Table TrieEntry 511} {x : Byte} :
    ∀ (bits : List Bool) {t : NodeId} {r : Reader}, trieLeafFor entry t bits = some x → inputHolds inp r bits →
      ∃ e r', walkTrie inp entry (bitsAvailable inp r) t r = .ok (e, r') ∧ e.sym = x ∧
        bitsAvailable inp r' + bits.length = bitsAvailable inp r ∧
        (∀ p, inputBit inp r' p = inputBit inp r (p + bits.length)) ∧ readerAdvanced inp r r' bits.length
  | [], t, r, h, _ => by simp [trieLeafFor] at h
  | b :: bs, t, r, h, hi => by
    obtain ⟨r1, e1, a1, s1, d1, h1⟩ := readBit_first hi
    rw [trieLeafFor] at h
    rw [← a1, walkTrie, e1]
    simp only [run_ok_bind]
    cases hc : childOf b (tblGet entry t) with
    | none => simp [hc] at h
    | some y =>
      simp only [hc] at h ⊢
      by_cases hl : (tblGet entry y).isLeaf = true
      · rw [if_pos hl] at h ⊢
        by_cases hb : bs.isEmpty = true
        · rw [if_pos hb] at h
          cases h
          rw [List.isEmpty_iff] at hb
          subst hb
          exact ⟨_, r1, rfl, rfl, rfl, s1, d1⟩
        · rw [if_neg hb] at h
          cases h
      · rw [if_neg hl] at h ⊢
        obtain ⟨e, r', w, hx, a, s, d⟩ := walkTrie_leaf bs h h1
        refine ⟨e, r', w, hx, by simp only [List.length_cons]; omega, fun p => ?_, ?_⟩
        · rw [s, s1]; rfl
        · rw [List.length_cons, Nat.add_comm]; exact readerAdvanced_add d1 d

/-- The walk along bits that stay among the internal entries goes on from where they lead. -/
theorem walkTrie_reach {inp : Input} {entry : Table TrieEntry 511} {id : NodeId} :
    ∀ (bits : List Bool) {t : NodeId} {r : Reader}, trieReach entry t bits = some id → inputHolds inp r bits →
      ∃ r', walkTrie inp entry (bitsAvailable inp r) t r = walkTrie inp entry (bitsAvailable inp r') id r' ∧
        bitsAvailable inp r' + bits.length = bitsAvailable inp r ∧
        ∀ p, inputBit inp r' p = inputBit inp r (p + bits.length)
  | [], t, r, h, _ => by
    cases h
    exact ⟨r, rfl, rfl, fun _ => rfl⟩
  | b :: bs, t, r, h, hi => by
    obtain ⟨r1, e1, a1, s1, -, h1⟩ := readBit_first hi
    rw [trieReach] at h
    cases hc : childOf b (tblGet entry t) with
    | none => simp [hc] at h
    | some y =>
      simp only [hc] at h
      by_cases hl : (tblGet entry y).isLeaf = true
      · rw [if_pos hl] at h
        cases h
      · rw [if_neg hl] at h
        obtain ⟨r', w, a, s⟩ := walkTrie_reach bs h h1
        refine ⟨r', ?_, by simp only [List.length_cons]; omega, fun p => ?_⟩
        · rw [← w, ← a1, walkTrie, e1]
          simp only [run_ok_bind, hc]
          rw [if_neg hl]
        · rw [s, s1]; rfl

/-- The walk to a missing child (43_decoder_trie_walker.md R123). -/
theorem walkTrie_missing {inp : Input} {entry : Table TrieEntry 511} {id t : NodeId} {bits : List Bool} {b : Bool}
    {r : Reader} (h : trieReach entry t bits = some id) (hc : childOf b (tblGet entry id) = none)
    (hi : inputHolds inp r (bits ++ [b])) :
    walkTrie inp entry (bitsAvailable inp r) t r = .error { kind := .malformedContainer, info := 7 } := by
  obtain ⟨r', w, a, s⟩ := walkTrie_reach bits h (inputHolds_left hi)
  obtain ⟨r1, e1, a1, -, -, -⟩ := readBit_first (inputHolds_right hi a s)
  rw [w, ← a1, walkTrie, e1]
  simp [hc, raised]

/-- The walk that reaches the end of the input (42_bitstream_packer.md R98). -/
theorem walkTrie_end {inp : Input} {entry : Table TrieEntry 511} {id t : NodeId} {bits : List Bool} {r : Reader}
    (h : trieReach entry t bits = some id) (hi : inputHolds inp r bits) (hl : bits.length = bitsAvailable inp r) :
    walkTrie inp entry (bitsAvailable inp r) t r = .error { kind := .malformedContainer, info := 2 } := by
  obtain ⟨r', w, a, -⟩ := walkTrie_reach bits h hi
  have : bitsAvailable inp r' = 0 := by omega
  rw [w, this, walkTrie]
  rfl

/-- `DecodeOne` on a code that stands at the reader's position, with room in OBUF. -/
theorem decodeOne_spec {cap : Nat} {inp : Input} {entry : Table TrieEntry 511} {bits : List Bool} {x : Byte}
    {w : DecodeWork} (h : trieLeafFor entry 0 bits = some x) (hi : inputHolds inp w.reader bits)
    (hn : w.writer.outLen.toNat ≠ cap) :
    ∃ r', decodeOne cap inp entry w =
        .ok { reader := r', writer := emitted x w.writer, res := x.setWidth 64 } ∧
      bitsAvailable inp r' + bits.length = bitsAvailable inp w.reader ∧
      (∀ p, inputBit inp r' p = inputBit inp w.reader (p + bits.length)) ∧
      readerAdvanced inp w.reader r' bits.length := by
  obtain ⟨e, r', we, rfl, a, s, d⟩ := walkTrie_leaf bits h hi
  exact ⟨r', by simp [decodeOne, we, emitByte_ok _ hn], a, s, d⟩

/-- `DecodeOne` on a code that stands at the reader's position, with OBUF full. -/
theorem decodeOne_full {cap : Nat} {inp : Input} {entry : Table TrieEntry 511} {bits : List Bool} {x : Byte}
    {w : DecodeWork} (h : trieLeafFor entry 0 bits = some x)
    (hi : inputHolds inp w.reader bits) (hn : w.writer.outLen.toNat = cap) :
    decodeOne cap inp entry w = .error { kind := .overflow, info := 3 } := by
  obtain ⟨e, r', we, -, -, -, -⟩ := walkTrie_leaf bits h hi
  simp [decodeOne, we, emitByte_full _ hn]

/-- What decoding a list of symbols leaves in RES. -/
def lastRes (old : Dword) (syms : List Byte) : Dword :=
  match syms.getLast? with
  | some x => x.setWidth 64
  | none => old

theorem lastRes_cons (old : Dword) (x : Byte) (xs : List Byte) :
    lastRes (x.setWidth 64) xs = lastRes old (x :: xs) := by
  cases xs with
  | nil => rfl
  | cons y ys =>
    simp only [lastRes, List.getLast?_cons_cons]
    rw [List.getLast?_eq_getLast_of_ne_nil (by simp)]

/-- `DecodeOne` of one symbol after another, where their codes stand in the input and there is room in OBUF: the rest of
the run goes on behind them. -/
theorem decodeTimes_spec {cap : Nat} {inp : Input} {entry : Table TrieEntry 511} {path : Byte → List Bool} (k : Nat) :
    ∀ (syms : List Byte) {w : DecodeWork} {rest : List Bool}, WriterInv cap w.writer →
      (∀ x ∈ syms, trieLeafFor entry 0 (path x) = some x) → inputHolds inp w.reader (syms.flatMap path ++ rest) →
      w.writer.outLen.toNat + syms.length ≤ cap →
      ∃ w', decodeTimes cap inp entry (syms.length + k) w = decodeTimes cap inp entry k w' ∧
        WriterInv cap w'.writer ∧ appendsBytes w.writer w'.writer syms ∧ w'.res = lastRes w.res syms ∧
        bitsAvailable inp w'.reader + (syms.flatMap path).length = bitsAvailable inp w.reader ∧
        inputHolds inp w'.reader rest ∧ readerAdvanced inp w.reader w'.reader (syms.flatMap path).length
  | [], w, rest, hw, _, hi, _ =>
    ⟨w, by rw [List.length_nil, Nat.zero_add], hw, appendsBytes_nil _, rfl, rfl, hi, readerAdvanced_zero _ _⟩
  | x :: xs, w, rest, hw, ht, hi, hr => by
    simp only [List.length_cons] at hr
    rw [List.flatMap_cons, List.append_assoc] at hi
    have hn : w.writer.outLen.toNat ≠ cap := by omega
    obtain ⟨r1, e1, a1, s1, d1⟩ := decodeOne_spec (ht x List.mem_cons_self) (inputHolds_left hi) hn
    have hl := emitted_outLen x hw hn
    obtain ⟨w', e, i, ap, rs, a, hh, d⟩ := decodeTimes_spec k xs
      (w := { reader := r1, writer := emitted x w.writer, res := x.setWidth 64 }) (emitted_inv x hw hn)
      (fun y hy => ht y (List.mem_cons_of_mem _ hy)) (inputHolds_right hi a1 s1)
      (by show (emitted x w.writer).outLen.toNat + _ ≤ _; omega)
    refine ⟨w', ?_, i, appendsBytes_trans (emitted_appends x hw hn) ap, ?_, ?_, hh, ?_⟩
    · rw [← e, List.length_cons, show xs.length + 1 + k = (xs.length + k) + 1 by omega, decodeTimes, e1]
      rfl
    · rw [rs, ← lastRes_cons w.res]
    · rw [List.flatMap_cons, List.length_append]
      simp only at a
      omega
    · rw [List.flatMap_cons, List.length_append]
      exact readerAdvanced_add d1 d

end Sys2Proof.Machine
end

