-- ==== Sys2Proof/Laws/Frequency.lean ====
section
/-! SUPPORT. Counting: what FREQ_INC and FREQ_SCAN do to FREQ (40_tree_builder.md R74, R75). -/

namespace Sys2Proof.Machine

theorem maxCount_iff (v : Dword) : v = maxCount ↔ v.toNat = 2 ^ 64 - 1 := by
  constructor
  · rintro rfl; decide
  · intro h; exact BitVec.eq_of_toNat_eq h

theorem counterInfo_eq (sym : Byte) : counterInfo sym = BitVec.ofNat 32 (1 + 2 ^ 8 * sym.toNat) := by
  revert sym
  decide

/-- One occurrence is counted, where the counter is not at its maximum. -/
theorem countSymbol_spec {sym : Byte} {freq : Table Dword 256} (h : (symGet freq sym).toNat ≠ 2 ^ 64 - 1) :
    ∃ freq', countSymbol sym freq = .ok freq' ∧
      (symGet freq' sym).toNat = (symGet freq sym).toNat + 1 ∧ ∀ x, x ≠ sym → symGet freq' x = symGet freq x := by
  have hm : symGet freq sym ≠ maxCount := fun e => h ((maxCount_iff _).mp e)
  refine ⟨symSet freq sym (symGet freq sym + 1), if_neg hm, ?_, fun x hx => symGet_symSet_ne _ _ (Ne.symm hx)⟩
  have := (symGet freq sym).isLt
  have h1 : (1 : Dword).toNat = 1 := rfl
  rw [symGet_symSet_self, BitVec.toNat_add, h1]
  exact Nat.mod_eq_of_lt (by omega)

/-- A counter at its maximum overflows. -/
theorem countSymbol_full {sym : Byte} {freq : Table Dword 256} (h : (symGet freq sym).toNat = 2 ^ 64 - 1) :
    countSymbol sym freq = .error { kind := .overflow, info := BitVec.ofNat 32 (1 + 2 ^ 8 * sym.toNat) } := by
  rw [← counterInfo_eq]
  exact if_pos ((maxCount_iff _).mpr h)

/-- Every byte of a list is counted, where no counter wraps. -/
theorem countSymbols_spec : ∀ (bytes : List Byte) (freq : Table Dword 256),
    (∀ x, (symGet freq x).toNat + bytes.count x < 2 ^ 64) →
    ∃ freq', countSymbols bytes freq = .ok freq' ∧
      ∀ x, (symGet freq' x).toNat = (symGet freq x).toNat + bytes.count x
  | [], freq, _ => ⟨freq, rfl, fun _ => rfl⟩
  | b :: bs, freq, h => by
    obtain ⟨f1, e1, g1, k1⟩ := countSymbol_spec (sym := b) (freq := freq) (by
      have := h b; rw [List.count_cons_self] at this; omega)
    have hx : ∀ x, (symGet f1 x).toNat + bs.count x = (symGet freq x).toNat + (b :: bs).count x := by
      intro x
      by_cases hb : x = b
      · subst hb; rw [g1, List.count_cons_self]; omega
      · rw [k1 x hb, List.count_cons_of_ne (Ne.symm hb)]
    obtain ⟨f2, e2, g2⟩ := countSymbols_spec bs f1 (fun x => by rw [hx]; exact h x)
    exact ⟨f2, by simp [countSymbols, e1, e2], fun x => by rw [g2, hx]⟩

theorem countSymbols_append (ys : List Byte) : ∀ (xs : List Byte) (freq : Table Dword 256),
    countSymbols (xs ++ ys) freq = countSymbols xs freq >>= countSymbols ys
  | [], _ => rfl
  | x :: xs, freq => by simp only [List.cons_append, countSymbols, countSymbols_append ys xs, bind_assoc]

end Sys2Proof.Machine
end

