-- ==== Sys2Proof/Laws/PerInstr.lean ====
section
/-! SUPPORT. Statements made of every command, one lemma per constructor: the fields of a command's word. -/

namespace Sys2Proof.Laws

theorem opField_encode (i : Instr) : opField (encode i) = opcodeOf i := by
  apply BitVec.eq_of_getLsbD_eq
  intro k hk
  simp only [opField, encode, BitVec.getLsbD_extractLsb', BitVec.getLsbD_append]
  simp [hk]

theorem operandField_encode (i : Instr) : operandField (encode i) = operandOf i := by
  apply BitVec.eq_of_getLsbD_eq
  intro k hk
  simp only [operandField, encode, BitVec.getLsbD_extractLsb', BitVec.getLsbD_append]
  simp [hk]

theorem reservedField_encode (i : Instr) : reservedField (encode i) = 0 := by
  apply BitVec.eq_of_getLsbD_eq
  intro k hk
  simp only [reservedField, encode, BitVec.getLsbD_extractLsb', BitVec.getLsbD_append]
  have h1 : ¬ 16 + k < 8 := by omega
  have h2 : ¬ 16 + k - 8 < 8 := by omega
  simp [h1, h2]

/-- A word is its three fields (30_encoding.md R61). -/
theorem word_eq_fields (w : Word) : w = reservedField w ++ operandField w ++ opField w := by
  apply BitVec.eq_of_getLsbD_eq
  intro k hk
  simp only [reservedField, operandField, opField, BitVec.getLsbD_append, BitVec.getLsbD_extractLsb']
  by_cases h1 : k < 8
  · simp [h1]
  · by_cases h2 : k < 16
    · have : k - 8 < 8 := by omega
      simp [h1, this]
      congr 1
      omega
    · have h3 : ¬ k - 8 < 8 := by omega
      have h4 : k - 8 - 8 < 16 := by omega
      simp [h1, h3, h4]
      congr 1
      omega

namespace EncodingShape

/-- The word of a command is `{16'b0, A[7:0], OP[7:0]}`, and the decoder finds the command again where its operand is
legal (30_encoding.md R61, R68). -/
def Statement (i : Instr) : Prop :=
  reservedField (encode i) = 0 ∧ opField (encode i) = opcodeOf i ∧ operandField (encode i) = operandOf i ∧
    (wellFormed i = true → decode (encode i) = .ok i)

/-- The statement of a command that the opcode map lists with its format. -/
theorem statement_of_assigned (i : Instr) (f : Format) (h : assigned (opcodeOf i) (operandOf i) = some (f, i))
    (hl : wellFormed i = true → operandLegal f (operandOf i) = true) : Statement i := by
  refine ⟨reservedField_encode i, opField_encode i, operandField_encode i, fun hw => ?_⟩
  simp [decode, opField_encode, operandField_encode, reservedField_encode, h, hl hw]

theorem nop : Statement .nop := statement_of_assigned _ .noOperand rfl fun _ => rfl

theorem clear : Statement .clear := statement_of_assigned _ .noOperand rfl fun _ => rfl

theorem freqInc (sym : Byte) : Statement (.freqInc sym) := statement_of_assigned _ .symbol rfl fun _ => rfl

theorem freqScan : Statement .freqScan := statement_of_assigned _ .noOperand rfl fun _ => rfl

theorem build : Statement .build := statement_of_assigned _ .noOperand rfl fun _ => rfl

theorem walk : Statement .walk := statement_of_assigned _ .noOperand rfl fun _ => rfl

theorem canon : Statement .canon := statement_of_assigned _ .noOperand rfl fun _ => rfl

theorem putBits (n : Byte) : Statement (.putBits n) := statement_of_assigned _ .bitCount rfl fun h => h

theorem putByte (byte : Byte) : Statement (.putByte byte) := statement_of_assigned _ .symbol rfl fun _ => rfl

theorem flush : Statement .flush := statement_of_assigned _ .noOperand rfl fun _ => rfl

theorem encSym (sym : Byte) : Statement (.encSym sym) := statement_of_assigned _ .symbol rfl fun _ => rfl

theorem encScan : Statement .encScan := statement_of_assigned _ .noOperand rfl fun _ => rfl

theorem hdrWrite : Statement .hdrWrite := statement_of_assigned _ .noOperand rfl fun _ => rfl

theorem getBits (n : Byte) : Statement (.getBits n) := statement_of_assigned _ .bitCount rfl fun h => h

theorem getByte : Statement .getByte := statement_of_assigned _ .noOperand rfl fun _ => rfl

theorem hdrRead : Statement .hdrRead := statement_of_assigned _ .noOperand rfl fun _ => rfl

theorem trieBuild : Statement .trieBuild := statement_of_assigned _ .noOperand rfl fun _ => rfl

theorem decSym : Statement .decSym := statement_of_assigned _ .noOperand rfl fun _ => rfl

theorem decode : Statement .decode := statement_of_assigned _ .noOperand rfl fun _ => rfl

end EncodingShape

end Sys2Proof.Laws
end

