-- ==== Sys2Proof/Tests/Slice0.lean ====
section
/-! SUPPORT. Tests: the smoke of WellFormed, decoding of words written out from the encoding, at most two small tests per
command with values from spec/95_test_vectors.md, and witnesses that the hypotheses of the obligations can be met. -/

namespace Sys2Proof.Tests

open Sys2Proof.Machine

-- One kernel check at a time: many of them at once can run out of threads.
set_option Elab.async false

/-! ### WellFormed and decoding (30_encoding.md R62 to R65; 95_test_vectors.md V-E1 to V-E12) -/

theorem test_putBits_65_is_ill_formed : wellFormed (.putBits 65) = false := by decide
theorem test_getBits_65_is_ill_formed : wellFormed (.getBits 65) = false := by decide
theorem test_bit_count_64_is_well_formed : wellFormed (.putBits 64) && wellFormed (.getBits 64) = true := by decide

/-- The four fields of a word, most significant first: `RSV` (two bytes), `A`, `OP`. -/
def wordOf (rsvHigh rsvLow a op : Byte) : Word := rsvHigh ++ rsvLow ++ a ++ op

theorem test_decode_control :
    decode (wordOf 0 0 0 0b00000000) = .ok .nop ∧ decode (wordOf 0 0 0 0b00000001) = .ok .clear := by decide

theorem test_decode_tree_builder :
    decode (wordOf 0 0 0b01100001 0b00010000) = .ok (.freqInc 0x61) ∧
    decode (wordOf 0 0 0 0b00010001) = .ok .freqScan ∧ decode (wordOf 0 0 0 0b00100000) = .ok .build := by decide

theorem test_decode_code_generator :
    decode (wordOf 0 0 0 0b00110000) = .ok .walk ∧ decode (wordOf 0 0 0 0b00110001) = .ok .canon := by decide

theorem test_decode_output_commands :
    decode (wordOf 0 0 0b01000000 0b01000000) = .ok (.putBits 64) ∧
    decode (wordOf 0 0 0b11111111 0b01000001) = .ok (.putByte 0xFF) ∧
    decode (wordOf 0 0 0 0b01000010) = .ok .flush ∧
    decode (wordOf 0 0 0b01100001 0b01000011) = .ok (.encSym 0x61) ∧
    decode (wordOf 0 0 0 0b01000100) = .ok .encScan ∧ decode (wordOf 0 0 0 0b01000101) = .ok .hdrWrite := by decide

theorem test_decode_input_commands :
    decode (wordOf 0 0 0b00000011 0b01010000) = .ok (.getBits 3) ∧
    decode (wordOf 0 0 0 0b01010001) = .ok .getByte ∧ decode (wordOf 0 0 0 0b01010010) = .ok .hdrRead ∧
    decode (wordOf 0 0 0 0b01010011) = .ok .trieBuild ∧ decode (wordOf 0 0 0 0b01010100) = .ok .decSym ∧
    decode (wordOf 0 0 0 0b01010101) = .ok .decode := by decide

theorem test_decode_illegal :
    decode 0x00004140 = .error .operandOutOfRange ∧ decode 0x00000120 = .error .operandOutOfRange ∧
    decode 0x00010000 = .error .reservedNotZero ∧ decode 0x00000099 = .error .unassignedOp ∧
    decode 0x00FF0099 = .error .unassignedOp ∧ decode 0x0001FF40 = .error .reservedNotZero := by decide

theorem test_decodeTableWord :
    decodeTableWord 32 0x00007A43 = some (.encSym 0x7A) ∧ decodeTableWord 32 0x00000021 = none := by decide

/-- 30_encoding.md R68. -/
theorem test_assemble :
    assemble "PUT_BITS 3".toList = some 0x00000340 ∧ assemble "PUT_BITS 65".toList = none := by decide +kernel

/-! ### A small huffcore

Scenario 1 of 95_test_vectors.md (V-S1), "AAAAABBCD", in every table at once. The tables the spec leaves unspecified hold
plain values here, so that the kernel can evaluate a command. -/

/-- A table with the listed entries, and `d` elsewhere. -/
def tableWith {α : Type} (n : Nat) (d : α) (entries : List (Nat × α)) : Table α n :=
  tblOf n fun i => (entries.lookup i).getD d

/-- A leaf of NODE. -/
def leafOf (sym : Byte) (w : Dword) : Node := { isInternal := false, sym := sym, child0 := none, child1 := none, w := w }

/-- An internal node of NODE. -/
def innerOf (x y : NodeId) (w : Dword) : Node :=
  { isInternal := true, sym := 0, child0 := some x, child1 := some y, w := w }

/-- An internal entry of TRIE. -/
def forkOf (x y : NodeRef) : TrieEntry := { isLeaf := false, sym := 0, child0 := x, child1 := y }

/-- Input bytes from index 0 on, all of them below IN_LEN. -/
def inputOf (bytes : List Byte) : Input := { mem := (List.range bytes.length).zip bytes, len := BitVec.ofNat 25 bytes.length, draw := 0 }

/-- Nothing but reset values. -/
def blank : State :=
  { State.resetOf { ibufBytes := 32, obufBytes := 16, maxCodeLen := 8 } 0 1 with
    tree := { node := tableWith 511 (leafOf 0 0) [], root := some 0, nnodes := 0 }
    canon :=
      { code := tableWith 256 0 [], hist := tableWith 256 0 [], syms := tableWith 256 0 [], nsym := 0, maxlen := 0
        symsWritten := 0 }
    trie := { entry := tableWith 511 (forkOf none none) [], tnodes := 0 } }

/-- The counts of scenario 1. -/
def abcdFreq : Table Dword 256 := tableWith 256 0 [(0x41, 5), (0x42, 2), (0x43, 1), (0x44, 1)]

/-- The tree of scenario 1. -/
def abcdTree : Tree :=
  { node :=
      tableWith 511 (leafOf 0 0)
        [(0, leafOf 0x43 1), (1, leafOf 0x44 1), (2, leafOf 0x42 2), (3, leafOf 0x41 5), (4, innerOf 0 1 2),
          (5, innerOf 2 4 4), (6, innerOf 5 3 9)]
    root := some 6
    nnodes := 7 }

/-- The code lengths of scenario 1. -/
def abcdLen : Table Byte 256 := tableWith 256 0 [(0x41, 1), (0x42, 2), (0x43, 3), (0x44, 3)]

/-- The canonical table of scenario 1. -/
def abcdCanon : Canon :=
  { code := tableWith 256 0 [(0x41, 0), (0x42, 2), (0x43, 6), (0x44, 7)]
    hist := tableWith 256 0 [(1, 1), (2, 1), (3, 2)]
    syms := tableWith 256 0 [(0, 0x41), (1, 0x42), (2, 0x43), (3, 0x44)]
    nsym := 4
    maxlen := 3
    symsWritten := 4 }

/-- The trie of scenario 1. -/
def abcdTrie : Trie :=
  { entry :=
      tableWith 511 (forkOf none none)
        [(0, forkOf (some 1) (some 2)), (1, leafEntry 0x41), (2, forkOf (some 3) (some 4)), (3, leafEntry 0x42),
          (4, forkOf (some 5) (some 6)), (5, leafEntry 0x43), (6, leafEntry 0x44)]
    tnodes := 7 }

/-- The input of scenario 1, "AAAAABBCD". -/
def abcdText : List Byte := [0x41, 0x41, 0x41, 0x41, 0x41, 0x42, 0x42, 0x43, 0x44]

/-- Scenario 1 with every table built. -/
def abcd : State :=
  { blank with
    freq := abcdFreq, tree := abcdTree, len := abcdLen, canon := abcdCanon, trie := abcdTrie
    flags := { tree := true, codes := true, trie := true }
    input := inputOf abcdText
    plen := 9 }

/-- The state after a command. -/
def after (i : Instr) (s : State) : State :=
  match exec i s with
  | .next t => t
  | _ => s

/-- Whether a command answers a next state. -/
def answersNext (i : Instr) (s : State) : Bool :=
  match exec i s with
  | .next _ => true
  | _ => false

theorem exec_after {i : Instr} {s : State} (h : answersNext i s = true) : exec i s = .next (after i s) := by
  unfold answersNext after at *
  split at h <;> simp_all

/-! ### One command at a time (95_test_vectors.md) -/

/-- 44_control.md R126. -/
theorem test_nop : exec .nop abcd = .next abcd := rfl

/-- 44_control.md R127: CLEAR leaves ARG and IN_LEN. -/
theorem test_clear :
    let t := after .clear { abcd with arg := 7 }
    statusWord t = 0 ∧ symGet t.freq 0x41 = 0 ∧ symGet t.len 0x41 = 0 ∧ t.plen = 0 ∧ t.tree.nnodes = 0 ∧
      t.canon.nsym = 0 ∧ t.trie.tnodes = 0 ∧ t.arg = 7 ∧ t.input.len = 9 := by decide +kernel

/-- V-F1. -/
theorem test_freqInc :
    let t := after (.freqInc 0x61) { abcd with freq := tableWith 256 0 [(0x61, 4)] }
    symGet t.freq 0x61 = 5 ∧ symGet t.freq 0x62 = 0 ∧ t.flags.tree = false := by decide +kernel

/-- V-F3. -/
theorem test_freqInc_overflow :
    let t := after (.freqInc 0x41)
      { abcd with freq := tableWith 256 0 [(0x41, 0xFFFFFFFFFFFFFFFF)], pend := { valid := true, word := 0x00004110 } }
    t.errs = { err := .overflow, cmd := 0x00004110, info := 0x00004101 } ∧ t.flags.tree = false := by decide +kernel

/-- V-S1 step 1. -/
theorem test_freqScan :
    let t := after .freqScan { blank with input := inputOf abcdText }
    symGet t.freq 0x41 = 5 ∧ symGet t.freq 0x42 = 2 ∧ symGet t.freq 0x43 = 1 ∧ symGet t.freq 0x44 = 1 ∧
      symGet t.freq 0x45 = 0 := by decide +kernel

/-- V-S1 step 2. -/
theorem test_build :
    let t := after .build { blank with freq := abcdFreq }
    tblGet t.tree.node 0 = leafOf 0x43 1 ∧ tblGet t.tree.node 3 = leafOf 0x41 5 ∧
      tblGet t.tree.node 4 = innerOf 0 1 2 ∧ tblGet t.tree.node 5 = innerOf 2 4 4 ∧
      tblGet t.tree.node 6 = innerOf 5 3 9 ∧ t.tree.root = some 6 ∧ t.tree.nnodes = 7 ∧
      t.flags.tree = true := by decide +kernel

/-- 40_tree_builder.md R76: no symbol. -/
theorem test_build_empty :
    let t := after .build { blank with pend := { valid := true, word := 0x00000020 } }
    t.errs = { err := .emptyInput, cmd := 0x00000020, info := 0 } := by decide +kernel

/-- V-S1 step 3. -/
theorem test_walk :
    let t := after .walk abcd
    symGet t.len 0x41 = 1 ∧ symGet t.len 0x42 = 2 ∧ symGet t.len 0x43 = 3 ∧ symGet t.len 0x44 = 3 ∧
      symGet t.len 0x40 = 0 ∧ t.flags = { tree := true, codes := false, trie := false } := by decide +kernel

/-- V-S1 step 4. -/
theorem test_canon :
    let t := after .canon { blank with len := abcdLen }
    symGet t.canon.code 0x41 = 0 ∧ symGet t.canon.code 0x42 = 2 ∧ symGet t.canon.code 0x43 = 6 ∧
      symGet t.canon.code 0x44 = 7 ∧ symsList t.canon = [0x41, 0x42, 0x43, 0x44] ∧ symGet t.canon.hist 1 = 1 ∧
      symGet t.canon.hist 3 = 2 ∧ t.canon.maxlen = 3 ∧ t.flags.codes = true := by decide +kernel

/-- 41_canonical_code_generator.md R91: lengths 1, 2 leave the tree incomplete. -/
theorem test_canon_incomplete :
    let t := after .canon { blank with len := tableWith 256 0 [(0x41, 1), (0x42, 2)] }
    t.errs.err = .badLengths ∧ t.errs.info = 3 ∧ t.flags.codes = false := by decide +kernel

/-- P4: bits 1 0 1. -/
theorem test_putBits :
    let t := after (.putBits 3) { blank with arg := 5 }
    t.writer.acc = 0x05 ∧ t.writer.cnt = 3 ∧ t.writer.outLen = 0 := by decide +kernel

/-- P4: 64 bits. -/
theorem test_putBits_64 :
    let t := after (.putBits 64) { blank with arg := 0x0123456789ABCDEF }
    outputBytes t = [0x80, 0xC4, 0xA2, 0xE6, 0x91, 0xD5, 0xB3, 0xF7] ∧ t.writer.cnt = 0 := by decide +kernel

/-- P4. -/
theorem test_putByte : outputBytes (after (.putByte 0x01) blank) = [0x01] := by decide +kernel

/-- 60_exceptions.md R130: PUT_BYTE between bytes. -/
theorem test_putByte_misaligned :
    let t := after (.putByte 0x01) { blank with writer := { blank.writer with cnt := 3 } }
    t.errs.err = .sequence ∧ t.errs.info = 4 := by decide +kernel

/-- V-S1 step 7. -/
theorem test_flush :
    let t := after .flush { blank with writer := { blank.writer with acc := 0x76, cnt := 7 } }
    outputBytes t = [0x76] ∧ t.writer.cnt = 0 ∧ t.writer.acc = 0 := by decide +kernel

/-- 42_bitstream_packer.md R105: the code 110 of 'C'. -/
theorem test_encSym :
    let t := after (.encSym 0x43) abcd
    t.writer.acc = 0x03 ∧ t.writer.cnt = 3 := by decide +kernel

/-- 42_bitstream_packer.md R105: no code. -/
theorem test_encSym_noCode :
    let t := after (.encSym 0x45) abcd
    t.errs.err = .noCode ∧ t.errs.info = 0x45 := by decide +kernel

/-- V-S1 step 6. -/
theorem test_encScan :
    let t := after .encScan abcd
    outputBytes t = [0xA0] ∧ t.writer.acc = 0x76 ∧ t.writer.cnt = 7 := by decide +kernel

/-- V-S1 step 5. -/
theorem test_hdrWrite :
    outputBytes (after .hdrWrite abcd) =
      [0x03, 0x01, 0x01, 0x02, 0x41, 0x42, 0x43, 0x44, 0x09, 0, 0, 0, 0, 0, 0, 0] := by decide +kernel

/-- P4. -/
theorem test_getBits :
    let t := after (.getBits 3) { blank with input := inputOf [0xFD] }
    t.res = 5 ∧ t.reader.pos = 1 ∧ t.reader.left = 5 := by decide +kernel

/-- P4: 64 bits. -/
theorem test_getBits_64 :
    let t := after (.getBits 64) { blank with input := inputOf [0x80, 0xC4, 0xA2, 0xE6, 0x91, 0xD5, 0xB3, 0xF7] }
    t.res = 0x0123456789ABCDEF ∧ t.reader.pos = 8 ∧ t.reader.left = 0 := by decide +kernel

/-- P4. -/
theorem test_getByte :
    let t := after .getByte { blank with input := inputOf [0xFD, 0x01], reader := { blank.reader with pos := 1 } }
    t.res = 0x01 ∧ t.reader.pos = 2 := by decide +kernel

/-- 42_bitstream_packer.md R100: the end of the input. -/
theorem test_getByte_end :
    let t := after .getByte blank
    t.errs.err = .malformedContainer ∧ t.errs.info = 2 := by decide +kernel

/-- The container of V-S1. -/
def abcdContainer : List Byte :=
  [0x03, 0x01, 0x01, 0x02, 0x41, 0x42, 0x43, 0x44, 0x09, 0, 0, 0, 0, 0, 0, 0, 0xA0, 0x76]

/-- V-S1, decoding step 1. -/
theorem test_hdrRead :
    let t := after .hdrRead { blank with input := inputOf abcdContainer }
    t.reader.pos = 16 ∧ t.canon.maxlen = 3 ∧ symsList t.canon = [0x41, 0x42, 0x43, 0x44] ∧ symGet t.canon.hist 3 = 2 ∧
      symGet t.len 0x43 = 3 ∧ symGet t.canon.code 0x44 = 7 ∧ t.plen = 9 ∧ statusWord t = 0x00000004 := by
  decide +kernel

/-- V-S5, second row. -/
theorem test_hdrRead_truncated :
    let t := after .hdrRead
      { blank with
        input := inputOf (0xFF :: List.replicate 10 0), pend := { valid := true, word := 0x00000052 } }
    t.errs = { err := .malformedContainer, cmd := 0x00000052, info := 2 } ∧ t.flags.codes = false := by decide +kernel

/-- V-S1, decoding step 2. -/
theorem test_trieBuild :
    let t := after .trieBuild { abcd with trie := blank.trie }
    tblGet t.trie.entry 0 = forkOf (some 1) (some 2) ∧ tblGet t.trie.entry 2 = forkOf (some 3) (some 4) ∧
      tblGet t.trie.entry 4 = forkOf (some 5) (some 6) ∧ tblGet t.trie.entry 6 = leafEntry 0x44 ∧
      t.trie.tnodes = 7 ∧ t.flags.trie = true := by decide +kernel

/-- V-S1: the first code of the payload is that of 'A'. -/
theorem test_decSym :
    let t := after .decSym { abcd with input := inputOf [0xA0, 0x76] }
    outputBytes t = [0x41] ∧ t.res = 0x41 ∧ t.reader.left = 7 ∧ t.reader.pos = 1 := by decide +kernel

/-- V-S1, decoding step 3. -/
theorem test_decode :
    let t := after .decode { abcd with input := inputOf [0xA0, 0x76] }
    outputBytes t = abcdText ∧ t.res = 0x44 ∧ t.reader = { acc := 0x76, left := 1, pos := 2 } ∧
      statusWord t = 0x0000100E := by decide +kernel

/-- 43_decoder_trie_walker.md R124: the payload ends early. -/
theorem test_decode_truncated :
    let t := after .decode { abcd with input := inputOf [0xA0] }
    t.errs.err = .malformedContainer ∧ t.errs.info = 2 := by decide +kernel

/-! ### The bus, the step and reset -/

/-- V-S1: the NODE and TRIE windows. -/
theorem test_window_words :
    readData abcd 0x3054 = 0x00040002 ∧ readData abcd 0x3030 = 0x00004100 ∧ readData abcd 0x5000 = 0x00000401 ∧
      readData abcd 0x500C = 0x050BFFFF := by decide +kernel

/-- P5: `LEN['x']` is at 0x19E0. -/
theorem test_len_write :
    let t := hostWrite 0x19E0 1 abcd
    symGet t.len 0x78 = 1 ∧ t.flags = { tree := true, codes := false, trie := false } := by decide +kernel

/-- 20_memory.md R49, 10_state.md R24: bits 31:25 are ignored, and IN_LEN is at most IBUF_BYTES. -/
theorem test_position_write :
    (hostWrite 0x028 0x02000005 blank).input.len = 5 ∧ (hostWrite 0x028 0x00000021 blank).input.len = 32 := by decide

/-- 10_state.md R42, 20_memory.md R58: CANON of two symbols leaves SYMS[3] as it was, and a host reads it. -/
theorem test_syms_kept :
    readData (after .canon { abcd with len := tableWith 256 0 [(0x61, 1), (0x62, 1)] }) 0x2C0C = 0x44 := by
  decide +kernel

/-- 60_exceptions.md R139. -/
theorem test_busy_write :
    (hostWrite 0x19E0 1 { abcd with pend := { valid := true, word := 0 } }).errs =
      { err := .busyWrite, cmd := 0, info := 0x000019E0 } := by decide +kernel

/-- V-E5: the illegal word is recorded and BUSY falls. -/
theorem test_illegal_word :
    ∃ t, sequencerStep { blank with pend := { valid := true, word := 0x00004140 } } = .next t ∧
      statusWord t = 0x00000040 ∧ t.errs.cmd = 0x00004140 ∧ t.errs.info = 3 :=
  ⟨_, rfl, by decide +kernel⟩

/-- The step runs the word that withFetchWord places. -/
theorem test_step_runs_word :
    ∃ t, step (blank.withFetchWord 32 0x00006110) = .next t ∧ symGet t.freq 0x61 = 1 ∧ t.pend.valid = false :=
  ⟨_, rfl, by decide +kernel⟩

/-- 70_reset_and_hazards.md R149: a reset edge drops the access. -/
theorem test_reset_edge :
    let t := resetEdge (some (.write 0x0C0 7)) abcd
    statusWord t = 0 ∧ t.arg = 0 ∧ t.input.len = 0 ∧ symGet t.freq 0x41 = 0 := by decide +kernel

/-! ### Witnesses

States that meet the hypotheses of the obligations, clause by clause, at the ends of their ranges. -/

/-- `State.Inv` of a state without an error, as one test. -/
def invCheck (s : State) : Bool :=
  s.cfg.wf && Memory.wf s.input.mem && cellsBelow s.input.mem s.cfg.ibufBytes && Memory.wf s.writer.obuf.cells &&
    cellsBelow s.writer.obuf.cells s.cfg.obufBytes && decide (s.input.len.toNat ≤ s.cfg.ibufBytes) &&
    decide (s.reader.pos.toNat ≤ s.cfg.ibufBytes) && decide (s.writer.outLen.toNat ≤ s.cfg.obufBytes) &&
    decide (symGet s.canon.hist 0 = 0) && decide (s.errs = { err := .none, cmd := 0, info := 0 }) && writerPadded s.writer

theorem inv_of_check {s : State} (h : invCheck s = true) : s.Inv := by
  simp only [invCheck, Bool.and_eq_true, decide_eq_true_eq] at h
  obtain ⟨⟨⟨⟨⟨⟨⟨⟨⟨⟨h1, h2⟩, h3⟩, h4⟩, h5⟩, h6⟩, h7⟩, h8⟩, h9⟩, h10⟩, h11⟩ := h
  have h0 : s.errs.err = .none := by rw [h10]
  refine ⟨h1, h2, h3, h4, h5, h6, h7, h8, h9, fun _ => ?_, fun e => ?_, fun e => absurd h0 e, .inl h11⟩
  · rw [h10]; exact ⟨rfl, rfl⟩
  · rw [h0] at e; cases e

theorem runs {i : Instr} {s : State} (h : answersNext i s = true) : ∃ t, exec i s = .next t := ⟨_, exec_after h⟩

theorem forall_symbols {p : Byte → Bool} (h : allSymbols.all p = true) (x : Byte) : p x = true :=
  List.all_eq_true.mp h x (mem_allSymbols x)

/-- A command pends. -/
def pending (word : Word) (s : State) : State := { s with pend := { valid := true, word := word } }

/-- The writer stands `n` bits past byte `k` of OBUF. -/
def writerAt (k : BitVec 25) (n : Fin 8) (s : State) : State :=
  { s with writer := { s.writer with outLen := k, cnt := n } }

/-- The reader has `n` bits of `acc` left, and no byte of the input is unread. -/
def readerWith (acc : Byte) (n : Fin 9) (s : State) : State :=
  { s with reader := { acc := acc, left := n, pos := 0 }, input := inputOf [] }

/-- `abcd` without its flags. -/
def unflagged : State := { abcd with flags := noFlags }

/-- A state with an error. -/
def erred : State := { blank with errs := { err := .overflow, cmd := 0, info := 0 } }

theorem witness_DecodeAndEncodeAgree :
    wellFormed (.putBits 64) = true ∧ decode 0x00004050 = .ok (.getBits 64) := by decide

theorem witness_EveryWordMatchesOneRowOrIsIllegal :
    (∃ r ∈ opcodeTable, rowMatches r 0x00004040 = true) ∧ ∀ r ∈ opcodeTable, rowMatches r 0x00004140 = false := by decide

/-- The word with the operand 65 is illegal, and the one with 64 is not. -/
theorem witness_IllegalWordsRaise :
    (∀ r ∈ opcodeTable, opField r.pattern ≠ opField 0x00000056) ∧
    (∃ r ∈ opcodeTable, opField r.pattern = opField 0x00014140 ∧ reservedField 0x00014140 ≠ 0) ∧
    (∃ r ∈ opcodeTable, opField r.pattern = opField 0x00000120 ∧ reservedField 0x00000120 = 0 ∧
      r.format = .noOperand ∧ operandField 0x00000120 ≠ 0) ∧
    (∃ r ∈ opcodeTable, opField r.pattern = opField 0x00004140 ∧ reservedField 0x00004140 = 0 ∧
      r.format = .bitCount ∧ 64 < (operandField 0x00004140).toNat) ∧
    (∃ r ∈ opcodeTable, opField r.pattern = opField 0x00004040 ∧ reservedField 0x00004040 = 0 ∧
      ¬((r.format = .noOperand ∧ operandField 0x00004040 ≠ 0) ∨
        (r.format = .bitCount ∧ 64 < (operandField 0x00004040).toNat))) ∧
    (pending 0x00004140 blank).pend = { valid := true, word := 0x00004140 } ∧
    decode 0x00004140 = .error .operandOutOfRange := by decide

theorem witness_StepRunsDecodedCommand :
    let s := pending 0x00000020 blank
    let u := { s with script := [.complete, .resetEdge none] }
    s.pend.valid = true ∧ decode s.pend.word = .ok .build ∧ s.script = [] ∧
      u.pend.valid = true ∧ decode u.pend.word = .ok .build ∧ u.script = .complete :: [.resetEdge none] ∧
      decode (tableWord 32 0x00000020) = .ok .build ∧ decode (tableWord 16 0x00004040) = .ok (.putBits 64) :=
  ⟨rfl, rfl, rfl, rfl, rfl, rfl, rfl, rfl⟩

theorem witness_CommandAcceptance :
    (pending 0 blank).pend.valid = true ∧
    (erred.pend.valid = false ∧ erred.errs.err ≠ .none ∧ (0x00000000 : Word) ≠ 0x00000001) ∧
    (blank.pend.valid = false ∧ blank.errs.err = .none) ∧
    ((pending 0x00000099 blank).pend.valid = true ∧ decode (pending 0x00000099 blank).pend.word = .error .unassignedOp) ∧
    (pending 0 blank).pend.valid = true ∧ decode (pending 0 blank).pend.word = .ok .nop ∧
      exec .nop (pending 0 blank) = .next (pending 0 blank) :=
  ⟨rfl, ⟨rfl, by decide, by decide⟩, ⟨rfl, rfl⟩, ⟨rfl, rfl⟩, rfl, rfl, rfl⟩

theorem witness_BusyWritesAreDropped :
    let s := pending 0x00000031 abcd
    s.pend.valid = true ∧ Instr.canon ≠ .clear ∧ ∃ t, exec .canon s = .next t :=
  ⟨rfl, by decide, _, rfl⟩

theorem witness_ReadsHaveNoSideEffect : (pending 0 blank).pend.valid = true := rfl

theorem witness_UnmappedAccessesDoNothing :
    blank.pend.valid = false ∧ (0x3FFFFFF : Addr).toNat % 4 ≠ 0 ∧
    ∀ a ∈ [0x58, 0xFFC, 0x1C00, 0x1FFC, 0x4FF0, 0x4FFC, 0x57FC, 0xFFFFFC, 0x3000000, 0x3FFFFFC],
      (BitVec.ofNat 26 a : Addr).toNat = a ∧ unmappedRange a :=
  ⟨rfl, by decide, by simp [unmappedRange]⟩

theorem witness_AddressMap :
    BusTarget.pack ≠ .unmapped ∧ busTarget 0x0 ≠ .unmapped ∧ busTarget 0x54 ≠ .unmapped ∧ busTarget 0x4FEC ≠ .unmapped ∧
    busTarget 0x57F8 ≠ .unmapped ∧ busTarget 0x1000000 ≠ .unmapped ∧ busTarget 0x2FFFFFC ≠ .unmapped := by decide

theorem witness_RegisterWrites : blank.pend.valid = false := rfl

theorem witness_ReadOnlyWritesDoNothing :
    blank.pend.valid = false ∧ readOnlyTarget .status = true ∧ readOnlyTarget (.obuf 0x3FFFFF) = true ∧
    (0xFFFFFF05 : Word).toNat % 2 ^ 8 = (5 : Word).toNat % 2 ^ 8 ∧
    (0xFE000005 : Word).toNat % 2 ^ 25 = (5 : Word).toNat % 2 ^ 25 := by decide

theorem witness_RegisterReads :
    blank.pend.valid = false ∧ (BusTarget.pack ≠ .unmapped) ∧ blank.cfg.wf = true := by decide

/-- IBUF has 32 bytes and OBUF 16: the last byte of each, and the first beyond. -/
theorem witness_BufferWindows :
    let s := writerAt 16 0 blank
    (4 * (7 : Fin (2 ^ 22)).val + 3 < s.cfg.ibufBytes ∧ s.cfg.ibufBytes ≤ 4 * (8 : Fin (2 ^ 22)).val + 0) ∧
    (4 * (3 : Fin (2 ^ 22)).val + 3 < s.cfg.obufBytes ∧ 4 * (3 : Fin (2 ^ 22)).val + 3 < s.writer.outLen.toNat) ∧
    s.cfg.obufBytes ≤ 4 * (4 : Fin (2 ^ 22)).val + 0 ∧ s.pend.valid = false := by decide

theorem witness_ResetAndClearDifferOnlyInArgAndInLen :
    ({ abcd with script := [.resetEdge (some (.write 0x0C0 7))] } : State).script =
      .resetEdge (some (.write 0x0C0 7)) :: [] := rfl

theorem witness_InvariantsHoldAtReset :
    Config.wf { ibufBytes := 1, obufBytes := 1, maxCodeLen := 1 } = true ∧
    Config.wf { ibufBytes := 2 ^ 24, obufBytes := 2 ^ 24, maxCodeLen := 63 } = true := by decide

/-- A command runs in a state with the invariant, and leaves an error. -/
theorem witness_StepKeepsInv :
    (pending 0x00000042 (writerAt 16 3 blank)).Inv ∧ ∃ t, step (pending 0x00000042 (writerAt 16 3 blank)) = .next t :=
  ⟨inv_of_check (by decide +kernel), _, rfl⟩

theorem witness_CommandsKeepHostState : ∃ t, exec .decode abcd = .next t := ⟨_, rfl⟩

theorem witness_ValidityFlags :
    (∃ t, exec .hdrRead abcd = .next t) ∧ (∃ t, exec .walk abcd = .next t) ∧ (∃ t, exec .trieBuild abcd = .next t) :=
  ⟨⟨_, rfl⟩, runs (by decide +kernel), runs (by decide +kernel)⟩

theorem witness_CommandsKeepOutput :
    (writerAt 5 0 abcd).Inv ∧ (∃ t, exec (.putByte 1) (writerAt 5 0 abcd) = .next t) ∧
      4 < (writerAt 5 0 abcd).writer.outLen.toNat :=
  ⟨inv_of_check (by decide +kernel), ⟨_, rfl⟩, by decide⟩

theorem witness_FirstErrorIsRecorded :
    let s := pending 0x00000041 (writerAt 16 0 abcd)
    let u := { s with errs := { err := .busyWrite, cmd := 0, info := 0 } }
    Instr.putByte 0 ≠ .clear ∧
    (∃ t, exec (.putByte 0) s = .next t ∧ s.errs.err = .none ∧ raisedIn s t = true) ∧
    (∃ t, exec (.putByte 0) u = .next t ∧ u.errs.err ≠ .none) ∧
    ∃ t, exec (.putByte 0) abcd = .next t ∧ raisedIn abcd t = false :=
  ⟨by decide, ⟨_, rfl, rfl, by decide +kernel⟩, ⟨_, rfl, by decide⟩, ⟨_, rfl, by decide +kernel⟩⟩

theorem witness_CommandsRaiseOnlyTheirKinds :
    let s := pending 0x00000041 (writerAt 16 0 abcd)
    s.errs.err = .none ∧ ∃ t, exec (.putByte 0) s = .next t ∧ t.errs.err = .overflow :=
  ⟨rfl, _, rfl, by decide +kernel⟩

theorem witness_SequenceErrors :
    (blank.flags.tree = false ∧ blank.flags.codes = false ∧ blank.flags.trie = false) ∧
    ((writerAt 0 7 abcd).writer.cnt ≠ 0 ∧ (writerAt 0 7 abcd).flags.codes = true ∧
      (writerAt 0 7 abcd).flags.trie = true) ∧
    (readerWith 0 8 blank).reader.left ≠ 0 := by decide

/-- Scenario 1 with OBUF full and a symbol without a code at the end of the input. -/
def uncodedAfter : State := { writerAt 16 0 abcd with input := inputOf (abcdText ++ [0x45]) }

/-- The header takes 16 bytes and OBUF has 16; the code of A has one bit, and the codes of "AAAAABBCD" 15. -/
theorem witness_OutputOverflows :
    ((writerAt 15 7 abcd).Inv ∧ roomForBits (writerAt 15 7 abcd) (9 : Byte).toNat = false) ∧
    ((writerAt 16 0 abcd).Inv ∧ (writerAt 16 0 abcd).writer.cnt = 0 ∧
      (writerAt 16 0 abcd).writer.outLen.toNat = (writerAt 16 0 abcd).cfg.obufBytes) ∧
    ((writerAt 16 7 abcd).Inv ∧ (writerAt 16 7 abcd).writer.cnt ≠ 0 ∧
      (writerAt 16 7 abcd).writer.outLen.toNat = (writerAt 16 7 abcd).cfg.obufBytes) ∧
    (abcd.flags.codes = true ∧ symGet abcd.len 0x41 ≠ 0 ∧
      roomForBits (writerAt 16 7 abcd) (symGet abcd.len 0x41).toNat = false) ∧
    (uncodedAfter.Inv ∧ inputBytes uncodedAfter.input = abcdText ++ [0x45] ∧
      (∀ b ∈ abcdText, symGet uncodedAfter.len b ≠ 0) ∧
      roomForBits uncodedAfter (abcdText.map fun b => (symGet uncodedAfter.len b).toNat).sum = false) ∧
    (writerAt 1 0 abcd).Inv ∧ (writerAt 1 0 abcd).writer.cnt = 0 ∧
      (writerAt 1 0 abcd).cfg.obufBytes <
        (writerAt 1 0 abcd).writer.outLen.toNat +
          (headerBytes (writerAt 1 0 abcd).canon (writerAt 1 0 abcd).plen).length :=
  ⟨⟨inv_of_check (by decide +kernel), by decide +kernel⟩, ⟨inv_of_check (by decide +kernel), by decide +kernel⟩,
    ⟨inv_of_check (by decide +kernel), by decide +kernel⟩, by decide +kernel,
    ⟨inv_of_check (by decide +kernel), by decide +kernel⟩, inv_of_check (by decide +kernel), by decide +kernel⟩

/-! #### Trees and tables -/

/-- An entry of a listed table, without the table: the kernel counts over 256 symbols faster in this form. -/
theorem symGet_tableWith {α : Type} (d : α) (entries : List (Nat × α)) (x : Byte) :
    symGet (tableWith 256 d entries) x = (entries.lookup x.toNat).getD d := symGet_tblOf _ x

/-- What holds of every listed entry and of the value elsewhere holds of every symbol. -/
theorem table_all {α : Type} {d : α} {entries : List (Nat × α)} {p : Byte → α → Prop}
    [∀ x v, Decidable (p x v)] (h : (allSymbols.all fun x => decide (p x ((entries.lookup x.toNat).getD d))) = true)
    (x : Byte) : p x (symGet (tableWith 256 d entries) x) := by
  rw [symGet_tableWith]
  exact of_decide_eq_true (forall_symbols h x)

theorem witness_FreqIncCounts :
    (symGet (tableWith 256 (0 : Dword) [(0x61, 0xFFFFFFFFFFFFFFFE)]) 0x61).toNat ≠ 2 ^ 64 - 1 ∧
    (symGet (tableWith 256 (0 : Dword) [(0x61, 0xFFFFFFFFFFFFFFFF)]) 0x61).toNat = 2 ^ 64 - 1 := by decide +kernel

/-- The input "AB" with the counter of B at its maximum or one below it. -/
def nearlyFull (count : Dword) : State :=
  { blank with freq := tableWith 256 0 [(0x42, count)], input := inputOf [0x41, 0x42] }

theorem witness_FreqScanCounts :
    (∀ x, (symGet (nearlyFull 0xFFFFFFFFFFFFFFFE).freq x).toNat +
      (inputBytes (nearlyFull 0xFFFFFFFFFFFFFFFE).input).count x < 2 ^ 64) ∧
    inputBytes (nearlyFull 0xFFFFFFFFFFFFFFFF).input = [0x41] ++ 0x42 :: [] ∧
    (∀ x, (symGet (nearlyFull 0xFFFFFFFFFFFFFFFF).freq x).toNat + ([0x41] : List Byte).count x < 2 ^ 64) ∧
    (symGet (nearlyFull 0xFFFFFFFFFFFFFFFF).freq 0x42).toNat + ([0x41] : List Byte).count 0x42 = 2 ^ 64 - 1 := by
  have hin : ∀ c, inputBytes (nearlyFull c).input = [0x41, 0x42] := fun c => by
    have : (nearlyFull c).input = inputOf [0x41, 0x42] := rfl
    rw [this]
    decide +kernel
  refine ⟨fun x => ?_, hin _, fun x => ?_, by decide +kernel⟩
  · rw [hin]
    exact table_all (p := fun x (v : Dword) => v.toNat + ([0x41, 0x42] : List Byte).count x < 2 ^ 64) (by decide +kernel) x
  · exact table_all (p := fun x (v : Dword) => v.toNat + ([0x41] : List Byte).count x < 2 ^ 64) (by decide +kernel) x

/-- Two counters that sum to `2^64 - 1`, and to `2^64`. -/
def heavyFreq (count : Dword) : Table Dword 256 := tableWith 256 0 [(0, 1), (255, count)]

theorem heavy_buildable : buildable (heavyFreq 0xFFFFFFFFFFFFFFFE) := by
  simp only [buildable, countedCount, weightSum, heavyFreq, symGet_tableWith]
  decide +kernel

theorem blank_counts : countedCount blank.freq = 0 ∧ codedCount blank.len = 0 ∧ isLongest blank.len 0 := by
  have h : ∀ x, symGet blank.freq x = 0 ∧ symGet blank.len x = 0 := fun x => ⟨symGet_tblOf _ x, symGet_tblOf _ x⟩
  simp [countedCount, codedCount, isLongest, h]

theorem abcd_buildable : buildable abcdFreq := by
  simp only [buildable, countedCount, weightSum, abcdFreq, symGet_tableWith]
  decide +kernel

theorem witness_BuildCompletesOrRaises :
    (1 ≤ countedCount (heavyFreq 0xFFFFFFFFFFFFFFFE) ∧ weightSum (heavyFreq 0xFFFFFFFFFFFFFFFE) < 2 ^ 64) ∧
    countedCount blank.freq = 0 ∧
    1 ≤ countedCount (heavyFreq 0xFFFFFFFFFFFFFFFF) ∧ 2 ^ 64 ≤ weightSum (heavyFreq 0xFFFFFFFFFFFFFFFF) :=
  ⟨heavy_buildable, blank_counts.1, by
    simp only [countedCount, weightSum, heavyFreq, symGet_tableWith]
    decide +kernel⟩

theorem witness_BuildOrdersLeaves :
    buildable (heavyFreq 0xFFFFFFFFFFFFFFFE) ∧
    (∃ t, exec .build { blank with freq := heavyFreq 0xFFFFFFFFFFFFFFFE } = .next t) ∧
    0 < countedCount (heavyFreq 0xFFFFFFFFFFFFFFFE) :=
  ⟨heavy_buildable, ⟨_, rfl⟩, heavy_buildable.1⟩

/-- The merge, the only one: `n = 2`, `k = 2`. -/
theorem witness_BuildMergesTheTwoLeast :
    buildable (heavyFreq 0xFFFFFFFFFFFFFFFE) ∧
    (∃ t, exec .build { blank with freq := heavyFreq 0xFFFFFFFFFFFFFFFE } = .next t) ∧
    countedCount (heavyFreq 0xFFFFFFFFFFFFFFFE) ≤ 2 ∧ 2 < 2 * countedCount (heavyFreq 0xFFFFFFFFFFFFFFFE) - 1 :=
  ⟨heavy_buildable, ⟨_, rfl⟩, by
    simp only [countedCount, heavyFreq, symGet_tableWith]
    decide +kernel⟩

theorem witness_BuildStoresATreeOfTheAlphabet :
    buildable abcdFreq ∧ ∃ t, exec .build { blank with freq := abcdFreq } = .next t :=
  ⟨abcd_buildable, _, rfl⟩

theorem witness_BuildOfOneSymbol :
    symGet (tableWith 256 (0 : Dword) [(0x78, 1)]) 0x78 ≠ 0 ∧
    ∀ y, y ≠ 0x78 → symGet (tableWith 256 (0 : Dword) [(0x78, 1)]) y = 0 := by
  exact ⟨by decide +kernel, table_all (p := fun y v => y ≠ 0x78 → v = 0) (by decide +kernel)⟩

/-- The tree of scenario 1: 0 leads to B, C and D, and 1 to A. -/
theorem abcd_tree :
    (BinTree.branch (.branch (.leaf 0x42) (.branch (.leaf 0x43) (.leaf 0x44))) (.leaf 0x41)).storedInNode
      abcdTree.node abcdTree.root := by
  have h : tblGet abcdTree.node 0 = leafOf 0x43 1 ∧ tblGet abcdTree.node 1 = leafOf 0x44 1 ∧
      tblGet abcdTree.node 2 = leafOf 0x42 2 ∧ tblGet abcdTree.node 3 = leafOf 0x41 5 ∧
      tblGet abcdTree.node 4 = innerOf 0 1 2 ∧ tblGet abcdTree.node 5 = innerOf 2 4 4 ∧
      tblGet abcdTree.node 6 = innerOf 5 3 9 ∧ abcdTree.root = some 6 := by decide +kernel
  simp only [BinTree.storedInNode, h, innerOf, leafOf, and_self]

/-- A huffcore with another MAX_CODE_LEN. -/
def withMaxCodeLen (m : Nat) (s : State) : State := { s with cfg := { s.cfg with maxCodeLen := m } }

/-- MAX_CODE_LEN is the depth of the tree, 3, or one less. -/
theorem witness_WalkMeasuresDepths :
    let left := BinTree.branch (.leaf 0x42) (.branch (.leaf 0x43) (.leaf 0x44))
    let right := BinTree.leaf 0x41
    abcd.flags.tree = true ∧ (BinTree.branch left right).storedInNode abcd.tree.node abcd.tree.root ∧
    (BinTree.branch left right).size ≤ 511 ∧ (BinTree.branch left right).symbols.Nodup ∧
    (∀ p ∈ (BinTree.branch left right).paths, p.2.length ≤ (withMaxCodeLen 3 abcd).cfg.maxCodeLen) ∧
    (BinTree.branch left right).paths =
      [(0x42, [false, false])] ++ (0x43, [false, true, false]) :: [(0x44, [false, true, true]), (0x41, [true])] ∧
    (∀ p ∈ ([(0x42, [false, false])] : List (Byte × List Bool)),
      p.2.length ≤ (withMaxCodeLen 2 abcd).cfg.maxCodeLen) ∧
    (withMaxCodeLen 2 abcd).cfg.maxCodeLen < [false, true, false].length :=
  ⟨rfl, abcd_tree, by decide, by decide, by decide, rfl, by decide, by decide⟩

/-- A tree of one leaf. -/
def loneTree : State :=
  { blank with
    tree := { node := tableWith 511 (leafOf 0 0) [(0, leafOf 0x78 3)], root := some 0, nnodes := 1 }
    flags := { tree := true, codes := false, trie := false } }

theorem witness_WalkOfOneSymbol :
    loneTree.flags.tree = true ∧ (BinTree.leaf 0x78).storedInNode loneTree.tree.node loneTree.tree.root :=
  ⟨rfl, by
    have h : tblGet loneTree.tree.node 0 = leafOf 0x78 3 ∧ loneTree.tree.root = some 0 := by decide +kernel
    simp only [BinTree.storedInNode, h, leafOf, and_self]⟩

/-- The longest of the listed lengths. -/
theorem longest_of_check {entries : List (Nat × Byte)} {m : Nat} (s : Byte)
    (h : (allSymbols.all fun x => decide (((entries.lookup x.toNat).getD 0).toNat ≤ m)) = true)
    (hs : ((entries.lookup s.toNat).getD 0).toNat = m) : isLongest (tableWith 256 0 entries) m :=
  ⟨table_all (p := fun _ (v : Byte) => v.toNat ≤ m) h, s, by rw [symGet_tableWith]; exact hs⟩

/-- The number of listed lengths, and whether they fill the code space of words of length `m`. -/
def listedCount (entries : List (Nat × Byte)) : Nat :=
  (allSymbols.filter fun x => (entries.lookup x.toNat).getD 0 != 0).length

/-- Their Kraft sum. -/
def listedKraft (entries : List (Nat × Byte)) (m : Nat) : Nat :=
  ((allSymbols.filter fun x => (entries.lookup x.toNat).getD 0 != 0).map fun x =>
    2 ^ (m - ((entries.lookup x.toNat).getD 0).toNat)).sum

theorem codedCount_tableWith (entries : List (Nat × Byte)) : codedCount (tableWith 256 0 entries) = listedCount entries := by
  simp only [codedCount, listedCount, symGet_tableWith]

theorem tableKraft_tableWith (entries : List (Nat × Byte)) (m : Nat) :
    tableKraft (tableWith 256 0 entries) m = listedKraft entries m := by
  simp only [tableKraft, listedKraft, symGet_tableWith]

/-- A full set of lengths whose longest is MAX_CODE_LEN, and a lone symbol of length 1. -/
theorem witness_CanonCompletesAndCounts :
    (isLongest abcdLen 3 ∧ 1 ≤ codedCount abcdLen ∧
      3 ≤ (withMaxCodeLen 3 abcd).cfg.maxCodeLen ∧ fullCode abcdLen 3) ∧
    isLongest (tableWith 256 0 [(0x78, 1)]) 1 ∧ 1 ≤ codedCount (tableWith 256 0 [(0x78, 1)]) ∧
      fullCode (tableWith 256 0 [(0x78, 1)]) 1 := by
  simp only [abcdLen, fullCode, codedCount_tableWith, tableKraft_tableWith]
  exact ⟨⟨longest_of_check 0x43 (by decide +kernel) (by decide), by decide +kernel, by decide, .inr (by decide +kernel)⟩,
    longest_of_check 0x78 (by decide +kernel) (by decide), by decide +kernel, .inl (by decide +kernel)⟩

/-- CANON of the lengths of scenario 1. -/
def canonRun : State := { blank with len := abcdLen }

/-- HDR_READ of the container of scenario 1. -/
def hdrRun : State := { blank with input := inputOf abcdContainer }

theorem witness_SymbolsInCanonicalOrder :
    buildsTable .canon canonRun (after .canon canonRun) ∧ buildsTable .hdrRead hdrRun (after .hdrRead hdrRun) :=
  ⟨⟨.inl rfl, rfl, by decide +kernel⟩, ⟨.inr rfl, rfl, by decide +kernel⟩⟩

theorem witness_CodesAreAssigned :
    blank.cfg.wf = true ∧ buildsTable .canon canonRun (after .canon canonRun) ∧
    symGet (after .canon canonRun).len 0x40 = 0 ∧ (symsList (after .canon canonRun).canon)[0]? = some 0x41 ∧
    (symsList (after .canon canonRun).canon)[2]? = some 0x43 ∧
    (symsList (after .canon canonRun).canon)[2 + 1]? = some 0x44 :=
  ⟨by decide, witness_SymbolsInCanonicalOrder.1, by decide +kernel⟩

theorem after_canon_len (s : State) : (after .canon s).len = s.len := by
  have h : exec .canon s = .next (after .canon s) := rfl
  rcases execCanon_cases h with ⟨_, _, e⟩ | ⟨_, _, e⟩ <;> rw [e]
  simp only [raisedState, enterError_eq, spoilCanon]

theorem witness_CodesFitAndArePrefixFree :
    let t := after .canon canonRun
    blank.cfg.wf = true ∧ buildsTable .canon canonRun t ∧ symGet t.len 0x41 ≠ 0 ∧ symGet t.len 0x44 ≠ 0 ∧
    (symsList t.canon).getLast? = some 0x44 ∧ 2 ≤ t.canon.nsym.val ∧
    symsList (after .canon { blank with len := tableWith 256 0 [(0x78, 1)] }).canon = [0x78] ∧
    buildsTable .canon { canonRun with canon := abcdCanon } (after .canon { canonRun with canon := abcdCanon }) ∧
      (after .canon { canonRun with canon := abcdCanon }).len = t.len :=
  ⟨by decide, witness_SymbolsInCanonicalOrder.1, by decide +kernel, by decide +kernel, by decide +kernel,
    by decide +kernel, by decide +kernel, ⟨.inl rfl, rfl, by decide +kernel⟩,
    (after_canon_len _).trans (after_canon_len canonRun).symm⟩

/-- MAX_CODE_LEN of `blank` is 8. -/
theorem witness_CanonErrors :
    (isLongest blank.len 0 ∧ codedCount blank.len = 0) ∧
    (isLongest (tableWith 256 0 [(0x41, 8), (0x42, 9)]) 9 ∧
      blank.cfg.maxCodeLen < (symGet (tableWith 256 (0 : Byte) [(0x41, 8), (0x42, 9)]) 0x42).toNat ∧
      ∀ y, y.toNat < (0x42 : Byte).toNat →
        (symGet (tableWith 256 (0 : Byte) [(0x41, 8), (0x42, 9)]) y).toNat ≤ blank.cfg.maxCodeLen) ∧
    (isLongest (tableWith 256 0 [(0x41, 2)]) 2 ∧ codedCount (tableWith 256 0 [(0x41, 2)]) = 1) ∧
    (isLongest (tableWith 256 0 [(0, 1), (1, 1), (2, 1)]) 1 ∧ 2 ≤ codedCount (tableWith 256 0 [(0, 1), (1, 1), (2, 1)]) ∧
      2 ^ 1 < tableKraft (tableWith 256 0 [(0, 1), (1, 1), (2, 1)]) 1) ∧
    isLongest (tableWith 256 0 [(0, 1), (255, 2)]) 2 ∧ 2 ≤ codedCount (tableWith 256 0 [(0, 1), (255, 2)]) ∧
      tableKraft (tableWith 256 0 [(0, 1), (255, 2)]) 2 < 2 ^ 2 := by
  simp only [codedCount_tableWith, tableKraft_tableWith]
  exact ⟨⟨blank_counts.2.2, blank_counts.2.1⟩,
    ⟨longest_of_check 0x42 (by decide +kernel) (by decide), by decide +kernel,
      table_all (p := fun y (v : Byte) => y.toNat < (0x42 : Byte).toNat → v.toNat ≤ blank.cfg.maxCodeLen) (by decide +kernel)⟩,
    ⟨longest_of_check 0x41 (by decide +kernel) (by decide), by decide +kernel⟩,
    ⟨longest_of_check 0 (by decide +kernel) (by decide), by decide +kernel⟩,
    longest_of_check 255 (by decide +kernel) (by decide), by decide +kernel⟩

/-- The accepted lengths of scenario 1, and of a lone symbol. -/
theorem abcd_accepted : Accepted 8 abcdLen ∧ Accepted 8 (tableWith 256 0 [(0x78, 1)]) :=
  ⟨⟨by decide +kernel, by decide +kernel, by decide +kernel⟩, ⟨by decide +kernel, by decide +kernel, by decide +kernel⟩⟩

/-- Scenario 1 after BUILD. -/
def builtRun : State :=
  { blank with
    freq := abcdFreq, tree := builtTree abcdFreq blank.tree.node
    flags := { tree := true, codes := false, trie := false } }

/-- A length table after CANON. -/
def codedRun (len : Table Byte 256) : State :=
  { blank with
    len := len, canon := canonOf len blank.canon, flags := { tree := false, codes := true, trie := false } }

theorem builtRun_current : builtRun.Current := by
  have h := abcd_buildable
  exact ⟨fun _ => (buildTree_ok _ h).trans (congrArg Except.ok (builtTree_again _ h)), fun h => (nomatch h),
    fun h => (nomatch h)⟩

theorem codedRun_current {len : Table Byte 256} (h : Accepted 8 len) : (codedRun len).Current :=
  ⟨fun h => (nomatch h), fun _ => buildCanon_again (buildCanon_eq_ok.mpr ⟨h, rfl⟩), fun h => (nomatch h)⟩

theorem step_pending {i : Instr} {s t : State} (hs : s.script = []) (hv : s.pend.valid = true)
    (hd : decode s.pend.word = .ok i) (he : exec i (beginEvent [] s) = .next t) : step s = .next (endCommand t) := by
  have hv' : (beginEvent [] s).pend.valid = true := hv
  have hd' : decode (beginEvent [] s).pend.word = .ok i := hd
  simp only [step, hs, sequencerStep, hv', if_true, executeWord, hd', he, finishCommand]

theorem witness_StepKeepsFlagsCurrent :
    (pending 0x00000030 builtRun).Inv ∧ (pending 0x00000030 builtRun).Current ∧
      ∃ t, step (pending 0x00000030 builtRun) = .next t := by
  obtain ⟨t, ht⟩ := runs (i := .walk) (s := pending 0x00000030 builtRun) (by decide +kernel)
  refine ⟨inv_of_check (by decide +kernel), ⟨builtRun_current.tree, fun h => (nomatch h), fun h => (nomatch h)⟩, ?_⟩
  exact ⟨_, step_pending rfl rfl rfl ht⟩

theorem witness_StepNeverStops :
    (pending 0x00000053 (codedRun abcdLen)).Inv ∧ (pending 0x00000053 (codedRun abcdLen)).Current :=
  ⟨inv_of_check (by decide +kernel),
    ⟨fun h => (nomatch h), (codedRun_current abcd_accepted.1).codes, fun h => (nomatch h)⟩⟩

theorem witness_CommandsCompleteOrRaise :
    (builtRun.Inv ∧ builtRun.Current ∧ builtRun.flags.tree = true) ∧
    (codedRun abcdLen).Inv ∧ (codedRun abcdLen).Current ∧ (codedRun abcdLen).flags.codes = true :=
  ⟨⟨inv_of_check (by decide +kernel), builtRun_current, rfl⟩, inv_of_check (by decide +kernel),
    codedRun_current abcd_accepted.1, rfl⟩

theorem witness_WindowLayouts :
    (abcd.canon.nsym ≠ 0 ∧ (0xFF : Byte) ≠ 0 ∧ (3 : Byte).toNat < abcd.canon.symsWritten.val ∧
      (6 : NodeId).val < abcd.tree.nnodes.val ∧ (6 : NodeId).val < abcd.trie.tnodes.val ∧ (0xFE : Byte) ≠ 0xFF) ∧
    (codedRun abcdLen).Current ∧ (codedRun abcdLen).flags.codes = true ∧
      (3 : Byte).toNat < (codedRun abcdLen).canon.nsym.val :=
  ⟨by decide, codedRun_current abcd_accepted.1, rfl, by decide +kernel⟩

theorem witness_CanonSucceedsAfterWalk :
    builtRun.Inv ∧ builtRun.Current ∧ ∃ t, exec .walk builtRun = .next t ∧ raisedIn builtRun t = false :=
  ⟨inv_of_check (by decide +kernel), builtRun_current, _, exec_after (by decide +kernel), by decide +kernel⟩

theorem witness_TrieHoldsTheCodes :
    ((codedRun abcdLen).Inv ∧ (codedRun abcdLen).Current ∧ (codedRun abcdLen).flags.codes = true ∧
      symGet (codedRun abcdLen).len 0x44 ≠ 0 ∧ 2 ≤ (codedRun abcdLen).canon.nsym.val) ∧
    (codedRun (tableWith 256 0 [(0x78, 1)])).Inv ∧ (codedRun (tableWith 256 0 [(0x78, 1)])).Current ∧
      symsList (codedRun (tableWith 256 0 [(0x78, 1)])).canon = [0x78] :=
  ⟨⟨inv_of_check (by decide +kernel), codedRun_current abcd_accepted.1, rfl, by decide +kernel⟩,
    inv_of_check (by decide +kernel), codedRun_current abcd_accepted.2, by decide +kernel⟩

/-! #### The packer and the decoder -/

/-- OBUF has 16 bytes: 64 bits from byte 8, and 8 bits from bit 7 of byte 15, fill it exactly. -/
theorem witness_PutBitsAppendsBits :
    ((writerAt 8 0 blank).Inv ∧ writerPadded (writerAt 8 0 blank).writer = true ∧
      roomForBits (writerAt 8 0 blank) (64 : Byte).toNat = true) ∧
    (writerAt 15 7 blank).Inv ∧ writerPadded (writerAt 15 7 blank).writer = true ∧
      roomForBits (writerAt 15 7 blank) (8 : Byte).toNat = true :=
  ⟨⟨inv_of_check (by decide +kernel), by decide⟩, inv_of_check (by decide +kernel), by decide⟩

/-- The last byte of OBUF, and the header of 16 bytes that fills it. -/
theorem witness_RawBytesAreAppended :
    ((writerAt 15 0 abcd).Inv ∧ (writerAt 15 0 abcd).writer.cnt = 0 ∧
      (writerAt 15 0 abcd).writer.outLen.toNat < (writerAt 15 0 abcd).cfg.obufBytes) ∧
    abcd.Inv ∧ abcd.writer.cnt = 0 ∧ abcd.flags.codes = true ∧
      abcd.writer.outLen.toNat + (1 + abcd.canon.maxlen.toNat + abcd.canon.nsym.val + 8) ≤ abcd.cfg.obufBytes ∧
      ((3 : Byte) ≠ 0 ∧ (3 : Byte).toNat ≤ abcd.canon.maxlen.toNat) ∧ (3 : Byte).toNat < abcd.canon.nsym.val :=
  ⟨⟨inv_of_check (by decide +kernel), by decide⟩, inv_of_check (by decide +kernel), by decide⟩

theorem witness_FlushEmitsThePartialByte :
    (blank.Inv ∧ blank.writer.cnt = 0) ∧
    ((writerAt 16 1 blank).Inv ∧ (writerAt 16 1 blank).writer.cnt ≠ 0 ∧
      (writerAt 16 1 blank).writer.outLen.toNat = (writerAt 16 1 blank).cfg.obufBytes) ∧
    (writerAt 15 7 blank).Inv ∧ (writerAt 15 7 blank).writer.cnt ≠ 0 ∧
      (writerAt 15 7 blank).writer.outLen.toNat < (writerAt 15 7 blank).cfg.obufBytes :=
  ⟨⟨inv_of_check (by decide +kernel), by decide⟩, ⟨inv_of_check (by decide +kernel), by decide⟩,
    inv_of_check (by decide +kernel), by decide⟩

/-- The 15 bits of the input and one before them fill OBUF exactly. -/
theorem witness_CodesAreAppended :
    let s := writerAt 14 1 abcd
    let u := { s with input := inputOf [0x41, 0x45, 0x42] }
    s.Inv ∧ s.flags.codes = true ∧ writerPadded s.writer = true ∧
    (symGet s.len 0x44 ≠ 0 ∧ roomForBits s (symGet s.len 0x44).toNat = true) ∧ symGet s.len 0x45 = 0 ∧
    ((∀ b ∈ inputBytes s.input, symGet s.len b ≠ 0) ∧
      roomForBits s ((inputBytes s.input).map fun b => (symGet s.len b).toNat).sum = true) ∧
    u.Inv ∧ inputBytes u.input = [0x41] ++ 0x45 :: [0x42] ∧ (∀ x ∈ ([0x41] : List Byte), symGet u.len x ≠ 0) ∧
      roomForBits u (([0x41] : List Byte).map fun x => (symGet u.len x).toNat).sum = true ∧ symGet u.len 0x45 = 0 :=
  ⟨inv_of_check (by decide +kernel), rfl, by decide, by decide +kernel, by decide +kernel, by decide +kernel,
    inv_of_check (by decide +kernel), by decide +kernel⟩

/-- Sixty-four bits are there, or sixty-three; the last byte of the input, or its end. -/
theorem witness_InputIsReadIntoRes :
    let s := { blank with input := inputOf (List.replicate 8 0xFF) }
    ((64 : Byte).toNat ≤ 64 ∧ (64 : Byte).toNat ≤ bitsAvailable s.input s.reader) ∧
    bitsAvailable s.input { s.reader with left := 7, pos := 1 } < (64 : Byte).toNat ∧
    ({ s with reader := { s.reader with pos := 7 } } : State).reader.left = 0 ∧
    (7 : BitVec 25).toNat < s.input.len.toNat ∧ s.input.len.toNat ≤ (8 : BitVec 25).toNat := by decide

/-- Nine bits written from byte 3 of OBUF on, and read back from byte 1 of IBUF. -/
theorem witness_ReadingInvertsWriting :
    let s := writerAt 3 0 blank
    let w1 : Writer := { acc := 1, cnt := 1, outLen := 4, obuf := { cells := [(3, 0x95)], holes := [(0, 0)] } }
    let w2 : Writer := { acc := 0, cnt := 0, outLen := 5, obuf := { cells := [(3, 0x95), (4, 0x01)], holes := [(0, 0)] } }
    let inp := inputOf [0, 0x95, 0x01]
    let r : Reader := { acc := 0, left := 0, pos := 1 }
    let fields : List (Dword × Nat) := [(5, 3), (9, 5), (0, 0), (0xFF, 1)]
    s.Inv ∧ s.writer.cnt = 0 ∧ s.writer.acc = 0 ∧ (∀ f ∈ fields, f.2 ≤ 64) ∧
    writeFields s.cfg.obufBytes fields s.writer = .ok w1 ∧ flushWriter s.cfg.obufBytes w1 = .ok w2 ∧ r.left = 0 ∧
    r.pos.toNat + (w2.outLen.toNat - s.writer.outLen.toNat) ≤ inp.len.toNat ∧
    ∀ k, k < w2.outLen.toNat - s.writer.outLen.toNat →
      ibufRead inp (r.pos.toNat + k) = obufRead w2.obuf (s.writer.outLen.toNat + k) :=
  ⟨inv_of_check (by decide +kernel), by decide +kernel⟩

/-- Bytes that stand at the start of the input. -/
theorem holds_of_check {inp : Input} {bytes : List Byte} (h : bytes.length ≤ inp.len.toNat)
    (hb : (List.range bytes.length).map (ibufRead inp) = bytes) : inputHoldsBytes inp 0 bytes := by
  refine ⟨by omega, fun i hi => ?_⟩
  rw [Nat.zero_add]
  have h' : i < ((List.range bytes.length).map (ibufRead inp)).length := by simpa using hi
  have e := List.getElem_of_eq hb h'
  simpa using e

theorem witness_HeadersReadBack :
    let c := canonOf abcdLen blank.canon
    hdrRun.reader.left = 0 ∧ buildCanon hdrRun.cfg.maxCodeLen abcdLen blank.canon = .ok c ∧
    inputHoldsBytes hdrRun.input hdrRun.reader.pos.toNat (headerBytes c 9) ∧
    ∃ t, exec .hdrRead hdrRun = .next t ∧ raisedIn hdrRun t = false := by
  have e : headerBytes (canonOf abcdLen blank.canon) 9 = abcdContainer.take 16 := by decide +kernel
  refine ⟨rfl, buildCanon_eq_ok.mpr ⟨abcd_accepted.1, rfl⟩, ?_, _, witness_SymbolsInCanonicalOrder.2.2⟩
  rw [e]
  exact holds_of_check (by decide) (by decide +kernel)

/-- An input at which HDR_READ starts. -/
def hdrInput (bytes : List Byte) : State := { blank with input := inputOf bytes }

/-- Symbols that ascend are in order under every histogram. -/
theorem inOrder_of_ascending {hist : List Nat} {syms : List Byte} (h : syms.Pairwise fun x y => x.toNat < y.toNat) :
    symbolsInOrder hist syms := by
  refine ⟨h.imp fun {x y} hlt e => by rw [e] at hlt; exact Nat.lt_irrefl _ hlt, fun i l x y hx hy _ _ => ?_⟩
  obtain ⟨h1, rfl⟩ := List.getElem?_eq_some_iff.mp hx
  obtain ⟨h2, rfl⟩ := List.getElem?_eq_some_iff.mp hy
  exact List.pairwise_iff_getElem.mp h _ _ h1 h2 (Nat.lt_succ_self i)

/-- Each of the histograms stands in an input. -/
theorem histograms_stand :
    ∀ p ∈ ([(1, [0]), (2, [255, 2]), (3, [254, 2, 0]), (9, [0, 0, 0, 0, 0, 0, 0, 0, 1]), (2, [0, 1]), (1, [3])] :
        List (Byte × List Byte)),
      p.1 ≠ 0 ∧ p.2.length = p.1.toNat ∧ inputHoldsBytes (hdrInput (p.1 :: p.2)).input 0 (p.1 :: p.2) := by
  intro p hp
  have h : p.1 ≠ 0 ∧ p.2.length = p.1.toNat ∧ (p.1 :: p.2).length ≤ (hdrInput (p.1 :: p.2)).input.len.toNat ∧
      (List.range (p.1 :: p.2).length).map (ibufRead (hdrInput (p.1 :: p.2)).input) = p.1 :: p.2 := by
    revert p
    decide +kernel
  exact ⟨h.1, h.2.1, holds_of_check h.2.2.1 h.2.2.2⟩

/-- MAX_CODE_LEN of `blank` is 8. In the end the symbol list stops early, repeats its first symbol, or is whole with PLEN
one byte short. -/
theorem witness_HeaderErrors :
    ((hdrInput []).reader.left = 0 ∧ (hdrInput []).input.len.toNat ≤ 0) ∧
    (0 < (hdrInput [0]).input.len.toNat ∧ ibufRead (hdrInput [0]).input 0 = 0) ∧
    (0 < (hdrInput [3, 1, 1]).input.len.toNat ∧ ibufRead (hdrInput [3, 1, 1]).input 0 ≠ 0 ∧
      (hdrInput [3, 1, 1]).input.len.toNat < 0 + 1 + (ibufRead (hdrInput [3, 1, 1]).input 0).toNat) ∧
    ((histogramRead [0]).sum = 0 ∧ 256 < (histogramRead [255, 2]).sum) ∧
    (1 ≤ (histogramRead [254, 2, 0]).sum ∧ (histogramRead [254, 2, 0]).sum ≤ 256 ∧
      (histogramRead [254, 2, 0]).getLast? = some 0) ∧
    (1 ≤ (histogramRead [0, 0, 0, 0, 0, 0, 0, 0, 1]).sum ∧ (histogramRead [0, 0, 0, 0, 0, 0, 0, 0, 1]).sum ≤ 256 ∧
      (histogramRead [0, 0, 0, 0, 0, 0, 0, 0, 1]).getLast? ≠ some 0 ∧ blank.cfg.maxCodeLen < (9 : Byte).toNat) ∧
    (1 ≤ (histogramRead [0, 1]).sum ∧ (histogramRead [0, 1]).sum = 1 ∧ (2 : Byte) ≠ 1 ∧
      (histogramRead [0, 1]).getLast? ≠ some 0 ∧ (2 : Byte).toNat ≤ blank.cfg.maxCodeLen) ∧
    (2 ≤ (histogramRead [3]).sum ∧ histogramKraft (histogramRead [3]) ≠ 2 ^ (1 : Byte).toNat) ∧
    (∀ p ∈ ([(1, [0]), (2, [255, 2]), (3, [254, 2, 0]), (9, [0, 0, 0, 0, 0, 0, 0, 0, 1]), (2, [0, 1]), (1, [3])] :
        List (Byte × List Byte)),
      p.1 ≠ 0 ∧ p.2.length = p.1.toNat ∧ inputHoldsBytes (hdrInput (p.1 :: p.2)).input 0 (p.1 :: p.2)) ∧
    histogramAccepted blank.cfg.maxCodeLen (histogramRead [1, 1, 2]) ∧
    (inputHoldsBytes (hdrInput [3, 1, 1, 2, 0x41]).input 0 (3 :: [1, 1, 2] ++ [0x41]) ∧
      symbolsInOrder (histogramRead [1, 1, 2]) [0x41] ∧
      ([0x41] : List Byte).length < (histogramRead [1, 1, 2]).sum ∧
      (hdrInput [3, 1, 1, 2, 0x41]).input.len.toNat = 0 + 1 + (3 : Byte).toNat + ([0x41] : List Byte).length) ∧
    (inputHoldsBytes (hdrInput [3, 1, 1, 2, 0x41, 0x41]).input 0 (3 :: [1, 1, 2] ++ [0x41] ++ [0x41]) ∧
      ¬ symbolsInOrder (histogramRead [1, 1, 2]) ([0x41] ++ [0x41])) ∧
    let whole : List Byte := [0x41, 0x42, 0x43, 0x44]
    let short : State := hdrInput (3 :: [1, 1, 2] ++ whole ++ List.replicate 7 0)
    inputHoldsBytes short.input 0 (3 :: [1, 1, 2] ++ whole) ∧ symbolsInOrder (histogramRead [1, 1, 2]) whole ∧
      whole.length = (histogramRead [1, 1, 2]).sum ∧
      short.input.len.toNat < 0 + 1 + (3 : Byte).toNat + whole.length + 8 :=
  ⟨by decide, by decide, by decide, by decide, by decide, by decide, by decide, by decide, histograms_stand,
    by unfold histogramAccepted; decide,
    ⟨holds_of_check (by decide) (by decide +kernel), inOrder_of_ascending (by decide), by decide, by decide⟩,
    ⟨holds_of_check (by decide) (by decide +kernel), fun h => absurd h.1 (by decide)⟩,
    holds_of_check (by decide) (by decide +kernel), inOrder_of_ascending (by decide), by decide, by decide⟩

/-- Bits that stand at the reader. -/
theorem bits_of_check {inp : Input} {r : Reader} {bits : List Bool} (h : bits.length ≤ bitsAvailable inp r)
    (hb : (List.range bits.length).map (inputBit inp r) = bits) : inputHolds inp r bits := by
  refine ⟨h, fun i hi => ?_⟩
  have h' : i < ((List.range bits.length).map (inputBit inp r)).length := by simpa using hi
  have e := List.getElem_of_eq hb h'
  simpa using e

/-- The codes of scenario 1. -/
def abcdPath (x : Byte) : List Bool :=
  if x = 0x41 then [false] else if x = 0x42 then [true, false] else if x = 0x43 then [true, true, false]
  else [true, true, true]

/-- The payload of scenario 1 and room for `n` bytes in OBUF. -/
def payloadRun (n : Nat) : State := writerAt (BitVec.ofNat 25 (16 - n)) 0 { abcd with input := inputOf [0xA0, 0x76] }

/-- The trie of a lone symbol, whose root has no right child. -/
def loneTrie : State :=
  { blank with
    trie :=
      { entry := tableWith 511 (forkOf none none) [(0, forkOf (some 1) none), (1, leafEntry 0x78)], tnodes := 2 }
    flags := { tree := false, codes := true, trie := true }
    input := inputOf [0x01] }

theorem witness_DecSymFollowsTheTrie :
    ((payloadRun 1).Inv ∧ (payloadRun 1).flags.trie = true ∧ (payloadRun 1).writer.cnt = 0 ∧
      trieLeafFor (payloadRun 1).trie.entry 0 [false] = some 0x41 ∧
      inputHolds (payloadRun 1).input (payloadRun 1).reader [false] ∧
      (payloadRun 1).writer.outLen.toNat < (payloadRun 1).cfg.obufBytes) ∧
    ((payloadRun 0).Inv ∧ (payloadRun 0).writer.outLen.toNat = (payloadRun 0).cfg.obufBytes) ∧
    (loneTrie.Inv ∧ loneTrie.flags.trie = true ∧ loneTrie.writer.cnt = 0 ∧
      trieReach loneTrie.trie.entry 0 [] = some 0 ∧ childOf true (tblGet loneTrie.trie.entry 0) = none ∧
      inputHolds loneTrie.input loneTrie.reader ([] ++ [true])) ∧
    let s := readerWith 0xC0 2 abcd
    s.Inv ∧ s.flags.trie = true ∧ s.writer.cnt = 0 ∧ trieReach s.trie.entry 0 [true, true] = some 4 ∧
      inputHolds s.input s.reader [true, true] ∧ [true, true].length = bitsAvailable s.input s.reader :=
  ⟨⟨inv_of_check (by decide +kernel), rfl, rfl, by decide +kernel, bits_of_check (by decide) (by decide +kernel), by decide⟩,
    ⟨inv_of_check (by decide +kernel), by decide⟩,
    ⟨inv_of_check (by decide +kernel), rfl, rfl, rfl, by decide +kernel, bits_of_check (by decide) (by decide +kernel)⟩,
    inv_of_check (by decide +kernel), rfl, rfl, by decide +kernel, bits_of_check (by decide) (by decide +kernel), by decide⟩

/-- The codes of two symbols A left in the reader, and nothing behind them. -/
def twoSymbols : State := readerWith 0 2 abcd

/-- The code of A and the first bit of another left in the reader, and nothing behind them. -/
def cutSymbol : State := readerWith 0x80 2 abcd

/-- The code of a lone symbol, and then a bit that leads nowhere. -/
def strayBit : State := { loneTrie with input := inputOf [0x02], plen := 2 }

/-- Nine symbols with room for nine or eight; two symbols, or one and part of another, with nothing behind them; and a bit
without a child behind one symbol. -/
theorem witness_DecodeDecodesPlenSymbols :
    ((payloadRun 9).Inv ∧ (payloadRun 9).flags.trie = true ∧ (payloadRun 9).writer.cnt = 0 ∧
      (∀ x ∈ abcdText, trieLeafFor (payloadRun 9).trie.entry 0 (abcdPath x) = some x) ∧
      inputHolds (payloadRun 9).input (payloadRun 9).reader (abcdText.flatMap abcdPath) ∧
      (payloadRun 9).plen.toNat = abcdText.length ∧
      (payloadRun 9).writer.outLen.toNat + abcdText.length ≤ (payloadRun 9).cfg.obufBytes) ∧
    (twoSymbols.Inv ∧ twoSymbols.flags.trie = true ∧ twoSymbols.writer.cnt = 0 ∧
      (∀ x ∈ ([0x41, 0x41] : List Byte), trieLeafFor twoSymbols.trie.entry 0 (abcdPath x) = some x) ∧
      inputHolds twoSymbols.input twoSymbols.reader (([0x41, 0x41] : List Byte).flatMap abcdPath ++ []) ∧
      ([0x41, 0x41] : List Byte).length < twoSymbols.plen.toNat ∧
      twoSymbols.writer.outLen.toNat + ([0x41, 0x41] : List Byte).length ≤ twoSymbols.cfg.obufBytes ∧
      (([0x41, 0x41] : List Byte).flatMap abcdPath ++ []).length = bitsAvailable twoSymbols.input twoSymbols.reader) ∧
    (cutSymbol.Inv ∧ trieReach cutSymbol.trie.entry 0 [true] = some 2 ∧
      inputHolds cutSymbol.input cutSymbol.reader (([0x41] : List Byte).flatMap abcdPath ++ [true]) ∧
      (([0x41] : List Byte).flatMap abcdPath ++ [true]).length = bitsAvailable cutSymbol.input cutSymbol.reader ∧
      ([0x41] : List Byte).length < cutSymbol.plen.toNat) ∧
    (strayBit.Inv ∧ strayBit.flags.trie = true ∧ strayBit.writer.cnt = 0 ∧
      trieLeafFor strayBit.trie.entry 0 [false] = some 0x78 ∧ trieReach strayBit.trie.entry 0 [] = some 0 ∧
      childOf true (tblGet strayBit.trie.entry 0) = none ∧
      inputHolds strayBit.input strayBit.reader (([0x78] : List Byte).flatMap (fun _ => [false]) ++ [] ++ [true]) ∧
      ([0x78] : List Byte).length < strayBit.plen.toNat ∧
      strayBit.writer.outLen.toNat + ([0x78] : List Byte).length ≤ strayBit.cfg.obufBytes) ∧
    (payloadRun 8).Inv ∧ inputHolds (payloadRun 8).input (payloadRun 8).reader (abcdText.flatMap abcdPath) ∧
      abcdText.length ≤ (payloadRun 8).plen.toNat ∧
      (payloadRun 8).writer.outLen.toNat ≤ (payloadRun 8).cfg.obufBytes ∧
      (payloadRun 8).cfg.obufBytes < (payloadRun 8).writer.outLen.toNat + abcdText.length :=
  ⟨⟨inv_of_check (by decide +kernel), rfl, rfl, by decide +kernel, bits_of_check (by decide) (by decide +kernel), by decide,
      by decide⟩,
    ⟨inv_of_check (by decide +kernel), rfl, rfl, by decide +kernel, bits_of_check (by decide) (by decide +kernel), by decide,
      by decide, by decide⟩,
    ⟨inv_of_check (by decide +kernel), by decide +kernel, bits_of_check (by decide) (by decide +kernel), by decide,
      by decide⟩,
    ⟨inv_of_check (by decide +kernel), rfl, rfl, by decide +kernel, rfl, by decide +kernel,
      bits_of_check (by decide) (by decide +kernel), by decide, by decide⟩,
    inv_of_check (by decide +kernel), bits_of_check (by decide) (by decide +kernel), by decide, by decide, by decide⟩

/-! #### Frames -/

/-- A command completes in `s` and raises in `u`. -/
def bothWays (i : Instr) (s u : State) : Bool :=
  answersNext i s && !raisedIn s (after i s) && answersNext i u && raisedIn u (after i u)

theorem witness_TreeBuilderFrame :
    bothWays (.freqInc 0x61) blank { blank with freq := tableWith 256 0 [(0x61, 0xFFFFFFFFFFFFFFFF)] } = true ∧
    bothWays .freqScan (nearlyFull 0) (nearlyFull 0xFFFFFFFFFFFFFFFF) = true ∧
    bothWays .build { blank with freq := abcdFreq } blank = true := by decide +kernel

/-- An input at which HDR_READ starts, with four entries of SYMS written. -/
def hdrAgain (bytes : List Byte) : State := { hdrInput bytes with canon := abcdCanon }

/-- Two symbols are coded and four entries of SYMS written; the header of two symbols, whole or cut short. -/
theorem witness_TableBuilderFrame :
    (bothWays .walk abcd blank = true ∧ bothWays .canon canonRun blank = true ∧
      bothWays .hdrRead hdrRun blank = true ∧ bothWays .trieBuild abcd blank = true) ∧
    (codedCount (tableWith 256 (0 : Byte) [(0x61, 1), (0x62, 1)]) ≤ (2 : Byte).toNat ∧
      (2 : Byte).toNat < abcd.canon.symsWritten.val) ∧
    bothWays .hdrRead (hdrAgain ([1, 2, 0x61, 0x62] ++ List.replicate 8 0)) (hdrAgain [1, 2, 0x61]) = true ∧
    (hdrAgain [1, 2, 0x61]).reader.left = 0 ∧ (1 : Byte) ≠ 0 ∧ ([2] : List Byte).length = (1 : Byte).toNat ∧
    inputHoldsBytes (hdrAgain ([1, 2, 0x61, 0x62] ++ List.replicate 8 0)).input 0 [1, 2] ∧
    inputHoldsBytes (hdrAgain [1, 2, 0x61]).input 0 [1, 2] ∧
    (histogramRead [2]).sum ≤ (2 : Byte).toNat ∧ (2 : Byte).toNat < (hdrAgain [1, 2, 0x61]).canon.symsWritten.val :=
  ⟨by decide +kernel, by decide +kernel, by decide +kernel, rfl, by decide, rfl,
    holds_of_check (by decide) (by decide +kernel), holds_of_check (by decide) (by decide +kernel), by decide, by decide⟩

theorem witness_OutputCommandFrame :
    (abcd.Inv ∧ (writerAt 16 0 abcd).Inv ∧ (writerAt 16 7 abcd).Inv) ∧
    bothWays .flush (writerAt 15 7 abcd) (writerAt 16 7 abcd) = true ∧
    bothWays .encScan abcd (writerAt 16 0 abcd) = true ∧ bothWays .hdrWrite abcd (writerAt 1 0 abcd) = true ∧
    bothWays (.putBits 64) abcd (writerAt 16 0 abcd) = true ∧ bothWays (.putByte 0xFF) abcd (writerAt 16 0 abcd) = true ∧
    bothWays (.encSym 0x41) abcd (writerAt 16 7 abcd) = true :=
  ⟨⟨inv_of_check (by decide +kernel), inv_of_check (by decide +kernel), inv_of_check (by decide +kernel)⟩,
    by decide +kernel⟩

theorem witness_InputCommandFrame :
    ((payloadRun 9).Inv ∧ (payloadRun 0).Inv) ∧ bothWays (.getBits 16) (payloadRun 9) blank = true ∧
    bothWays .getByte (payloadRun 9) blank = true ∧ bothWays .decSym (payloadRun 1) (payloadRun 0) = true ∧
    bothWays .decode (payloadRun 9) (payloadRun 8) = true :=
  ⟨⟨inv_of_check (by decide +kernel), inv_of_check (by decide +kernel)⟩, by decide +kernel⟩

end Sys2Proof.Tests
end

namespace Sys2Proof.Machine

/-! ### What every command keeps, and what it does to the flags and the error registers -/

/-- The state that no command writes: ARG, IBUF and IN_LEN, the capability registers, PEND, the bus outputs and the
script of events. -/
def hostState (s : State) : Dword × Input × Config × Pend × BusReply × List HostEvent :=
  (s.arg, s.input, s.cfg, s.pend, s.bus, s.script)

/-- The validity flags after a command (10_state.md R34). -/
def flagsAfter (i : Instr) (raised : Bool) (f : Flags) : Flags :=
  { tree := treeFlagAfter i raised f.tree
    codes := codesFlagAfter i raised f.codes
    trie := trieFlagAfter i raised f.trie }

/-- The error registers after a command (60_exceptions.md R133, R137; 44_control.md R127). -/
def errsAfter (i : Instr) (s t : State) : Prop :=
  (raisedIn s t = false ∧ t.errs = if i = .clear then { err := .none, cmd := 0, info := 0 } else s.errs) ∨
    (raisedIn s t = true ∧ ∃ r : Raise, mayRaise i r.kind = true ∧ t.errs = recorded s r.kind r.info)

/-- What a command does to the state outside its tables, registers and buffers. -/
structure CommandEffect (i : Instr) (s t : State) : Prop where
  host : hostState t = hostState s
  flags : t.flags = flagsAfter i (raisedIn s t) s.flags
  errs : errsAfter i s t

section CommandEffect

variable {i : Instr} {s t : State} {spoil : Nat → State → State}

/-- A command that completes. -/
theorem CommandEffect.completed (hc : i ≠ .clear) (hd : t.draws = s.draws) (hh : hostState t = hostState s)
    (he : t.errs = s.errs) (hf : t.flags = flagsAfter i false s.flags) : CommandEffect i s t := by
  have hr := raisedIn_of_draws hd
  exact ⟨hh, by rw [hr, hf], .inl ⟨hr, by rw [if_neg hc, he]⟩⟩

/-- A command that raises: what its Writes line leaves of the flags is what the flags are. -/
theorem CommandEffect.raised {r : Raise} (hk : mayRaise i r.kind = true)
    (hh : hostState (spoil s.draws s) = hostState s) (he : (spoil s.draws s).errs = s.errs)
    (hf : (spoil s.draws s).flags = flagsAfter i true s.flags) : CommandEffect i s (raisedState spoil s r) := by
  have hp : (spoil s.draws s).pend = s.pend := congrArg (fun x => x.2.2.2.1) hh
  refine ⟨?_, ?_, .inr ⟨raisedIn_raisedState spoil s r, r, hk, raisedState_errs r he hp⟩⟩
  · rw [← hh]
    simp [hostState, raisedState]
  · rw [raisedIn_raisedState, ← hf]
    simp [raisedState]

/-- An output command. -/
theorem CommandEffect.output {kinds : Raise → Prop} {run : Run Writer} (h : WriterCases spoil s t kinds run)
    (hc : i ≠ .clear) (hf : ∀ b, flagsAfter i b s.flags = s.flags)
    (hk : ∀ r, kinds r → mayRaise i r.kind = true)
    (hs : hostState (spoil s.draws s) = hostState s) (he : (spoil s.draws s).errs = s.errs)
    (hsf : (spoil s.draws s).flags = s.flags) : CommandEffect i s t := by
  rcases h with ⟨w, -, rfl⟩ | ⟨r, -, hr, rfl⟩
  · exact .completed hc rfl rfl rfl (hf false).symm
  · exact .raised (hk r hr) hs he (hsf.trans (hf true).symm)

/-- DEC_SYM or DECODE. -/
theorem CommandEffect.decoding {run : Run DecodeWork} (h : DecodeCases spoil s t run) (hc : i ≠ .clear)
    (hf : ∀ b, flagsAfter i b s.flags = s.flags)
    (hk : ∀ k, k = .sequence ∨ k = .malformedContainer ∨ k = .overflow → mayRaise i k = true)
    (hs : hostState (spoil s.draws s) = hostState s) (he : (spoil s.draws s).errs = s.errs)
    (hsf : (spoil s.draws s).flags = s.flags) : CommandEffect i s t := by
  rcases h with ⟨w, -, rfl⟩ | ⟨r, -, hr, rfl⟩
  · exact .completed hc rfl rfl rfl (hf false).symm
  · exact .raised (hk _ hr) hs he (hsf.trans (hf true).symm)

end CommandEffect

theorem exec_effect {i : Instr} {s t : State} (h : exec i s = .next t) : CommandEffect i s t := by
  cases i with
  | nop => rw [execNop_cases h]; exact .completed nofun rfl rfl rfl rfl
  | clear =>
    rw [execClear_cases h]
    have hr : raisedIn s (clearedState s) = false := raisedIn_of_draws rfl
    exact ⟨rfl, by rw [hr]; rfl, .inl ⟨hr, rfl⟩⟩
  | freqInc =>
    rcases execFreqInc_cases h with ⟨_, _, rfl⟩ | ⟨r, he, rfl⟩
    · exact .completed nofun rfl rfl rfl rfl
    · exact .raised (by rw [(countSymbol_error he).1]; rfl) rfl rfl rfl
  | freqScan =>
    rcases execFreqScan_cases h with ⟨_, _, rfl⟩ | ⟨r, he, rfl⟩
    · exact .completed nofun rfl rfl rfl rfl
    · exact .raised (by rw [countSymbols_error he]; rfl) rfl rfl rfl
  | build =>
    rcases execBuild_cases h with ⟨_, _, rfl⟩ | ⟨r, he, rfl⟩
    · exact .completed nofun rfl rfl rfl rfl
    · exact .raised (by rcases buildTree_error he with hk | hk <;> rw [hk] <;> rfl) rfl rfl rfl
  | walk =>
    rcases execWalk_cases h with ⟨_, _, _, rfl⟩ | ⟨_, rfl⟩ | ⟨r, _, he, rfl⟩
    · exact .completed nofun rfl rfl rfl rfl
    · exact .raised rfl rfl rfl rfl
    · exact .raised (by rw [treeLengths_error he]; rfl) rfl rfl rfl
  | canon =>
    rcases execCanon_cases h with ⟨_, _, rfl⟩ | ⟨r, he, rfl⟩
    · exact .completed nofun rfl rfl rfl rfl
    · exact .raised (by rcases buildCanon_error he with hk | hk | hk <;> rw [hk] <;> rfl) rfl rfl rfl
  | putBits =>
    exact .output (execPutBits_cases h) nofun (fun _ => rfl) (fun r hk => by rw [hk]; rfl) rfl rfl rfl
  | putByte =>
    exact .output (execPutByte_cases h) nofun (fun _ => rfl)
      (fun r hk => by rcases hk with hk | hk <;> rw [hk] <;> rfl) rfl rfl rfl
  | flush =>
    exact .output (execFlush_cases h) nofun (fun _ => rfl) (fun r hk => by rw [hk]; rfl) rfl rfl rfl
  | encSym =>
    exact .output (execEncSym_cases h) nofun (fun _ => rfl)
      (fun r hk => by rcases hk with hk | hk | hk <;> rw [hk] <;> rfl) rfl rfl rfl
  | encScan =>
    exact .output (execEncScan_cases h) nofun (fun _ => rfl)
      (fun r hk => by rcases hk with hk | hk | hk <;> rw [hk] <;> rfl) rfl rfl rfl
  | hdrWrite =>
    exact .output (execHdrWrite_cases h) nofun (fun _ => rfl)
      (fun r hk => by rcases hk with hk | hk <;> rw [hk] <;> rfl) rfl rfl rfl
  | getBits =>
    rcases execGetBits_cases h with ⟨_, _, _, rfl⟩ | ⟨_, _, rfl, rfl⟩
    · exact .completed nofun rfl rfl rfl rfl
    · exact .raised rfl rfl rfl rfl
  | getByte =>
    rcases execGetByte_cases h with ⟨_, _, _, _, rfl⟩ | ⟨_, rfl⟩ | ⟨_, _, rfl⟩
    · exact .completed nofun rfl rfl rfl rfl
    · exact .raised rfl rfl rfl rfl
    · exact .raised rfl rfl rfl rfl
  | hdrRead =>
    rcases execHdrRead_cases h with ⟨_, _, _, _, rfl⟩ | ⟨_, rfl⟩ | ⟨r, _, he, rfl⟩
    · exact .completed nofun rfl rfl rfl rfl
    · exact .raised rfl rfl rfl rfl
    · exact .raised (by rcases readHeader_error he with hk | hk <;> rw [hk] <;> rfl) rfl rfl rfl
  | trieBuild =>
    rcases execTrieBuild_cases h with ⟨_, _, _, rfl⟩ | ⟨_, rfl⟩ | ⟨r, _, he, rfl⟩
    · exact .completed nofun rfl rfl rfl rfl
    · exact .raised rfl rfl rfl rfl
    · exact .raised (by rw [buildTrie_error he]; rfl) rfl rfl rfl
  | decSym =>
    exact .decoding (execDecSym_cases h) nofun (fun _ => rfl) (by rintro _ (rfl | rfl | rfl) <;> rfl) rfl rfl rfl
  | decode =>
    exact .decoding (execDecode_cases h) nofun (fun _ => rfl) (by rintro _ (rfl | rfl | rfl) <;> rfl) rfl rfl rfl

/-- Settles O23: `hostState` is kept by every command, completing or raising. -/
theorem commandsKeepHostState : Obligations.CommandsKeepHostState := by
  intro i s t h
  have hh := (exec_effect h).host
  simpa only [hostState, Prod.mk.injEq] using hh

/-! ### The flags after a host write -/

/-- F_TREE falls at a FREQ word, F_CODES and F_TRIE at a LEN word; no other write changes a flag (20_memory.md R53). -/
theorem writeTarget_flags (t : BusTarget) (w : Word) (s : State) :
    (writeTarget t w s).flags =
      if freqTarget t = true then clearTreeFlag s.flags
      else if lenTarget t = true then clearCodeFlags s.flags
      else s.flags := by
  cases t with
  | cmd => simp only [writeTarget, writeCmd]; split <;> rfl
  | _ => rfl

theorem hostWrite_flags (a : Addr) (w : Word) (s : State) :
    (hostWrite a w s).flags =
      if s.pend.valid = false ∧ freqTarget (busTarget a) = true then clearTreeFlag s.flags
      else if s.pend.valid = false ∧ lenTarget (busTarget a) = true then clearCodeFlags s.flags
      else s.flags := by
  cases hv : s.pend.valid with
  | true => simp [hostWrite_busy a w hv]
  | false => simp only [hostWrite_idle a w hv, writeTarget_flags, true_and]

/-- Settles O22: the commands by `exec_effect`, the host's writes by the target they select, reset by its values. -/
theorem validityFlags : Obligations.ValidityFlags := by
  refine ⟨fun i s t h => ?_, fun s a w => hostWrite_flags a w s, fun _ _ => rfl⟩
  rw [(exec_effect h).flags]
  exact ⟨rfl, rfl, rfl⟩

end Sys2Proof.Machine

namespace Sys2Proof.Machine

/-! ### The cases of a step -/

/-- The sequencer is idle, or an illegal word raises, or the pending command runs (60_exceptions.md R128). -/
theorem sequencerStep_cases {s t : State} (h : sequencerStep s = .next t) :
    t = s ∨ (∃ info, t = endCommand (raiseIllegal info s)) ∨
      ∃ i u, s.pend.valid = true ∧ decode s.pend.word = .ok i ∧ exec i s = .next u ∧ t = endCommand u := by
  unfold sequencerStep at h
  split at h
  · next hv =>
    unfold executeWord at h
    cases hd : decode s.pend.word with
    | error e =>
      rw [hd] at h
      exact .inr (.inl ⟨_, (next_inj h).symm⟩)
    | ok i =>
      rw [hd] at h
      cases he : exec i s with
      | next u =>
        simp only [he] at h
        exact .inr (.inr ⟨i, u, hv, rfl, he, (next_inj h).symm⟩)
      | fault f => simp only [he] at h; cases h
      | refused r => simp only [he] at h; cases h
  · exact .inl (next_inj h).symm

/-- What the beginning of an event, a host access, the sequencer and a reset edge keep, a step keeps. -/
theorem step_keeps {P : State → Prop} (hb : ∀ es s, P s → P (beginEvent es s))
    (ha : ∀ a s, P s → P (hostAccess a s)) (hq : ∀ s t, P s → sequencerStep s = .next t → P t)
    (hr : ∀ p s, P s → P (resetEdge p s)) {s t : State} (h : P s) (e : step s = .next t) : P t := by
  unfold step at e
  split at e
  · exact hq _ _ (hb _ _ h) e
  · next ev rest _ =>
    have h' := hb rest s h
    cases ev with
    | access a => rw [← next_inj e]; exact ha a _ h'
    | complete => exact hq _ _ h' e
    | resetEdge p => rw [← next_inj e]; exact hr p _ h'

/-! ### The invariant of the registers and buffers -/

/-- The state that `State.Inv` speaks of. -/
def invState (s : State) : Config × Pend × ErrRegs × Input × Reader × Writer × Canon :=
  (s.cfg, s.pend, s.errs, s.input, s.reader, s.writer, s.canon)

theorem State.Inv.of_state {s t : State} (h : s.Inv) (e : invState t = invState s) : t.Inv := by
  cases s
  cases t
  simp only [invState, Prod.mk.injEq] at e
  obtain ⟨rfl, rfl, rfl, rfl, rfl, rfl, rfl⟩ := e
  exact { h with }

theorem resetOf_inv {c : Config} (hc : c.wf = true) (d n : Nat) : (State.resetOf c d n).Inv where
  cfg_wf := hc
  ibuf_wf := rfl
  ibuf_below := rfl
  obuf_wf := rfl
  obuf_below := rfl
  in_len := Nat.zero_le _
  in_pos := Nat.zero_le _
  out_len := Nat.zero_le _
  hist_zero := symGet_tblOf _ _
  err_none := fun _ => ⟨rfl, rfl⟩
  err_busy := fun _ => rfl
  pend_clear := fun h => absurd rfl h
  padded := .inl rfl

theorem resetEdge_inv (p : Option BusAccess) {s : State} (h : s.Inv) : (resetEdge p s).Inv :=
  (resetOf_inv h.cfg_wf s.draws (s.draws + 1)).of_state rfl

/-! #### Host writes -/

theorem putLane_wf {m : Memory} (cap k : Nat) (v : Byte) (h : Memory.wf m = true) :
    Memory.wf (putLane cap k v m) = true := by
  unfold putLane
  split
  · exact Memory.wf_memPut k v h
  · exact h

theorem putLane_below {m : Memory} {cap : Nat} (k : Nat) (v : Byte) (h : cellsBelow m cap = true) :
    cellsBelow (putLane cap k v m) cap = true := by
  unfold putLane
  split
  · next hk => exact cellsBelow_memPut v h hk
  · exact h

theorem writeIbuf_inv (j : Nat) (w : Word) {s : State} (h : s.Inv) : (writeIbuf j w s).Inv :=
  { h with
    ibuf_wf := putLane_wf _ _ _ (putLane_wf _ _ _ (putLane_wf _ _ _ (putLane_wf _ _ _ h.ibuf_wf)))
    ibuf_below := putLane_below _ _ (putLane_below _ _ (putLane_below _ _ (putLane_below _ _ h.ibuf_below))) }

/-- A write to CMD while an error is recorded is accepted for CLEAR alone (60_exceptions.md R128). -/
theorem writeCmd_inv (w : Word) {s : State} (h : s.Inv) : (writeCmd w s).Inv := by
  unfold writeCmd
  split
  · next hw =>
    exact { h with
      pend_clear := fun he _ _ => hw.resolve_left he
      padded := h.padded.imp_right fun ⟨he, _⟩ => ⟨he, fun _ => hw.resolve_left he⟩ }
  · exact h

theorem writeTarget_inv (t : BusTarget) (w : Word) {s : State} (h : s.Inv) : (writeTarget t w s).Inv := by
  cases t with
  | cmd => exact writeCmd_inv w h
  | inLen => exact { h with in_len := clampPosition_le _ _ }
  | inPos => exact { h with in_pos := clampPosition_le _ _ }
  | outLen => exact { h with out_len := clampPosition_le _ _, padded := .inl rfl }
  | ibuf j => exact writeIbuf_inv j.val w h
  | _ => exact h.of_state rfl

/-- A BUSY_WRITE that is recorded finds no error, so the writer's unused bits are 0 (60_exceptions.md R139). -/
theorem raiseBusyWrite_inv (a : Addr) {s : State} (h : s.Inv) : (raiseBusyWrite a s).Inv := by
  unfold raiseBusyWrite recordError
  split
  · next he =>
    exact { h with
      err_none := nofun
      err_busy := fun _ => rfl
      pend_clear := fun _ hb => absurd rfl hb
      padded := .inl (h.padded.resolve_right fun ⟨hn, _⟩ => hn he) }
  · exact h

theorem hostAccess_inv (a : BusAccess) {s : State} (h : s.Inv) : (hostAccess a s).Inv := by
  cases a with
  | read a => exact h.of_state rfl
  | write a w =>
    simp only [hostAccess, hostWrite]
    split
    · exact (raiseBusyWrite_inv a h).of_state rfl
    · exact (writeTarget_inv (busTarget a) w h).of_state rfl

/-! #### The end of a command -/

/-- ERR_CMD and ERR_INFO as `State.Inv` has them (10_state.md R19, R20). -/
structure ErrsOk (e : ErrRegs) : Prop where
  none : e.err = .none → e.cmd = 0 ∧ e.info = 0
  busy : e.err = .busyWrite → e.cmd = 0

theorem State.Inv.errsOk {s : State} (h : s.Inv) : ErrsOk s.errs := ⟨h.err_none, h.err_busy⟩

/-- A raise of a command's own kind leaves the error registers consistent. -/
theorem State.Inv.recorded_ok {s : State} (h : s.Inv) {k : Err} (info : Word) (hn : k ≠ .none)
    (hb : k ≠ .busyWrite) : ErrsOk (recorded s k info) := by
  unfold recorded
  split
  · exact ⟨fun e => absurd e hn, fun e => absurd e hb⟩
  · exact h.errsOk

/-- After a raise an error is recorded (60_exceptions.md R133, R137). -/
theorem recorded_err_ne_none (s : State) {k : Err} (info : Word) (hk : k ≠ .none) :
    (recorded s k info).err ≠ .none := by
  unfold recorded
  split
  · exact hk
  · next h => exact h

theorem mayRaise_ne {i : Instr} {k : Err} (h : mayRaise i k = true) : k ≠ .none ∧ k ≠ .busyWrite := by
  constructor
  · rintro rfl; cases h
  · rintro rfl; cases h

/-- Once BUSY has fallen no command is pending, and the rest of the invariant is what the command left. -/
theorem endCommand_inv {s u : State} (h : s.Inv) (hc : u.cfg = s.cfg) (hi : u.input = s.input)
    (hw : WriterInv s.cfg.obufBytes u.writer) (hp : u.reader.pos.toNat ≤ s.cfg.ibufBytes)
    (hh : symGet u.canon.hist 0 = 0) (he : ErrsOk u.errs)
    (hpad : writerPadded u.writer = true ∨ u.errs.err ≠ .none) : (endCommand u).Inv where
  cfg_wf := by rw [endCommand_cfg, hc]; exact h.cfg_wf
  ibuf_wf := by rw [endCommand_input, hi]; exact h.ibuf_wf
  ibuf_below := by rw [endCommand_input, endCommand_cfg, hi, hc]; exact h.ibuf_below
  obuf_wf := hw.obuf_wf
  obuf_below := by rw [endCommand_cfg, hc]; exact hw.obuf_below
  in_len := by rw [endCommand_input, endCommand_cfg, hi, hc]; exact h.in_len
  in_pos := by rw [endCommand_cfg, hc]; exact hp
  out_len := by rw [endCommand_cfg, hc]; exact hw.out_len
  hist_zero := hh
  err_none := he.none
  err_busy := he.busy
  pend_clear := fun _ _ hv => nomatch hv
  padded := hpad.imp_right fun hn => ⟨hn, fun hv => nomatch hv⟩

theorem decode_clearWord : decode clearWord = .ok .clear := rfl

/-- Before a command runs the writer's unused bits are 0, unless the command is CLEAR (60_exceptions.md R128, R134). -/
theorem State.Inv.padded_or_clear {s : State} (h : s.Inv) {i : Instr} (hv : s.pend.valid = true)
    (hd : decode s.pend.word = .ok i) : writerPadded s.writer = true ∨ i = .clear :=
  h.padded.imp_right fun ⟨_, hc⟩ => by
    rw [hc hv, decode_clearWord] at hd
    exact (Except.ok.inj hd).symm

/-- The error registers after a command, and that they hold an error after a raise. -/
theorem CommandEffect.errs_ok {i : Instr} {s u : State} (e : CommandEffect i s u) (h : s.Inv) :
    ErrsOk u.errs ∧ (raisedIn s u = true → u.errs.err ≠ .none) := by
  rcases e.errs with ⟨hr, he⟩ | ⟨-, r, hk, he⟩
  · refine ⟨?_, fun hr' => absurd hr' (by simp [hr])⟩
    rw [he]
    split
    · exact ⟨fun _ => ⟨rfl, rfl⟩, nofun⟩
    · exact h.errsOk
  · obtain ⟨hn, hb⟩ := mayRaise_ne hk
    rw [he]
    exact ⟨h.recorded_ok _ hn hb, fun _ => recorded_err_ne_none s _ hn⟩

theorem command_inv {i : Instr} {s u : State} (h : s.Inv) (hv : s.pend.valid = true)
    (hd : decode s.pend.word = .ok i) (e : exec i s = .next u) : (endCommand u).Inv := by
  obtain ⟨hw, hp, hh, hpad⟩ := exec_keeps h e
  obtain ⟨hok, hraised⟩ := (exec_effect e).errs_ok h
  obtain ⟨-, hin, hcfg, -⟩ := commandsKeepHostState i s u e
  refine endCommand_inv h hcfg hin hw hp hh hok ?_
  cases hr : raisedIn s u with
  | true => exact .inr (hraised hr)
  | false => exact .inl (hpad (h.padded_or_clear hv hd) hr)

theorem illegal_inv (info : Word) {s : State} (h : s.Inv) : (endCommand (raiseIllegal info s)).Inv := by
  have he : (raiseIllegal info s).errs = recorded s .illegalCommand info := enterError_errs s _
  refine endCommand_inv h (raiseIllegal_cfg s info) (raiseIllegal_input s info) ?_ ?_ ?_ ?_ (.inr ?_)
  · rw [raiseIllegal_writer]; exact h.writerInv
  · rw [raiseIllegal_reader]; exact h.in_pos
  · rw [raiseIllegal_canon]; exact h.hist_zero
  · rw [he]; exact h.recorded_ok info nofun nofun
  · rw [he]; exact recorded_err_ne_none s info nofun

theorem sequencerStep_inv {s t : State} (h : s.Inv) (e : sequencerStep s = .next t) : t.Inv := by
  rcases sequencerStep_cases e with rfl | ⟨info, rfl⟩ | ⟨i, u, hv, hd, hu, rfl⟩
  · exact h
  · exact illegal_inv info h
  · exact command_inv h hv hd hu

theorem step_inv {s t : State} (h : s.Inv) (e : step s = .next t) : t.Inv :=
  step_keeps (P := State.Inv) (fun _ _ h => h.of_state rfl) (fun a _ h => hostAccess_inv a h)
    (fun _ _ h e => sequencerStep_inv h e) (fun p _ h => resetEdge_inv p h) h e

/-- Settles O18: each kind of event keeps the invariant, and a command's own part is `exec_keeps` with `exec_effect`. -/
theorem stepKeepsInv : Obligations.StepKeepsInv := fun _ _ => step_inv

/-! ### The tables that the validity flags vouch for -/

/-- The state that `State.Current` speaks of. -/
def tableState (s : State) :
    Config × Flags × Table Dword 256 × Tree × Table Byte 256 × Canon × Trie :=
  (s.cfg, s.flags, s.freq, s.tree, s.len, s.canon, s.trie)

theorem State.Current.of_tables {s t : State} (h : s.Current) (e : tableState t = tableState s) : t.Current := by
  cases s
  cases t
  simp only [tableState, Prod.mk.injEq] at e
  obtain ⟨rfl, rfl, rfl, rfl, rfl, rfl, rfl⟩ := e
  exact { h with }

/-- With every flag 0 nothing is promised. -/
theorem State.Current.of_noFlags {s : State} (h : s.flags = noFlags) : s.Current where
  tree := fun hf => by rw [h] at hf; cases hf
  codes := fun hf => by rw [h] at hf; cases hf
  trie := fun hf => by rw [h] at hf; cases hf

/-- With F_TREE 0 the tree builder's tables are free. -/
theorem State.Current.of_noTree {s t : State} (h : s.Current) (hf : t.flags = clearTreeFlag s.flags)
    (e : (t.cfg, t.len, t.canon, t.trie) = (s.cfg, s.len, s.canon, s.trie)) : t.Current := by
  simp only [Prod.mk.injEq] at e
  obtain ⟨h1, h2, h3, h4⟩ := e
  refine ⟨fun hc => ?_, fun hc => ?_, fun hc => ?_⟩
  · rw [hf] at hc; cases hc
  · rw [h1, h2, h3]; rw [hf] at hc; exact h.codes hc
  · rw [h2, h3, h4]; rw [hf] at hc ⊢; exact h.trie hc

/-- With F_CODES and F_TRIE 0 the code tables are free. -/
theorem State.Current.of_noCodes {s t : State} (h : s.Current) (hf : t.flags = clearCodeFlags s.flags)
    (e : (t.freq, t.tree) = (s.freq, s.tree)) : t.Current := by
  simp only [Prod.mk.injEq] at e
  obtain ⟨h1, h2⟩ := e
  refine ⟨fun hc => ?_, fun hc => ?_, fun hc => ?_⟩
  · rw [h1, h2]; rw [hf] at hc; exact h.tree hc
  · rw [hf] at hc; cases hc
  · rw [hf] at hc; cases hc

/-! #### Host accesses -/

theorem writeTarget_current (t : BusTarget) (w : Word) {s : State} (h : s.Current) : (writeTarget t w s).Current := by
  cases t with
  | cmd =>
    simp only [writeTarget, writeCmd]
    split
    · exact h.of_tables rfl
    · exact h
  | freqLo sym => exact h.of_noTree rfl rfl
  | freqHi sym => exact h.of_noTree rfl rfl
  | len sym => exact h.of_noCodes rfl rfl
  | _ => exact h.of_tables rfl

theorem hostAccess_current (a : BusAccess) {s : State} (h : s.Current) : (hostAccess a s).Current := by
  cases a with
  | read a => exact h.of_tables rfl
  | write a w =>
    simp only [hostAccess, hostWrite]
    split
    · exact h.of_tables (by simp [tableState])
    · exact (writeTarget_current (busTarget a) w h).of_tables rfl

/-! #### Commands -/

/-- A raise leaves what its Writes line leaves. -/
theorem raisedState_current {spoil : Nat → State → State} {s : State} {r : Raise}
    (h : (spoil s.draws s).Current) : (raisedState spoil s r).Current :=
  h.of_tables (by simp [tableState, raisedState])

section Commands

variable {s t : State} {spoil : Nat → State → State}

theorem WriterCases.current {kinds : Raise → Prop} {run : Run Writer} (c : WriterCases spoil s t kinds run)
    (h : s.Current) (hs : tableState (spoil s.draws s) = tableState s) : t.Current := by
  rcases c with ⟨w, -, rfl⟩ | ⟨r, -, -, rfl⟩
  · exact h.of_tables rfl
  · exact raisedState_current (h.of_tables hs)

theorem DecodeCases.current {run : Run DecodeWork} (c : DecodeCases spoil s t run) (h : s.Current)
    (hs : tableState (spoil s.draws s) = tableState s) : t.Current := by
  rcases c with ⟨w, -, rfl⟩ | ⟨r, -, -, rfl⟩
  · exact h.of_tables rfl
  · exact raisedState_current (h.of_tables hs)

end Commands

theorem buildTree_again {freq : Table Dword 256} {old : Table Node 511} {tree : Tree}
    (h : buildTree freq old = .ok tree) : buildTree freq tree.node = .ok tree := by
  obtain ⟨hb, rfl⟩ := buildable_of_ok h
  rw [buildTree_ok _ hb, builtTree_again old hb]

/-- The table that a completed HDR_READ commits is the one CANON would build from its lengths
(43_decoder_trie_walker.md R120). -/
theorem commitHeader_canon {s : State} {hd : Header} {r : Reader}
    (h : readHeader s.cfg.maxCodeLen s.input s.reader = .ok (hd, r)) :
    buildCanon s.cfg.maxCodeLen (commitHeader s hd r).len s.canon = .ok (commitHeader s hd r).canon := by
  obtain ⟨g, -⟩ := readHeader_eq_ok h
  exact buildCanon_eq_ok.mpr ⟨g.accepted, commitHeader_table g s r⟩

theorem exec_current {i : Instr} {s t : State} (h : s.Current) (e : exec i s = .next t) : t.Current := by
  cases i with
  | nop => rw [execNop_cases e]; exact h
  | clear => rw [execClear_cases e]; exact .of_noFlags rfl
  | freqInc =>
    rcases execFreqInc_cases e with ⟨_, _, rfl⟩ | ⟨_, _, rfl⟩
    · exact h.of_noTree rfl rfl
    · exact raisedState_current (h.of_noTree rfl rfl)
  | freqScan =>
    rcases execFreqScan_cases e with ⟨_, _, rfl⟩ | ⟨_, _, rfl⟩
    · exact h.of_noTree rfl rfl
    · exact raisedState_current (h.of_noTree rfl rfl)
  | build =>
    rcases execBuild_cases e with ⟨_, hb, rfl⟩ | ⟨_, _, rfl⟩
    · exact ⟨fun _ => buildTree_again hb, h.codes, h.trie⟩
    · exact raisedState_current (h.of_noTree rfl rfl)
  | walk =>
    rcases execWalk_cases e with ⟨_, _, _, rfl⟩ | ⟨_, rfl⟩ | ⟨_, _, _, rfl⟩
    · exact h.of_noCodes rfl rfl
    · exact raisedState_current (h.of_noCodes rfl rfl)
    · exact raisedState_current (h.of_noCodes rfl rfl)
  | canon =>
    rcases execCanon_cases e with ⟨_, hc, rfl⟩ | ⟨_, _, rfl⟩
    · exact ⟨h.tree, fun _ => buildCanon_again hc, nofun⟩
    · exact raisedState_current (h.of_noCodes rfl rfl)
  | putBits => exact (execPutBits_cases e).current h rfl
  | putByte => exact (execPutByte_cases e).current h rfl
  | flush => exact (execFlush_cases e).current h rfl
  | encSym => exact (execEncSym_cases e).current h rfl
  | encScan => exact (execEncScan_cases e).current h rfl
  | hdrWrite => exact (execHdrWrite_cases e).current h rfl
  | getBits =>
    rcases execGetBits_cases e with ⟨_, _, _, rfl⟩ | ⟨_, _, _, rfl⟩
    · exact h.of_tables rfl
    · exact raisedState_current (h.of_tables rfl)
  | getByte =>
    rcases execGetByte_cases e with ⟨_, _, _, _, rfl⟩ | ⟨_, rfl⟩ | ⟨_, _, rfl⟩
    · exact h.of_tables rfl
    · exact raisedState_current (h.of_tables rfl)
    · exact raisedState_current (h.of_tables rfl)
  | hdrRead =>
    rcases execHdrRead_cases e with ⟨_, _, _, hr, rfl⟩ | ⟨_, rfl⟩ | ⟨_, _, _, rfl⟩
    · exact ⟨h.tree, fun _ => buildCanon_again (commitHeader_canon hr), nofun⟩
    · exact raisedState_current (h.of_noCodes rfl rfl)
    · exact raisedState_current (h.of_noCodes rfl rfl)
  | trieBuild =>
    rcases execTrieBuild_cases e with ⟨hf, _, hb, rfl⟩ | ⟨_, rfl⟩ | ⟨_, _, _, rfl⟩
    · exact ⟨h.tree, h.codes, fun _ => ⟨hf, buildTrie_again hb⟩⟩
    · exact raisedState_current ⟨h.tree, h.codes, nofun⟩
    · exact raisedState_current ⟨h.tree, h.codes, nofun⟩
  | decSym => exact (execDecSym_cases e).current h rfl
  | decode => exact (execDecode_cases e).current h rfl

theorem sequencerStep_current {s t : State} (h : s.Current) (e : sequencerStep s = .next t) : t.Current := by
  rcases sequencerStep_cases e with rfl | ⟨info, rfl⟩ | ⟨i, u, -, -, hu, rfl⟩
  · exact h
  · exact h.of_tables (by simp [tableState])
  · exact (exec_current h hu).of_tables rfl

theorem step_current {s t : State} (h : s.Current) (e : step s = .next t) : t.Current :=
  step_keeps (P := State.Current) (fun _ _ h => h.of_tables rfl) (fun a _ h => hostAccess_current a h)
    (fun _ _ h e => sequencerStep_current h e) (fun _ _ _ => .of_noFlags rfl) h e

/-- Settles O19: what writes a table or its source clears the flag or has just built the table, and a second build over
its own result changes nothing. -/
theorem stepKeepsFlagsCurrent : Obligations.StepKeepsFlagsCurrent := fun _ _ _ => step_current

end Sys2Proof.Machine

namespace Sys2Proof.Machine

/-! ### Host writes to registers and windows -/

theorem toNat_append_eq_add {m n : Nat} (x : BitVec m) (y : BitVec n) :
    (x ++ y).toNat = x.toNat * 2 ^ n + y.toNat := by
  rw [BitVec.toNat_append, ← Nat.shiftLeft_add_eq_or_of_lt y.isLt, Nat.shiftLeft_eq]

theorem setLow_eq (v : Dword) (w : Word) : setLow v w = BitVec.ofNat 64 (v.toNat / 2 ^ 32 * 2 ^ 32 + w.toNat) := by
  have hv := v.isLt
  have hw := w.isLt
  apply BitVec.eq_of_toNat_eq
  rw [setLow, highHalf, toNat_append_eq_add, BitVec.extractLsb'_toNat, BitVec.toNat_ofNat, Nat.shiftRight_eq_div_pow]
  omega

theorem setHigh_eq (v : Dword) (w : Word) : setHigh v w = BitVec.ofNat 64 (w.toNat * 2 ^ 32 + v.toNat % 2 ^ 32) := by
  have hv := v.isLt
  have hw := w.isLt
  apply BitVec.eq_of_toNat_eq
  rw [setHigh, lowHalf, toNat_append_eq_add, BitVec.extractLsb'_toNat, BitVec.toNat_ofNat, Nat.shiftRight_zero]
  omega

theorem laneOf_zero (w : Word) : laneOf w 0 = w.setWidth 8 := (BitVec.setWidth_eq_extractLsb' (by decide)).symm

/-- Settles O12: the address selects its target, and the written word is the halves put together. -/
theorem registerWrites : Obligations.RegisterWrites := by
  intro s w hv
  simp only [← setLow_eq, ← setHigh_eq, ← laneOf_zero]
  exact ⟨hostWrite_target w nofun hv, hostWrite_target w nofun hv, hostWrite_target w nofun hv,
    hostWrite_target w nofun hv, hostWrite_target w nofun hv, hostWrite_target w nofun hv,
    hostWrite_target w nofun hv, fun x => ⟨hostWrite_target w nofun hv, hostWrite_target w nofun hv⟩,
    fun x => hostWrite_target w nofun hv⟩

/-! ### Registers as the host reads them -/

/-- STATUS as the sum of its fields (10_state.md R18). -/
theorem statusWord_toNat (s : State) :
    (statusWord s).toNat =
      s.pend.valid.toNat + 2 * s.flags.tree.toNat + 2 ^ 2 * s.flags.codes.toNat + 2 ^ 3 * s.flags.trie.toNat +
        2 ^ 4 * (errCode s.errs.err).toNat + 2 ^ 8 * s.writer.cnt.val + 2 ^ 12 * s.reader.left.val := by
  have hc := s.writer.cnt.isLt
  have hl := s.reader.left.isLt
  simp only [statusWord, toNat_append_eq_add, BitVec.toNat_ofBool, BitVec.toNat_ofNat]
  omega

theorem statusWord_bit_zero (s : State) : (statusWord s).getLsbD 0 = s.pend.valid := by
  rw [statusWord, BitVec.getLsbD_append]
  simp

/-- Bits 7:4 of STATUS are the code of the recorded error. -/
theorem statusWord_err (s : State) : (statusWord s).toNat / 2 ^ 4 % 2 ^ 4 = (errCode s.errs.err).toNat := by
  have h1 := s.pend.valid.toNat_lt
  have h2 := s.flags.tree.toNat_lt
  have h3 := s.flags.codes.toNat_lt
  have h4 := s.flags.trie.toNat_lt
  have h5 := (errCode s.errs.err).isLt
  rw [statusWord_toNat]
  omega

theorem errCode_eq_zero_iff (e : Err) : (errCode e).toNat = 0 ↔ e = .none := by
  cases e <;> simp [errCode]

theorem errOut_iff (s : State) : s.errOut = true ↔ (statusWord s).toNat / 2 ^ 4 % 2 ^ 4 ≠ 0 := by
  rw [statusWord_err, ne_eq, errCode_eq_zero_iff, State.errOut, bne_iff_ne]

theorem packWord_toNat (s : State) : (packWord s).toNat = s.writer.acc.toNat + 2 ^ 8 * s.reader.acc.toNat := by
  simp only [packWord, toNat_append_eq_add, BitVec.toNat_ofNat]
  omega

/-- A number below `2^32` is what its word reads as. -/
theorem toNat_ofNat_word {n : Nat} (h : n < 2 ^ 32) : (BitVec.ofNat 32 n).toNat = n := Nat.mod_eq_of_lt h

/-- Settles O60: the address selects its register, STATUS and PACK are the sums of their fields, and the other registers
read zero-extended. -/
theorem registerReads : Obligations.RegisterReads := by
  intro s
  have hnsym := s.canon.nsym.isLt
  have hnnodes := s.tree.nnodes.isLt
  have htnodes := s.trie.tnodes.isLt
  refine ⟨fun hv t ht => ?_, ?_, (statusWord_bit_zero s).symm, errOut_iff s, packWord_toNat s, rfl, rfl, rfl,
    BitVec.toNat_setWidth_of_le (by decide), BitVec.toNat_setWidth_of_le (by decide),
    BitVec.toNat_setWidth_of_le (by decide),
    toNat_ofNat_word (by omega), BitVec.toNat_setWidth_of_le (by decide), ?_, toNat_ofNat_word (by omega),
    toNat_ofNat_word (by omega), fun hc => ?_⟩
  · rw [readData_idle _ hv, busTarget_targetAddr ht]
  · refine (statusWord_toNat s).trans ?_
    cases s.errs.err <;> rfl
  · refine (BitVec.toNat_setWidth_of_le (by decide)).trans ?_
    cases s.tree.root with
    | none => rfl
    | some i => exact Nat.mod_eq_of_lt (by omega)
  · have := (Config.wf_iff _).mp hc
    exact ⟨toNat_ofNat_word (by omega), toNat_ofNat_word (by omega), toNat_ofNat_word (by omega)⟩

end Sys2Proof.Machine

namespace Sys2Proof.Machine

/-! ### The address map -/

/-- Settles O10: the two inverses of the map, and each target's address as four times its word. -/
theorem addressMap : Obligations.AddressMap := by
  refine ⟨fun _ => busTarget_targetAddr, fun _ => targetAddr_busTarget, by decide, fun s => ?_, fun id k => ?_,
    fun t => ?_, fun j => ?_⟩
  all_goals simp only [targetAddr_toNat, targetWord]
  all_goals omega

/-! ### Bytes of the buffer windows -/

theorem laneOf_toNat (w : Word) (k : Nat) : (laneOf w k).toNat = w.toNat / 2 ^ (8 * k) % 2 ^ 8 := by
  rw [laneOf, BitVec.extractLsb'_toNat, Nat.shiftRight_eq_div_pow]

/-- A LEN entry takes bits 7:0 of the word (20_memory.md R49, R52). -/
theorem laneOf_zero_toNat (w : Word) : (laneOf w 0).toNat = w.toNat % 2 ^ 8 := by
  rw [laneOf_toNat, Nat.mul_zero, Nat.pow_zero, Nat.div_one]

theorem wordOfLanes_toNat (lane : Nat → Byte) :
    (wordOfLanes lane).toNat =
      (lane 0).toNat + 2 ^ 8 * (lane 1).toNat + 2 ^ 16 * (lane 2).toNat + 2 ^ 24 * (lane 3).toNat := by
  simp only [wordOfLanes, toNat_append_eq_add]
  omega

/-- The lanes of a word are little-endian (20_memory.md R50). -/
theorem laneOf_wordOfLanes (lane : Nat → Byte) {k : Nat} (hk : k < 4) : laneOf (wordOfLanes lane) k = lane k := by
  apply BitVec.eq_of_toNat_eq
  rw [laneOf_toNat, wordOfLanes_toNat]
  interval_cases k <;> omega

theorem memFind_putLane (cap k n : Nat) (v : Byte) (m : Memory) :
    memFind (putLane cap k v m) n = if n = k ∧ n < cap then some v else memFind m n := by
  unfold putLane
  by_cases hk : k < cap
  · by_cases hn : n = k
    · subst hn
      rw [if_pos hk, if_pos ⟨rfl, hk⟩, memFind_memPut_self]
    · have hc : ¬ (n = k ∧ n < cap) := fun h => hn h.1
      rw [if_pos hk, if_neg hc, memFind_memPut_ne v hn]
  · have hc : ¬ (n = k ∧ n < cap) := by omega
    rw [if_neg hk, if_neg hc]

/-- A lane of an IBUF window write whose byte exists is set (20_memory.md R50). -/
theorem ibufRead_writeIbuf_lane {j k : Nat} (w : Word) {s : State} (hk : k < 4) (h : 4 * j + k < s.cfg.ibufBytes) :
    ibufRead (writeIbuf j w s).input (4 * j + k) = laneOf w k := by
  have hf : memFind (writeIbuf j w s).input.mem (4 * j + k) = some (laneOf w k) := by
    simp only [writeIbuf, memFind_putLane, Nat.add_left_cancel_iff, h, and_true]
    interval_cases k <;> rfl
  rw [ibufRead, hf, Option.getD_some]

/-- Every other byte is kept, and no byte beyond the buffer is set (20_memory.md R50). -/
theorem ibufRead_writeIbuf_other {j n : Nat} (w : Word) {s : State}
    (h : n < 4 * j ∨ 4 * j + 4 ≤ n ∨ s.cfg.ibufBytes ≤ n) :
    ibufRead (writeIbuf j w s).input n = ibufRead s.input n := by
  have hn k (hk : k < 4) : ¬ (n = 4 * j + k ∧ n < s.cfg.ibufBytes) := by omega
  have hf : memFind (writeIbuf j w s).input.mem n = memFind s.input.mem n := by
    simp only [writeIbuf, memFind_putLane]
    rw [if_neg (hn 3 (by decide)), if_neg (hn 2 (by decide)), if_neg (hn 1 (by decide)), if_neg (hn 0 (by decide))]
  rw [ibufRead, hf]
  rfl

/-- Settles O14: the lanes of a word by `laneOf_wordOfLanes`, and a write to the window byte by byte. -/
theorem bufferWindows : Obligations.BufferWindows := by
  intro s j
  have hin k (hk : k < 4) : (readTarget s (.ibuf j)).extractLsb' (8 * k) 8 = ibufSeen s (4 * j.val + k) :=
    laneOf_wordOfLanes (fun k => ibufSeen s (4 * j.val + k)) hk
  have hout k (hk : k < 4) : (readTarget s (.obuf j)).extractLsb' (8 * k) 8 = obufSeen s (4 * j.val + k) :=
    laneOf_wordOfLanes (fun k => obufSeen s (4 * j.val + k)) hk
  refine ⟨hin, fun k hk => ⟨fun hb hl => ?_, fun hb => ?_⟩, fun w hv => ?_⟩
  · rw [hout k hk, obufSeen, if_pos hb, if_pos hl]
  · rw [hout k hk, obufSeen, if_neg (Nat.not_lt.mpr hb)]
  · have ht : BusTarget.ibuf j ≠ .unmapped := nofun
    rw [hostWrite_target w ht hv]
    exact ⟨fun k hk h => ibufRead_writeIbuf_lane w hk h, fun n h => ibufRead_writeIbuf_other w h, rfl, rfl⟩

/-! ### Accesses without effect -/

/-- While BUSY is 1, STATUS reads BUSY = 1 (70_reset_and_hazards.md R157). -/
theorem readBusy_status_bit_zero (s : State) (a : Addr) : (readBusy s .status a).getLsbD 0 = true := by
  rw [readBusy, if_pos rfl, BitVec.getLsbD_append]
  rfl

/-- Settles O8: a read is `hostRead`, and the address of STATUS selects STATUS. -/
theorem readsHaveNoSideEffect : Obligations.ReadsHaveNoSideEffect := by
  refine fun s a => ⟨rfl, fun hv => ?_⟩
  rw [readData, if_pos hv]
  exact readBusy_status_bit_zero s _

/-- Settles O9: such an address selects nothing. -/
theorem unmappedAccessesDoNothing : Obligations.UnmappedAccessesDoNothing := by
  intro s a hv ha
  have ht := busTarget_unmapped ha
  refine ⟨?_, fun w => ?_⟩
  · rw [readData_idle a hv, ht]
    rfl
  · rw [hostWrite_idle a w hv, ht]
    rfl

theorem writeTarget_readOnly {t : BusTarget} (w : Word) (s : State) (h : readOnlyTarget t = true) :
    writeTarget t w s = s := by
  cases t with
  | cmd | argLo | argHi | plenLo | plenHi | inLen | inPos | outLen => cases h
  | freqLo | freqHi | len | ibuf => cases h
  | _ => rfl

/-- Bits 31:25 of a word written to a buffer position are ignored (20_memory.md R49; log 18). -/
theorem writeTarget_position {t : BusTarget} {w w' : Word} (s : State) (ht : t = .inLen ∨ t = .inPos ∨ t = .outLen)
    (hw : w.toNat % 2 ^ 25 = w'.toNat % 2 ^ 25) : writeTarget t w s = writeTarget t w' s := by
  have hc cap := clampPosition_low cap hw
  rcases ht with rfl | rfl | rfl
  · simp only [writeTarget, hc]
  · simp only [writeTarget, writeInPos, hc]
  · simp only [writeTarget, writeOutLen, hc]

/-- Bits 31:8 of a word written to a LEN entry are ignored (20_memory.md R49). -/
theorem writeTarget_len {x : Byte} {w w' : Word} (s : State) (hw : w.toNat % 2 ^ 8 = w'.toNat % 2 ^ 8) :
    writeTarget (.len x) w s = writeTarget (.len x) w' s := by
  have hl : laneOf w 0 = laneOf w' 0 := BitVec.eq_of_toNat_eq (by rw [laneOf_zero_toNat, laneOf_zero_toNat, hw])
  simp only [writeTarget, hl]

/-- Writes with the same effect on their target are the same to the machine. -/
theorem hostWrite_congr {s : State} {t : BusTarget} {w w' : Word} (ht : t ≠ .unmapped) (hv : s.pend.valid = false)
    (h : writeTarget t w s = writeTarget t w' s) : hostWrite (targetAddr t) w s = hostWrite (targetAddr t) w' s := by
  rw [hostWrite_target w ht hv, hostWrite_target w' ht hv, h]

/-- Settles O13: what a read-only target ignores whole, a LEN entry above bit 7 and a buffer position above bit 24. -/
theorem readOnlyWritesDoNothing : Obligations.ReadOnlyWritesDoNothing := by
  intro s w hv
  refine ⟨fun t ht => ?_, fun x w' hw => hostWrite_congr nofun hv (writeTarget_len s hw), fun t w' ht hw => ?_⟩
  · have hm : t ≠ .unmapped := by
      rintro rfl
      cases ht
    rw [hostWrite_target w hm hv, writeTarget_readOnly w s ht]
  · have hm : t ≠ .unmapped := by
      rintro rfl
      simp at ht
    exact hostWrite_congr hm hv (writeTarget_position s ht hw)

/-! ### Layouts of the table windows -/

theorem lowHalf_toNat (v : Dword) : (lowHalf v).toNat = v.toNat % 2 ^ 32 := BitVec.extractLsb'_toNat ..

theorem highHalf_toNat (v : Dword) : (highHalf v).toNat = v.toNat / 2 ^ 32 := by
  have := v.isLt
  rw [highHalf, BitVec.extractLsb'_toNat, Nat.shiftRight_eq_div_pow]
  omega

theorem setLow_toNat (v : Dword) (w : Word) : (setLow v w).toNat = v.toNat / 2 ^ 32 * 2 ^ 32 + w.toNat := by
  rw [setLow, toNat_append_eq_add, highHalf_toNat]

theorem setHigh_toNat (v : Dword) (w : Word) : (setHigh v w).toNat = w.toNat * 2 ^ 32 + v.toNat % 2 ^ 32 := by
  rw [setHigh, toNat_append_eq_add, lowHalf_toNat]

/-- KIND at bit 0, SYM at bits 15:8 (20_memory.md R52). -/
theorem nodeWord_zero_toNat (e : Node) : (nodeWord e 0).toNat = e.isInternal.toNat + 2 ^ 8 * e.sym.toNat := by
  change (0#16 ++ e.sym ++ 0#7 ++ BitVec.ofBool e.isInternal).toNat = _
  simp only [toNat_append_eq_add, BitVec.toNat_ofBool, BitVec.toNat_ofNat]
  omega

/-- CHILD0 at bits 8:0, CHILD1 at bits 24:16 (20_memory.md R52). -/
theorem nodeWord_one_toNat (e : Node) :
    (nodeWord e 1).toNat = (nodeRefBits e.child0).toNat + 2 ^ 16 * (nodeRefBits e.child1).toNat := by
  change (0#7 ++ nodeRefBits e.child1 ++ 0#7 ++ nodeRefBits e.child0).toNat = _
  simp only [toNat_append_eq_add, BitVec.toNat_ofNat]
  omega

theorem trieWord_toNat (e : TrieEntry) :
    (trieWord e).toNat =
      (nodeRefBits e.child0).toNat + 2 ^ 9 * (nodeRefBits e.child1).toNat + 2 ^ 18 * e.sym.toNat +
        2 ^ 26 * e.isLeaf.toNat := by
  simp only [trieWord, toNat_append_eq_add, BitVec.toNat_ofBool, BitVec.toNat_ofNat]
  omega

theorem readTarget_node {s : State} {id : NodeId} (k : Fin 4) (h : id.val < s.tree.nnodes.val) :
    readTarget s (.node id k) = nodeWord (tblGet s.tree.node id) k := by
  simp only [readTarget, nodeSeen, if_pos h]

theorem readTarget_trie {s : State} {t : NodeId} (h : t.val < s.trie.tnodes.val) :
    readTarget s (.trie t) = trieWord (tblGet s.trie.entry t) := by
  simp only [readTarget, trieSeen, if_pos h]

theorem codeSeen_table {s : State} (x : Byte) (h : s.canon.nsym ≠ 0) : codeSeen s x = symGet s.canon.code x := if_neg h

theorem histSeen_table {s : State} {x : Byte} (h : s.canon.nsym ≠ 0) (hx : x ≠ 0) :
    histSeen s x = symGet s.canon.hist x := by
  rw [histSeen, if_neg h, histAt, if_neg hx]

/-- `HIST[0]` reads 0 in every state (10_state.md R41). -/
theorem histSeen_zero (s : State) : histSeen s 0 = 0 := ite_self 0

theorem readTarget_hist_toNat (s : State) (x : Byte) : (readTarget s (.hist x)).toNat = (histSeen s x).val :=
  toNat_ofNat_word (by omega)

theorem symsSeen_written {s : State} {x : Byte} (h : x.toNat < s.canon.symsWritten.val) :
    symsSeen s x = symGet s.canon.syms x := if_pos h

/-- Settles O11: each window's word by its own layout, on the entries whose values are specified. -/
theorem windowLayouts : Obligations.WindowLayouts := by
  intro s
  refine ⟨fun x => ⟨lowHalf_toNat _, highHalf_toNat _, BitVec.toNat_setWidth_of_le (by decide),
      fun hn => ⟨?codeLo, ?codeHi, fun hx => ?hist⟩, fun hw => ?syms,
      fun hc hf hx => Nat.lt_of_lt_of_le hx (nsym_le_symsWritten hc hf)⟩,
    ?histZero, fun id hi => ?node, fun t ht => ?trie,
    ⟨lowHalf_toNat _, highHalf_toNat _, lowHalf_toNat _, highHalf_toNat _, lowHalf_toNat _, highHalf_toNat _⟩,
    fun x w => ⟨?lenWrite, ?freqLoWrite, ?freqHiWrite,
      fun y hy => ⟨symGet_symSet_ne _ _ hy.symm, symGet_symSet_ne _ _ hy.symm⟩⟩⟩
  case codeLo =>
    rw [← codeSeen_table x hn]
    exact lowHalf_toNat _
  case codeHi =>
    rw [← codeSeen_table x hn]
    exact highHalf_toNat _
  case hist => rw [readTarget_hist_toNat, histSeen_table hn hx]
  case syms =>
    rw [← symsSeen_written hw]
    exact BitVec.toNat_setWidth_of_le (by decide)
  case histZero =>
    simp only [readTarget, histSeen_zero]
    rfl
  case node =>
    simp only [readTarget_node _ hi]
    exact ⟨nodeWord_zero_toNat _, nodeWord_one_toNat _, lowHalf_toNat _, highHalf_toNat _⟩
  case trie =>
    rw [readTarget_trie ht]
    exact trieWord_toNat _
  case lenWrite => simp only [writeTarget, writeLen, symGet_symSet_self, laneOf_zero_toNat]
  case freqLoWrite => simp only [writeTarget, writeFreq, symGet_symSet_self, setLow_toNat]
  case freqHiWrite => simp only [writeTarget, writeFreq, symGet_symSet_self, setHigh_toNat]

end Sys2Proof.Machine

namespace Sys2Proof.Machine

open Sys2Proof.Laws

/-! ### A word by its fields -/

/-- Words with the same fields are equal (30_encoding.md R61). -/
theorem word_ext {v w : Word} (hr : reservedField v = reservedField w) (ha : operandField v = operandField w)
    (ho : opField v = opField w) : v = w := by
  rw [word_eq_fields v, word_eq_fields w, hr, ha, ho]

theorem word_eq_iff (v w : Word) :
    v = w ↔ reservedField v = reservedField w ∧ operandField v = operandField w ∧ opField v = opField w :=
  ⟨fun h => by simp only [h, and_self], fun ⟨hr, ha, ho⟩ => word_ext hr ha ho⟩

theorem reservedField_and (v w : Word) : reservedField (v &&& w) = reservedField v &&& reservedField w :=
  BitVec.extractLsb'_and

theorem operandField_and (v w : Word) : operandField (v &&& w) = operandField v &&& operandField w :=
  BitVec.extractLsb'_and

theorem opField_and (v w : Word) : opField (v &&& w) = opField v &&& opField w :=
  BitVec.extractLsb'_and

/-! ### The decoder by its checks -/

theorem decode_of_unassigned {w : Word} (h : assigned (opField w) (operandField w) = none) :
    decode w = .error .unassignedOp := by
  simp only [decode, h]

/-- The checks that follow the one of the opcode, in their order (30_encoding.md R65). -/
theorem decode_of_assigned {w : Word} {f : Format} {i : Instr}
    (h : assigned (opField w) (operandField w) = some (f, i)) :
    decode w = if reservedField w ≠ 0 then .error .reservedNotZero
      else if operandLegal f (operandField w) then .ok i else .error .operandOutOfRange := by
  simp only [decode, h]

theorem decode_ok_iff (w : Word) (i : Instr) :
    decode w = .ok i ↔ ∃ f, assigned (opField w) (operandField w) = some (f, i) ∧ reservedField w = 0 ∧
      operandLegal f (operandField w) = true := by
  constructor
  · intro h
    cases ha : assigned (opField w) (operandField w) with
    | none => rw [decode_of_unassigned ha] at h; cases h
    | some p =>
      obtain ⟨f, j⟩ := p
      rw [decode_of_assigned ha] at h
      split at h
      · cases h
      · next hr =>
        split at h
        · next hl =>
          cases h
          exact ⟨f, rfl, not_not.mp hr, hl⟩
        · cases h
  · rintro ⟨f, ha, hr, hl⟩
    rw [decode_of_assigned ha, if_neg (not_not.mpr hr), if_pos hl]

/-- The operands that a format forbids (30_encoding.md R62, R65 item 3). -/
theorem operandLegal_iff (f : Format) (a : Byte) :
    operandLegal f a = true ↔ ¬((f = .noOperand ∧ a ≠ 0) ∨ (f = .bitCount ∧ 64 < a.toNat)) := by
  cases f with
  | noOperand => simp [operandLegal]
  | symbol => simp [operandLegal]
  | bitCount =>
    simp only [operandLegal, decide_eq_true_iff]
    simp [maxBitCount]

/-- A row's checks of the operand, by its mask and by the bound on a bit count, are those of its format. -/
theorem operandLegal_iff_row (f : Format) (a : Byte) :
    ((f = .noOperand → a = 0) ∧ (f != .bitCount || decide (a.toNat ≤ maxBitCount)) = true) ↔
      operandLegal f a = true := by
  cases f with
  | noOperand => simp [operandLegal]
  | symbol => simp [operandLegal]
  | bitCount => simp [operandLegal]

/-! ### The opcode map and the opcode table -/

/-- The command that the map gives for an opcode has that opcode. -/
theorem opcodeOf_assigned {op a : Byte} {f : Format} {i : Instr} (h : assigned op a = some (f, i)) :
    opcodeOf i = op := by
  unfold assigned at h
  split at h <;> cases h <;> exact BitVec.eq_of_toNat_eq (Eq.symm ‹op.toNat = _›)

/-- The command that the map gives carries a legal operand unchanged. -/
theorem operandOf_assigned {op a : Byte} {f : Format} {i : Instr} (h : assigned op a = some (f, i))
    (hl : operandLegal f a = true) : wellFormed i = true ∧ operandOf i = a := by
  unfold assigned at h
  split at h <;> cases h <;> simp_all [operandLegal, wellFormed, operandOf]

/-- The map gives for a row's opcode the row's format and command (30_encoding.md R64). -/
theorem row_assigned {r : OpcodeRow} (hr : r ∈ opcodeTable) (a : Byte) :
    ∃ i, assigned (opField r.pattern) a = some (r.format, i) ∧ mnemonicOf i = r.mnemonic := by
  fin_cases hr <;> exact ⟨_, rfl, rfl⟩

theorem opcodeOf_mem (i : Instr) : opcodeOf i ∈ opcodeTable.map fun r => opField r.pattern := by
  cases i <;> simp [opcodeOf, opcodeTable, opField]

/-- Every assigned opcode has its row. -/
theorem row_of_assigned {op a : Byte} {f : Format} {i : Instr} (h : assigned op a = some (f, i)) :
    ∃ r ∈ opcodeTable, opField r.pattern = op ∧ r.format = f := by
  obtain ⟨r, hr, ho⟩ := List.mem_map.mp (opcodeOf_mem i)
  rw [opcodeOf_assigned h] at ho
  obtain ⟨j, hj, -⟩ := row_assigned hr a
  rw [ho, h] at hj
  cases hj
  exact ⟨r, hr, ho, rfl⟩

/-- The rows have different opcodes (30_encoding.md R64). -/
theorem row_eq_of_opField {r r' : OpcodeRow} (hr : r ∈ opcodeTable) (hr' : r' ∈ opcodeTable)
    (h : opField r.pattern = opField r'.pattern) : r = r' :=
  List.inj_on_of_nodup_map (f := fun r : OpcodeRow => opField r.pattern) (by decide) hr hr' h

/-- A row's mask selects RSV and OP, and for format N also A; its pattern has RSV and A 0. -/
theorem row_fields : ∀ r ∈ opcodeTable,
    reservedField r.mask = BitVec.allOnes 16 ∧
    operandField r.mask = (if r.format = .noOperand then BitVec.allOnes 8 else 0#8) ∧
    opField r.mask = BitVec.allOnes 8 ∧ reservedField r.pattern = 0 ∧ operandField r.pattern = 0 := by
  decide

/-- A row matches the words with its opcode, RSV 0, and an operand that its format allows (30_encoding.md R66). -/
theorem rowMatches_iff {r : OpcodeRow} (hr : r ∈ opcodeTable) (w : Word) :
    rowMatches r w = true ↔
      opField r.pattern = opField w ∧ reservedField w = 0 ∧ operandLegal r.format (operandField w) = true := by
  obtain ⟨hmr, hma, hmo, hpr, hpa⟩ := row_fields r hr
  have hmask : w &&& r.mask = r.pattern ↔ opField r.pattern = opField w ∧ reservedField w = 0 ∧
      (r.format = .noOperand → operandField w = 0) := by
    rw [word_eq_iff, reservedField_and, operandField_and, opField_and, hmr, hma, hmo, hpr, hpa,
      BitVec.and_allOnes, BitVec.and_allOnes, eq_comm (a := opField w)]
    by_cases hf : r.format = .noOperand
    · rw [if_pos hf, BitVec.and_allOnes]
      tauto
    · rw [if_neg hf, BitVec.and_zero]
      tauto
  rw [rowMatches, Bool.and_eq_true, beq_iff_eq, hmask, and_assoc, and_assoc, operandLegal_iff_row]

/-! ### The round trip -/

theorem encodingShape : ∀ i, EncodingShape.Statement i
  | .nop => EncodingShape.nop
  | .clear => EncodingShape.clear
  | .freqInc sym => EncodingShape.freqInc sym
  | .freqScan => EncodingShape.freqScan
  | .build => EncodingShape.build
  | .walk => EncodingShape.walk
  | .canon => EncodingShape.canon
  | .putBits n => EncodingShape.putBits n
  | .putByte byte => EncodingShape.putByte byte
  | .flush => EncodingShape.flush
  | .encSym sym => EncodingShape.encSym sym
  | .encScan => EncodingShape.encScan
  | .hdrWrite => EncodingShape.hdrWrite
  | .getBits n => EncodingShape.getBits n
  | .getByte => EncodingShape.getByte
  | .hdrRead => EncodingShape.hdrRead
  | .trieBuild => EncodingShape.trieBuild
  | .decSym => EncodingShape.decSym
  | .decode => EncodingShape.decode

theorem decode_encode {i : Instr} (h : wellFormed i = true) : decode (encode i) = .ok i := by
  obtain ⟨-, -, -, hdec⟩ := encodingShape i
  exact hdec h

theorem encode_of_decode {w : Word} {i : Instr} (h : decode w = .ok i) : wellFormed i = true ∧ encode i = w := by
  obtain ⟨f, ha, hr, hl⟩ := (decode_ok_iff w i).mp h
  obtain ⟨hwf, harg⟩ := operandOf_assigned ha hl
  refine ⟨hwf, word_ext ?_ ?_ ?_⟩
  · rw [reservedField_encode, hr]
  · rw [operandField_encode, harg]
  · rw [opField_encode, opcodeOf_assigned ha]

/-- Settles O1: the fields of a command's word one way, and the checks that a decoded word has passed the other way. -/
theorem decodeAndEncodeAgree : Obligations.DecodeAndEncodeAgree :=
  ⟨fun _ => decode_encode, fun _ _ => encode_of_decode⟩

/-! ### Rows and decoded words -/

/-- A word that a row matches decodes to the row's command. -/
theorem decode_of_rowMatches {r : OpcodeRow} {w : Word} (hr : r ∈ opcodeTable) (h : rowMatches r w = true) :
    ∃ i, decode w = .ok i ∧ mnemonicOf i = r.mnemonic := by
  obtain ⟨hop, hrsv, hl⟩ := (rowMatches_iff hr w).mp h
  obtain ⟨i, ha, hname⟩ := row_assigned hr (operandField w)
  rw [hop] at ha
  exact ⟨i, (decode_ok_iff w i).mpr ⟨_, ha, hrsv, hl⟩, hname⟩

/-- A word that decodes to a command has a row. -/
theorem rowMatches_of_decode {w : Word} {i : Instr} (h : decode w = .ok i) :
    ∃ r ∈ opcodeTable, rowMatches r w = true := by
  obtain ⟨f, ha, hrsv, hl⟩ := (decode_ok_iff w i).mp h
  obtain ⟨r, hr, hop, rfl⟩ := row_of_assigned ha
  exact ⟨r, hr, (rowMatches_iff hr w).mpr ⟨hop, hrsv, hl⟩⟩

/-- Settles O2: a match is the decoder's checks passed, and no two rows share an opcode. -/
theorem everyWordMatchesOneRowOrIsIllegal : Obligations.EveryWordMatchesOneRowOrIsIllegal := by
  refine fun w => ⟨fun r hr => decode_of_rowMatches hr, fun r hr r' hr' h h' => ?_, fun hno => ?_⟩
  · obtain ⟨hop, -, -⟩ := (rowMatches_iff hr w).mp h
    obtain ⟨hop', -, -⟩ := (rowMatches_iff hr' w).mp h'
    exact row_eq_of_opField hr hr' (hop.trans hop'.symm)
  · cases hd : decode w with
    | error e => exact ⟨e, rfl⟩
    | ok i =>
      obtain ⟨r, hr, hm⟩ := rowMatches_of_decode hd
      rw [hno r hr] at hm
      cases hm

/-! ### Illegal words -/

/-- An opcode without a row is unassigned (30_encoding.md R65 item 1). -/
theorem decode_of_no_row {w : Word} (h : ∀ r ∈ opcodeTable, opField r.pattern ≠ opField w) :
    decode w = .error .unassignedOp := by
  refine decode_of_unassigned (Option.eq_none_iff_forall_ne_some.mpr fun ⟨f, i⟩ ha => ?_)
  obtain ⟨r, hr, hop, -⟩ := row_of_assigned ha
  exact h r hr hop

/-- A pending illegal word raises and ends, with no other effect (30_encoding.md R65; 60_exceptions.md R133). -/
theorem sequencerStep_illegal {s : State} {w : Word} {e : Illegal} (hp : s.pend = { valid := true, word := w })
    (hd : decode w = .error e) :
    sequencerStep s = .next { s with
      pend := { valid := false, word := w }
      errs := recorded s .illegalCommand (illegalInfo e) } := by
  have hrun : executeWord s = .next (raiseIllegal (illegalInfo e) s) := by
    simp only [executeWord, hp, hd]
  simp [sequencerStep, hrun, hp, finishCommand, endCommand, raiseIllegal, enterError_eq, recorded]

/-- Settles O3: the decoder's checks in their order, each read off the row of the word's opcode. -/
theorem illegalWordsRaise : Obligations.IllegalWordsRaise := by
  refine fun w => ⟨decode_of_no_row, fun r hr hop => ?_, fun s e => sequencerStep_illegal, rfl, rfl, rfl⟩
  obtain ⟨i, ha, -⟩ := row_assigned hr (operandField w)
  rw [hop] at ha
  rw [decode_of_assigned ha]
  refine ⟨fun hrsv => if_pos hrsv, fun hrsv hl => ?_, fun hrsv hl => ⟨i, ?_⟩⟩
  · rw [if_neg (not_not.mpr hrsv), if_neg fun h => (operandLegal_iff _ _).mp h hl]
  · rw [if_neg (not_not.mpr hrsv), if_pos ((operandLegal_iff _ _).mpr hl)]

/-! ### Sample words -/

/-- Settles O4: the decoder run on each word. -/
theorem sampleWordsDecode : Obligations.SampleWordsDecode :=
  ⟨rfl, rfl, rfl, rfl, rfl, rfl, rfl, rfl, rfl, rfl, rfl⟩

end Sys2Proof.Machine

namespace Sys2Proof.Machine

/-! ### A raise as an update of the state -/

/-- The whole state after a raise, for a Writes line without the error registers and PEND. -/
theorem raisedState_eq {spoil : Nat → State → State} {s : State} (r : Raise)
    (he : (spoil s.draws s).errs = s.errs) (hp : (spoil s.draws s).pend = s.pend) :
    raisedState spoil s r =
      { spoil s.draws s with errs := recorded s r.kind r.info, draws := s.draws + 1 } := by
  simp only [raisedState, enterError_eq, recorded, he, hp]

/-! ### The tree builder's commands by the outcome of their pseudocode -/

section Outcomes

variable {s : State}

theorem execFreqInc_of_ok {sym : Byte} {freq : Table Dword 256} (h : countSymbol sym s.freq = .ok freq) :
    exec (.freqInc sym) s = .next (withFreq s freq) := by
  simp only [exec, execFreqInc, h, run_ok_bind, conclude_ok]

theorem execFreqInc_of_error {sym : Byte} {r : Raise} (h : countSymbol sym s.freq = .error r) :
    exec (.freqInc sym) s = .next (raisedState (spoilFreqInc sym) s r) := by
  simp only [exec, execFreqInc, h, run_error_bind, conclude_error]

theorem execFreqScan_of_ok {freq : Table Dword 256} (h : countSymbols (inputBytes s.input) s.freq = .ok freq) :
    exec .freqScan s = .next (withFreq s freq) := by
  simp only [exec, execFreqScan, h, run_ok_bind, conclude_ok]

theorem execFreqScan_of_error {r : Raise} (h : countSymbols (inputBytes s.input) s.freq = .error r) :
    exec .freqScan s = .next (raisedState spoilFreqScan s r) := by
  simp only [exec, execFreqScan, h, run_error_bind, conclude_error]

/-- The state that a completing BUILD leaves (40_tree_builder.md R76). -/
abbrev builtState (s : State) : State :=
  { s with tree := builtTree s.freq s.tree.node, flags := setTreeFlag s.flags }

theorem execBuild_of_buildable (h : buildable s.freq) : exec .build s = .next (builtState s) := by
  simp only [exec, execBuild, buildTree_ok _ h, run_ok_bind, conclude_ok]

theorem execBuild_of_error {r : Raise} (h : buildTree s.freq s.tree.node = .error r) :
    exec .build s = .next (raisedState (spoilBuild (countedSymbols s.freq).length) s r) := by
  simp only [exec, execBuild, h, run_error_bind, conclude_error]

theorem eq_builtState {t : State} (h : buildable s.freq) (e : exec .build s = .next t) : t = builtState s :=
  next_inj (e.symm.trans (execBuild_of_buildable h))

end Outcomes

/-! ### Merges and the tree (40_tree_builder.md R78 to R82) -/

/-- Settles O34: every internal node is one of the merges that `Merging` describes. -/
theorem buildMergesTheTwoLeast : Obligations.BuildMergesTheTwoLeast := by
  intro s t hb e k hn hk
  obtain rfl := eq_builtState hb e
  obtain ⟨m, hm, hnx, hnode, -⟩ := builtTree_spec s.tree.node hb
  have hinner := hm.inner k (by rwa [length_leavesOf]) (by rwa [hnx])
  rw [length_leavesOf, ← hnode] at hinner
  exact hinner

/-- Settles O35: the forest that the last merge leaves is one tree, and its symbols are those of the leaves. -/
theorem buildStoresATreeOfTheAlphabet : Obligations.BuildStoresATreeOfTheAlphabet := by
  intro s t hb e
  obtain rfl := eq_builtState hb e
  obtain ⟨tree, hsize, hstored, hweighed, hsyms⟩ := builtTree_tree s.tree.node hb
  refine ⟨tree, hsize, hstored, hweighed, hsyms.nodup_iff.mpr (nodup_leavesOf _), fun x => ?_⟩
  simp [hsyms.mem_iff, mem_leavesOf]

/-! ### Frequencies (40_tree_builder.md R74, R75) -/

/-- Settles O30: the counter is below its maximum or at it. -/
theorem freqIncCounts : Obligations.FreqIncCounts := by
  refine fun s sym => ⟨decode_encode (i := .freqInc sym) rfl, fun h => ?_, fun h => ?_⟩
  · obtain ⟨freq, hok, hsym, hother⟩ := countSymbol_spec h
    exact ⟨_, execFreqInc_of_ok hok, raisedIn_of_draws rfl, hsym, hother, rfl, rfl⟩
  · refine ⟨_, execFreqInc_of_error (countSymbol_full h), raisedIn_raisedState _ _ _, ?_⟩
    rw [raisedState_eq _ rfl rfl]
    exact ⟨rfl, fun x hx => symGet_symSet_ne _ _ (Ne.symm hx), rfl, rfl⟩

/-- The first byte whose counter is at its maximum overflows (40_tree_builder.md R75). -/
theorem countSymbols_full {pre post : List Byte} {b : Byte} {freq : Table Dword 256}
    (hpre : ∀ x, (symGet freq x).toNat + pre.count x < 2 ^ 64)
    (hb : (symGet freq b).toNat + pre.count b = 2 ^ 64 - 1) :
    countSymbols (pre ++ b :: post) freq =
      .error { kind := .overflow, info := BitVec.ofNat 32 (1 + 2 ^ 8 * b.toNat) } := by
  obtain ⟨freq', hok, hcount⟩ := countSymbols_spec pre freq hpre
  have hfull : (symGet freq' b).toNat = 2 ^ 64 - 1 := (hcount b).trans hb
  simp only [countSymbols_append, hok, run_ok_bind, countSymbols, countSymbol_full hfull, run_error_bind]

/-- Settles O31: no counter wraps, or one byte is the first whose counter would. -/
theorem freqScanCounts : Obligations.FreqScanCounts := by
  refine ⟨decode_encode (i := .freqScan) rfl, fun s => ⟨fun h => ?_, fun pre post b hin hpre hb => ?_⟩⟩
  · obtain ⟨freq, hok, hcount⟩ := countSymbols_spec _ _ h
    exact ⟨_, execFreqScan_of_ok hok, raisedIn_of_draws rfl, hcount, rfl, rfl⟩
  · have herr := countSymbols_full (post := post) hpre hb
    rw [← hin] at herr
    refine ⟨_, execFreqScan_of_error herr, raisedIn_raisedState _ _ _, ?_⟩
    rw [raisedState_eq _ rfl rfl]
    exact ⟨rfl, rfl, rfl⟩

/-! ### BUILD completing and raising (40_tree_builder.md R76) -/

theorem buildTree_of_no_symbol {freq : Table Dword 256} (old : Table Node 511) (h : countedCount freq = 0) :
    buildTree freq old = .error { kind := .emptyInput, info := 0 } := by
  have hn : ((countedSymbols freq).length != 0) = false := by rw [length_countedSymbols, h]; rfl
  simp only [buildTree, hn, require_false, run_error_bind]

theorem buildTree_of_heavy {freq : Table Dword 256} (old : Table Node 511) (h : 1 ≤ countedCount freq)
    (hw : 2 ^ 64 ≤ weightSum freq) : buildTree freq old = .error { kind := .overflow, info := 2 } := by
  have hn : ((countedSymbols freq).length != 0) = true := by
    rw [length_countedSymbols]
    exact bne_iff_ne.mpr (by omega)
  have ht : decide (totalWeight freq < 2 ^ 64) = false := by
    rw [totalWeight_eq]
    exact decide_eq_false (Nat.not_lt.mpr hw)
  simp only [buildTree, hn, ht, require_true, require_false, run_ok_bind, run_error_bind]

/-- A completing BUILD writes no entry of NODE beyond its `2n - 1` nodes. -/
theorem builtTree_above {freq : Table Dword 256} (old : Table Node 511) (h : buildable freq) {id : NodeId}
    (hid : 2 * countedCount freq - 1 ≤ id.val) : tblGet (builtTree freq old).node id = tblGet old id := by
  obtain ⟨m, -, -, hnode, -, -, habove⟩ := builtTree_spec old h
  rw [hnode, ← nodeAt_val, ← nodeAt_val, habove _ id.isLt hid]

/-- A raising BUILD leaves those entries as well (60_exceptions.md R134). -/
theorem spoilBuild_above (s : State) (n d : Nat) {id : NodeId} (hid : 2 * n - 1 ≤ id.val) :
    tblGet (spoilBuild n d s).tree.node id = tblGet s.tree.node id := by
  refine (tblGet_tblSetFrom _ _ _ _).trans (dif_neg ?_)
  rw [List.length_map, List.length_range]
  omega

/-- What BUILD leaves where its pseudocode raises. -/
theorem build_raises {s : State} {r : Raise} (h : buildTree s.freq s.tree.node = .error r) :
    ∃ t, exec .build s = .next t ∧ raisedIn s t = true ∧ t.errs = recorded s r.kind r.info ∧
      t.flags = { s.flags with tree := false } := by
  refine ⟨_, execBuild_of_error h, raisedIn_raisedState _ _ _, ?_⟩
  rw [raisedState_eq _ rfl rfl]
  exact ⟨rfl, rfl⟩

/-- Settles O32: the checks of BUILD in their order, and the end of the merge. -/
theorem buildCompletesOrRaises : Obligations.BuildCompletesOrRaises := by
  refine fun s => ⟨fun hn hw => ?_, fun h => build_raises (buildTree_of_no_symbol _ h),
    fun hn hw => build_raises (buildTree_of_heavy _ hn hw)⟩
  have hb : buildable s.freq := ⟨hn, hw⟩
  obtain ⟨-, -, -, -, hroot, hnnodes, -⟩ := builtTree_spec s.tree.node hb
  exact ⟨_, execBuild_of_buildable hb, raisedIn_of_draws rfl, hroot, hnnodes, fun _ => builtTree_above _ hb, rfl,
    rfl⟩

/-! ### The leaves (40_tree_builder.md R77, R83) -/

/-- The symbols of the leaves, in key order. -/
abbrev leafSymbols (freq : Table Dword 256) : List Byte := (leavesOf freq).map fun p => p.1

theorem mem_leafSymbols (freq : Table Dword 256) (x : Byte) : x ∈ leafSymbols freq ↔ symGet freq x ≠ 0 := by
  simp [mem_leavesOf]

/-- Different leaves have different keys, so their order is strict. -/
theorem leafSymbols_strict (freq : Table Dword 256) : (leafSymbols freq).Pairwise (leafKeyBefore freq) := by
  have hne : (leavesOf freq).Pairwise fun p q => p.1 ≠ q.1 := List.pairwise_map.mp (nodup_leavesOf freq)
  refine List.pairwise_map.mpr (((sortLeaves_sorted _).and hne).imp_of_mem ?_)
  rintro p q hp hq ⟨hle, hpq⟩
  have hpw := ((mem_leavesOf freq p).mp hp).2
  have hqw := ((mem_leavesOf freq q).mp hq).2
  have hsym : p.1.toNat ≠ q.1.toNat := fun h => hpq (BitVec.eq_of_toNat_eq h)
  unfold leafBefore at hle
  unfold leafKeyBefore
  rw [← hpw, ← hqw]
  omega

/-- A leaf of BUILD, by its place in key order. -/
theorem nodeAt_builtTree_leaf {freq : Table Dword 256} (old : Table Node 511) (h : buildable freq) {i : Nat}
    (hi : i < (leafSymbols freq).length) :
    nodeAt (builtTree freq old).node i = leafNode ((leafSymbols freq)[i], symGet freq (leafSymbols freq)[i]) := by
  obtain ⟨m, hm, -, hnode, -⟩ := builtTree_spec old h
  have hi' : i < (leavesOf freq).length := by rwa [List.length_map] at hi
  rw [hnode, hm.leaf i hi', List.getElem_map, ← ((mem_leavesOf freq _).mp (List.getElem_mem hi')).2]

/-- Settles O33: the leaves are the counted symbols in strict key order, and the merges keep them. -/
theorem buildOrdersLeaves : Obligations.BuildOrdersLeaves := by
  intro s t hb e
  obtain rfl := eq_builtState hb e
  exact ⟨leafSymbols s.freq, by rw [List.length_map, length_leavesOf], leafSymbols_strict _, mem_leafSymbols _,
    fun i hi => nodeAt_builtTree_leaf _ hb hi⟩

/-- One symbol counted: the alphabet is that symbol. -/
theorem filter_counted_of_one {freq : Table Dword 256} {x : Byte} (hx : symGet freq x ≠ 0)
    (hy : ∀ y, y ≠ x → symGet freq y = 0) : (allSymbols.filter fun s => symGet freq s != 0) = [x] := by
  refine List.perm_singleton.mp ((List.perm_ext_iff_of_nodup (nodup_allSymbols.filter _) (List.nodup_singleton x)).mpr
    fun y => ?_)
  have hiff : symGet freq y ≠ 0 ↔ y = x := ⟨fun h => not_imp_comm.mp (hy y) h, fun h => h ▸ hx⟩
  simpa using hiff

/-- Settles O36: the alphabet is one symbol, so the one node is its leaf and the root. -/
theorem buildOfOneSymbol : Obligations.BuildOfOneSymbol := by
  intro s x hx hy
  have hone := filter_counted_of_one hx hy
  have hn : countedCount s.freq = 1 := by rw [countedCount, hone]; rfl
  have hw : weightSum s.freq < 2 ^ 64 := by
    rw [weightSum_counted, hone]
    exact (symGet s.freq x).isLt
  have hb : buildable s.freq := ⟨hn.ge, hw⟩
  have hleaves : leafSymbols s.freq = [x] := by rw [leafSymbols, leavesOf, countedSymbols_eq, hone]; rfl
  have hleaf := nodeAt_builtTree_leaf (i := 0) s.tree.node hb (by rw [hleaves]; exact Nat.one_pos)
  obtain ⟨-, -, -, -, hroot, hnnodes, -⟩ := builtTree_spec s.tree.node hb
  rw [hn] at hroot hnnodes
  simp only [hleaves] at hleaf
  refine ⟨_, execBuild_of_buildable hb, raisedIn_of_draws rfl, hroot, Fin.ext hnnodes, rfl, hleaf, fun id hid => ?_⟩
  refine builtTree_above _ hb ?_
  rw [hn]
  exact Nat.pos_of_ne_zero fun h => hid (Fin.ext h)

/-! ### The frame (40_tree_builder.md R74 to R76; 60_exceptions.md R134) -/

/-- Settles O56: each command completing, then raising with its Writes line spoiled. -/
theorem treeBuilderFrame : Obligations.TreeBuilderFrame := by
  refine ⟨fun s t sym e => ?_, fun s t e => ?_, fun s t e => ?_⟩
  · rcases execFreqInc_cases e with ⟨freq, hok, rfl⟩ | ⟨r, -, rfl⟩
    · obtain ⟨-, rfl⟩ := countSymbol_eq_ok hok
      exact ⟨rfl, rfl, rfl, fun x hx => symGet_symSet_ne _ _ (Ne.symm hx)⟩
    · rw [raisedState_eq _ rfl rfl]
      exact ⟨rfl, rfl, rfl, fun x hx => symGet_symSet_ne _ _ (Ne.symm hx)⟩
  · rcases execFreqScan_cases e with ⟨freq, -, rfl⟩ | ⟨r, -, rfl⟩
    · exact ⟨rfl, rfl, rfl⟩
    · rw [raisedState_eq _ rfl rfl]
      exact ⟨rfl, rfl, rfl⟩
  · rcases execBuild_cases e with ⟨tree, hok, rfl⟩ | ⟨r, -, rfl⟩
    · obtain ⟨hb, rfl⟩ := buildable_of_ok hok
      exact ⟨rfl, rfl, rfl, fun _ => builtTree_above _ hb⟩
    · rw [raisedState_eq _ rfl rfl, length_countedSymbols]
      exact ⟨rfl, rfl, rfl, fun _ => spoilBuild_above _ _ _⟩

end Sys2Proof.Machine

namespace Sys2Proof.Machine

/-! ### WALK and CANON by the outcome of their pseudocode -/

section Outcomes

variable {s : State}

theorem execWalk_of_ok {len : Table Byte 256} (hf : s.flags.tree = true)
    (h : treeLengths s.cfg.maxCodeLen s.tree = .ok len) : exec .walk s = .next (withLengths s len) := by
  simp only [exec, execWalk, requireTree_set hf, mapError_ok, h, run_ok_bind, concludeOrFault_ok]

theorem execWalk_of_raise {r : Raise} (hf : s.flags.tree = true)
    (h : treeLengths s.cfg.maxCodeLen s.tree = .error (.raising r)) :
    exec .walk s = .next (raisedState spoilWalk s r) := by
  simp only [exec, execWalk, requireTree_set hf, mapError_ok, h, run_ok_bind, run_error_bind, concludeOrFault_raising]

/-- The state that a completing CANON leaves (41_canonical_code_generator.md R88). -/
abbrev canonState (s : State) : State :=
  { s with canon := canonOf s.len s.canon, flags := setCodesFlag s.flags }

theorem execCanon_of_accepted (h : Accepted s.cfg.maxCodeLen s.len) : exec .canon s = .next (canonState s) := by
  simp only [exec, execCanon, buildCanon_eq_ok.mpr ⟨h, rfl⟩, run_ok_bind, conclude_ok]

/-- What CANON leaves where its pseudocode raises. -/
theorem canon_raises {r : Raise} (h : buildCanon s.cfg.maxCodeLen s.len s.canon = .error r) :
    raises .canon s r.kind r.info := by
  have e : exec .canon s = .next (raisedState (spoilCanon (codedSymbols s.len).length) s r) := by
    simp only [exec, execCanon, h, run_error_bind, conclude_error]
  exact ⟨_, e, raisedIn_raisedState _ _ _, raisedState_errs r rfl rfl⟩

end Outcomes

/-! ### Canonical tables (41_canonical_code_generator.md R89 to R93) -/

/-- The codes of a set of lengths do not depend on the old table (41_canonical_code_generator.md R92 item 5). -/
theorem canonOf_code (len : Table Byte 256) (old old' : Canon) : (canonOf len old).code = (canonOf len old').code :=
  assignCodes_old (length_le_maxLength len) (orderOf_sorted len) (mem_orderOf len) old.code old'.code

/-- The symbol that ends the canonical order has the longest length. -/
theorem length_last_orderOf {len : Table Byte 256} {x : Byte} (hx : (orderOf len).getLast? = some x) :
    (symGet len x).toNat = maxLength len := by
  refine Nat.le_antisymm (length_le_maxLength len x) (maxLength_le.mpr fun y => ?_)
  obtain ⟨pre, hpre⟩ := List.getLast?_eq_some_iff.mp hx
  by_cases hy : symGet len y = 0
  · rw [hy]
    exact Nat.zero_le _
  · have hmem : y ∈ pre ++ [x] := hpre ▸ (mem_orderOf len y).mpr hy
    have hsorted := orderOf_sorted len
    rw [hpre, List.pairwise_append] at hsorted
    rcases List.mem_append.mp hmem with hm | hm
    · exact canonKeyBefore_length (hsorted.2.2 y hm x List.mem_cons_self)
    · rw [List.mem_singleton.mp hm]

/-- Two or more symbols with accepted lengths take the whole Kraft sum (41_canonical_code_generator.md R91). -/
theorem kraftOf_orderOf_full {maxLen : Nat} {len : Table Byte 256} (h : Accepted maxLen len)
    (hn : 2 ≤ codedCount len) : kraftOf len (maxLength len) (orderOf len) = 2 ^ maxLength len := by
  obtain ⟨-, -, hfull⟩ := accepted_iff.mp h
  rw [kraftOf_orderOf]
  rcases hfull with ⟨hone, -⟩ | ⟨-, hk⟩
  · omega
  · exact hk

/-- The codes of a table that CANON or HDR_READ has built. -/
theorem codes_of_built {i : Instr} {s t : State} (hwf : s.cfg.wf = true) (h : buildsTable i s t) :
    Codes t.len (maxLength t.len) (orderOf t.len) t.canon.code := by
  obtain ⟨ha, hc⟩ := built_table h
  obtain ⟨-, -, -, -, -, h63⟩ := (Config.wf_iff _).mp hwf
  rw [hc]
  exact codes_of_accepted h63 ha s.canon

/-- The code of the first symbol of the order is 0 (41_canonical_code_generator.md R90). -/
theorem Codes.first {len : Table Byte 256} {m : Nat} {order : List Byte} {code : Table Dword 256}
    (h : Codes len m order code) (h0 : 0 < order.length) : symGet code order[0] = 0 := by
  have hs := h.start 0 h0
  have hpos : 0 < codeShare len m order[0] := Nat.two_pow_pos _
  exact BitVec.eq_of_toNat_eq ((Nat.mul_eq_zero.mp hs).resolve_right hpos.ne')

/-- Settles O42: the codes are the starts of intervals that follow one another and fill the Kraft sum, and the table is
`canonOf` of its lengths. -/
theorem codesFitAndArePrefixFree : Obligations.CodesFitAndArePrefixFree := by
  intro i s t hwf hb
  obtain ⟨ha, hc⟩ := built_table hb
  obtain ⟨-, -, -, -, -, h63⟩ := (Config.wf_iff _).mp hwf
  have hcodes := codes_of_built hwf hb
  have hsyms : symsList t.canon = orderOf t.len := by rw [hc, symsList_canonOf]
  refine ⟨fun x => hcodes.lt, fun x y => hcodes.prefix_free, fun x hx hn => ?_, fun x hx => ?_,
    fun i' s' t' hb' hlen => ?_⟩
  · rw [hsyms] at hx
    rw [hc, nsym_canonOf] at hn
    have hl := length_last_orderOf hx
    have hlast := hcodes.last (kraftOf_orderOf_full ha hn) hx
    have hm : t.canon.maxlen.toNat = maxLength t.len := by rw [hc, maxlen_canonOf]
    rw [hl] at hlast
    rw [hm]
    exact ⟨hl, Nat.eq_sub_of_add_eq hlast⟩
  · rw [hsyms] at hx
    obtain ⟨-, -, hw⟩ := lone_word ha h63 s.canon hx
    rw [hc]
    exact hw
  · obtain ⟨-, hc'⟩ := built_table hb'
    rw [hlen] at hc'
    rw [hc, hc', symsList_canonOf, symsList_canonOf]
    exact ⟨rfl, rfl, rfl, rfl, canonOf_code t.len s'.canon s.canon⟩

/-- Settles O44: F_TREE promises the tree that BUILD makes, and its depths are lengths that CANON accepts. -/
theorem canonSucceedsAfterWalk : Obligations.CanonSucceedsAfterWalk := by
  intro s t hinv hcur hw hr
  obtain ⟨-, -, -, -, h1, -⟩ := (Config.wf_iff _).mp hinv.cfg_wf
  rcases execWalk_cases hw with ⟨hf, len, hlen, rfl⟩ | ⟨-, rfl⟩ | ⟨r, -, -, rfl⟩
  · exact ⟨_, execCanon_of_accepted (s := withLengths s len) (walk_accepted h1 (hcur.tree hf) hlen),
      raisedIn_of_draws rfl, rfl, rfl⟩
  · simp at hr
  · simp at hr

/-! ### WALK (41_canonical_code_generator.md R85 to R87) -/

section Depths

variable {maxLen : Nat} {tree : Tree} {l r : BinTree}

/-- The depths of a stored tree with no leaf deeper than the maximum. -/
theorem treeLengths_shallow (hst : (BinTree.branch l r).storedInNode tree.node tree.root)
    (hsize : (BinTree.branch l r).size ≤ 511) (hn : (BinTree.branch l r).symbols.Nodup)
    (hmax : ∀ p ∈ (BinTree.branch l r).paths, p.2.length ≤ maxLen) :
    ∃ len, treeLengths maxLen tree = .ok len ∧
      (∀ p ∈ (BinTree.branch l r).paths, (symGet len p.1).toNat = p.2.length) ∧
      ∀ x, x ∉ (BinTree.branch l r).symbols → symGet len x = 0 := by
  obtain ⟨len, hok, hout, hin⟩ := writeDepths_ok maxLen
    ((BinTree.branch l r).paths.map fun p => (p.1, p.2.length)) (tblOf 256 fun _ => 0)
    (List.forall_mem_map.mpr hmax)
  have hsyms : ((BinTree.branch l r).paths.map fun p => (p.1, p.2.length)).map (fun p => p.1) =
      (BinTree.branch l r).symbols := List.map_map
  rw [hsyms] at hout hin
  refine ⟨len, (treeLengths_branch hst hsize).trans hok, fun p hp => ?_, fun x hx => ?_⟩
  · have hlt := path_length_le _ hp
    rw [hin hn _ (List.mem_map_of_mem hp), BitVec.toNat_ofNat]
    exact Nat.mod_eq_of_lt (by omega)
  · rw [hout x hx, symGet_tblOf]

/-- The first leaf in walk order that is too deep is reported. -/
theorem treeLengths_deep (hst : (BinTree.branch l r).storedInNode tree.node tree.root)
    (hsize : (BinTree.branch l r).size ≤ 511) {before after : List (Byte × List Bool)} {x : Byte} {path : List Bool}
    (hpaths : (BinTree.branch l r).paths = before ++ (x, path) :: after)
    (hbefore : ∀ p ∈ before, p.2.length ≤ maxLen) (hdeep : maxLen < path.length) :
    treeLengths maxLen tree = .error (.raising
      { kind := .unrepresentableCode, info := BitVec.ofNat 32 (path.length + 2 ^ 8 * x.toNat) }) := by
  have hmem : (x, path) ∈ (BinTree.branch l r).paths := by
    rw [hpaths]
    exact List.mem_append_right _ List.mem_cons_self
  have hlt : 2 * path.length + 1 ≤ (BinTree.branch l r).size := path_length_le _ hmem
  have hshort : path.length < 256 := by omega
  rw [treeLengths_branch hst hsize, hpaths, List.map_append, List.map_cons,
    writeDepths_deep maxLen _ _ _ _ (List.forall_mem_map.mpr hbefore) hdeep, lengthInfo_eq x hshort]

end Depths

/-- Settles O37: WALK writes the depths of the leaves in walk order, or stops at the first that is too deep. -/
theorem walkMeasuresDepths : Obligations.WalkMeasuresDepths := by
  intro s left right hf hst hsize hn
  refine ⟨fun hmax => ?_, fun before after x path hpaths hbefore hdeep => ?_⟩
  · obtain ⟨len, hok, hin, hout⟩ := treeLengths_shallow hst hsize hn hmax
    exact ⟨_, execWalk_of_ok hf hok, raisedIn_of_draws rfl, hin, hout, rfl, rfl⟩
  · refine ⟨_, execWalk_of_raise hf (treeLengths_deep hst hsize hpaths hbefore hdeep), raisedIn_raisedState _ _ _, ?_⟩
    rw [raisedState_eq _ rfl rfl]
    exact ⟨rfl, rfl⟩

/-- Settles O38: the root is the leaf, whose length is set over zeros. -/
theorem walkOfOneSymbol : Obligations.WalkOfOneSymbol := by
  intro s x hf hst
  exact ⟨_, execWalk_of_ok hf (treeLengths_leaf hst), raisedIn_of_draws rfl, symGet_symSet_self _ _ _,
    fun y hy => (symGet_symSet_ne _ _ hy.symm).trans (symGet_tblOf _ _), rfl, rfl⟩

/-! ### CANON completing and raising (41_canonical_code_generator.md R88, R91, R93) -/

/-- HIST of a canonical table counts the symbols of each length. -/
theorem hist_canonOf (len : Table Byte 256) (old : Canon) {l : Byte} (hl : l ≠ 0) :
    (symGet (canonOf len old).hist l).val = symbolsWithLength len l :=
  (symGet_histogramOf len l).trans (if_neg hl)

/-- Settles O39: a full set of lengths is what CANON accepts, and its table is `canonOf`. -/
theorem canonCompletesAndCounts : Obligations.CanonCompletesAndCounts := by
  intro s m hm hn hle hfull
  obtain rfl := isLongest_iff.mp hm
  refine ⟨_, execCanon_of_accepted (accepted_iff.mpr ⟨hn, hle, hfull⟩), raisedIn_of_draws rfl, nsym_canonOf _ _,
    maxlen_canonOf _ _, fun l => hist_canonOf _ _, ?_, rfl, rfl⟩
  rw [nsym_canonOf, ← sum_symbolsWithLength]
  refine congrArg List.sum (List.map_congr_left fun l hl => (hist_canonOf _ _ ?_).symm)
  exact bne_iff_ne.mp (List.mem_filter.mp hl).2

/-- Settles O40: SYMS below NSYM is the canonical order, and nothing is written beyond it. -/
theorem symbolsInCanonicalOrder : Obligations.SymbolsInCanonicalOrder := by
  intro i s t hb
  obtain ⟨-, hc⟩ := built_table hb
  refine ⟨length_symsList _, ?_, ?_, fun k hk => ?_⟩
  · rw [hc, symsList_canonOf]
    exact orderOf_sorted _
  · rw [hc, symsList_canonOf]
    exact mem_orderOf _
  · rw [hc] at hk ⊢
    rw [nsym_canonOf] at hk
    exact syms_canonOf_ge _ _ hk

/-- Settles O41: each code starts where the one before it ends. -/
theorem codesAreAssigned : Obligations.CodesAreAssigned := by
  intro i s t hwf hb
  obtain ⟨-, hc⟩ := built_table hb
  have hcodes := codes_of_built hwf hb
  have hsyms : symsList t.canon = orderOf t.len := by rw [hc, symsList_canonOf]
  rw [hsyms]
  refine ⟨hcodes.uncoded, fun x hx => ?_, fun k x y hx hy => ?_⟩
  · obtain ⟨h0, rfl⟩ := List.getElem?_eq_some_iff.mp hx
    exact hcodes.first h0
  · obtain ⟨-, rfl⟩ := List.getElem?_eq_some_iff.mp hx
    obtain ⟨hk, rfl⟩ := List.getElem?_eq_some_iff.mp hy
    exact hcodes.next hk

section CanonChecks

variable {maxLen : Nat} {len : Table Byte 256} (old : Canon)

theorem buildCanon_of_no_symbol (h : codedCount len = 0) :
    buildCanon maxLen len old = .error { kind := .emptyInput, info := 0 } := by
  have hn : ((codedSymbols len).length != 0) = false := by rw [length_codedSymbols, h]; rfl
  simp only [buildCanon, hn, require_false, run_error_bind]

/-- CANON with a symbol checks the lengths against MAX_CODE_LEN. -/
theorem buildCanon_of_unrepresentable {r : Raise} (hn : codedCount len ≠ 0)
    (h : requireRepresentable maxLen (symEntries len) = .error r) : buildCanon maxLen len old = .error r := by
  have hn' : ((codedSymbols len).length != 0) = true := by rw [length_codedSymbols]; exact bne_iff_ne.mpr hn
  simp only [buildCanon, hn', require_true, run_ok_bind, h, run_error_bind]

/-- CANON with a symbol and no length above MAX_CODE_LEN validates the set of lengths. -/
theorem buildCanon_of_invalid {r : Raise} (hn : codedCount len ≠ 0) (hle : maxLength len ≤ maxLen)
    (h : validateLengths ((codedSymbols len).map fun p => p.2.toNat) (maxLength len) = .error r) :
    buildCanon maxLen len old = .error r := by
  have hn' : ((codedSymbols len).length != 0) = true := by rw [length_codedSymbols]; exact bne_iff_ne.mpr hn
  simp only [buildCanon, hn', require_true, run_ok_bind, requireRepresentable_entries.mpr hle, h, run_error_bind]

end CanonChecks

section Validation

variable {lengths : List Nat} {m : Nat}

theorem validateLengths_lone (h : lengths.length = 1) (hm : m ≠ 1) :
    validateLengths lengths m = .error { kind := .badLengths, info := 1 } := by
  rw [validateLengths, if_pos h, beq_false_of_ne hm, require_false]

theorem validateLengths_over (h : lengths.length ≠ 1) (hk : 2 ^ m < kraftSum lengths m) :
    validateLengths lengths m = .error { kind := .badLengths, info := 2 } := by
  rw [validateLengths, if_neg h, decide_eq_false (Nat.not_le.mpr hk), require_false, run_error_bind]

theorem validateLengths_under (h : lengths.length ≠ 1) (hk : kraftSum lengths m < 2 ^ m) :
    validateLengths lengths m = .error { kind := .badLengths, info := 3 } := by
  rw [validateLengths, if_neg h, decide_eq_true hk.le, require_true, run_ok_bind,
    decide_eq_false (Nat.not_le.mpr hk), require_false]

end Validation

/-- Settles O43: the checks of CANON in their order. -/
theorem canonErrors : Obligations.CanonErrors := by
  intro s m hm
  obtain rfl := isLongest_iff.mp hm
  have hlen : ((codedSymbols s.len).map fun p => p.2.toNat).length = codedCount s.len := by
    rw [List.length_map, length_codedSymbols]
  refine ⟨fun h0 => canon_raises (buildCanon_of_no_symbol _ h0), fun x hx hy => ?_,
    fun hle => ⟨fun h1 hm1 => ?_, fun h2 hk => ?_, fun h2 hk => ?_⟩⟩
  · have hxz : symGet s.len x ≠ 0 := fun h0 => by
      rw [h0] at hx
      exact Nat.not_lt_zero _ hx
    have hn : codedCount s.len ≠ 0 := (List.length_pos_of_mem (mem_codedList.mpr hxz)).ne'
    exact canon_raises (buildCanon_of_unrepresentable _ hn (requireRepresentable_lowest hx hy))
  · exact canon_raises (buildCanon_of_invalid _ (by omega) hle (validateLengths_lone (hlen.trans h1) hm1))
  · rw [← kraftSum_coded] at hk
    exact canon_raises (buildCanon_of_invalid _ (by omega) hle (validateLengths_over (by omega) hk))
  · rw [← kraftSum_coded] at hk
    exact canon_raises (buildCanon_of_invalid _ (by omega) hle (validateLengths_under (by omega) hk))

/-! ### The frame (41_canonical_code_generator.md R85, R88; 43_decoder_trie_walker.md R115, R121) -/

/-- An entry of SYMS, and what the host reads of it where it has been written, are as before. -/
def symsKept (s t : State) (k : Byte) : Prop :=
  symGet t.canon.syms k = symGet s.canon.syms k ∧
    (k.toNat < s.canon.symsWritten.val → readTarget t (.syms k) = readTarget s (.syms k))

section SymsKept

variable {s t : State} {k : Byte}

/-- A table of fewer symbols keeps the entry (10_state.md R42). -/
theorem symsKept_of_canonTable {len : Table Byte 256} {order : List Byte} {hist : Table (Fin 257) 256} {m : Byte}
    (hc : t.canon = canonTable len order hist m s.canon) (hk : order.length ≤ k.toNat) : symsKept s t k := by
  have hsyms : symGet t.canon.syms k = symGet s.canon.syms k := by rw [hc, syms_canonTable_ge len hist m s.canon hk]
  have hw : s.canon.symsWritten.val ≤ t.canon.symsWritten.val := by rw [hc]; exact le_coverSyms _ _
  exact ⟨hsyms, fun h => readTarget_syms_kept h hw hsyms⟩

/-- A raise with fewer symbols in its Writes line keeps the entry (60_exceptions.md R134). -/
theorem symsKept_of_freeCanon {n d : Nat} (hc : t.canon = freeCanon n d s.canon) (hk : n ≤ k.toNat) :
    symsKept s t k := by
  have hsyms : symGet t.canon.syms k = symGet s.canon.syms k := by rw [hc, freeCanon_syms_ge d s.canon hk]
  have hw : s.canon.symsWritten.val ≤ t.canon.symsWritten.val := by rw [hc]; exact le_coverSyms _ _
  exact ⟨hsyms, fun h => readTarget_syms_kept h hw hsyms⟩

end SymsKept

theorem walk_frame {s t : State} (e : exec .walk s = .next t) :
    { t with len := s.len, flags := s.flags, errs := s.errs, draws := s.draws } = s ∧ t.flags.tree = s.flags.tree := by
  rcases execWalk_cases e with ⟨-, len, -, rfl⟩ | ⟨-, rfl⟩ | ⟨r, -, -, rfl⟩
  · exact ⟨rfl, rfl⟩
  · rw [raisedState_eq _ rfl rfl]
    exact ⟨rfl, rfl⟩
  · rw [raisedState_eq _ rfl rfl]
    exact ⟨rfl, rfl⟩

theorem canon_frame {s t : State} (e : exec .canon s = .next t) :
    { t with canon := s.canon, flags := s.flags, errs := s.errs, draws := s.draws } = s ∧
      t.flags.tree = s.flags.tree ∧ ∀ k : Byte, codedCount s.len ≤ k.toNat → symsKept s t k := by
  rcases execCanon_cases e with ⟨c, hc, rfl⟩ | ⟨r, -, rfl⟩
  · obtain ⟨-, rfl⟩ := buildCanon_eq_ok.mp hc
    refine ⟨rfl, rfl, fun k hk => symsKept_of_canonTable rfl ?_⟩
    exact (length_orderOf s.len).trans_le hk
  · rw [raisedState_eq _ rfl rfl, length_codedSymbols]
    exact ⟨rfl, rfl, fun k => symsKept_of_freeCanon rfl⟩

theorem hdrRead_frame {s t : State} (e : exec .hdrRead s = .next t) :
    { t with
      reader := s.reader, len := s.len, canon := s.canon, plen := s.plen, flags := s.flags, errs := s.errs
      draws := s.draws } = s ∧
      t.reader.acc = s.reader.acc ∧ t.reader.left = s.reader.left ∧ t.flags.tree = s.flags.tree := by
  rcases execHdrRead_cases e with ⟨-, hd, r, hok, rfl⟩ | ⟨-, rfl⟩ | ⟨r, -, -, rfl⟩
  · obtain ⟨-, -, -, -, -, -, -, -, -, hacc, hleft⟩ := readHeader_eq_ok hok
    exact ⟨rfl, hacc, hleft, rfl⟩
  · rw [raisedState_eq _ rfl rfl]
    exact ⟨rfl, rfl, rfl, rfl⟩
  · rw [raisedState_eq _ rfl rfl]
    exact ⟨rfl, rfl, rfl, rfl⟩

/-- Once the histogram has been read, HDR_READ keeps the entries of SYMS beyond its symbols. -/
theorem hdrRead_syms_kept {s t : State} (e : exec .hdrRead s = .next t) {m : Byte} {raw : List Byte}
    (hl : s.reader.left = 0) (hm : m ≠ 0) (hraw : raw.length = m.toNat)
    (hin : inputHoldsBytes s.input s.reader.pos.toNat (m :: raw)) {k : Byte} (hk : (histogramRead raw).sum ≤ k.toNat) :
    symsKept s t k := by
  rw [histogramRead_eq] at hk
  have hspoil : hdrReadSymbols s ≤ k.toNat := by
    rw [hdrReadSymbols_eq hl hm hraw hin]
    exact (Nat.min_le_left _ _).trans hk
  rcases execHdrRead_cases e with ⟨-, hd, r, hok, rfl⟩ | ⟨-, rfl⟩ | ⟨r, -, -, rfl⟩
  · obtain ⟨r2, -, hh⟩ := readHistogram_ok hm hraw hin
    obtain ⟨hgood, -⟩ := readHeader_eq_ok hok
    rw [← readHeader_hist hh hok, ← hgood.length_syms] at hk
    exact symsKept_of_canonTable rfl hk
  · rw [raisedState_eq _ rfl rfl]
    exact symsKept_of_freeCanon rfl hspoil
  · rw [raisedState_eq _ rfl rfl]
    exact symsKept_of_freeCanon rfl hspoil

theorem trieBuild_frame {s t : State} (e : exec .trieBuild s = .next t) :
    { t with trie := s.trie, flags := s.flags, errs := s.errs, draws := s.draws } = s ∧
      t.flags.tree = s.flags.tree ∧ t.flags.codes = s.flags.codes ∧
      (raisedIn s t = false →
        ∀ id : NodeId, t.trie.tnodes.val ≤ id.val → tblGet t.trie.entry id = tblGet s.trie.entry id) := by
  rcases execTrieBuild_cases e with ⟨-, trie, hok, rfl⟩ | ⟨-, rfl⟩ | ⟨r, -, -, rfl⟩
  · exact ⟨rfl, rfl, rfl, fun _ => buildTrie_kept hok⟩
  · rw [raisedState_eq _ rfl rfl]
    exact ⟨rfl, rfl, rfl, fun h => absurd h (by simp [raisedIn])⟩
  · rw [raisedState_eq _ rfl rfl]
    exact ⟨rfl, rfl, rfl, fun h => absurd h (by simp [raisedIn])⟩

/-- Settles O57: the frame of each command, completing, then raising with its Writes line spoiled. -/
theorem tableBuilderFrame : Obligations.TableBuilderFrame := by
  refine ⟨fun _ _ => walk_frame, fun _ _ => canon_frame, fun s t e => ?_, fun _ _ => trieBuild_frame⟩
  obtain ⟨hframe, hacc, hleft, htree⟩ := hdrRead_frame e
  exact ⟨hframe, hacc, hleft, htree, fun m raw hl hm hraw hin k => hdrRead_syms_kept e hl hm hraw hin⟩

end Sys2Proof.Machine

namespace Sys2Proof.Machine

/-! ### Reading inverts writing (42_bitstream_packer.md R101) -/

section Flushed

variable {cap : Nat} {w w1 w2 : Writer} {bits : List Bool}

/-- Bits written from a byte boundary and flushed take whole bytes. -/
theorem flushed_outLen (hc : w.cnt = 0) (ha : appendsBits w w1 bits) (hw1 : WriterInv cap w1)
    (hf : flushWriter cap w1 = .ok w2) : w2.outLen.toNat = w.outLen.toNat + (bits.length + 7) / 8 := by
  obtain ⟨-, hlen, -⟩ := flushWriter_bits hw1 hf
  have hbits : bitsWritten w1 = bitsWritten w + bits.length := ha.1
  have hstart : bitsWritten w = 8 * w.outLen.toNat := by rw [bitsWritten, hc]; rfl
  omega

/-- The byte that holds bit `i` of them, counted from the boundary. -/
theorem flushed_bit (hc : w.cnt = 0) (ha : appendsBits w w1 bits) (hw1 : WriterInv cap w1)
    (hf : flushWriter cap w1 = .ok w2) {i : Nat} (hi : i < bits.length) :
    (obufRead w2.obuf (w.outLen.toNat + i / 8)).getLsbD (i % 8) = bits[i] := by
  obtain ⟨-, -, hread⟩ := flushWriter_bits hw1 hf
  obtain ⟨hbits, -, -, hnew⟩ := ha
  have hstart : bitsWritten w = 8 * w.outLen.toNat := by rw [bitsWritten, hc]; rfl
  have hb := hread (bitsWritten w + i) (by omega)
  have hdiv : (bitsWritten w + i) / 8 = w.outLen.toNat + i / 8 := by omega
  have hmod : (bitsWritten w + i) % 8 = i % 8 := by omega
  rw [hnew i hi, hdiv, hmod] at hb
  exact hb

/-- A byte-aligned reader before a copy of those bytes has the bits before it. -/
theorem inputHolds_of_flushed {inp : Input} {r : Reader} (hc : w.cnt = 0) (ha : appendsBits w w1 bits)
    (hw1 : WriterInv cap w1) (hf : flushWriter cap w1 = .ok w2) (hl : r.left = 0)
    (hin : r.pos.toNat + (w2.outLen.toNat - w.outLen.toNat) ≤ inp.len.toNat)
    (hcopy : ∀ k, k < w2.outLen.toNat - w.outLen.toNat →
      ibufRead inp (r.pos.toNat + k) = obufRead w2.obuf (w.outLen.toNat + k)) : inputHolds inp r bits := by
  have hlen := flushed_outLen hc ha hw1 hf
  have hl' : r.left.val = 0 := by rw [hl]; rfl
  refine ⟨by unfold bitsAvailable; omega, fun i hi => ?_⟩
  rw [inputBit, hl', if_neg (Nat.not_lt_zero i), Nat.sub_zero, hcopy (i / 8) (by omega)]
  exact flushed_bit hc ha hw1 hf hi

end Flushed

/-- Settles O50: the fields stand in the output one after the other, so a reader before a copy of the bytes reads each
in turn. -/
theorem readingInvertsWriting : Obligations.ReadingInvertsWriting := by
  intro s fields w1 w2 inp r hinv hc hacc _ hwrite hflush hl hin hcopy
  have hpad : writerPadded s.writer = true := by rw [writerPadded_iff, hacc, hc]; decide
  obtain ⟨hw1, ha⟩ := writeFields_spec fields hinv.writerInv hpad hwrite
  obtain ⟨r', hread, hpos, -⟩ := readFields_spec fields (inputHolds_of_flushed hc ha hw1 hflush hl hin hcopy)
  have hlen := flushed_outLen hc ha hw1 hflush
  have hl' : r.left.val = 0 := by rw [hl]; rfl
  refine ⟨r', hread, ?_⟩
  rw [hpos, bytesLoaded, hl']
  omega

/-! ### Headers read back (42_bitstream_packer.md R108; 43_decoder_trie_walker.md R116 to R120) -/

theorem execHdrRead_of_ok {s : State} {hd : Header} {r : Reader} (hl : s.reader.left = 0)
    (h : readHeader s.cfg.maxCodeLen s.input s.reader = .ok (hd, r)) :
    exec .hdrRead s = .next (commitHeader s hd r) := by
  simp only [exec, execHdrRead, requireReaderAligned_yes hl, h, run_ok_bind, conclude_ok]

/-- HDR_READ reads the header of an accepted length table as that table's header. -/
theorem readHeader_table {maxLen : Nat} {inp : Input} {r : Reader} {len : Table Byte 256} (ha : Accepted maxLen len)
    (old : Canon) (plen : Dword) (hin : inputHoldsBytes inp r.pos.toNat (headerBytes (canonOf len old) plen)) :
    ∃ r', readHeader maxLen inp r = .ok (tableHeader len plen, r') ∧
      r'.pos.toNat = r.pos.toNat + (headerBytes (canonOf len old) plen).length ∧ r'.acc = r.acc ∧
      r'.left = r.left := by
  have hgood := tableHeader_good ha plen
  rw [headerBytes_table] at hin ⊢
  refine readHeader_ok hgood hgood.histogram_again.symm ?_ (length_littleEndianBytes plen)
    (dwordOfBytes_littleEndian plen).symm hin
  rw [List.length_map]
  exact hgood.length_hist

/-- The bytes of an accepted header are those that HDR_WRITE emits for its table. -/
theorem GoodHeader.headerBytes_eq {maxLen : Nat} {h : Header} (g : GoodHeader maxLen h) (old : Canon)
    {raw bytes : List Byte} (hh : h.hist = headerHistogram raw) (hb : bytes.length = 8)
    (hp : h.plen = BitVec.ofNat 64 (dwordOfBytes bytes)) :
    headerBytes (canonOf (headerLengths h) old) h.plen = [h.m] ++ raw ++ h.syms ++ bytes := by
  have htable := g.table
  have hm := congrArg Header.m htable
  have hhist : tableHistogram (headerLengths h) = h.hist := congrArg Header.hist htable
  have hsyms : orderOf (headerLengths h) = h.syms := congrArg Header.syms htable
  rw [headerBytes_table, hm, hhist, hsyms, hh, headerHistogram_bytes, hp, littleEndianBytes_dword hb]

/-- Settles O51: the header of an accepted table is read as that table's header, and a header that is read is the one
of its own table. -/
theorem headersReadBack : Obligations.HeadersReadBack := by
  refine fun s hl => ⟨fun len old c plen hc hin => ?_, fun t e hr => ?_⟩
  · obtain ⟨ha, rfl⟩ := buildCanon_eq_ok.mp hc
    obtain ⟨r', hread, hpos, hacc, hleft⟩ := readHeader_table ha old plen hin
    have hlen : (commitHeader s (tableHeader len plen) r').len = len := headerLengths_table ha plen
    have hcanon := commitHeader_table (tableHeader_good ha plen) s r'
    rw [hlen] at hcanon
    refine ⟨_, execHdrRead_of_ok hl hread, raisedIn_of_draws rfl, hlen, ?_, ?_, ?_, ?_, ?_, rfl, hpos, hacc, hleft, rfl,
      rfl⟩
    · rw [hcanon]; exact canonOf_code len s.canon old
    · rw [hcanon]; rfl
    · rw [hcanon, symsList_canonOf, symsList_canonOf]
    · rw [hcanon]; rfl
    · rw [hcanon]; rfl
  · rcases execHdrRead_cases e with ⟨-, hd, r, hread, rfl⟩ | ⟨-, rfl⟩ | ⟨r, -, -, rfl⟩
    · obtain ⟨g, raw, bytes, hh, -, hb, hp, hin, -⟩ := readHeader_eq_ok hread
      refine ⟨buildCanon_again (commitHeader_canon hread), ?_⟩
      rw [commitHeader_table g]
      exact (g.headerBytes_eq s.canon hh hb hp).symm ▸ hin
    · simp at hr
    · simp at hr


/-! ### Output commands by the outcome of their pseudocode -/

@[simp] theorem raisedState_writer (spoil : Nat → State → State) (s : State) (r : Raise) :
    (raisedState spoil s r).writer = (spoil s.draws s).writer := by simp [raisedState]

section WriterOutcomes

variable {i : Instr} {spoil : Nat → State → State} {s t : State} {kinds : Raise → Prop} {run : Run Writer}

theorem WriterCases.completes (c : WriterCases spoil s t kinds run) (e : exec i s = .next t) {w : Writer}
    (h : run = .ok w) : exec i s = .next (withWriter s w) := by
  rcases c with ⟨w', hok, rfl⟩ | ⟨r, herr, -, -⟩
  · rw [h] at hok
    cases hok
    exact e
  · rw [h] at herr
    cases herr

theorem WriterCases.raises (c : WriterCases spoil s t kinds run) (e : exec i s = .next t)
    (he : (spoil s.draws s).errs = s.errs) (hp : (spoil s.draws s).pend = s.pend) {r : Raise}
    (h : run = .error r) : raises i s r.kind r.info := by
  rcases c with ⟨w, hok, -⟩ | ⟨r', herr, -, rfl⟩
  · rw [h] at hok
    cases hok
  · rw [h] at herr
    cases herr
    exact ⟨_, e, raisedIn_raisedState _ _ _, raisedState_errs r he hp⟩

end WriterOutcomes

section OutputOutcomes

variable {s : State} {w : Writer} {r : Raise}

theorem execPutBits_of_ok {n : Byte} (h : writeBits s.cfg.obufBytes s.arg n.toNat s.writer = .ok w) :
    exec (.putBits n) s = .next (withWriter s w) := (execPutBits_cases rfl).completes rfl h

theorem putBits_raises {n : Byte} (h : writeBits s.cfg.obufBytes s.arg n.toNat s.writer = .error r) :
    raises (.putBits n) s r.kind r.info := (execPutBits_cases rfl).raises rfl rfl rfl h

theorem execPutByte_of_ok {b : Byte} (h : putByteRun b s = .ok w) :
    exec (.putByte b) s = .next (withWriter s w) := (execPutByte_cases rfl).completes rfl h

theorem putByte_raises {b : Byte} (h : putByteRun b s = .error r) : raises (.putByte b) s r.kind r.info :=
  (execPutByte_cases rfl).raises rfl rfl rfl h

theorem execFlush_of_ok (h : flushWriter s.cfg.obufBytes s.writer = .ok w) :
    exec .flush s = .next (withWriter s w) := (execFlush_cases rfl).completes rfl h

theorem flush_raises (h : flushWriter s.cfg.obufBytes s.writer = .error r) : raises .flush s r.kind r.info :=
  (execFlush_cases rfl).raises rfl rfl rfl h

theorem execEncSym_of_ok {sym : Byte} (h : encSymRun sym s = .ok w) :
    exec (.encSym sym) s = .next (withWriter s w) := (execEncSym_cases rfl).completes rfl h

theorem encSym_raises {sym : Byte} (h : encSymRun sym s = .error r) : raises (.encSym sym) s r.kind r.info :=
  (execEncSym_cases rfl).raises rfl rfl rfl h

theorem execEncScan_of_ok (h : encScanRun s = .ok w) : exec .encScan s = .next (withWriter s w) :=
  (execEncScan_cases rfl).completes rfl h

theorem encScan_raises (h : encScanRun s = .error r) : raises .encScan s r.kind r.info :=
  (execEncScan_cases rfl).raises rfl rfl rfl h

theorem execHdrWrite_of_ok (h : hdrWriteRun s = .ok w) : exec .hdrWrite s = .next (withWriter s w) :=
  (execHdrWrite_cases rfl).completes rfl h

theorem hdrWrite_raises (h : hdrWriteRun s = .error r) : raises .hdrWrite s r.kind r.info :=
  (execHdrWrite_cases rfl).raises rfl rfl rfl h

/-! #### The runs once the Requires checks have passed -/

theorem putByteRun_aligned (b : Byte) (hc : s.writer.cnt = 0) :
    putByteRun b s = emitByte s.cfg.obufBytes b s.writer := by
  simp only [putByteRun, requireWriterAligned_yes hc, run_ok_bind]

theorem encSymRun_current (sym : Byte) (hf : s.flags.codes = true) :
    encSymRun sym s = writeCode s.cfg.obufBytes s.len s.canon.code sym s.writer := by
  simp only [encSymRun, requireCodes_set hf, run_ok_bind]

theorem encScanRun_current (hf : s.flags.codes = true) :
    encScanRun s = writeCodes s.cfg.obufBytes s.len s.canon.code (inputBytes s.input) s.writer := by
  simp only [encScanRun, requireCodes_set hf, run_ok_bind]

theorem hdrWriteRun_aligned (hf : s.flags.codes = true) (hc : s.writer.cnt = 0) :
    hdrWriteRun s = emitBytes s.cfg.obufBytes (headerBytes s.canon s.plen) s.writer := by
  simp only [hdrWriteRun, requireCodes_set hf, requireWriterAligned_yes hc, run_ok_bind]

end OutputOutcomes

/-! ### Overflow (42_bitstream_packer.md R97) -/

theorem roomForBits_iff {s : State} {n : Nat} :
    roomForBits s n = true ↔ (bitsWritten s.writer + n) / 8 ≤ s.cfg.obufBytes := by
  simp [roomForBits]

theorem roomForBits_false_iff {s : State} {n : Nat} :
    roomForBits s n = false ↔ s.cfg.obufBytes < (bitsWritten s.writer + n) / 8 := by
  simp [roomForBits]

/-- A prefix of the input whose codes do not fit stops ENC_SCAN, whatever follows it. -/
theorem writeCodes_full_prefix {cap : Nat} {len : Table Byte 256} {code : Table Dword 256} {pre : List Byte}
    {w : Writer} (post : List Byte) (hw : WriterInv cap w) (hpre : ∀ b ∈ pre, symGet len b ≠ 0)
    (hroom : cap < (bitsWritten w + (pre.map fun b => (symGet len b).toNat).sum) / 8) :
    writeCodes cap len code (pre ++ post) w = .error { kind := .overflow, info := 3 } := by
  rw [writeCodes_append, writeCodes_full pre hw hpre hroom, run_error_bind]

theorem flush_overflows {s : State} (hc : s.writer.cnt ≠ 0) (hl : s.writer.outLen.toNat = s.cfg.obufBytes) :
    raises .flush s .overflow 3 := flush_raises (flushWriter_full hc hl)

/-- Settles O28: in each output command the byte that finds OBUF full is the first raise. -/
theorem outputOverflows : Obligations.OutputOverflows := by
  intro s hinv
  have hw := hinv.writerInv
  refine ⟨fun n hn => ?_, fun b hc hl => ?_, flush_overflows, fun hf => ⟨fun sym hsym hn => ?_,
    fun pre post hin hpre hn => ?_, fun hc hl => ?_⟩⟩
  · exact putBits_raises (writeBits_full s.arg n.toNat hw (roomForBits_false_iff.mp hn))
  · exact putByte_raises ((putByteRun_aligned b hc).trans (emitByte_full b hl))
  · exact encSym_raises ((encSymRun_current sym hf).trans ((writeCode_coded hsym).trans
      (writeBits_full _ _ hw (roomForBits_false_iff.mp hn))))
  · have hfull := writeCodes_full_prefix (code := s.canon.code) post hw hpre (roomForBits_false_iff.mp hn)
    rw [← hin] at hfull
    exact encScan_raises ((encScanRun_current hf).trans hfull)
  · exact hdrWrite_raises ((hdrWriteRun_aligned hf hc).trans (emitBytes_full _ hw hl))

/-! ### Bits and bytes appended (42_bitstream_packer.md R95 to R97, R102 to R104) -/

/-- Settles O45: PUT_BITS is WriteBits of ARG. -/
theorem putBitsAppendsBits : Obligations.PutBitsAppendsBits := by
  intro s n hinv hpad hroom
  obtain ⟨w, hok, -, ha⟩ := writeBits_spec s.arg n.toNat hinv.writerInv hpad (roomForBits_iff.mp hroom)
  exact ⟨_, execPutBits_of_ok hok, raisedIn_of_draws rfl, ha, rfl⟩

section HeaderBytes

variable (c : Canon) (plen : Dword)

/-- A header is MAXLEN, then the histogram, the symbols and the payload length (42_bitstream_packer.md R107). -/
theorem headerBytes_cons : headerBytes c plen =
    c.maxlen :: (histogramBytes c ++ (symsList c ++ littleEndianBytes plen)) := by
  simp only [headerBytes, List.cons_append, List.nil_append, List.append_assoc]

theorem headerBytes_hist {l : Byte} (hl : l ≠ 0) (hm : l.toNat ≤ c.maxlen.toNat) :
    (headerBytes c plen)[l.toNat]? = some (BitVec.ofNat 8 (symGet c.hist l).val) := by
  obtain ⟨k, hk⟩ := Nat.exists_eq_succ_of_ne_zero (n := l.toNat) fun h => hl (BitVec.eq_of_toNat_eq h)
  have hsym : BitVec.ofNat 8 (k + 1) = l := by rw [← Nat.succ_eq_add_one, ← hk, BitVec.ofNat_toNat, BitVec.setWidth_eq]
  have hlt : k < c.maxlen.toNat := by omega
  rw [hk, headerBytes_cons, List.getElem?_cons_succ, List.getElem?_append_left (by simpa using hlt),
    histogramBytes_get c hlt, hsym]

theorem headerBytes_syms {k : Byte} (hk : k.toNat < c.nsym.val) :
    (headerBytes c plen)[1 + c.maxlen.toNat + k.toNat]? = some (symGet c.syms k) := by
  rw [headerBytes_cons, show 1 + c.maxlen.toNat + k.toNat = (histogramBytes c).length + k.toNat + 1 by simp; omega,
    List.getElem?_cons_succ, List.getElem?_append_right (Nat.le_add_right _ _), Nat.add_sub_cancel_left,
    List.getElem?_append_left (by simpa using hk), symsList_get c hk]

theorem headerBytes_plen {k : Nat} (hk : k < 8) :
    (headerBytes c plen)[1 + c.maxlen.toNat + c.nsym.val + k]? = some (plen.extractLsb' (8 * k) 8) := by
  rw [headerBytes_cons, show 1 + c.maxlen.toNat + c.nsym.val + k =
      (histogramBytes c).length + ((symsList c).length + k) + 1 by simp; omega,
    List.getElem?_cons_succ, List.getElem?_append_right (Nat.le_add_right _ _), Nat.add_sub_cancel_left,
    List.getElem?_append_right (Nat.le_add_right _ _), Nat.add_sub_cancel_left, littleEndianBytes_get plen hk]

end HeaderBytes

/-- Settles O46: PUT_BYTE is EmitByte, and HDR_WRITE is EmitByte of each of the header's bytes. -/
theorem rawBytesAreAppended : Obligations.RawBytesAreAppended := by
  refine fun s hinv hc => ⟨fun b hl => ?_, fun hf hl => ?_⟩
  · have hok := (putByteRun_aligned b hc).trans (emitByte_ok b hl.ne)
    exact ⟨_, execPutByte_of_ok hok, raisedIn_of_draws rfl, emitted_appends b hinv.writerInv hl.ne, rfl⟩
  · obtain ⟨w, hok, -, ha⟩ := emitBytes_spec (headerBytes s.canon s.plen) hinv.writerInv
      (by rw [length_headerBytes]; exact hl)
    exact ⟨_, _, execHdrWrite_of_ok ((hdrWriteRun_aligned hf hc).trans hok), raisedIn_of_draws rfl, ha,
      length_headerBytes _ _, rfl, fun _ => headerBytes_hist _ _, fun _ => headerBytes_syms _ _,
      fun _ => headerBytes_plen _ _, rfl⟩

/-- Settles O47: the cases of FLUSH by W_CNT and OUT_LEN. -/
theorem flushEmitsThePartialByte : Obligations.FlushEmitsThePartialByte := by
  refine ⟨decode_encode (i := .flush) rfl, fun s hinv => ⟨fun hc => execFlush_of_ok (flushWriter_aligned hc),
    flush_overflows, fun hc hl => ?_⟩⟩
  exact ⟨_, execFlush_of_ok (flushWriter_partial hc hl.ne), raisedIn_of_draws rfl,
    emitted_outLen s.writer.acc hinv.writerInv hl.ne, rfl, rfl, obufRead_obufWrite_self _ _ _,
    fun k hk => obufRead_obufWrite_ne _ _ hk, rfl⟩

/-! ### Codes appended (42_bitstream_packer.md R105, R106) -/

/-- ENC_SCAN stops at the first symbol without a code. -/
theorem writeCodes_uncoded {cap : Nat} {len : Table Byte 256} {code : Table Dword 256} {pre : List Byte} {b : Byte}
    {w : Writer} (post : List Byte) (hw : WriterInv cap w) (hpad : writerPadded w = true)
    (hpre : ∀ x ∈ pre, symGet len x ≠ 0)
    (hroom : (bitsWritten w + (pre.map fun x => (symGet len x).toNat).sum) / 8 ≤ cap) (hb : symGet len b = 0) :
    writeCodes cap len code (pre ++ b :: post) w = .error { kind := .noCode, info := BitVec.ofNat 32 b.toNat } := by
  obtain ⟨w', hok, -, -⟩ := writeCodes_spec (code := code) pre hw hpad hpre hroom
  rw [writeCodes_append, hok, run_ok_bind, writeCodes, writeCode_uncoded hb, run_error_bind]

/-- Settles O48: ENC_SYM writes one code, ENC_SCAN the codes of the input in order, up to the first symbol without
one. -/
theorem codesAreAppended : Obligations.CodesAreAppended := by
  intro s hinv hf hpad
  have hw := hinv.writerInv
  refine ⟨fun sym hsym hroom => ?_, fun sym hsym => ?_, fun hall hroom => ?_, fun pre post b hin hpre hroom hb => ?_⟩
  · obtain ⟨w, hok, -, ha⟩ :=
      writeBits_spec (symGet s.canon.code sym) (symGet s.len sym).toNat hw hpad (roomForBits_iff.mp hroom)
    rw [← writeCode_coded hsym, ← encSymRun_current sym hf] at hok
    exact ⟨_, execEncSym_of_ok hok, raisedIn_of_draws rfl, ha, rfl⟩
  · exact encSym_raises ((encSymRun_current sym hf).trans (writeCode_uncoded hsym))
  · obtain ⟨w, hok, -, ha⟩ := writeCodes_spec (inputBytes s.input) hw hpad hall (roomForBits_iff.mp hroom)
    exact ⟨_, execEncScan_of_ok ((encScanRun_current hf).trans hok), raisedIn_of_draws rfl, ha, rfl⟩
  · have hstop := writeCodes_uncoded (code := s.canon.code) post hw hpad hpre (roomForBits_iff.mp hroom) hb
    rw [← hin] at hstop
    exact encScan_raises ((encScanRun_current hf).trans hstop)

/-! ### The input read into RES (42_bitstream_packer.md R98 to R100, R109, R110) -/

section InputOutcomes

variable {s : State} {v : Nat} {b : Byte} {r : Reader} {e : Raise}

theorem execGetBits_of_ok {n : Byte} (h : readBits s.input n.toNat s.reader = .ok (v, r)) :
    exec (.getBits n) s = .next (withRead s (BitVec.ofNat 64 v) r) := by
  simp only [exec, execGetBits, countOperand, h, run_ok_bind, conclude_ok]

theorem getBits_raises {n : Byte} (h : readBits s.input n.toNat s.reader = .error e) :
    raises (.getBits n) s e.kind e.info := by
  have hx : exec (.getBits n) s = .next (raisedState spoilGetBits s e) := by
    simp only [exec, execGetBits, countOperand, h, run_error_bind, conclude_error]
  exact ⟨_, hx, raisedIn_raisedState _ _ _, raisedState_errs e rfl rfl⟩

theorem execGetByte_of_ok (hl : s.reader.left = 0) (h : readRawByte s.input s.reader = .ok (b, r)) :
    exec .getByte s = .next (withRead s (b.setWidth 64) r) := by
  simp only [exec, execGetByte, requireReaderAligned_yes hl, h, run_ok_bind, conclude_ok]

theorem getByte_raises (hl : s.reader.left = 0) (h : readRawByte s.input s.reader = .error e) :
    raises .getByte s e.kind e.info := by
  have hx : exec .getByte s = .next (raisedState spoilGetByte s e) := by
    simp only [exec, execGetByte, requireReaderAligned_yes hl, h, run_ok_bind, run_error_bind, conclude_error]
  exact ⟨_, hx, raisedIn_raisedState _ _ _, raisedState_errs e rfl rfl⟩

end InputOutcomes

/-- RES holds what at most 64 bits read (42_bitstream_packer.md R109). -/
theorem toNat_ofNat_numberOfBits {bits : List Bool} (h : bits.length ≤ 64) :
    (BitVec.ofNat 64 (numberOfBits bits)).toNat = numberOfBits bits := by
  rw [BitVec.toNat_ofNat]
  exact Nat.mod_eq_of_lt ((numberOfBits_lt bits).trans_le (Nat.pow_le_pow_right Nat.two_pos h))

/-- Settles O49: GET_BITS is ReadBits and GET_BYTE is ReadRawByte, with the input long enough or not. -/
theorem inputIsReadIntoRes : Obligations.InputIsReadIntoRes := by
  refine fun s => ⟨fun n h64 hn => ?_, fun n hn => ?_, fun hl => ⟨fun hp => ?_, fun hp => ?_⟩⟩
  · obtain ⟨r, hok, -, -, hadv⟩ := readBitsInto_spec n.toNat 0 hn
    exact ⟨_, execGetBits_of_ok hok, raisedIn_of_draws rfl, toNat_ofNat_numberOfBits (by simpa using h64), hadv, rfl⟩
  · exact getBits_raises (readBitsInto_end n.toNat 0 hn)
  · have hb : ((ibufRead s.input s.reader.pos.toNat).setWidth 64).toNat = (ibufRead s.input s.reader.pos.toNat).toNat :=
      BitVec.toNat_setWidth_of_le (by decide)
    exact ⟨_, execGetByte_of_ok hl (readRawByte_ok hp), raisedIn_of_draws rfl, hb, rfl, nextPos_toNat hp, rfl⟩
  · exact getByte_raises hl (readRawByte_end hp)


/-! ### The frames of the output commands (60_exceptions.md R134) -/

/-- What a command leaves of OBUF: the bytes below OUT_LEN, and where it completes those from the new OUT_LEN on. -/
structure OutputKept (s t : State) : Prop where
  below : ∀ k, k < s.writer.outLen.toNat → obufRead t.writer.obuf k = obufRead s.writer.obuf k
  grows : raisedIn s t = false → Grows s.writer t.writer

theorem OutputKept.of_grows {s t : State} (h : Grows s.writer t.writer) : OutputKept s t :=
  ⟨fun k hk => h.kept k (.inl hk), fun _ => h⟩

theorem OutputKept.of_raised {spoil : Nat → State → State} {s : State} {r : Raise}
    (h : ∀ k, k < s.writer.outLen.toNat → obufRead (spoil s.draws s).writer.obuf k = obufRead s.writer.obuf k) :
    OutputKept s (raisedState spoil s r) :=
  ⟨by rw [raisedState_writer]; exact h, fun hr => by simp at hr⟩

/-- A completing command has not lowered OUT_LEN or written at the new one or above. -/
theorem OutputKept.completed {s t : State} (h : OutputKept s t) (hr : raisedIn s t = false) :
    s.writer.outLen.toNat ≤ t.writer.outLen.toNat ∧
      ∀ k, t.writer.outLen.toNat ≤ k → obufRead t.writer.obuf k = obufRead s.writer.obuf k :=
  ⟨(h.grows hr).mono, fun k hk => (h.grows hr).kept k (.inr hk)⟩

section WriterFrame

variable {spoil : Nat → State → State} {s t : State} {kinds : Raise → Prop} {run : Run Writer}

/-- An output command changes the writer and the error registers, if its Writes line is of the writer. -/
theorem WriterCases.frame (c : WriterCases spoil s t kinds run)
    (hs : spoil s.draws s = withWriter s (spoil s.draws s).writer) :
    { t with writer := s.writer, errs := s.errs, draws := s.draws } = s := by
  rcases c with ⟨w, -, rfl⟩ | ⟨r, -, -, rfl⟩
  · rfl
  · rw [raisedState_eq r (by rw [hs]; rfl) (by rw [hs]; rfl), hs]
    rfl

theorem WriterCases.outputKept (c : WriterCases spoil s t kinds run) (hok : ∀ w, run = .ok w → Grows s.writer w)
    (hs : ∀ k, k < s.writer.outLen.toNat → obufRead (spoil s.draws s).writer.obuf k = obufRead s.writer.obuf k) :
    OutputKept s t := by
  rcases c with ⟨w, h, rfl⟩ | ⟨r, -, -, rfl⟩
  · exact .of_grows (hok w h)
  · exact .of_raised hs

/-- What holds of the writer that the run gives and of the spoiled one holds of the writer that the command leaves. -/
theorem WriterCases.writer (c : WriterCases spoil s t kinds run) {P : Writer → Prop} (hok : ∀ w, run = .ok w → P w)
    (hs : P (spoil s.draws s).writer) : P t.writer := by
  rcases c with ⟨w, h, rfl⟩ | ⟨r, -, -, rfl⟩
  · exact hok w h
  · rw [raisedState_writer]
    exact hs

end WriterFrame

/-- The commands that emit to OBUF and read no input (42_bitstream_packer.md R102 to R107). -/
abbrev outputCommand (i : Instr) : Prop :=
  i = .flush ∨ i = .encScan ∨ i = .hdrWrite ∨ (∃ n, i = .putBits n) ∨ (∃ b, i = .putByte b) ∨ (∃ sym, i = .encSym sym)

section OutputFrame

variable {i : Instr} {s t : State}

theorem output_frame (hi : outputCommand i) (e : exec i s = .next t) :
    { t with writer := s.writer, errs := s.errs, draws := s.draws } = s := by
  rcases hi with rfl | rfl | rfl | ⟨n, rfl⟩ | ⟨b, rfl⟩ | ⟨sym, rfl⟩
  · exact (execFlush_cases e).frame rfl
  · exact (execEncScan_cases e).frame rfl
  · exact (execHdrWrite_cases e).frame rfl
  · exact (execPutBits_cases e).frame rfl
  · exact (execPutByte_cases e).frame rfl
  · exact (execEncSym_cases e).frame rfl

theorem output_kept (hw : WriterInv s.cfg.obufBytes s.writer) (hi : outputCommand i) (e : exec i s = .next t) :
    OutputKept s t := by
  have hbits : ∀ k, k < s.writer.outLen.toNat →
      obufRead (spoilBitOutput s.draws s).writer.obuf k = obufRead s.writer.obuf k := fun _ => spoilBitOutput_obuf s _
  rcases hi with rfl | rfl | rfl | ⟨n, rfl⟩ | ⟨b, rfl⟩ | ⟨sym, rfl⟩
  · exact (execFlush_cases e).outputKept (fun _ h => (flushWriter_grows hw h).2.1) fun _ hk => spoilFlush_obuf s _ hk.ne
  · exact (execEncScan_cases e).outputKept (fun _ h => (encScanRun_grows hw h).2) hbits
  · exact (execHdrWrite_cases e).outputKept (fun _ h => (hdrWriteRun_grows hw h).2.1) fun _ => spoilHdrWrite_obuf s _
  · exact (execPutBits_cases e).outputKept (fun _ h => (writeBits_grows hw h).2) hbits
  · exact (execPutByte_cases e).outputKept (fun _ h => (putByteRun_grows hw h).2.1) fun _ hk =>
      spoilPutByte_obuf s _ hk.ne
  · exact (execEncSym_cases e).outputKept (fun _ h => (encSymRun_grows hw h).2) hbits

/-- FLUSH and PUT_BYTE write one byte of OBUF (42_bitstream_packer.md R103, R104). -/
theorem oneByte_obuf (hw : WriterInv s.cfg.obufBytes s.writer) (hi : i = .flush ∨ ∃ b, i = .putByte b)
    (e : exec i s = .next t) {k : Nat} (hk : k ≠ s.writer.outLen.toNat) :
    obufRead t.writer.obuf k = obufRead s.writer.obuf k := by
  rcases hi with rfl | ⟨b, rfl⟩
  · refine (execFlush_cases e).writer (P := fun w => obufRead w.obuf k = obufRead s.writer.obuf k) (fun w h => ?_)
      (spoilFlush_obuf s _ hk)
    obtain ⟨-, -, hobuf⟩ := flushWriter_grows hw h
    exact hobuf k hk
  · refine (execPutByte_cases e).writer (P := fun w => obufRead w.obuf k = obufRead s.writer.obuf k) (fun w h => ?_)
      (spoilPutByte_obuf s _ hk)
    obtain ⟨-, -, -, -, hobuf⟩ := putByteRun_grows hw h
    exact hobuf k hk

/-- HDR_WRITE and PUT_BYTE emit raw bytes, past the partial byte (42_bitstream_packer.md R97, R103, R107). -/
theorem rawBytes_partial (hw : WriterInv s.cfg.obufBytes s.writer) (hi : i = .hdrWrite ∨ ∃ b, i = .putByte b)
    (e : exec i s = .next t) : t.writer.acc = s.writer.acc ∧ t.writer.cnt = s.writer.cnt := by
  rcases hi with rfl | ⟨b, rfl⟩
  · refine (execHdrWrite_cases e).writer (P := fun w => w.acc = s.writer.acc ∧ w.cnt = s.writer.cnt)
      (fun w h => ?_) ⟨rfl, rfl⟩
    obtain ⟨-, -, hacc, hcnt⟩ := hdrWriteRun_grows hw h
    exact ⟨hacc, hcnt⟩
  · refine (execPutByte_cases e).writer (P := fun w => w.acc = s.writer.acc ∧ w.cnt = s.writer.cnt)
      (fun w h => ?_) ⟨rfl, rfl⟩
    obtain ⟨-, -, hacc, hcnt, -⟩ := putByteRun_grows hw h
    exact ⟨hacc, hcnt⟩

end OutputFrame

/-- Settles O58: each command's run, then its Writes line spoiled. -/
theorem outputCommandFrame : Obligations.OutputCommandFrame := by
  intro i s t hinv hi e
  have hw := hinv.writerInv
  have hkept := output_kept hw hi e
  exact ⟨output_frame hi e, hkept.below, hkept.completed, fun h1 _ => oneByte_obuf hw h1 e,
    fun h1 => rawBytes_partial hw h1 e⟩

/-! ### The frames of the input and decoding commands (60_exceptions.md R134) -/

theorem getBits_frame {s t : State} {n : Byte} (e : exec (.getBits n) s = .next t) :
    { t with res := s.res, reader := s.reader, errs := s.errs, draws := s.draws } = s := by
  rcases execGetBits_cases e with ⟨v, r, -, rfl⟩ | ⟨r, -, -, rfl⟩
  · rfl
  · rw [raisedState_eq _ rfl rfl]
    rfl

theorem getByte_frame {s t : State} (e : exec .getByte s = .next t) :
    { t with res := s.res, reader := s.reader, errs := s.errs, draws := s.draws } = s ∧
      t.reader.acc = s.reader.acc ∧ t.reader.left = s.reader.left := by
  rcases execGetByte_cases e with ⟨-, v, r, hread, rfl⟩ | ⟨-, rfl⟩ | ⟨-, -, rfl⟩
  · obtain ⟨-, -, -, rfl⟩ := readRawByte_eq_ok hread
    exact ⟨rfl, rfl, rfl⟩
  · rw [raisedState_eq _ rfl rfl]
    exact ⟨rfl, rfl, rfl⟩
  · rw [raisedState_eq _ rfl rfl]
    exact ⟨rfl, rfl, rfl⟩

/-- What a decoding command leaves of the writer: the partial byte, and of OBUF what every command leaves. -/
structure DecodeKept (s t : State) : Prop where
  acc : t.writer.acc = s.writer.acc
  cnt : t.writer.cnt = s.writer.cnt
  obuf : OutputKept s t

section DecodeFrame

variable {spoil : Nat → State → State} {s t : State} {run : Run DecodeWork}

/-- A decoding command changes the reader, RES, the writer and the error registers, if its Writes line is of the first
three. -/
theorem DecodeCases.frame (c : DecodeCases spoil s t run)
    (hs : spoil s.draws s = withDecoded s
      { reader := (spoil s.draws s).reader, writer := (spoil s.draws s).writer, res := (spoil s.draws s).res }) :
    { t with res := s.res, reader := s.reader, writer := s.writer, errs := s.errs, draws := s.draws } = s := by
  rcases c with ⟨w, -, rfl⟩ | ⟨r, -, -, rfl⟩
  · rfl
  · rw [raisedState_eq r (by rw [hs]; rfl) (by rw [hs]; rfl), hs]
    rfl

theorem DecodeCases.kept (c : DecodeCases spoil s t run)
    (hok : ∀ w, run = .ok w →
      Grows s.writer w.writer ∧ w.writer.acc = s.writer.acc ∧ w.writer.cnt = s.writer.cnt)
    (ha : (spoil s.draws s).writer.acc = s.writer.acc) (hc : (spoil s.draws s).writer.cnt = s.writer.cnt)
    (hs : ∀ k, k < s.writer.outLen.toNat → obufRead (spoil s.draws s).writer.obuf k = obufRead s.writer.obuf k) :
    DecodeKept s t := by
  rcases c with ⟨w, h, rfl⟩ | ⟨r, -, -, rfl⟩
  · obtain ⟨hgrows, hacc, hcnt⟩ := hok w h
    exact ⟨hacc, hcnt, .of_grows hgrows⟩
  · exact ⟨by rw [raisedState_writer, ha], by rw [raisedState_writer, hc], .of_raised hs⟩

/-- A raise of DEC_SYM leaves one byte of OBUF unspecified (43_decoder_trie_walker.md R123). -/
theorem spoilDecSym_obuf (s : State) (d : Nat) {k : Nat} (h : k ≠ s.writer.outLen.toNat) :
    obufRead (spoilDecSym d s).writer.obuf k = obufRead s.writer.obuf k :=
  spoilPutByte_obuf (spoilDecodeInput d s) d h

theorem spoilDecode_obuf (s : State) (d : Nat) {k : Nat} (h : k < s.writer.outLen.toNat) :
    obufRead (spoilDecode d s).writer.obuf k = obufRead s.writer.obuf k :=
  spoilHdrWrite_obuf (spoilDecodeInput d s) d h

theorem decSym_kept (hw : WriterInv s.cfg.obufBytes s.writer) (e : exec .decSym s = .next t) : DecodeKept s t := by
  refine (execDecSym_cases e).kept (fun w h => ?_) rfl rfl fun _ hk => spoilDecSym_obuf s _ hk.ne
  obtain ⟨entry, r, -, hn, rfl⟩ := decodeOne_eq_ok (decSymRun_eq_ok h)
  exact ⟨emitted_grows entry.sym hw hn, rfl, rfl⟩

/-- DEC_SYM writes one byte of OBUF (43_decoder_trie_walker.md R123). -/
theorem decSym_obuf (e : exec .decSym s = .next t) {k : Nat} (hk : k ≠ s.writer.outLen.toNat) :
    obufRead t.writer.obuf k = obufRead s.writer.obuf k := by
  rcases execDecSym_cases e with ⟨w, h, rfl⟩ | ⟨r, -, -, rfl⟩
  · obtain ⟨entry, r, -, -, rfl⟩ := decodeOne_eq_ok (decSymRun_eq_ok h)
    exact obufRead_obufWrite_ne _ _ hk
  · rw [raisedState_writer]
    exact spoilDecSym_obuf s _ hk

theorem decode_kept (hinv : s.Inv) (e : exec .decode s = .next t) : DecodeKept s t := by
  refine (execDecode_cases e).kept (fun w h => ?_) rfl rfl fun _ => spoilDecode_obuf s _
  obtain ⟨-, hgrows, hacc, hcnt, -⟩ :=
    decodeTimes_grows (w := decodeStart s) hinv.in_len hinv.writerInv hinv.in_pos (decodeRun_eq_ok h)
  exact ⟨hgrows, hacc, hcnt⟩

end DecodeFrame

/-- Settles O59: each command completing, then raising with its Writes line spoiled. -/
theorem inputCommandFrame : Obligations.InputCommandFrame := by
  refine ⟨fun _ _ _ => getBits_frame, fun _ _ => getByte_frame, fun i s t hinv hi e => ?_⟩
  rcases hi with rfl | rfl
  · have hkept := decSym_kept hinv.writerInv e
    exact ⟨(execDecSym_cases e).frame rfl, hkept.acc, hkept.cnt, hkept.obuf.below, hkept.obuf.completed,
      fun _ _ => decSym_obuf e⟩
  · have hkept := decode_kept hinv e
    exact ⟨(execDecode_cases e).frame rfl, hkept.acc, hkept.cnt, hkept.obuf.below, hkept.obuf.completed, nofun⟩

end Sys2Proof.Machine

namespace Sys2Proof.Machine

/-! ### TRIE_BUILD on a current canonical table (43_decoder_trie_walker.md R121, R122) -/

theorem mem_wordsOf {len : Table Byte 256} {code : Table Dword 256} {syms : List Byte} {x : Byte} {word : List Bool} :
    (x, word) ∈ wordsOf len code syms ↔ x ∈ syms ∧ word = codeWord len code x := by
  simp only [wordsOf, List.mem_map, Prod.mk.injEq]
  constructor
  · rintro ⟨y, hy, rfl, rfl⟩
    exact ⟨hy, rfl⟩
  · rintro ⟨hx, rfl⟩
    exact ⟨x, hx, rfl, rfl⟩

section TrieOfCodes

variable {len : Table Byte 256} {m : Nat} {order : List Byte} {code : Table Dword 256} {P : List (List Bool)}
  {w : TrieWork}

/-- What a code word has to pass on the way to its leaf is no code word. -/
theorem Codes.proper_prefix_not_word (h : Codes len m order code) {x : Byte} (hx : x ∈ order) {q : List Bool}
    (hq : q <+: codeWord len code x) (hne : q ≠ codeWord len code x) (y : Byte) : (y, q) ∉ wordsOf len code order := by
  intro hy
  obtain ⟨hmem, rfl⟩ := mem_wordsOf.mp hy
  have hyx : y ≠ x := fun e => hne (by rw [e])
  exact h.prefix_free ((h.members y).mp hmem) ((h.members x).mp hx) hyx hq

/-- Each code leads from the root to its leaf. -/
theorem Codes.trieLeafFor_codeWord (h : Codes len m order code) (g : TrieHolds (wordsOf len code order) P w)
    (h511 : P.length ≤ 511) (hP : ∀ x ∈ order, codeWord len code x ∈ P) {x : Byte} (hx : x ∈ order) :
    trieLeafFor w.entry 0 (codeWord len code x) = some x := by
  have hne : codeWord len code x ≠ [] := fun e => by
    have hl := length_codeWord len code x
    rw [e] at hl
    exact (h.members x).mp hx (BitVec.eq_of_toNat_eq hl.symm)
  exact trieLeafFor_word (p := []) g _ g.root hne (mem_wordsOf.mpr ⟨hx, rfl⟩) (hP x hx)
    (fun q hq hqx => h.proper_prefix_not_word hx hq hqx) h511

/-- A full set of codes stands in the trie as one full binary tree. -/
theorem Codes.storedTree (h : Codes len m order code) (hfull : kraftOf len m order = 2 ^ m)
    (g : TrieHolds (wordsOf len code order) P w) (h511 : P.length ≤ 511) (hP : ∀ x ∈ order, codeWord len code x ∈ P) :
    ∃ tree : BinTree, tree.storedInTrie w.entry (some 0) ∧ tree.size + 1 = 2 * order.length ∧
      ∀ x path, (x, path) ∈ tree.paths ↔ symGet len x ≠ 0 ∧ path = codeWord len code x := by
  obtain ⟨tree, hpaths, hsize⟩ := h.tree hfull
  have hnodes : ∀ q ∈ nodePaths tree, q ∈ P := fun q hq => by
    obtain ⟨⟨x, word⟩, hp, hpre⟩ := mem_nodePaths.mp hq
    obtain ⟨hx, rfl⟩ := mem_wordsOf.mp ((hpaths _).mp hp)
    exact closed_prefix g.closed hpre (hP x hx)
  have hfree : ∀ q q', q' ∈ wordsOf len code order → (∃ p ∈ wordsOf len code order, q <+: p.2 ∧ q ≠ p.2) →
      q'.2 ≠ q := by
    rintro q ⟨y, word⟩ hy ⟨⟨x, word'⟩, hp, hpre, hne⟩ rfl
    obtain ⟨hx, rfl⟩ := mem_wordsOf.mp hp
    exact h.proper_prefix_not_word hx hpre hne y hy
  refine ⟨tree, storedInTrie_tree (p := []) g h511 tree g.root (fun q => (hpaths q).mp) hnodes hfree, hsize,
    fun x path => ?_⟩
  rw [hpaths, mem_wordsOf, h.members]

end TrieOfCodes

/-- TRIE_BUILD with F_CODES set, where its pseudocode ends. -/
theorem execTrieBuild_of_ok {s : State} {trie : Trie} (hf : s.flags.codes = true)
    (h : buildTrie s.len s.canon s.trie.entry = .ok trie) :
    exec .trieBuild s = .next { s with trie := trie, flags := setTrieFlag s.flags } := by
  simp only [exec, execTrieBuild, requireCodes_set hf, mapError_ok, h, run_ok_bind, concludeOrFault_ok]

/-- Settles O53: F_CODES promises the table that CANON builds of accepted lengths, and the trie of such a table is known
path by path. -/
theorem trieHoldsTheCodes : Obligations.TrieHoldsTheCodes := by
  intro s hinv hcur hf
  obtain ⟨ha, hc⟩ := buildCanon_eq_ok.mp (hcur.codes hf)
  obtain ⟨-, -, -, -, -, h63⟩ := (Config.wf_iff _).mp hinv.cfg_wf
  have hcodes := codes_of_accepted h63 ha s.canon
  obtain ⟨trie, w, P, hok, hentry, htn, hsize, h511, g, hP, habove⟩ := canonTrie_spec ha h63 s.canon s.trie.entry
  have hnsym : s.canon.nsym.val = codedCount s.len := by rw [hc, nsym_canonOf]
  have hsyms : symsList s.canon = orderOf s.len := by rw [hc, symsList_canonOf]
  rw [← hc] at hcodes hok g hP
  refine ⟨_, execTrieBuild_of_ok hf hok, raisedIn_of_draws rfl, ?_, fun x hx => ?_, fun x hx => ?_, fun hn => ?_,
    fun id hid => habove id (htn ▸ hid), rfl, rfl⟩
  · rw [hnsym]
    exact htn.trans hsize
  · exact hentry ▸ hcodes.trieLeafFor_codeWord g h511 hP ((hcodes.members x).mpr hx)
  · rw [hsyms] at hx
    obtain ⟨hlen, hcode, -⟩ := lone_word ha h63 s.canon hx
    rw [← hc] at hcode
    obtain ⟨trie', hok', hroot, hleaf⟩ := lone_trie (hsyms.trans hx) hlen hcode s.trie.entry
    cases hok.symm.trans hok'
    exact ⟨hroot, hleaf⟩
  · rw [hnsym] at hn
    obtain ⟨tree, hstored, htree, hpaths⟩ := hcodes.storedTree (kraftOf_orderOf_full ha hn) g h511 hP
    refine ⟨tree, hentry ▸ hstored, ?_, hpaths⟩
    rw [length_orderOf] at htree
    show tree.size = trie.tnodes.val
    rw [htn, hsize, trieSize, if_neg (by omega)]
    omega

end Sys2Proof.Machine

namespace Sys2Proof.Machine

/-! ### DEC_SYM and DECODE by the outcome of their pseudocode -/

section DecodeOutcomes

variable {i : Instr} {spoil : Nat → State → State} {s t : State} {run : Run DecodeWork}

theorem DecodeCases.completes (c : DecodeCases spoil s t run) (e : exec i s = .next t) {w : DecodeWork}
    (h : run = .ok w) : exec i s = .next (withDecoded s w) := by
  rcases c with ⟨w', hok, rfl⟩ | ⟨r, herr, -, -⟩
  · cases hok.symm.trans h
    exact e
  · cases herr.symm.trans h

theorem DecodeCases.raises (c : DecodeCases spoil s t run) (e : exec i s = .next t)
    (he : (spoil s.draws s).errs = s.errs) (hp : (spoil s.draws s).pend = s.pend) {r : Raise}
    (h : run = .error r) : raises i s r.kind r.info := by
  rcases c with ⟨w, hok, -⟩ | ⟨r', herr, -, rfl⟩
  · cases hok.symm.trans h
  · cases herr.symm.trans h
    exact ⟨_, e, raisedIn_raisedState _ _ _, raisedState_errs r he hp⟩

end DecodeOutcomes

section Decoding

variable {s : State} {w : DecodeWork} {r : Raise} (hf : s.flags.trie = true) (hc : s.writer.cnt = 0)

include hf hc

/-- DEC_SYM is `DecodeOne` once the Requires checks have passed. -/
theorem decSymRun_current :
    decSymRun s = decodeOne s.cfg.obufBytes s.input s.trie.entry (decodeStart s) := by
  simp only [decSymRun, requireTrie_set hf, requireWriterAligned_yes hc, run_ok_bind]

/-- DECODE is `DecodeOne` PLEN times once the Requires checks have passed. -/
theorem decodeRun_current :
    decodeRun s = decodeTimes s.cfg.obufBytes s.input s.trie.entry s.plen.toNat (decodeStart s) := by
  simp only [decodeRun, requireTrie_set hf, requireWriterAligned_yes hc, run_ok_bind]

theorem execDecSym_of_ok (h : decodeOne s.cfg.obufBytes s.input s.trie.entry (decodeStart s) = .ok w) :
    exec .decSym s = .next (withDecoded s w) :=
  (execDecSym_cases rfl).completes rfl ((decSymRun_current hf hc).trans h)

theorem decSym_raises (h : decodeOne s.cfg.obufBytes s.input s.trie.entry (decodeStart s) = .error r) :
    raises .decSym s r.kind r.info :=
  (execDecSym_cases rfl).raises rfl rfl rfl ((decSymRun_current hf hc).trans h)

theorem execDecode_of_ok
    (h : decodeTimes s.cfg.obufBytes s.input s.trie.entry s.plen.toNat (decodeStart s) = .ok w) :
    exec .decode s = .next (withDecoded s w) :=
  (execDecode_cases rfl).completes rfl ((decodeRun_current hf hc).trans h)

theorem decode_raises
    (h : decodeTimes s.cfg.obufBytes s.input s.trie.entry s.plen.toNat (decodeStart s) = .error r) :
    raises .decode s r.kind r.info :=
  (execDecode_cases rfl).raises rfl rfl rfl ((decodeRun_current hf hc).trans h)

end Decoding

/-! ### Decoding that stops inside a code (43_decoder_trie_walker.md R123) -/

section Stopping

variable {cap : Nat} {inp : Input} {entry : Table TrieEntry 511} {w : DecodeWork} {bits : List Bool} {id : NodeId}

theorem decodeOne_of_walk_error {r : Raise}
    (h : walkTrie inp entry (bitsAvailable inp w.reader) 0 w.reader = .error r) :
    decodeOne cap inp entry w = .error r := by
  rw [decodeOne, h, run_error_bind]

/-- `DecodeOne` at a missing child. -/
theorem decodeOne_missing {b : Bool} (h : trieReach entry 0 bits = some id) (hc : childOf b (tblGet entry id) = none)
    (hi : inputHolds inp w.reader (bits ++ [b])) :
    decodeOne cap inp entry w = .error { kind := .malformedContainer, info := 7 } :=
  decodeOne_of_walk_error (walkTrie_missing h hc hi)

/-- `DecodeOne` where the input ends before a code does. -/
theorem decodeOne_end (h : trieReach entry 0 bits = some id) (hi : inputHolds inp w.reader bits)
    (hl : bits.length = bitsAvailable inp w.reader) :
    decodeOne cap inp entry w = .error { kind := .malformedContainer, info := 2 } :=
  decodeOne_of_walk_error (walkTrie_end h hi hl)

end Stopping

/-- Settles O54: the walk to the leaf, with a byte of OBUF left or none, and the two ways it stops before a leaf. -/
theorem decSymFollowsTheTrie : Obligations.DecSymFollowsTheTrie := by
  refine fun s hinv hf hc => ⟨fun bits x hx hin => ⟨fun hl => ?_, fun hl => ?_⟩,
    fun bits b id hr hn hin => decSym_raises hf hc (decodeOne_missing hr hn hin),
    fun bits id hr hin hl => decSym_raises hf hc (decodeOne_end hr hin hl)⟩
  · obtain ⟨r, hok, -, -, hadv⟩ := decodeOne_spec (w := decodeStart s) hx hin hl.ne
    exact ⟨_, execDecSym_of_ok hf hc hok, raisedIn_of_draws rfl, BitVec.toNat_setWidth_of_le (by decide), hadv,
      emitted_appends x hinv.writerInv hl.ne, rfl⟩
  · exact decSym_raises hf hc (decodeOne_full (w := decodeStart s) hx hin hl)

/-! ### Decoding that stops after whole codes (43_decoder_trie_walker.md R124, R125) -/

section StoppingLater

variable {cap : Nat} {inp : Input} {entry : Table TrieEntry 511} {path : Byte → List Bool} {syms : List Byte} {k : Nat}
  {w : DecodeWork} {rest : List Bool} {r : Raise}

/-- Where `DecodeOne` raises after the codes of `syms`, so does the whole run. -/
theorem decodeTimes_error_after (hw : WriterInv cap w.writer) (ht : ∀ x ∈ syms, trieLeafFor entry 0 (path x) = some x)
    (hin : inputHolds inp w.reader (syms.flatMap path ++ rest)) (hroom : w.writer.outLen.toNat + syms.length ≤ cap)
    (hk : syms.length < k)
    (hstop : ∀ w' : DecodeWork, w'.writer.outLen.toNat = w.writer.outLen.toNat + syms.length →
      bitsAvailable inp w'.reader + (syms.flatMap path).length = bitsAvailable inp w.reader →
      inputHolds inp w'.reader rest → decodeOne cap inp entry w' = .error r) :
    decodeTimes cap inp entry k w = .error r := by
  obtain ⟨j, rfl⟩ := Nat.exists_eq_add_of_lt hk
  obtain ⟨w', hrun, -, ⟨hlen, -⟩, -, hbits, hrest, -⟩ := decodeTimes_spec (j + 1) syms hw ht hin hroom
  rw [Nat.add_assoc, hrun, decodeTimes, hstop w' hlen hbits hrest, run_error_bind]

/-- The symbol that finds OBUF full stops the run. -/
theorem decodeTimes_full (hw : WriterInv cap w.writer) (ht : ∀ x ∈ syms, trieLeafFor entry 0 (path x) = some x)
    (hin : inputHolds inp w.reader (syms.flatMap path)) (hk : syms.length ≤ k)
    (hfull : cap < w.writer.outLen.toNat + syms.length) :
    decodeTimes cap inp entry k w = .error { kind := .overflow, info := 3 } := by
  have hcap : w.writer.outLen.toNat ≤ cap := hw.out_len
  obtain ⟨pre, post, rfl, hpre⟩ : ∃ pre post, syms = pre ++ post ∧ pre.length = cap - w.writer.outLen.toNat :=
    ⟨_, _, (List.take_append_drop _ _).symm, List.length_take_of_le (by omega)⟩
  rw [List.length_append] at hk hfull
  obtain ⟨x, post, rfl⟩ := List.exists_cons_of_length_pos (l := post) (by omega)
  rw [List.length_cons] at hk
  rw [List.flatMap_append] at hin
  refine decodeTimes_error_after hw (fun y hy => ht y (List.mem_append_left _ hy)) hin (by omega) (by omega)
    fun w' hout _ hrest => ?_
  rw [List.flatMap_cons] at hrest
  exact decodeOne_full (ht x (List.mem_append_right _ List.mem_cons_self)) (inputHolds_left hrest) (by omega)

end StoppingLater

/-- Settles O55: `DecodeOne` of one symbol after another, up to PLEN, to the end of the input or of a path, or to the end
of OBUF. -/
theorem decodeDecodesPlenSymbols : Obligations.DecodeDecodesPlenSymbols := by
  intro s syms path hinv hf hc ht hin
  have hw : WriterInv s.cfg.obufBytes (decodeStart s).writer := hinv.writerInv
  refine ⟨fun hplen hroom => ?_, fun hplen hroom => ⟨fun bits id hr hbits hl => ?_, fun bits b id hr hn hbits => ?_⟩,
    fun hplen _ hfull => decode_raises hf hc (decodeTimes_full hw ht hin hplen hfull)⟩
  · obtain ⟨w', hrun, -, happ, hres, -, -, hadv⟩ :=
      decodeTimes_spec (w := decodeStart s) (rest := []) 0 syms hw ht (by rwa [List.append_nil]) hroom
    rw [Nat.add_zero, ← hplen, decodeTimes] at hrun
    exact ⟨_, execDecode_of_ok hf hc hrun, raisedIn_of_draws rfl, hres, hadv, happ, rfl⟩
  · rw [List.length_append] at hl
    exact decode_raises hf hc (decodeTimes_error_after hw ht hbits hroom hplen fun w' _ hleft hrest =>
      decodeOne_end hr hrest (by simp only [decodeStart] at hleft; omega))
  · rw [List.append_assoc] at hbits
    exact decode_raises hf hc (decodeTimes_error_after hw ht hbits hroom hplen fun w' _ _ hrest =>
      decodeOne_missing hr hn hrest)

end Sys2Proof.Machine

namespace Sys2Proof.Machine

/-! ### The errors of HDR_READ (43_decoder_trie_walker.md R118) -/

theorem hdrRead_raises {s : State} {r : Raise} (hl : s.reader.left = 0)
    (h : readHeader s.cfg.maxCodeLen s.input s.reader = .error r) : raises .hdrRead s r.kind r.info := by
  have e : exec .hdrRead s = .next (raisedState (spoilHdrRead (hdrReadSymbols s)) s r) := by
    simp only [exec, execHdrRead, requireReaderAligned_yes hl, h, run_ok_bind, run_error_bind, conclude_error]
  exact ⟨_, e, raisedIn_raisedState _ _ _, raisedState_errs r rfl rfl⟩

section ReadHistogram

variable {maxLen : Nat} {inp : Input} {r : Reader}

theorem readHeader_of_histogram_error {e : Raise} (h : readHistogram inp r = .error e) :
    readHeader maxLen inp r = .error e := by
  rw [readHeader, h, run_error_bind]

theorem readHistogram_end (h : inp.len.toNat ≤ r.pos.toNat) :
    readHistogram inp r = .error { kind := .malformedContainer, info := 2 } := by
  rw [readHistogram, readRawByte_end h, run_error_bind]

/-- Check 1: a zero `maxCodeLength`. -/
theorem readHistogram_zero (h : r.pos.toNat < inp.len.toNat) (hz : ibufRead inp r.pos.toNat = 0) :
    readHistogram inp r = .error { kind := .malformedContainer, info := 1 } := by
  simp only [readHistogram, readRawByte_ok h, run_ok_bind, hz, bne_self_eq_false, require_false, run_error_bind]

/-- Check 2 in the histogram: the input ends inside it. -/
theorem readHistogram_short (h : r.pos.toNat < inp.len.toNat) (hz : ibufRead inp r.pos.toNat ≠ 0)
    (hshort : inp.len.toNat < r.pos.toNat + 1 + (ibufRead inp r.pos.toNat).toNat) :
    readHistogram inp r = .error { kind := .malformedContainer, info := 2 } := by
  have hm : (ibufRead inp r.pos.toNat != 0) = true := bne_iff_ne.mpr hz
  have hraw := readRawBytes_short (ibufRead inp r.pos.toNat).toNat (inp := inp)
    (r := { r with pos := BitVec.ofNat 25 (r.pos.toNat + 1) })
    (by simp only [nextPos_toNat h]; exact hshort) (by simp only [nextPos_toNat h]; omega)
  simp only [readHistogram, readRawByte_ok h, run_ok_bind, hm, require_true, hraw, run_error_bind]

end ReadHistogram

/-! #### Checks 3 to 6: the histogram -/

section CheckHistogram

variable {maxLen : Nat} {m : Byte} {hist : List Nat}

theorem getLastD_eq_zero_iff (hne : hist ≠ []) : hist.getLastD 0 = 0 ↔ hist.getLast? = some 0 := by
  rw [List.getLastD_eq_getLast?, List.getLast?_eq_some_getLast hne, Option.getD_some, Option.some.injEq]

/-- Check 3: the number of symbols. -/
theorem checkHistogram_count (h : hist.sum = 0 ∨ 256 < hist.sum) :
    checkHistogram maxLen m hist = .error { kind := .malformedContainer, info := 3 } := by
  have hn : (decide (1 ≤ hist.sum) && decide (hist.sum ≤ 256)) = false := by
    rw [Bool.and_eq_false_iff, decide_eq_false_iff_not, decide_eq_false_iff_not]
    omega
  simp only [checkHistogram, hn, require_false, run_error_bind]

variable (h1 : 1 ≤ hist.sum) (h2 : hist.sum ≤ 256)

include h1 h2

/-- Check 4: no symbol has the longest length. -/
theorem checkHistogram_last (hz : hist.getLastD 0 = 0) :
    checkHistogram maxLen m hist = .error { kind := .malformedContainer, info := 4 } := by
  simp only [checkHistogram, h1, h2, decide_true, Bool.and_self, require_true, run_ok_bind, hz, bne_self_eq_false,
    require_false, run_error_bind]

variable (h3 : (hist.getLastD 0 != 0) = true)

include h3

/-- Check 5: the longest length is above MAX_CODE_LEN. -/
theorem checkHistogram_long (hm : maxLen < m.toNat) :
    checkHistogram maxLen m hist =
      .error { kind := .unrepresentableCode, info := BitVec.ofNat 32 m.toNat } := by
  have hinfo : lengthInfo m.toNat 0 = BitVec.ofNat 32 m.toNat := lengthInfo_eq 0 m.isLt
  simp only [checkHistogram, h1, h2, decide_true, Bool.and_self, require_true, run_ok_bind, h3,
    decide_eq_false (Nat.not_le.mpr hm), require_false, run_error_bind, hinfo]

/-- Check 6: one symbol with another length than 1, or lengths whose Kraft sum is not 1. -/
theorem checkHistogram_kraft (hm : m.toNat ≤ maxLen)
    (hk : (hist.sum = 1 ∧ m ≠ 1) ∨ (2 ≤ hist.sum ∧ headerKraft hist ≠ 2 ^ m.toNat)) :
    checkHistogram maxLen m hist = .error { kind := .malformedContainer, info := 5 } := by
  simp only [checkHistogram, h1, h2, decide_true, Bool.and_self, require_true, run_ok_bind, h3, hm]
  rcases hk with ⟨hone, hm1⟩ | ⟨htwo, hkraft⟩
  · rw [if_pos hone, beq_false_of_ne hm1, require_false]
  · rw [if_neg (by omega), beq_false_of_ne hkraft, require_false]

end CheckHistogram

/-- What `histogramAccepted` says of the histogram that was read is that it passes its checks. -/
theorem checkHistogram_accepted {maxLen : Nat} {m : Byte} {hist : List Nat} (hne : hist ≠ [])
    (hlen : hist.length = m.toNat) (h : histogramAccepted maxLen hist) : checkHistogram maxLen m hist = .ok () := by
  obtain ⟨h1, h2, h3, h4, h5⟩ := h
  rw [hlen] at h4 h5
  rw [histogramKraft_eq] at h5
  exact checkHistogram_iff.mpr ⟨h1, h2, fun hz => h3 ((getLastD_eq_zero_iff hne).mp hz), h4,
    h5.imp_right fun ⟨htwo, hk⟩ => ⟨by omega, hk⟩⟩

/-! #### Checks 2 and 7: the symbols and the payload length -/

section ReadSymbols

variable {inp : Input} {hist : List Nat} {syms : List Byte} {r : Reader}

/-- The symbols that keep the order are read, and the rest of the list is read behind them. -/
theorem readSymbols_after (k : Nat) (hs : syms.length ≤ hist.sum) (hin : inputHoldsBytes inp r.pos.toNat syms)
    (ho : symbolsInOrder hist syms) :
    ∃ r' : Reader, r'.pos.toNat = r.pos.toNat + syms.length ∧
      readSymbols inp hist (syms.length + k) 0 [] r = readSymbols inp hist k syms.length syms.reverse r' := by
  obtain ⟨r', hread, hpos, -, -⟩ := readRawBytes_ok syms hin
  refine ⟨r', hpos, ?_⟩
  rw [readSymbols_prefix k hread ((inOrderFrom_iff syms hs).mpr ho), Nat.zero_add, List.append_nil]

/-- The input ends where the next symbol would stand. -/
theorem readSymbols_short (hs : syms.length < hist.sum) (hin : inputHoldsBytes inp r.pos.toNat syms)
    (ho : symbolsInOrder hist syms) (hend : inp.len.toNat = r.pos.toNat + syms.length) :
    readSymbols inp hist hist.sum 0 [] r = .error { kind := .malformedContainer, info := 2 } := by
  obtain ⟨k, hk⟩ := Nat.exists_eq_add_of_lt hs
  obtain ⟨r', hpos, hread⟩ := readSymbols_after (k + 1) hs.le hin ho
  rw [hk, Nat.add_assoc, hread, readSymbols, readRawByte_end (by omega), run_error_bind]

/-- The next symbol repeats or breaks the order. -/
theorem readSymbols_disorder {v : Byte} (hs : syms.length < hist.sum)
    (hin : inputHoldsBytes inp r.pos.toNat (syms ++ [v])) (ho : symbolsInOrder hist syms)
    (hv : ¬ symbolsInOrder hist (syms ++ [v])) :
    readSymbols inp hist hist.sum 0 [] r = .error { kind := .malformedContainer, info := 6 } := by
  obtain ⟨k, hk⟩ := Nat.exists_eq_add_of_lt hs
  obtain ⟨r', hpos, hread⟩ := readSymbols_after (k + 1) hs.le (inputHoldsBytes_prefix hin) ho
  have hnext := inputHoldsBytes_suffix hin
  rw [← hpos, inputHoldsBytes_cons] at hnext
  obtain ⟨hlt, hbyte, -⟩ := hnext
  have hbad : symbolInOrder hist syms.length v syms.reverse = false := by
    rw [← inOrderFrom_iff _ (by simpa using hs), inOrderFrom_snoc, inOrderFrom_iff _ hs.le] at hv
    exact Bool.eq_false_iff.mpr fun h => hv ⟨ho, h⟩
  rw [hk, Nat.add_assoc, hread]
  simp only [readSymbols, readRawByte_ok hlt, hbyte, run_ok_bind, hbad, require_false, run_error_bind]

end ReadSymbols

/-! #### The header behind its histogram -/

/-- The symbols stand behind the histogram's `m` bytes. -/
theorem inputHoldsBytes_symbols {inp : Input} {k : Nat} {m : Byte} {raw syms : List Byte} (hraw : raw.length = m.toNat)
    (h : inputHoldsBytes inp k (m :: raw ++ syms)) : inputHoldsBytes inp (k + 1 + m.toNat) syms := by
  have hsyms := inputHoldsBytes_suffix h
  rwa [List.length_cons, hraw, Nat.add_comm m.toNat 1, ← Nat.add_assoc] at hsyms

section ReadHeader

variable {maxLen : Nat} {inp : Input} {r : Reader} {m : Byte} {raw syms : List Byte} {e : Raise}
  (hm : m ≠ 0) (hraw : raw.length = m.toNat)

include hm hraw

theorem readHeader_of_check_error (hin : inputHoldsBytes inp r.pos.toNat (m :: raw))
    (h : checkHistogram maxLen m (headerHistogram raw) = .error e) : readHeader maxLen inp r = .error e := by
  obtain ⟨r2, -, hread⟩ := readHeader_histogram (maxLen := maxLen) hm hraw hin
  rw [hread, h, run_error_bind]

variable (hc : checkHistogram maxLen m (headerHistogram raw) = .ok ())
  (hin : inputHoldsBytes inp r.pos.toNat (m :: raw ++ syms))

include hc hin

/-- The symbols stand behind the histogram, and where their list raises so does the header. -/
theorem readHeader_of_symbols_error
    (h : ∀ r2 : Reader, r2.pos.toNat = r.pos.toNat + 1 + m.toNat → inputHoldsBytes inp r2.pos.toNat syms →
      readSymbols inp (headerHistogram raw) (headerHistogram raw).sum 0 [] r2 = .error e) :
    readHeader maxLen inp r = .error e := by
  obtain ⟨r2, hpos, hread⟩ := readHeader_histogram (maxLen := maxLen) hm hraw (inputHoldsBytes_prefix hin)
  have hsyms := inputHoldsBytes_symbols hraw hin
  rw [← hpos] at hsyms
  rw [hread, hc, run_ok_bind, h r2 hpos hsyms, run_error_bind]

/-- Behind all symbols the input ends inside the payload length. -/
theorem readHeader_plen_short (ho : symbolsInOrder (headerHistogram raw) syms)
    (hs : syms.length = (headerHistogram raw).sum)
    (hshort : inp.len.toNat < r.pos.toNat + 1 + m.toNat + syms.length + 8) :
    readHeader maxLen inp r = .error { kind := .malformedContainer, info := 2 } := by
  obtain ⟨r2, hpos, hread⟩ := readHeader_histogram (maxLen := maxLen) hm hraw (inputHoldsBytes_prefix hin)
  have hsyms := inputHoldsBytes_symbols hraw hin
  rw [← hpos] at hsyms
  obtain ⟨r3, hpos3, hlist⟩ := readSymbols_after 0 hs.le hsyms ho
  rw [Nat.add_zero, hs, readSymbols] at hlist
  have hplen := readRawBytes_short 8 (inp := inp) (r := r3) (by omega) (.inr (by decide))
  simp only [hread, hc, hlist, hplen, run_ok_bind, run_error_bind]

end ReadHeader

/-- Settles O52: the checks of HDR_READ in their order, each with those before it passed. -/
theorem headerErrors : Obligations.HeaderErrors := by
  intro s hl p
  refine ⟨fun h => hdrRead_raises hl (readHeader_of_histogram_error (readHistogram_end h)),
    fun h hz => hdrRead_raises hl (readHeader_of_histogram_error (readHistogram_zero h hz)),
    fun h hz hshort => hdrRead_raises hl (readHeader_of_histogram_error (readHistogram_short h hz hshort)),
    fun m raw hm hraw hin => ?_⟩
  have hlen : (headerHistogram raw).length = m.toNat := (length_headerHistogram raw).trans hraw
  have hne : headerHistogram raw ≠ [] := fun e => hm (BitVec.eq_of_toNat_eq (by rw [← hlen, e]; rfl))
  have hcheck : ∀ {e : Raise}, checkHistogram s.cfg.maxCodeLen m (headerHistogram raw) = .error e →
      raises .hdrRead s e.kind e.info := fun h => hdrRead_raises hl (readHeader_of_check_error hm hraw hin h)
  have hlast : (headerHistogram raw).getLast? ≠ some 0 → ((headerHistogram raw).getLastD 0 != 0) = true :=
    fun h => bne_iff_ne.mpr fun hz => h ((getLastD_eq_zero_iff hne).mp hz)
  simp only [histogramRead_eq, histogramKraft_eq]
  refine ⟨fun h => hcheck (checkHistogram_count h),
    fun h1 h2 => ⟨fun hz => ?_, fun hz hlong => ?_, fun hz hfit hk => ?_⟩, fun hacc syms hsyms ho => ?_⟩
  · exact hcheck (checkHistogram_last h1 h2 ((getLastD_eq_zero_iff hne).mpr hz))
  · exact hcheck (checkHistogram_long h1 h2 (hlast hz) hlong)
  · exact hcheck (checkHistogram_kraft h1 h2 (hlast hz) hfit hk)
  · have hc := checkHistogram_accepted hne hlen hacc
    refine ⟨fun hs hend => ?_, fun v hs hv hbad => ?_, fun hs hshort => ?_⟩
    · exact hdrRead_raises hl (readHeader_of_symbols_error hm hraw hc hsyms fun r2 hpos hin2 =>
        readSymbols_short hs hin2 ho (by rw [hpos]; exact hend))
    · rw [List.append_assoc] at hv
      exact hdrRead_raises hl (readHeader_of_symbols_error hm hraw hc hv fun r2 _ hin2 =>
        readSymbols_disorder hs hin2 ho hbad)
    · exact hdrRead_raises hl (readHeader_plen_short hm hraw hc hsyms ho hs hshort)

end Sys2Proof.Machine

namespace Sys2Proof.Machine

/-! ### Control (44_control.md R126, R127) -/

theorem exec_nop (s : State) : exec .nop s = .next s := rfl

theorem exec_clear (s : State) : exec .clear s = .next (clearedState s) := rfl

theorem raisedIn_clearedState (s : State) : raisedIn s (clearedState s) = false :=
  raisedIn_of_draws (clearedState_draws s)

@[simp] theorem symGet_clearedState_freq (s : State) (x : Byte) : symGet (clearedState s).freq x = 0 :=
  symGet_tblOf (fun _ => 0) x

@[simp] theorem symGet_clearedState_len (s : State) (x : Byte) : symGet (clearedState s).len x = 0 :=
  symGet_tblOf (fun _ => 0) x

/-- CLEAR writes only the groups of state that its pseudocode names. -/
theorem clearedState_frame (s : State) :
    { clearedState s with
      errs := s.errs, flags := s.flags, freq := s.freq, len := s.len, res := s.res, plen := s.plen
      reader := s.reader, writer := s.writer, canon := s.canon, tree := s.tree, trie := s.trie } = s := rfl

/-- Settles O29: NOP answers its own state and CLEAR the cleared state, whose tables read 0 at every symbol. -/
theorem nopAndClear : Obligations.NopAndClear := by
  refine ⟨rfl, decode_clearWord, fun s => ⟨exec_nop s, clearedState s, exec_clear s, raisedIn_clearedState s, ?_⟩⟩
  have hzero : ∀ x, symGet (clearedState s).freq x = 0 ∧ symGet (clearedState s).len x = 0 := fun x =>
    ⟨symGet_clearedState_freq s x, symGet_clearedState_len s x⟩
  exact ⟨rfl, rfl, hzero, rfl, rfl, rfl, rfl, rfl, rfl, rfl, clearedState_frame s⟩

end Sys2Proof.Machine

namespace Sys2Proof.Machine

/-! ### Events, and the acceptance of command words (60_exceptions.md R128, R148) -/

section Sequencer

variable {s : State}

theorem sequencerStep_idle (hv : s.pend.valid = false) : sequencerStep s = .next s :=
  if_neg (Bool.eq_false_iff.mp hv)

theorem sequencerStep_pending {i : Instr} (hv : s.pend.valid = true) (hd : decode s.pend.word = .ok i) :
    sequencerStep s = finishCommand (exec i s) := by
  simp only [sequencerStep, executeWord, hv, hd, if_true]

theorem step_of_script_end (hs : s.script = []) : step s = sequencerStep (beginEvent [] s) := by
  simp only [step, hs]

theorem step_of_complete {rest : List HostEvent} (hs : s.script = .complete :: rest) :
    step s = sequencerStep (beginEvent rest s) := by
  simp only [step, hs, runEvent]

/-- At the end of the script there is nothing to take off it. -/
theorem beginEvent_of_script_end (hs : s.script = []) : beginEvent [] s = { s with bus := .idle } := by
  rw [beginEvent, ← hs]

end Sequencer

/-- Settles O5: the completion event hands the pending word to the sequencer, which runs its command. -/
theorem stepRunsDecodedCommand : Obligations.StepRunsDecodedCommand := by
  refine ⟨fun s i rest hv hd => ⟨fun hs => ?_, fun hs => ?_⟩, fun s i nbits w hd => ?_, fun _ => rfl⟩
  · rw [step_of_script_end hs, beginEvent_of_script_end hs]
    exact sequencerStep_pending hv hd
  · rw [step_of_complete hs]
    exact sequencerStep_pending hv hd
  · rw [step_of_complete (rest := s.script) rfl]
    exact sequencerStep_pending rfl hd

theorem busTarget_zero : busTarget 0 = .cmd := rfl

/-- A write to CMD while no command is pending is the acceptance check (60_exceptions.md R128). -/
theorem hostWrite_cmd {s : State} (w : Word) (hv : s.pend.valid = false) :
    hostWrite 0 w s = { writeCmd w s with bus := .acked } := by
  rw [hostWrite_idle _ _ hv, busTarget_zero, writeTarget]

theorem writeCmd_accepted {s : State} {w : Word} (h : s.errs.err = .none ∨ w = clearWord) :
    writeCmd w s = { s with pend := { valid := true, word := w } } := if_pos h

theorem writeCmd_dropped {s : State} {w : Word} (he : s.errs.err ≠ .none) (hw : w ≠ clearWord) : writeCmd w s = s :=
  if_neg (not_or.mpr ⟨he, hw⟩)

/-- Settles O6: the write by the acceptance check, the sequencer by the word that is pending. -/
theorem commandAcceptance : Obligations.CommandAcceptance := by
  intro s w
  refine ⟨hostWrite_busy _ w, fun hv he hw => ?_, fun hv he hw => ?_, fun hv he => ?_, sequencerStep_idle,
    fun e hv hd => sequencerStep_illegal (by rw [← hv]) hd, fun i t hv hd ht => ?_⟩
  · rw [hostWrite_cmd w hv, writeCmd_accepted (.inr hw)]
  · rw [hostWrite_cmd w hv, writeCmd_dropped he hw]
  · rw [hostWrite_cmd w hv, writeCmd_accepted (.inl he)]
  · rw [sequencerStep_pending hv hd, ht]
    rfl

/-! ### What a command records (60_exceptions.md R129, R133, R137) -/

theorem recorded_first {s : State} (k : Err) (info : Word) (h : s.errs.err = .none) :
    recorded s k info = { err := k, cmd := s.pend.word, info := info } := if_pos h

theorem recorded_later {s : State} (k : Err) (info : Word) (h : s.errs.err ≠ .none) : recorded s k info = s.errs :=
  if_neg h

/-- Settles O25: a completing command keeps the error registers, a raise records over none alone. -/
theorem firstErrorIsRecorded : Obligations.FirstErrorIsRecorded := by
  intro i s t hc h
  rcases (exec_effect h).errs with ⟨hr, he⟩ | ⟨hr, r, hk, he⟩
  · rw [if_neg hc] at he
    exact ⟨fun _ => he, fun _ => he, fun _ hraised => by simp [hr] at hraised⟩
  · refine ⟨fun hn => he.trans (recorded_later _ _ hn), fun hnot => by simp [hr] at hnot, fun hn _ => ?_⟩
    obtain ⟨hkind, -⟩ := mayRaise_ne hk
    rw [he, recorded_first _ _ hn]
    exact ⟨hkind, rfl⟩

/-- Settles O26: what a command records over no error is the kind it raised. -/
theorem commandsRaiseOnlyTheirKinds : Obligations.CommandsRaiseOnlyTheirKinds := by
  intro i s t hn h
  rcases (exec_effect h).errs with ⟨-, he⟩ | ⟨-, r, hk, he⟩
  · refine .inl ?_
    rw [he]
    split
    · rfl
    · exact hn
  · rw [he, recorded_first _ _ hn]
    exact .inr hk

/-! ### The Requires checks of each command (60_exceptions.md R130, R132) -/

section RequiresChecks

variable {s : State}

/-- A command whose outcome is `raisedState` raises. -/
theorem raises_of_raisedState {i : Instr} {spoil : Nat → State → State} {r : Raise}
    (e : exec i s = .next (raisedState spoil s r)) (he : (spoil s.draws s).errs = s.errs)
    (hp : (spoil s.draws s).pend = s.pend) : raises i s r.kind r.info :=
  ⟨_, e, raisedIn_raisedState _ _ _, raisedState_errs r he hp⟩

theorem walk_without_tree (h : s.flags.tree = false) : raises .walk s .sequence 1 := by
  have e : exec .walk s = .next (raisedState spoilWalk s { kind := .sequence, info := 1 }) := by
    simp only [exec, execWalk, requireTree_clear h, mapError_error, run_error_bind, concludeOrFault_raising]
  exact raises_of_raisedState e rfl rfl

theorem trieBuild_without_codes (h : s.flags.codes = false) : raises .trieBuild s .sequence 2 := by
  have e : exec .trieBuild s = .next (raisedState spoilTrieBuild s { kind := .sequence, info := 2 }) := by
    simp only [exec, execTrieBuild, requireCodes_clear h, mapError_error, run_error_bind, concludeOrFault_raising]
  exact raises_of_raisedState e rfl rfl

theorem encSym_without_codes (sym : Byte) (h : s.flags.codes = false) : raises (.encSym sym) s .sequence 2 :=
  encSym_raises (r := { kind := .sequence, info := 2 }) (by rw [encSymRun, requireCodes_clear h, run_error_bind])

theorem encScan_without_codes (h : s.flags.codes = false) : raises .encScan s .sequence 2 :=
  encScan_raises (r := { kind := .sequence, info := 2 }) (by rw [encScanRun, requireCodes_clear h, run_error_bind])

theorem hdrWrite_without_codes (h : s.flags.codes = false) : raises .hdrWrite s .sequence 2 :=
  hdrWrite_raises (r := { kind := .sequence, info := 2 }) (by rw [hdrWriteRun, requireCodes_clear h, run_error_bind])

theorem hdrWrite_partial (hf : s.flags.codes = true) (hc : s.writer.cnt ≠ 0) : raises .hdrWrite s .sequence 4 :=
  hdrWrite_raises (r := { kind := .sequence, info := 4 })
    (by rw [hdrWriteRun, requireCodes_set hf, run_ok_bind, requireWriterAligned_no hc, run_error_bind])

theorem putByte_partial (b : Byte) (hc : s.writer.cnt ≠ 0) : raises (.putByte b) s .sequence 4 :=
  putByte_raises (r := { kind := .sequence, info := 4 })
    (by rw [putByteRun, requireWriterAligned_no hc, run_error_bind])

/-- The checks that DEC_SYM and DECODE share, ahead of either one's body. -/
theorem decoding_without_trie (h : s.flags.trie = false) :
    decSymRun s = .error { kind := .sequence, info := 3 } ∧
      decodeRun s = .error { kind := .sequence, info := 3 } := by
  simp only [decSymRun, decodeRun, requireTrie_clear h, run_error_bind, and_self]

theorem decoding_partial (hf : s.flags.trie = true) (hc : s.writer.cnt ≠ 0) :
    decSymRun s = .error { kind := .sequence, info := 4 } ∧
      decodeRun s = .error { kind := .sequence, info := 4 } := by
  simp only [decSymRun, decodeRun, requireTrie_set hf, run_ok_bind, requireWriterAligned_no hc, run_error_bind,
    and_self]

theorem decoding_raises {r : Raise} (h : decSymRun s = .error r ∧ decodeRun s = .error r) :
    raises .decSym s r.kind r.info ∧ raises .decode s r.kind r.info :=
  ⟨(execDecSym_cases rfl).raises rfl rfl rfl h.1, (execDecode_cases rfl).raises rfl rfl rfl h.2⟩

theorem getByte_partial (h : s.reader.left ≠ 0) : raises .getByte s .sequence 5 := by
  have e : exec .getByte s = .next (raisedState spoilGetByte s { kind := .sequence, info := 5 }) := by
    simp only [exec, execGetByte, requireReaderAligned_no h, run_error_bind, conclude_error]
  exact raises_of_raisedState e rfl rfl

theorem hdrRead_partial (h : s.reader.left ≠ 0) : raises .hdrRead s .sequence 5 := by
  have e : exec .hdrRead s =
      .next (raisedState (spoilHdrRead (hdrReadSymbols s)) s { kind := .sequence, info := 5 }) := by
    simp only [exec, execHdrRead, requireReaderAligned_no h, run_error_bind, conclude_error]
  exact raises_of_raisedState e rfl rfl

end RequiresChecks

/-- Settles O27: in each command the first check that fails is what raises. -/
theorem sequenceErrors : Obligations.SequenceErrors := fun _ =>
  ⟨walk_without_tree,
    fun h => ⟨fun sym => encSym_without_codes sym h, encScan_without_codes h, hdrWrite_without_codes h,
      trieBuild_without_codes h⟩,
    fun h => decoding_raises (decoding_without_trie h),
    fun hc => ⟨fun b => putByte_partial b hc, fun hf => hdrWrite_partial hf hc,
      fun hf => decoding_raises (decoding_partial hf hc)⟩,
    fun h => ⟨getByte_partial h, hdrRead_partial h⟩⟩

/-! ### Output already written (60_exceptions.md R134; 20_memory.md R46) -/

/-- Settles O24: only the output and decoding commands write OBUF, from OUT_LEN on, and CLEAR keeps all of it. -/
theorem commandsKeepOutput : Obligations.CommandsKeepOutput := by
  intro i s t hinv e
  obtain ⟨hinc, hscan, hbuild⟩ := treeBuilderFrame
  have of_writer (hw : t.writer = s.writer) : ∀ k, k < s.writer.outLen.toNat →
      obufRead t.writer.obuf k = obufRead s.writer.obuf k := fun _ _ => by rw [hw]
  cases i with
  | nop => exact of_writer (by rw [execNop_cases e])
  | clear => rw [execClear_cases e]; exact fun _ _ => rfl
  | freqInc sym => exact of_writer (congrArg State.writer (hinc s t sym e).1 :)
  | freqScan => exact of_writer (congrArg State.writer (hscan s t e).1 :)
  | build => exact of_writer (congrArg State.writer (hbuild s t e).1 :)
  | walk => exact of_writer (congrArg State.writer (walk_frame e).1 :)
  | canon => exact of_writer (congrArg State.writer (canon_frame e).1 :)
  | getBits n => exact of_writer (congrArg State.writer (getBits_frame e) :)
  | getByte => exact of_writer (congrArg State.writer (getByte_frame e).1 :)
  | hdrRead => exact of_writer (congrArg State.writer (hdrRead_frame e).1 :)
  | trieBuild => exact of_writer (congrArg State.writer (trieBuild_frame e).1 :)
  | decSym => exact (decSym_kept hinv.writerInv e).obuf.below
  | decode => exact (decode_kept hinv e).obuf.below
  | putBits | putByte | flush | encSym | encScan | hdrWrite =>
    exact (output_kept hinv.writerInv (by simp [outputCommand]) e).below

/-! ### A command behind a dropped host write (60_exceptions.md R139) -/

/-- The state with a record in the error registers and the reply to the write on the bus. -/
def withRecord (e : ErrRegs) (b : BusReply) (s : State) : State := { s with errs := e, bus := b }

/-- An outcome with its next state changed. -/
def mapNext (f : State → State) : Host.Outcome State Fault Refusal → Host.Outcome State Fault Refusal
  | .next t => .next (f t)
  | .fault x => .fault x
  | .refused r => .refused r

section Recorded

variable {e : ErrRegs} {b : BusReply} {spoil : Nat → State → State} {s : State}

/-- A computation that goes on the same way but for the state it gives. -/
theorem bind_map_state {ε α : Type} {f g : α → Except ε State} {h : State → State} (m : Except ε α)
    (hfg : ∀ x, g x = (f x).map h) : (m >>= g) = (m >>= f).map h := by
  cases m with
  | error r => rfl
  | ok x => exact hfg x

/-- Only the first error is recorded (60_exceptions.md R133, R137). -/
theorem enterError_later (r : Raise) (h : s.errs.err ≠ .none) : enterError r s = s := by
  rw [enterError, recordError, if_neg h]

theorem withRecord_enterError (r : Raise) : withRecord e b (enterError r s) = withRecord e b s := by
  rw [enterError_eq]
  rfl

/-- A raise beside a recorded error is the raise without it, with its own record overwritten. -/
theorem raisedState_withRecord (he : e.err ≠ .none)
    (hs : spoil s.draws (withRecord e b s) = withRecord e b (spoil s.draws s)) (r : Raise) :
    raisedState spoil (withRecord e b s) r = withRecord e b (raisedState spoil s r) := by
  have hspoiled : { spoil s.draws (withRecord e b s) with draws := s.draws + 1 } =
      withRecord e b { spoil s.draws s with draws := s.draws + 1 } := by
    rw [hs]
    rfl
  calc raisedState spoil (withRecord e b s) r
      = enterError r (withRecord e b { spoil s.draws s with draws := s.draws + 1 }) := congrArg (enterError r) hspoiled
    _ = withRecord e b { spoil s.draws s with draws := s.draws + 1 } := enterError_later r he
    _ = withRecord e b (raisedState spoil s r) := (withRecord_enterError r).symm

theorem conclude_withRecord {run run' : Run State} (he : e.err ≠ .none)
    (hs : spoil s.draws (withRecord e b s) = withRecord e b (spoil s.draws s)) (hr : run' = run.map (withRecord e b)) :
    conclude spoil (withRecord e b s) run' = withRecord e b (conclude spoil s run) := by
  subst hr
  cases run with
  | ok t => rfl
  | error r => exact raisedState_withRecord he hs r

theorem concludeOrFault_withRecord {run run' : Except Stop State} (he : e.err ≠ .none)
    (hs : spoil s.draws (withRecord e b s) = withRecord e b (spoil s.draws s)) (hr : run' = run.map (withRecord e b)) :
    concludeOrFault spoil (withRecord e b s) run' = mapNext (withRecord e b) (concludeOrFault spoil s run) := by
  subst hr
  match run with
  | .ok t => rfl
  | .error (.raising r) => exact congrArg Host.Outcome.next (raisedState_withRecord he hs r)
  | .error (.broken x) => rfl

/-- No command but CLEAR reads or writes the reply on the bus, or the error registers once they hold an error. -/
theorem exec_withRecord {i : Instr} (hc : i ≠ .clear) (he : e.err ≠ .none) :
    exec i (withRecord e b s) = mapNext (withRecord e b) (exec i s) := by
  cases i with
  | nop => rfl
  | clear => exact absurd rfl hc
  | walk =>
    exact concludeOrFault_withRecord he rfl (bind_map_state _ fun _ => bind_map_state _ fun _ => rfl)
  | trieBuild =>
    exact concludeOrFault_withRecord he rfl (bind_map_state _ fun _ => bind_map_state _ fun _ => rfl)
  | freqInc | freqScan | build | canon | putBits | flush | getBits =>
    exact congrArg Host.Outcome.next (conclude_withRecord he rfl (bind_map_state _ fun _ => rfl))
  | putByte | encSym | encScan | getByte | hdrRead =>
    exact congrArg Host.Outcome.next
      (conclude_withRecord he rfl (bind_map_state _ fun _ => bind_map_state _ fun _ => rfl))
  | hdrWrite | decSym | decode =>
    exact congrArg Host.Outcome.next
      (conclude_withRecord he rfl (bind_map_state _ fun _ => bind_map_state _ fun _ => bind_map_state _ fun _ => rfl))

end Recorded

/-- Settles O7: the write is dropped but for its record, and the command runs beside any record. -/
theorem busyWritesAreDropped : Obligations.BusyWritesAreDropped := by
  intro s a w hv
  have hwrite := hostWrite_busy a w hv
  refine ⟨hwrite, fun i t hc h => ?_⟩
  have he : (hostWrite a w s).errs.err ≠ .none := by
    rw [hwrite]
    split
    · nofun
    · assumption
  have hs : hostWrite a w s = withRecord (hostWrite a w s).errs .acked s := by rw [hwrite]; rfl
  refine ⟨withRecord (hostWrite a w s).errs .acked t, ?_, rfl, he, rfl⟩
  rw [hs, exec_withRecord hc he, h]
  rfl

end Sys2Proof.Machine

namespace Sys2Proof.Machine

/-! ### Every command answers (70_reset_and_hazards.md R162) -/

section Answers

variable {s : State}

/-- F_TREE promises the tree that BUILD makes, and a walk over that tree ends (40_tree_builder.md R82). -/
theorem walk_answers (hc : s.Current) : ∃ t, exec .walk s = .next t := by
  cases hf : s.flags.tree with
  | false =>
    obtain ⟨t, ht, -⟩ := walk_without_tree hf
    exact ⟨t, ht⟩
  | true =>
    match hl : treeLengths s.cfg.maxCodeLen s.tree with
    | .ok len => exact ⟨_, execWalk_of_ok hf hl⟩
    | .error (.raising r) => exact ⟨_, execWalk_of_raise hf hl⟩
    | .error (.broken f) => exact absurd hl (walk_goes_on (hc.tree hf))

/-- F_CODES promises the table that CANON builds, and the trie of that table fits the arena
(43_decoder_trie_walker.md R122). -/
theorem trieBuild_answers (hi : s.Inv) (hc : s.Current) : ∃ t, exec .trieBuild s = .next t := by
  cases hf : s.flags.codes with
  | false =>
    obtain ⟨t, ht, -⟩ := trieBuild_without_codes hf
    exact ⟨t, ht⟩
  | true =>
    obtain ⟨t, ht, -⟩ := trieHoldsTheCodes s hi hc hf
    exact ⟨t, ht⟩

end Answers

/-- Settles O21: WALK and TRIE_BUILD on the tables that their flags promise; no other command's meaning has a fault. -/
theorem commandsCompleteOrRaise : Obligations.CommandsCompleteOrRaise := by
  intro i s h
  cases i with
  | walk => exact walk_answers (h (.inl rfl)).2
  | trieBuild => exact trieBuild_answers (h (.inr rfl)).1 (h (.inr rfl)).2
  | _ => exact ⟨_, rfl⟩

/-! ### The step -/

/-- The sequencer is idle, or an illegal word raises, or the pending command answers (60_exceptions.md R128, R148). -/
theorem sequencerStep_answers {s : State} (hi : s.Inv) (hc : s.Current) : ∃ t, sequencerStep s = .next t := by
  cases hv : s.pend.valid with
  | false => exact ⟨s, sequencerStep_idle hv⟩
  | true =>
    cases hd : decode s.pend.word with
    | error e => exact ⟨_, sequencerStep_illegal (by rw [← hv]) hd⟩
    | ok i =>
      obtain ⟨t, ht⟩ := commandsCompleteOrRaise i s fun _ => ⟨hi, hc⟩
      exact ⟨endCommand t, by rw [sequencerStep_pending hv hd, ht]; rfl⟩

section Events

variable {s : State} {rest : List HostEvent}

theorem step_of_access {a : BusAccess} (hs : s.script = .access a :: rest) :
    step s = .next (hostAccess a (beginEvent rest s)) := by
  simp only [step, hs, runEvent]

theorem step_of_resetEdge {presented : Option BusAccess} (hs : s.script = .resetEdge presented :: rest) :
    step s = .next (resetEdge presented (beginEvent rest s)) := by
  simp only [step, hs, runEvent]

end Events

/-- Settles O20: an access and a reset edge always answer, and the sequencer does in every state with the invariants,
which the beginning of the event keeps. -/
theorem stepNeverStops : Obligations.StepNeverStops := by
  intro s hi hc
  have sequencer : ∀ rest, ∃ t, sequencerStep (beginEvent rest s) = .next t := fun rest =>
    sequencerStep_answers (hi.of_state rfl) (hc.of_tables rfl)
  cases hs : s.script with
  | nil => rw [goesOn, step_of_script_end hs]; exact sequencer []
  | cons e rest =>
    cases e with
    | access a => exact ⟨_, step_of_access hs⟩
    | complete => rw [goesOn, step_of_complete hs]; exact sequencer rest
    | resetEdge presented => exact ⟨_, step_of_resetEdge hs⟩

/-! ### Reset (70_reset_and_hazards.md R149 to R151) -/

section ResetValues

variable (c : Config) (d n : Nat)

@[simp] theorem symGet_resetOf_freq (x : Byte) : symGet (State.resetOf c d n).freq x = 0 := symGet_tblOf (fun _ => 0) x

@[simp] theorem symGet_resetOf_len (x : Byte) : symGet (State.resetOf c d n).len x = 0 := symGet_tblOf (fun _ => 0) x

@[simp] theorem resetOf_hist_zero : symGet (State.resetOf c d n).canon.hist 0 = 0 := symGet_tblOf (freeHist d) 0

theorem statusWord_resetOf : statusWord (State.resetOf c d n) = 0 := BitVec.eq_of_toNat_eq (statusWord_toNat _)

theorem packWord_resetOf : packWord (State.resetOf c d n) = 0 := BitVec.eq_of_toNat_eq (packWord_toNat _)

theorem resetOf_current : (State.resetOf c d n).Current := .of_noFlags rfl

end ResetValues

/-- Settles O15: the registers as `State.resetOf` lists them, the tables entry by entry. -/
theorem resetValues : Obligations.ResetValues := by
  intro c d n
  have htables : ∀ x, symGet (State.resetOf c d n).freq x = 0 ∧ symGet (State.resetOf c d n).len x = 0 := fun x =>
    ⟨symGet_resetOf_freq c d n x, symGet_resetOf_len c d n x⟩
  exact ⟨rfl, rfl, rfl, rfl, rfl, rfl, rfl, rfl, rfl, rfl, rfl, rfl, rfl, rfl, rfl, rfl, rfl, rfl, rfl, htables,
    resetOf_hist_zero c d n, statusWord_resetOf c d n, packWord_resetOf c d n, rfl, rfl, rfl⟩

/-- Settles O16: the state of the reset edge beside the state that CLEAR leaves. -/
theorem resetAndClearDifferOnlyInArgAndInLen : Obligations.ResetAndClearDifferOnlyInArgAndInLen := by
  intro s presented rest hs
  refine ⟨_, _, step_of_resetEdge hs, exec_clear s, rfl, rfl, rfl, clearedState_arg s, clearedState_input s,
    clearedState_pend s, ?_⟩
  exact ⟨rfl, rfl, rfl, rfl, rfl, rfl, rfl, rfl, rfl, rfl, rfl, rfl, rfl, rfl, rfl, rfl⟩

/-- The parameters of `State.reset` are in their ranges (00_scope.md R7). -/
theorem chosen_wf : Config.chosen.wf = true := by decide

/-- Settles O17: the registers and buffers by `resetOf_inv`, and with every flag 0 nothing is promised of the tables. -/
theorem invariantsHoldAtReset : Obligations.InvariantsHoldAtReset :=
  ⟨fun c d n hc => ⟨resetOf_inv hc d n, resetOf_current c d n⟩, resetOf_inv chosen_wf 0 1,
    resetOf_current Config.chosen 0 1⟩

end Sys2Proof.Machine
